-- ==== Sys2Proof/Word.lean ====
section
/-! DEFINITION. The word types of the KV9. -/

namespace Sys2Proof

/-- A byte of memory. -/
abbrev Byte := BitVec 8

/-- A 32-bit per-thread register value or literal word. -/
abbrev Word := BitVec 32

/-- A 64-bit uniform register value. -/
abbrev DWord := BitVec 64

/-- A 128-bit mask, or the bits of a capability. -/
abbrev QWord := BitVec 128

end Sys2Proof
end

