-- ==== Sys2Proof/Syntax.lean ====
section
/-! DEFINITION. The syntax of the KV9: operands as the encoding tables of spec/04_encoding.md name them, and `Instr`,
one constructor per row of spec/opcode_table.json (the encoded instructions first, then the events of the part). -/

namespace Sys2Proof

/-- A per-thread register number (R89): `v`, `o`, `y`, `z`, `tid` or a queue port. -/
inductive PReg where
  | v (n : Fin 96)
  | o (n : Fin 8)
  | y (n : Fin 2)
  | z
  | tid
  | q (n : Fin 8)
  deriving DecidableEq, Repr

/-- A per-thread source: a register, or the literal word that replaces it (R85). -/
inductive Src where
  | reg (r : PReg)
  | lit (w : Word)
  deriving DecidableEq, Repr

/-- A uniform integer register field (R89, R121): `s0` to `s63`, or `z`. -/
inductive SReg where
  | s (n : Fin 64)
  | z
  deriving DecidableEq, Repr

/-- A uniform integer source: a register, or the literal that replaces it, sign-extended to 64 bits (R85). -/
inductive USrc where
  | reg (r : SReg)
  | lit (w : Word)
  deriving DecidableEq, Repr

/-- A source that is an `s` register or a literal and never `z` (SLEEP, QPORT, TCFG, BATCH and CHAIN entries). -/
inductive SSrc where
  | reg (n : Fin 64)
  | lit (w : Word)
  deriving DecidableEq, Repr

/-- The SZ field of format M (R84). -/
inductive Size where
  | byte | half | word | dword
  deriving DecidableEq, Repr

/-- The scope codes 0 to 10 of R86. -/
inductive Scope where
  | thread | warp | file | core | slice | cluster | device | host | pool | domain | system
  deriving DecidableEq, Repr

/-- The fence kinds of R87. -/
inductive FenceKind where
  | acq | rel | ar | sc | un
  deriving DecidableEq, Repr

/-- The atomic operations of R195. -/
inductive AtomOp where
  | swap | cas | add | and | or | xor | minI | maxI | minN | maxN | fadd | fmin | fmax
  deriving DecidableEq, Repr

/-- Operation codes of WREDF and WSCANF (R148). -/
inductive RedF where
  | sum | max | min
  deriving DecidableEq, Repr

/-- Operation codes of WREDI and WSCANI (R148). -/
inductive RedI where
  | add | minI | maxI | minN | maxN | and | or | xor
  deriving DecidableEq, Repr

/-- Operation codes of VOTE (R148). -/
inductive VoteOp where
  | all | any | uni | count
  deriving DecidableEq, Repr

/-- Operation codes of MATCH (R148). -/
inductive MatchOp where
  | leader | count | rank
  deriving DecidableEq, Repr

/-- The modes of QBIND (R205). -/
inductive QMode where
  | recv | send | rng
  deriving DecidableEq, Repr

/-- The level codes of the BAR functions (R177). -/
inductive BarLevel where
  | file | core | slice | cluster
  deriving DecidableEq, Repr

/-- The target of a relative transfer (R85): the OFF field, in halfwords, or a literal byte offset. -/
inductive Target where
  | off (n : BitVec 17)
  | lit (w : Word)
  deriving DecidableEq, Repr

/-- The instructions of the KV9 and the events of the part: one constructor per row of the opcode table. -/
inductive Instr where
  /-- COMPACT_IADD (R82). -/
  | compactIadd (d : PReg) (b : PReg)
  /-- COMPACT_ISUB (R82). -/
  | compactIsub (d : PReg) (b : PReg)
  /-- COMPACT_AND (R82). -/
  | compactAnd (d : PReg) (b : PReg)
  /-- COMPACT_OR (R82). -/
  | compactOr (d : PReg) (b : PReg)
  /-- COMPACT_XOR (R82). -/
  | compactXor (d : PReg) (b : PReg)
  /-- COMPACT_SHL (R82). -/
  | compactShl (d : PReg) (b : PReg)
  /-- COMPACT_SHR (R82). -/
  | compactShr (d : PReg) (b : PReg)
  /-- COMPACT_MOV (R82). -/
  | compactMov (d : PReg) (b : PReg)
  /-- COMPACT_FADD (R82). -/
  | compactFadd (d : PReg) (b : PReg)
  /-- COMPACT_FFMA (R82). -/
  | compactFfma (d : PReg) (b : PReg)
  /-- COMPACT_FMUL (R82). -/
  | compactFmul (d : PReg) (b : PReg)
  /-- COMPACT_FMAX (R82). -/
  | compactFmax (d : PReg) (b : PReg)
  /-- COMPACT_FMIN (R82). -/
  | compactFmin (d : PReg) (b : PReg)
  /-- COMPACT_IMUL (R82). -/
  | compactImul (d : PReg) (b : PReg)
  /-- COMPACT_HADD2 (R82). -/
  | compactHadd2 (d : PReg) (b : PReg)
  /-- COMPACT_MOVI (R82). -/
  | compactMovi (d : PReg) (n : BitVec 5)
  /-- IADD (R114). -/
  | iadd (d : PReg) (a : PReg) (b : Src)
  /-- ISUB (R114). -/
  | isub (d : PReg) (a : PReg) (b : Src)
  /-- IMUL (R114). -/
  | imul (d : PReg) (a : PReg) (b : Src)
  /-- IMULH_I (R114). -/
  | imulhI (d : PReg) (a : PReg) (b : Src)
  /-- IMULH_N (R114). -/
  | imulhN (d : PReg) (a : PReg) (b : Src)
  /-- IADDS_I (R114). -/
  | iaddsI (d : PReg) (a : PReg) (b : Src)
  /-- IADDS_N (R114). -/
  | iaddsN (d : PReg) (a : PReg) (b : Src)
  /-- IABSD (R114). -/
  | iabsd (d : PReg) (a : PReg) (b : Src)
  /-- IMIN_I (R115). -/
  | iminI (d : PReg) (a : PReg) (b : Src)
  /-- IMIN_N (R115). -/
  | iminN (d : PReg) (a : PReg) (b : Src)
  /-- IMAX_I (R115). -/
  | imaxI (d : PReg) (a : PReg) (b : Src)
  /-- IMAX_N (R115). -/
  | imaxN (d : PReg) (a : PReg) (b : Src)
  /-- IDIV_I (R115). -/
  | idivI (d : PReg) (a : PReg) (b : Src)
  /-- IDIV_N (R115). -/
  | idivN (d : PReg) (a : PReg) (b : Src)
  /-- IREM_I (R115). -/
  | iremI (d : PReg) (a : PReg) (b : Src)
  /-- IREM_N (R115). -/
  | iremN (d : PReg) (a : PReg) (b : Src)
  /-- AND (R116). -/
  | and (d : PReg) (a : PReg) (b : Src)
  /-- OR (R116). -/
  | or (d : PReg) (a : PReg) (b : Src)
  /-- XOR (R116). -/
  | xor (d : PReg) (a : PReg) (b : Src)
  /-- ANDN (R116). -/
  | andn (d : PReg) (a : PReg) (b : Src)
  /-- SHL (R116). -/
  | shl (d : PReg) (a : PReg) (b : Src)
  /-- SHR (R116). -/
  | shr (d : PReg) (a : PReg) (b : Src)
  /-- SAR (R116). -/
  | sar (d : PReg) (a : PReg) (b : Src)
  /-- ROL (R116). -/
  | rol (d : PReg) (a : PReg) (b : Src)
  /-- POPC (R117). -/
  | popc (d : PReg) (a : PReg)
  /-- CLZ (R117). -/
  | clz (d : PReg) (a : PReg)
  /-- BREV (R117). -/
  | brev (d : PReg) (a : PReg)
  /-- BFX_I (R117). -/
  | bfxI (d : PReg) (a : PReg) (b : Src)
  /-- BFX_N (R117). -/
  | bfxN (d : PReg) (a : PReg) (b : Src)
  /-- BFI (R117). -/
  | bfi (d : PReg) (a : PReg) (b : Src)
  /-- PERMB (R117). -/
  | permb (d : PReg) (a : PReg) (b : Src)
  /-- MOV (R117). -/
  | mov (d : PReg) (b : Src)
  /-- IMAD (R118). -/
  | imad (d : PReg) (a : PReg) (b : Src)
  /-- IMADW (R118). -/
  | imadw (d : PReg) (a : PReg) (b : Src)
  /-- ISEL (R118). -/
  | isel (d : PReg) (a : PReg) (b : Src)
  /-- LEA (R118). -/
  | lea (d : PReg) (a : PReg) (b : Src)
  /-- ICMP_EQ (R119). -/
  | icmpEq (m : Fin 16) (a : PReg) (b : Src)
  /-- ICMP_NE (R119). -/
  | icmpNe (m : Fin 16) (a : PReg) (b : Src)
  /-- ICMP_LT_I (R119). -/
  | icmpLtI (m : Fin 16) (a : PReg) (b : Src)
  /-- ICMP_LE_I (R119). -/
  | icmpLeI (m : Fin 16) (a : PReg) (b : Src)
  /-- ICMP_LT_N (R119). -/
  | icmpLtN (m : Fin 16) (a : PReg) (b : Src)
  /-- ICMP_LE_N (R119). -/
  | icmpLeN (m : Fin 16) (a : PReg) (b : Src)
  /-- ICMP_TEST (R119). -/
  | icmpTest (m : Fin 16) (a : PReg) (b : Src)
  /-- ICMP_NTEST (R119). -/
  | icmpNtest (m : Fin 16) (a : PReg) (b : Src)
  /-- CAPADD (R125). -/
  | capadd (d : Fin 16) (a : Fin 16) (b : Src)
  /-- CAPSET (R125). -/
  | capset (d : Fin 16) (a : Fin 16) (b : Src)
  /-- CAPNAR (R126). -/
  | capnar (d : Fin 16) (a : Fin 16) (b : Src)
  /-- CAPRM (R125). -/
  | caprm (d : Fin 16) (a : Fin 16) (b : Src)
  /-- CAPGET (R127). -/
  | capget (d : PReg) (a : Fin 16) (b : Src)
  /-- CAPCHK (R128). -/
  | capchk (d : PReg) (a : Fin 16) (b : Src)
  /-- CAPMOV (R129). -/
  | capmov (d : Fin 16) (a : Fin 16)
  /-- CAPLEN (R125). -/
  | caplen (d : PReg) (a : Fin 16)
  /-- UARITH_IADD (R120). -/
  | uarithIadd (d : SReg) (a : SReg) (b : USrc)
  /-- UARITH_ISUB (R120). -/
  | uarithIsub (d : SReg) (a : SReg) (b : USrc)
  /-- UARITH_IMUL (R120). -/
  | uarithImul (d : SReg) (a : SReg) (b : USrc)
  /-- UARITH_IMULH_I (R120). -/
  | uarithImulhI (d : SReg) (a : SReg) (b : USrc)
  /-- UARITH_IMULH_N (R120). -/
  | uarithImulhN (d : SReg) (a : SReg) (b : USrc)
  /-- UARITH_IADDS_I (R120). -/
  | uarithIaddsI (d : SReg) (a : SReg) (b : USrc)
  /-- UARITH_IADDS_N (R120). -/
  | uarithIaddsN (d : SReg) (a : SReg) (b : USrc)
  /-- UARITH_IABSD (R120). -/
  | uarithIabsd (d : SReg) (a : SReg) (b : USrc)
  /-- UMINMAX_IMIN_I (R120). -/
  | uminmaxIminI (d : SReg) (a : SReg) (b : USrc)
  /-- UMINMAX_IMIN_N (R120). -/
  | uminmaxIminN (d : SReg) (a : SReg) (b : USrc)
  /-- UMINMAX_IMAX_I (R120). -/
  | uminmaxImaxI (d : SReg) (a : SReg) (b : USrc)
  /-- UMINMAX_IMAX_N (R120). -/
  | uminmaxImaxN (d : SReg) (a : SReg) (b : USrc)
  /-- UMINMAX_IDIV_I (R120). -/
  | uminmaxIdivI (d : SReg) (a : SReg) (b : USrc)
  /-- UMINMAX_IDIV_N (R120). -/
  | uminmaxIdivN (d : SReg) (a : SReg) (b : USrc)
  /-- UMINMAX_IREM_I (R120). -/
  | uminmaxIremI (d : SReg) (a : SReg) (b : USrc)
  /-- UMINMAX_IREM_N (R120). -/
  | uminmaxIremN (d : SReg) (a : SReg) (b : USrc)
  /-- ULOGIC_AND (R120). -/
  | ulogicAnd (d : SReg) (a : SReg) (b : USrc)
  /-- ULOGIC_OR (R120). -/
  | ulogicOr (d : SReg) (a : SReg) (b : USrc)
  /-- ULOGIC_XOR (R120). -/
  | ulogicXor (d : SReg) (a : SReg) (b : USrc)
  /-- ULOGIC_ANDN (R120). -/
  | ulogicAndn (d : SReg) (a : SReg) (b : USrc)
  /-- ULOGIC_SHL (R120). -/
  | ulogicShl (d : SReg) (a : SReg) (b : USrc)
  /-- ULOGIC_SHR (R120). -/
  | ulogicShr (d : SReg) (a : SReg) (b : USrc)
  /-- ULOGIC_SAR (R120). -/
  | ulogicSar (d : SReg) (a : SReg) (b : USrc)
  /-- ULOGIC_ROL (R120). -/
  | ulogicRol (d : SReg) (a : SReg) (b : USrc)
  /-- UBITS_POPC (R120). -/
  | ubitsPopc (d : SReg) (a : SReg)
  /-- UBITS_CLZ (R120). -/
  | ubitsClz (d : SReg) (a : SReg)
  /-- UBITS_BREV (R120). -/
  | ubitsBrev (d : SReg) (a : SReg)
  /-- UBITS_BFX_I (R120). -/
  | ubitsBfxI (d : SReg) (a : SReg) (b : USrc)
  /-- UBITS_BFX_N (R120). -/
  | ubitsBfxN (d : SReg) (a : SReg) (b : USrc)
  /-- UBITS_BFI (R120). -/
  | ubitsBfi (d : SReg) (a : SReg) (b : USrc)
  /-- UBITS_PERMB (R120). -/
  | ubitsPermb (d : SReg) (a : SReg) (b : USrc)
  /-- UBITS_MOV (R120). -/
  | ubitsMov (d : SReg) (b : USrc)
  /-- UCMP_EQ (R119). -/
  | ucmpEq (d : SReg) (a : SReg) (b : USrc)
  /-- UCMP_NE (R119). -/
  | ucmpNe (d : SReg) (a : SReg) (b : USrc)
  /-- UCMP_LT_I (R119). -/
  | ucmpLtI (d : SReg) (a : SReg) (b : USrc)
  /-- UCMP_LE_I (R119). -/
  | ucmpLeI (d : SReg) (a : SReg) (b : USrc)
  /-- UCMP_LT_N (R119). -/
  | ucmpLtN (d : SReg) (a : SReg) (b : USrc)
  /-- UCMP_LE_N (R119). -/
  | ucmpLeN (d : SReg) (a : SReg) (b : USrc)
  /-- UCMP_TEST (R119). -/
  | ucmpTest (d : SReg) (a : SReg) (b : USrc)
  /-- UCMP_NTEST (R119). -/
  | ucmpNtest (d : SReg) (a : SReg) (b : USrc)
  /-- MOVS (R123). -/
  | movs (d : PReg) (a : SReg)
  /-- UREADF (R123). -/
  | ureadf (d : Fin 64) (a : PReg)
  /-- MPOP (R123). -/
  | mpop (d : Fin 64) (a : Fin 16)
  /-- MFIND (R123). -/
  | mfind (d : Fin 64) (a : Fin 16) (b : USrc)
  /-- MAND (R123). -/
  | mand (d : Fin 16) (a : Fin 16) (b : Fin 16)
  /-- MOR (R123). -/
  | mor (d : Fin 16) (a : Fin 16) (b : Fin 16)
  /-- MXOR (R123). -/
  | mxor (d : Fin 16) (a : Fin 16) (b : Fin 16)
  /-- FADD (R135). -/
  | fadd (d : PReg) (a : PReg) (b : Src)
  /-- FSUB (R135). -/
  | fsub (d : PReg) (a : PReg) (b : Src)
  /-- FMUL (R135). -/
  | fmul (d : PReg) (a : PReg) (b : Src)
  /-- FFMA (R135). -/
  | ffma (d : PReg) (a : PReg) (b : Src)
  /-- FMIN (R136). -/
  | fmin (d : PReg) (a : PReg) (b : Src)
  /-- FMAX (R136). -/
  | fmax (d : PReg) (a : PReg) (b : Src)
  /-- FSCALE (R135). -/
  | fscale (d : PReg) (a : PReg) (b : Src)
  /-- FCOPYS (R135). -/
  | fcopys (d : PReg) (a : PReg) (b : Src)
  /-- FCMP_EQ (R137). -/
  | fcmpEq (m : Fin 16) (a : PReg) (b : Src)
  /-- FCMP_NE (R137). -/
  | fcmpNe (m : Fin 16) (a : PReg) (b : Src)
  /-- FCMP_LT (R137). -/
  | fcmpLt (m : Fin 16) (a : PReg) (b : Src)
  /-- FCMP_LE (R137). -/
  | fcmpLe (m : Fin 16) (a : PReg) (b : Src)
  /-- FCMP_UNORD (R137). -/
  | fcmpUnord (m : Fin 16) (a : PReg) (b : Src)
  /-- FCMP_ORD (R137). -/
  | fcmpOrd (m : Fin 16) (a : PReg) (b : Src)
  /-- FCMP_ISNAN (R137). -/
  | fcmpIsnan (m : Fin 16) (a : PReg)
  /-- FCMP_ISINF (R137). -/
  | fcmpIsinf (m : Fin 16) (a : PReg)
  /-- FRCP (R138). -/
  | frcp (d : PReg) (a : PReg)
  /-- FRSQ (R138). -/
  | frsq (d : PReg) (a : PReg)
  /-- FSQRT (R138). -/
  | fsqrt (d : PReg) (a : PReg)
  /-- FEXP2 (R138). -/
  | fexp2 (d : PReg) (a : PReg)
  /-- FLOG2 (R138). -/
  | flog2 (d : PReg) (a : PReg)
  /-- FTANH (R138). -/
  | ftanh (d : PReg) (a : PReg)
  /-- FDIV (R138). -/
  | fdiv (d : PReg) (a : PReg) (b : Src)
  /-- FRINT (R138). -/
  | frint (d : PReg) (a : PReg)
  /-- HADD2 (R140). -/
  | hadd2 (d : PReg) (a : PReg) (b : Src)
  /-- HSUB2 (R140). -/
  | hsub2 (d : PReg) (a : PReg) (b : Src)
  /-- HMUL2 (R140). -/
  | hmul2 (d : PReg) (a : PReg) (b : Src)
  /-- HFMA2 (R140). -/
  | hfma2 (d : PReg) (a : PReg) (b : Src)
  /-- HMIN2 (R140). -/
  | hmin2 (d : PReg) (a : PReg) (b : Src)
  /-- HMAX2 (R140). -/
  | hmax2 (d : PReg) (a : PReg) (b : Src)
  /-- DOT2 (R141). -/
  | dot2 (d : PReg) (a : PReg) (b : Src)
  /-- BADD2 (R140). -/
  | badd2 (d : PReg) (a : PReg) (b : Src)
  /-- BSUB2 (R140). -/
  | bsub2 (d : PReg) (a : PReg) (b : Src)
  /-- BMUL2 (R140). -/
  | bmul2 (d : PReg) (a : PReg) (b : Src)
  /-- BFMA2 (R140). -/
  | bfma2 (d : PReg) (a : PReg) (b : Src)
  /-- BMIN2 (R140). -/
  | bmin2 (d : PReg) (a : PReg) (b : Src)
  /-- BMAX2 (R140). -/
  | bmax2 (d : PReg) (a : PReg) (b : Src)
  /-- BDOT2 (R141). -/
  | bdot2 (d : PReg) (a : PReg) (b : Src)
  /-- CVT (R144). -/
  | cvt (d : PReg) (a : PReg) (b : Src)
  /-- CVPACK (R144). -/
  | cvpack (d : PReg) (a : PReg) (b : Src)
  /-- CVUNPK (R144). -/
  | cvunpk (d : PReg) (a : PReg) (b : Src)
  /-- CVI (R144). -/
  | cvi (d : PReg) (a : PReg) (b : Src)
  /-- CVSAT (R144). -/
  | cvsat (d : PReg) (a : PReg) (b : Src)
  /-- SHFL (R147). -/
  | shfl (d : PReg) (a : PReg) (b : Src)
  /-- SHFLX (R147). -/
  | shflx (d : PReg) (a : PReg) (b : Src)
  /-- WREDF (R149). -/
  | wredf (op : RedF) (d : PReg) (a : PReg)
  /-- WREDI (R149). -/
  | wredi (op : RedI) (d : PReg) (a : PReg)
  /-- WSCANF (R149). -/
  | wscanf (op : RedF) (excl : Bool) (d : PReg) (a : PReg)
  /-- WSCANI (R149). -/
  | wscani (op : RedI) (excl : Bool) (d : PReg) (a : PReg)
  /-- VOTE (R150). -/
  | vote (op : VoteOp) (d : PReg) (a : PReg)
  /-- MATCH (R150). -/
  | matchT (op : MatchOp) (d : PReg) (a : PReg)
  /-- SLEEP (R156). -/
  | sleep (n : SSrc)
  /-- TRAP (R158). -/
  | trap (lit : Option (BitVec 32))
  /-- BRA (R164). -/
  | bra (a : Option (Fin 16)) (t : Target)
  /-- BRV (R164). -/
  | brv (a : PReg) (t : Target)
  /-- BRU (R164). -/
  | bru (a : SReg) (t : Target)
  /-- CALL (R164). -/
  | call (a : Option (Fin 16)) (t : Target)
  /-- CALLI (R165). -/
  | calli (a : PReg) (lit : Option (BitVec 32))
  /-- JOIN (R167). -/
  | join (a : Fin 16)
  /-- ELECT (R170). -/
  | elect (d : Fin 64) (a : Option (Fin 16))
  /-- BRI (R165). -/
  | bri (a : PReg) (lit : Option (BitVec 32))
  /-- RGNENT (R171). -/
  | rgnent (d : PReg)
  /-- MONUMENT (R172). -/
  | monument (n : BitVec 12)
  /-- RDCTL (R174). -/
  | rdctl (d : PReg) (c : BitVec 12)
  /-- WRCTL (R174). -/
  | wrctl (c : BitVec 12) (a : Src)
  /-- RDCYC (R175). -/
  | rdcyc (d : PReg)
  /-- RDCYC_TIME (R175). -/
  | rdcycTime (d : PReg)
  /-- RDWT (R175). -/
  | rdwt (d : PReg)
  /-- WTARM (R176). -/
  | wtarm (a : Src)
  /-- BARARR (R178). -/
  | bararr (d : Fin 64) (lv : BarLevel)
  /-- BARWAIT (R178). -/
  | barwait (lv : BarLevel) (a : Fin 64)
  /-- BARQRY (R178). -/
  | barqry (d : Fin 64) (lv : BarLevel)
  /-- LD (R189). -/
  | ld (la : Fin 16) (sz : Size) (c : Fin 16) (a : PReg) (d : PReg) (disp : Option (BitVec 32))
  /-- LDX (R189). -/
  | ldx (la : Fin 16) (sz : Size) (c : Fin 16) (a : PReg) (d : PReg) (disp : Option (BitVec 32))
  /-- LDQ (R189). -/
  | ldq (la : Fin 16) (c : Fin 16) (a : PReg) (d : PReg) (disp : Option (BitVec 32))
  /-- ST (R191). -/
  | st (sz : Size) (c : Fin 16) (a : PReg) (d : PReg) (disp : Option (BitVec 32))
  /-- STQ (R191). -/
  | stq (c : Fin 16) (a : PReg) (d : PReg) (disp : Option (BitVec 32))
  /-- CLD (R193). -/
  | cld (d : Fin 16) (c : Fin 16) (a : PReg) (disp : Option (BitVec 32))
  /-- CST (R193). -/
  | cst (d : Fin 16) (c : Fin 16) (a : PReg) (disp : Option (BitVec 32))
  /-- LDA (R194). -/
  | lda (la : Fin 16) (sz : Size) (c : Fin 16) (a : PReg) (d : PReg) (disp : BitVec 24) (sc : Scope)
  /-- STL (R194). -/
  | stl (sz : Size) (c : Fin 16) (a : PReg) (d : PReg) (disp : BitVec 24) (sc : Scope)
  /-- ATOM (R198). -/
  | atom (la : Fin 16) (sz : Size) (c : Fin 16) (a : PReg) (d : PReg) (disp : BitVec 24) (op : AtomOp) (sc : Scope)
  /-- ATOMS (R198). -/
  | atoms (la : Fin 16) (sz : Size) (c : Fin 16) (a : PReg) (d : PReg) (disp : BitVec 24) (op : AtomOp) (sc : Scope)
  /-- FENCE (R199). -/
  | fence (k : FenceKind) (sc : Scope)
  /-- LDS (R202). -/
  | lds (la : Fin 16) (sz : Size) (a : PReg) (d : PReg) (disp : Option (BitVec 32))
  /-- STS (R202). -/
  | sts (sz : Size) (a : PReg) (d : PReg) (disp : Option (BitVec 32))
  /-- PREF (R204). -/
  | pref (xlat : Bool) (sz : Size) (c : Fin 16) (a : PReg) (disp : Option (BitVec 32))
  /-- QBIND (R206). -/
  | qbind (d : Fin 8) (a : Fin 64) (mode : QMode)
  /-- QFREE (R206). -/
  | qfree (d : Fin 8) (n : SSrc)
  /-- QPEEK (R209). -/
  | qpeek (d : PReg) (a : Fin 8)
  /-- QREMOTE (R206). -/
  | qremote (d : Fin 8) (a : Fin 16) (n : SSrc)
  /-- DWINIT (R210). -/
  | dwinit (a : Fin 64) (n : SSrc)
  /-- DWWAIT (R210). -/
  | dwwait (a : Fin 64) (n : SSrc)
  /-- DWADD (R210). -/
  | dwadd (a : Fin 64) (n : SSrc)
  /-- RDROP (R213). -/
  | rdrop (d : Option (Fin 96))
  /-- RPIN (R213). -/
  | rpin (d : Option (Fin 96))
  /-- RUNPIN (R213). -/
  | runpin (d : Option (Fin 96))
  /-- RQRY (R214). -/
  | rqry (d : PReg) (a : Option (Fin 96))
  /-- RCLR (R213). -/
  | rclr (d : Option (Fin 96))
  /-- TCFG (R218). -/
  | tcfg (d : Fin 16) (b : SSrc)
  /-- TLD (R221). -/
  | tld (la : Fin 16) (spm : Bool) (ta : Fin 16) (td : Fin 16) (stride : BitVec 13) (disp : BitVec 19)
  /-- TLDT (R221). -/
  | tldt (la : Fin 16) (spm : Bool) (ta : Fin 16) (td : Fin 16) (stride : BitVec 13) (disp : BitVec 19)
  /-- TST (R221). -/
  | tst (la : Fin 16) (spm : Bool) (ta : Fin 16) (td : Fin 16) (stride : BitVec 13) (disp : BitVec 19)
  /-- TZERO_TILE (R222). -/
  | tzeroTile (la : Fin 16) (td : Fin 16)
  /-- TZERO_ACC (R222). -/
  | tzeroAcc (la : Fin 16) (td : Fin 16)
  /-- MMA (R224). -/
  | mma (la : Fin 16) (fmt : Fin 16) (acc : Bool) (tb : Fin 16) (ta : Fin 16) (td : Fin 16)
  /-- SCACC (R226). -/
  | scacc (la : Fin 16) (pair : Fin 8) (acc : Bool) (tb : Fin 16) (ta : Fin 16) (td : Fin 16)
  /-- ACST (R228). -/
  | acst (la : Fin 16) (fmt : Fin 16) (spm : Bool) (ta : Fin 16) (td : Fin 16) (stride : BitVec 13) (disp : BitVec 19)
  /-- ACLD (R228). -/
  | acld (la : Fin 16) (fmt : Fin 16) (spm : Bool) (ta : Fin 16) (td : Fin 16) (stride : BitVec 13) (disp : BitVec 19)
  /-- CPY (R232). -/
  | cpy (la : Fin 16) (d : Fin 64) (a : Fin 16)
  /-- CPY_TILE (R232). -/
  | cpyTile (la : Fin 16) (d : Fin 64) (a : Fin 16)
  /-- CPYOUT (R232). -/
  | cpyout (la : Fin 16) (d : Fin 64) (a : Fin 16)
  /-- CPYOUT_TILE (R232). -/
  | cpyoutTile (la : Fin 16) (d : Fin 64) (a : Fin 16)
  /-- CPYR (R232). -/
  | cpyr (la : Fin 16) (d : Fin 64) (a : Fin 16)
  /-- CPYR_Q (R232). -/
  | cpyrQ (la : Fin 16) (d : Fin 64) (a : Fin 16)
  /-- CPYG (R232). -/
  | cpyg (la : Fin 16) (d : Fin 64) (a : Fin 16)
  /-- CPYG_TILE (R232). -/
  | cpygTile (la : Fin 16) (d : Fin 64) (a : Fin 16)
  /-- BSEAL (R236). -/
  | bseal (d : Fin 64)
  /-- BWAIT (R236). -/
  | bwait (n : SSrc)
  /-- BTEST (R236). -/
  | btest (d : Fin 64) (n : SSrc)
  /-- CHAPP (R238). -/
  | chapp (d : Fin 64) (a : Fin 16) (s : Fin 16)
  /-- CHTAIL (R238). -/
  | chtail (la : Fin 16) (a : Fin 16)
  /-- CHWAIT (R238). -/
  | chwait (a : Fin 16) (n : SSrc)
  /-- CHSEQ (R238). -/
  | chseq (d : Fin 64) (a : Fin 16)
  /-- KVWIN (R240). -/
  | kvwin (d : Fin 16) (a : Fin 64)
  /-- KVCOMMIT (R391). -/
  | kvcommit (a : Fin 64)
  /-- KVABORT (R241). -/
  | kvabort (a : Fin 64)
  /-- KVLEN (R243). -/
  | kvlen (d : Fin 64) (a : Fin 64)
  /-- SMPL (R244). -/
  | smpl (d : Fin 64) (a : Fin 16) (s : Fin 16)
  /-- MACT (R123). -/
  | mact0
  /-- MACT (R123). -/
  | mact1
  /-- MACT (R123). -/
  | mact2
  /-- MACT (R123). -/
  | mact3
  /-- MACT (R123). -/
  | mact4
  /-- MACT (R123). -/
  | mact5
  /-- MACT (R123). -/
  | mact6
  /-- MACT (R123). -/
  | mact7
  /-- MACT (R123). -/
  | mact8
  /-- MACT (R123). -/
  | mact9
  /-- MACT (R123). -/
  | mact10
  /-- MACT (R123). -/
  | mact11
  /-- MACT (R123). -/
  | mact12
  /-- MACT (R123). -/
  | mact13
  /-- MACT (R123). -/
  | mact14
  /-- MACT (R123). -/
  | mact15
  /-- NOP (R156). -/
  | nop
  /-- YIELD (R156). -/
  | yield
  /-- WAITLA (R156). -/
  | waitla
  /-- TRET (R161). -/
  | tret
  /-- TRET_SKIP (R161). -/
  | tretSkip
  /-- XDONE (R162). -/
  | xdone
  /-- EDONE (R163). -/
  | edone
  /-- RET (R166). -/
  | ret
  /-- MDROP (R168). -/
  | mdrop0
  /-- MDROP (R168). -/
  | mdrop1
  /-- MDROP (R168). -/
  | mdrop2
  /-- MDROP (R168). -/
  | mdrop3
  /-- MDROP (R168). -/
  | mdrop4
  /-- MDROP (R168). -/
  | mdrop5
  /-- MDROP (R168). -/
  | mdrop6
  /-- MDROP (R168). -/
  | mdrop7
  /-- MDROP (R168). -/
  | mdrop8
  /-- MDROP (R168). -/
  | mdrop9
  /-- MDROP (R168). -/
  | mdrop10
  /-- MDROP (R168). -/
  | mdrop11
  /-- MDROP (R168). -/
  | mdrop12
  /-- MDROP (R168). -/
  | mdrop13
  /-- MDROP (R168). -/
  | mdrop14
  /-- MDROP (R168). -/
  | mdrop15
  /-- EXIT (R169). -/
  | exit
  /-- TMASK (R173). -/
  | tmaskOff
  /-- TMASK (R173). -/
  | tmaskOn
  /-- BAR_FILE (R178). -/
  | barFile
  /-- BAR_CORE (R178). -/
  | barCore
  /-- BAR_SLICE (R178). -/
  | barSlice
  /-- BAR_CLUSTER (R178). -/
  | barCluster
  /-- QUNBIND (R206). -/
  | qunbind0
  /-- QUNBIND (R206). -/
  | qunbind1
  /-- QUNBIND (R206). -/
  | qunbind2
  /-- QUNBIND (R206). -/
  | qunbind3
  /-- QUNBIND (R206). -/
  | qunbind4
  /-- QUNBIND (R206). -/
  | qunbind5
  /-- QUNBIND (R206). -/
  | qunbind6
  /-- QUNBIND (R206). -/
  | qunbind7
  /-- RTAG (R67). -/
  | rtag
  /-- LOAD_DATA_ARRIVAL (R97). -/
  | loadDataArrival
  /-- TILE_OP_COMPLETE (R216). -/
  | tileOpComplete
  /-- COPY_TRANSFER (R232). -/
  | copyTransfer
  /-- FOLLOW_ON_COMMAND (R233). -/
  | followOnCommand
  /-- BATCH_COMPLETE (R332). -/
  | batchComplete
  /-- WAKE_CONDITION_MET (R335). -/
  | wakeConditionMet
  /-- SLEEP_DEADLINE (R156). -/
  | sleepDeadline
  /-- WARP_TIMER (R78). -/
  | warpTimer
  /-- RAS_REFILL_DONE (R286). -/
  | rasRefillDone
  /-- PREEMPTION_REQUEST (R251). -/
  | preemptionRequest
  /-- VECTOR_WAIT_EXPIRY (R251). -/
  | vectorWaitExpiry
  /-- EXIT_BUDGET_OVERRUN (R252). -/
  | exitBudgetOverrun
  /-- TMASK_BOUND_EXPIRY (R254). -/
  | tmaskBoundExpiry
  /-- REJOIN_TIMEOUT (R279). -/
  | rejoinTimeout
  /-- SWITCHED_OUT (R246). -/
  | switchedOut
  /-- RESUME_WARP (R255). -/
  | resumeWarp
  /-- CONTEXT_FAULT (R247). -/
  | contextFault
  /-- RESET_ALONE (R261). -/
  | resetAlone
  /-- RESET_COMPLETE (R246). -/
  | resetComplete
  /-- SLICE_END (R262). -/
  | sliceEnd
  /-- WATCHDOG (R263). -/
  | watchdog
  /-- MIGRATION_STOP (R300). -/
  | migrationStop
  /-- MIGRATION_TIMEOUT (R301). -/
  | migrationTimeout
  /-- KERNEL_LOAD (R287). -/
  | kernelLoad
  /-- TRANSLATION_COMPLETE (R287). -/
  | translationComplete
  /-- KERNEL_UNLOAD (R287). -/
  | kernelUnload
  /-- LAZY_PAGE_BOUND (R303). -/
  | lazyPageBound
  /-- PLACE_WORK_GROUP (R23). -/
  | placeWorkGroup
  /-- CHAIN_ENTRY_READ (R318). -/
  | chainEntryRead
  /-- NODE_DISPATCH (R321). -/
  | nodeDispatch
  /-- NODE_AGEING (R321). -/
  | nodeAgeing
  /-- NODE_COMPLETE (R322). -/
  | nodeComplete
  /-- BIN_ENTRY (R323). -/
  | binEntry
  /-- GANG_ARM (R324). -/
  | gangArm
  /-- GANG_ACK (R324). -/
  | gangAck
  /-- GANG_GO (R324). -/
  | gangGo
  /-- GANG_TIMEOUT (R324). -/
  | gangTimeout
  /-- GANG_ABORT (R325). -/
  | gangAbort
  /-- SAMPLE_REQUEST (R374). -/
  | sampleRequest
  /-- RNG_RING_REFILL (R380). -/
  | rngRingRefill
  /-- EVENT_ACCEPT (R27). -/
  | eventAccept
  /-- FAULT_RECORD_POST (R355). -/
  | faultRecordPost
  /-- CTXREG (R314). -/
  | ctxreg
  /-- CHREG (R314). -/
  | chreg
  /-- CTXDESTROY (R246). -/
  | ctxdestroy
  /-- ATTEST (R409). -/
  | attest
  /-- CTLCHAIN (R315). -/
  | ctlchain
  /-- CTLTAIL (R315). -/
  | ctltail
  /-- SHOOT (R344). -/
  | shoot
  /-- SHOOTDOWN_COMPLETE (R344). -/
  | shootdownComplete
  /-- FQ_ANSWER (R356). -/
  | fqAnswer
  /-- EVR_HEAD (R399). -/
  | evrHead
  /-- FQ_HEAD (R400). -/
  | fqHead
  /-- FKR_CLEAR (R347). -/
  | fkrClear
  /-- HEAT_SEED (R353). -/
  | heatSeed
  /-- HEAT_EPOCH (R353). -/
  | heatEpoch
  /-- RNG_KEY_WRITE (R380). -/
  | rngKeyWrite
  /-- VD_HOLD (R398). -/
  | vdHold
  /-- VD_RELEASE (R398). -/
  | vdRelease
  /-- WARM_START (R407). -/
  | warmStart
  /-- REGISTER_WRITE (R397). -/
  | registerWrite
  /-- FUNCTION_LEVEL_RESET (R398). -/
  | functionLevelReset
  /-- SRIOV_ENABLE (R398). -/
  | sriovEnable
  /-- COLD_START (R406). -/
  | coldStart
  /-- LINK_TRAINED (R403). -/
  | linkTrained
  /-- FLIT_CRC_FAIL (R403). -/
  | flitCrcFail
  /-- LINK_RETRY_TIMEOUT (R403). -/
  | linkRetryTimeout
  /-- LINK_RETRAIN_DONE (R403). -/
  | linkRetrainDone
  /-- SUPPLY_SAG (R410). -/
  | supplySag
  /-- STRETCH_LONG (R410). -/
  | stretchLong
  /-- ILLEGAL_ENCODING (R94). -/
  | illegalEncoding
  /-- GANG_MEMBER_DONE (R324). -/
  | gangMemberDone
  /-- GANG_MEMBER_RESET (R324). -/
  | gangMemberReset
  /-- SUPPLY_RECOVERY (R410). -/
  | supplyRecovery
  /-- HOST_LINK_REQUEST (R8). -/
  | hostLinkRequest
  /-- REMOTE_ACCESS (R348). -/
  | remoteAccess
  /-- MIGRATION_RESUME (R300). -/
  | migrationResume
  deriving DecidableEq, Repr

end Sys2Proof
end

