-- ==== Sys2Proof/WellFormed.lean ====
section
/-! DEFINITION. Well-formedness of an instruction: the operand rules whose breach the spec answers with RESERVED_FIELD
whatever the machine's state (R81, R88 to R91, R94 and the operand rules of the entries). What depends on the state (the
warp's allocation, the routine it runs in, an offset core) is checked at issue. -/

namespace Sys2Proof

/-- The register may be written: every per-thread register but `tid` (R54). -/
def PReg.dstQ : PReg → Bool
  | .tid => false
  | _ => true

/-- No queue port (R91). -/
def PReg.noQ : PReg → Bool
  | .q _ => false
  | _ => true

/-- The register may be written and is no queue port. -/
def PReg.dst (r : PReg) : Bool := r.dstQ && r.noQ

/-- `v`, `o` or `z`: the destinations of the loads and atomics (R98, R188). -/
def PReg.voz : PReg → Bool
  | .v _ => true
  | .o _ => true
  | .z => true
  | _ => false

/-- `v`, `o` or `y` (R165). -/
def PReg.voy : PReg → Bool
  | .v _ => true
  | .o _ => true
  | .y _ => true
  | _ => false

/-- The A field of BRV: `v`, `o`, `y` or `z` (R90). -/
def PReg.vReg (r : PReg) : Bool := r.voy || r == .z

/-- The register pair rule of R118: an even `v` register or an even `o` register. -/
def PReg.pair : PReg → Bool
  | .v n => n.val % 2 == 0
  | .o n => n.val % 2 == 0
  | _ => false

/-- The quad rule of R188: `v0`, `v4`, …, `v92`, `o0` or `o4`. -/
def PReg.quad : PReg → Bool
  | .v n => n.val % 4 == 0
  | .o n => n.val % 4 == 0
  | _ => false

/-- The DA codes of the compact form (R81). -/
def PReg.compactDA : PReg → Bool
  | .v n => n.val < 32
  | .o _ => true
  | .y _ => true
  | .z => true
  | _ => false

/-- The B codes of the compact form (R81). -/
def PReg.compactB : PReg → Bool
  | .v n => n.val < 16
  | .o _ => true
  | .y _ => true
  | .z => true
  | .tid => true
  | _ => false

/-- No queue port as a source (R91). -/
def Src.noQ : Src → Bool
  | .reg r => r.noQ
  | .lit _ => true

/-- The destination rules of LD, LDX, LDS and LDA (R98, R188). (Log 34 DEDUCED.) -/
def PReg.loadDst (r : PReg) : Size → Bool
  | .dword => r.pair
  | _ => r.voz

/-- The data register rules of ST and STS (R190): the pair rule for 8 bytes; a queue port requires SZ = 00. -/
def PReg.storeSrc (r : PReg) : Size → Bool
  | .dword => r.pair
  | .byte => true
  | _ => r.noQ

/-- LDX accepts SZ 00 and 01 only (R188). -/
def Size.small : Size → Bool
  | .byte => true
  | .half => true
  | _ => false

/-- The SZ that each atomic operation allows (R195). -/
def AtomOp.sizeOk : AtomOp → Size → Bool
  | .fadd, sz => sz == .word
  | .fmin, sz => sz == .word
  | .fmax, sz => sz == .word
  | _, sz => sz == .word || sz == .dword

/-- The operand register rules of the atomics (R196). -/
def PReg.atomReg (r : PReg) (op : AtomOp) (sz : Size) : Bool :=
  match op, sz with
  | .cas, .dword => r.quad
  | .cas, _ => r.pair
  | _, .dword => r.pair
  | _, _ => r.voz

/-- ATOMS allows no scope above cluster (R196). -/
def Scope.upToCluster : Scope → Bool
  | .thread => true
  | .warp => true
  | .file => true
  | .core => true
  | .slice => true
  | .cluster => true
  | _ => false

/-- The literal offset of a relative transfer must be even (R85). -/
def Target.even : Target → Bool
  | .off _ => true
  | .lit w => w.toNat % 2 == 0

/-- The capability code names a `c` register; `k` registers are never destinations (R57). -/
def isC (c : Fin 16) : Bool := c.val < 8

/-- The numbers of the control-register map (R64). -/
def ctlKnown (n : Nat) : Bool :=
  n ≤ 0x002 || (0x009 ≤ n && n ≤ 0x010) || (0x020 ≤ n && n ≤ 0x023) || (0x030 ≤ n && n ≤ 0x037)
    || (0x038 ≤ n && n ≤ 0x03B) || n == 0x040 || (0x050 ≤ n && n ≤ 0x053) || (0x060 ≤ n && n ≤ 0x063)
    || (0x070 ≤ n && n ≤ 0x072)

/-- The control registers whose access is RW (R63, R64): RMODE, the shapes and the two halves of WTCMP. -/
def ctlWritable (n : Nat) : Bool :=
  n == 0x020 || (0x030 ≤ n && n ≤ 0x03B) || n == 0x052 || n == 0x053

/-! Three rows whose one operand has few values stand in `Instr` as one constructor for each value, because Lean's
compiled code allows no more than 244 constructors with operands in one type. -/

/-- MACT of a mask register. (Log 35 DESIGN CHOICE.) -/
def mactOf (n : Fin 16) : Instr :=
  match n.val with
  | 0 => .mact0
  | 1 => .mact1
  | 2 => .mact2
  | 3 => .mact3
  | 4 => .mact4
  | 5 => .mact5
  | 6 => .mact6
  | 7 => .mact7
  | 8 => .mact8
  | 9 => .mact9
  | 10 => .mact10
  | 11 => .mact11
  | 12 => .mact12
  | 13 => .mact13
  | 14 => .mact14
  | _ => .mact15

/-- MDROP of a mask register. (Log 35 DESIGN CHOICE.) -/
def mdropOf (n : Fin 16) : Instr :=
  match n.val with
  | 0 => .mdrop0
  | 1 => .mdrop1
  | 2 => .mdrop2
  | 3 => .mdrop3
  | 4 => .mdrop4
  | 5 => .mdrop5
  | 6 => .mdrop6
  | 7 => .mdrop7
  | 8 => .mdrop8
  | 9 => .mdrop9
  | 10 => .mdrop10
  | 11 => .mdrop11
  | 12 => .mdrop12
  | 13 => .mdrop13
  | 14 => .mdrop14
  | _ => .mdrop15

/-- QUNBIND of a port. (Log 35 DESIGN CHOICE.) -/
def qunbindOf (n : Fin 8) : Instr :=
  match n.val with
  | 0 => .qunbind0
  | 1 => .qunbind1
  | 2 => .qunbind2
  | 3 => .qunbind3
  | 4 => .qunbind4
  | 5 => .qunbind5
  | 6 => .qunbind6
  | _ => .qunbind7

/-- Well-formed: the instruction breaks no operand rule of the spec that its own fields decide. Events carry no encoding. -/
def Instr.wf : Instr → Bool
  | .compactIadd d b => d.compactDA && b.compactB
  | .compactIsub d b => d.compactDA && b.compactB
  | .compactAnd d b => d.compactDA && b.compactB
  | .compactOr d b => d.compactDA && b.compactB
  | .compactXor d b => d.compactDA && b.compactB
  | .compactShl d b => d.compactDA && b.compactB
  | .compactShr d b => d.compactDA && b.compactB
  | .compactMov d b => d.compactDA && b.compactB
  | .compactFadd d b => d.compactDA && b.compactB
  | .compactFfma d b => d.compactDA && b.compactB
  | .compactFmul d b => d.compactDA && b.compactB
  | .compactFmax d b => d.compactDA && b.compactB
  | .compactFmin d b => d.compactDA && b.compactB
  | .compactImul d b => d.compactDA && b.compactB
  | .compactHadd2 d b => d.compactDA && b.compactB
  | .compactMovi d _ => d.compactDA
  | .iadd d _ _ => d.dstQ
  | .isub d _ _ => d.dstQ
  | .imul d _ _ => d.dstQ
  | .imulhI d _ _ => d.dstQ
  | .imulhN d _ _ => d.dstQ
  | .iaddsI d _ _ => d.dstQ
  | .iaddsN d _ _ => d.dstQ
  | .iabsd d _ _ => d.dstQ
  | .iminI d _ _ => d.dstQ
  | .iminN d _ _ => d.dstQ
  | .imaxI d _ _ => d.dstQ
  | .imaxN d _ _ => d.dstQ
  | .idivI d _ _ => d.dstQ
  | .idivN d _ _ => d.dstQ
  | .iremI d _ _ => d.dstQ
  | .iremN d _ _ => d.dstQ
  | .and d _ _ => d.dstQ
  | .or d _ _ => d.dstQ
  | .xor d _ _ => d.dstQ
  | .andn d _ _ => d.dstQ
  | .shl d _ _ => d.dstQ
  | .shr d _ _ => d.dstQ
  | .sar d _ _ => d.dstQ
  | .rol d _ _ => d.dstQ
  | .popc d _ => d.dstQ
  | .clz d _ => d.dstQ
  | .brev d _ => d.dstQ
  | .bfxI d _ _ => d.dstQ
  | .bfxN d _ _ => d.dstQ
  | .bfi d _ _ => d.dstQ
  | .permb d _ _ => d.dstQ
  | .mov d _ => d.dstQ
  | .imad d _ _ => d.dstQ
  | .imadw d _ _ => d.pair
  | .isel d _ _ => d.dstQ
  | .lea d _ _ => d.dstQ
  | .icmpEq _ a b => a.noQ && b.noQ
  | .icmpNe _ a b => a.noQ && b.noQ
  | .icmpLtI _ a b => a.noQ && b.noQ
  | .icmpLeI _ a b => a.noQ && b.noQ
  | .icmpLtN _ a b => a.noQ && b.noQ
  | .icmpLeN _ a b => a.noQ && b.noQ
  | .icmpTest _ a b => a.noQ && b.noQ
  | .icmpNtest _ a b => a.noQ && b.noQ
  | .capadd d _ b => isC d && b.noQ
  | .capset d _ b => isC d && b.noQ
  | .capnar d _ b => isC d && b.noQ
  | .caprm d _ b => isC d && b.noQ
  | .capget d _ b => d.dst && b.noQ
  | .capchk d _ b => d.dst && b.noQ
  | .capmov d _ => isC d
  | .caplen d _ => d.dst
  | .uarithIadd _ _ _ => true
  | .uarithIsub _ _ _ => true
  | .uarithImul _ _ _ => true
  | .uarithImulhI _ _ _ => true
  | .uarithImulhN _ _ _ => true
  | .uarithIaddsI _ _ _ => true
  | .uarithIaddsN _ _ _ => true
  | .uarithIabsd _ _ _ => true
  | .uminmaxIminI _ _ _ => true
  | .uminmaxIminN _ _ _ => true
  | .uminmaxImaxI _ _ _ => true
  | .uminmaxImaxN _ _ _ => true
  | .uminmaxIdivI _ _ _ => true
  | .uminmaxIdivN _ _ _ => true
  | .uminmaxIremI _ _ _ => true
  | .uminmaxIremN _ _ _ => true
  | .ulogicAnd _ _ _ => true
  | .ulogicOr _ _ _ => true
  | .ulogicXor _ _ _ => true
  | .ulogicAndn _ _ _ => true
  | .ulogicShl _ _ _ => true
  | .ulogicShr _ _ _ => true
  | .ulogicSar _ _ _ => true
  | .ulogicRol _ _ _ => true
  | .ubitsPopc _ _ => true
  | .ubitsClz _ _ => true
  | .ubitsBrev _ _ => true
  | .ubitsBfxI _ _ _ => true
  | .ubitsBfxN _ _ _ => true
  | .ubitsBfi _ _ _ => true
  | .ubitsPermb _ _ _ => true
  | .ubitsMov _ _ => true
  | .ucmpEq _ _ _ => true
  | .ucmpNe _ _ _ => true
  | .ucmpLtI _ _ _ => true
  | .ucmpLeI _ _ _ => true
  | .ucmpLtN _ _ _ => true
  | .ucmpLeN _ _ _ => true
  | .ucmpTest _ _ _ => true
  | .ucmpNtest _ _ _ => true
  | .movs d _ => d.dst
  | .ureadf _ a => a.noQ
  | .mpop _ _ => true
  | .mfind _ _ _ => true
  | .mand _ _ _ => true
  | .mor _ _ _ => true
  | .mxor _ _ _ => true
  | .fadd d _ _ => d.dstQ
  | .fsub d _ _ => d.dstQ
  | .fmul d _ _ => d.dstQ
  | .ffma d _ _ => d.dstQ
  | .fmin d _ _ => d.dstQ
  | .fmax d _ _ => d.dstQ
  | .fscale d _ _ => d.dstQ
  | .fcopys d _ _ => d.dstQ
  | .fcmpEq _ a b => a.noQ && b.noQ
  | .fcmpNe _ a b => a.noQ && b.noQ
  | .fcmpLt _ a b => a.noQ && b.noQ
  | .fcmpLe _ a b => a.noQ && b.noQ
  | .fcmpUnord _ a b => a.noQ && b.noQ
  | .fcmpOrd _ a b => a.noQ && b.noQ
  | .fcmpIsnan _ a => a.noQ
  | .fcmpIsinf _ a => a.noQ
  | .frcp d _ => d.dstQ
  | .frsq d _ => d.dstQ
  | .fsqrt d _ => d.dstQ
  | .fexp2 d _ => d.dstQ
  | .flog2 d _ => d.dstQ
  | .ftanh d _ => d.dstQ
  | .fdiv d _ _ => d.dstQ
  | .frint d _ => d.dstQ
  | .hadd2 d _ _ => d.dstQ
  | .hsub2 d _ _ => d.dstQ
  | .hmul2 d _ _ => d.dstQ
  | .hfma2 d _ _ => d.dstQ
  | .hmin2 d _ _ => d.dstQ
  | .hmax2 d _ _ => d.dstQ
  | .dot2 d _ _ => d.dstQ
  | .badd2 d _ _ => d.dstQ
  | .bsub2 d _ _ => d.dstQ
  | .bmul2 d _ _ => d.dstQ
  | .bfma2 d _ _ => d.dstQ
  | .bmin2 d _ _ => d.dstQ
  | .bmax2 d _ _ => d.dstQ
  | .bdot2 d _ _ => d.dstQ
  | .cvt d _ _ => d.dstQ
  | .cvpack d _ _ => d.dstQ
  | .cvunpk d _ _ => d.dstQ
  | .cvi d _ _ => d.dstQ
  | .cvsat d _ _ => d.dstQ
  | .shfl d a b => d.dst && a.noQ && b.noQ
  | .shflx d a b => d.dst && a.noQ && b.noQ
  | .wredf _ d a => d.dst && a.noQ
  | .wredi _ d a => d.dst && a.noQ
  | .wscanf _ _ d a => d.dst && a.noQ
  | .wscani _ _ d a => d.dst && a.noQ
  | .vote _ d a => d.dst && a.noQ
  | .matchT _ d a => d.dst && a.noQ
  | .sleep _ => true
  | .trap _ => true
  | .bra _ t => t.even
  | .brv a t => a.vReg && t.even
  | .bru _ t => t.even
  | .call _ t => t.even
  | .calli a _ => a.voy
  | .join _ => true
  | .elect _ _ => true
  | .bri a _ => a.voy
  | .rgnent d => d.dst
  | .monument _ => true
  | .rdctl d c => d.dst && ctlKnown c.toNat
  | .wrctl c a => a.noQ && ctlWritable c.toNat
  | .rdcyc d => d.pair
  | .rdcycTime d => d.pair
  | .rdwt d => d.pair
  | .wtarm a => a.noQ
  | .bararr _ _ => true
  | .barwait _ _ => true
  | .barqry _ _ => true
  | .ld _ sz _ a d _ => a.noQ && d.loadDst sz
  | .ldx _ sz _ a d _ => a.noQ && d.loadDst sz && sz.small
  | .ldq _ _ a d _ => a.noQ && d.quad
  | .st sz _ a d _ => a.noQ && d.storeSrc sz
  | .stq _ a d _ => a.noQ && d.quad
  | .cld d _ a _ => isC d && a.noQ
  | .cst _ _ a _ => a.noQ
  | .lda _ sz _ a d _ _ => a.noQ && d.loadDst sz
  | .stl sz _ a d _ _ => a.noQ && d.storeSrc sz && d.noQ
  | .atom _ sz _ a d _ op _ => a.noQ && op.sizeOk sz && d.atomReg op sz
  | .atoms _ sz _ a d _ op sc => a.noQ && op.sizeOk sz && d.atomReg op sz && sc.upToCluster
  | .fence _ _ => true
  | .lds _ sz a d _ => a.noQ && d.loadDst sz
  | .sts sz a d _ => a.noQ && d.storeSrc sz
  | .pref xlat sz _ a _ => a.noQ && (!xlat || sz == .byte)
  | .qbind _ _ _ => true
  | .qfree _ _ => true
  | .qpeek d _ => d.voz
  | .qremote _ _ _ => true
  | .dwinit _ _ => true
  | .dwwait _ _ => true
  | .dwadd _ _ => true
  | .rdrop _ => true
  | .rpin _ => true
  | .runpin _ => true
  | .rqry d _ => d.voz
  | .rclr _ => true
  | .tcfg _ _ => true
  | .tld _ spm ta _ _ _ => !spm || ta == 0
  | .tldt _ spm ta _ _ _ => !spm || ta == 0
  | .tst _ spm ta _ _ _ => !spm || ta == 0
  | .tzeroTile _ _ => true
  | .tzeroAcc _ _ => true
  | .mma _ _ _ _ _ _ => true
  | .scacc _ _ _ _ _ _ => true
  | .acst _ _ spm ta _ _ _ => !spm || ta == 0
  | .acld _ _ spm ta _ _ _ => !spm || ta == 0
  | .cpy _ d _ => d.val % 4 == 0
  | .cpyTile _ d _ => d.val % 4 == 0
  | .cpyout _ d _ => d.val % 4 == 0
  | .cpyoutTile _ d _ => d.val % 4 == 0
  | .cpyr _ d _ => d.val % 4 == 0
  | .cpyrQ _ d _ => d.val % 4 == 0
  | .cpyg _ d a => d.val % 4 == 0 && isC a
  | .cpygTile _ d a => d.val % 4 == 0 && isC a
  | .bseal _ => true
  | .bwait _ => true
  | .btest _ _ => true
  | .chapp _ _ _ => true
  | .chtail _ _ => true
  | .chwait _ _ => true
  | .chseq _ _ => true
  | .kvwin _ _ => true
  | .kvcommit _ => true
  | .kvabort _ => true
  | .kvlen _ _ => true
  | .smpl _ _ _ => true
  | .mact0 => true
  | .mact1 => true
  | .mact2 => true
  | .mact3 => true
  | .mact4 => true
  | .mact5 => true
  | .mact6 => true
  | .mact7 => true
  | .mact8 => true
  | .mact9 => true
  | .mact10 => true
  | .mact11 => true
  | .mact12 => true
  | .mact13 => true
  | .mact14 => true
  | .mact15 => true
  | .nop => true
  | .yield => true
  | .waitla => true
  | .tret => true
  | .tretSkip => true
  | .xdone => true
  | .edone => true
  | .ret => true
  | .mdrop0 => true
  | .mdrop1 => true
  | .mdrop2 => true
  | .mdrop3 => true
  | .mdrop4 => true
  | .mdrop5 => true
  | .mdrop6 => true
  | .mdrop7 => true
  | .mdrop8 => true
  | .mdrop9 => true
  | .mdrop10 => true
  | .mdrop11 => true
  | .mdrop12 => true
  | .mdrop13 => true
  | .mdrop14 => true
  | .mdrop15 => true
  | .exit => true
  | .tmaskOff => true
  | .tmaskOn => true
  | .barFile => true
  | .barCore => true
  | .barSlice => true
  | .barCluster => true
  | .qunbind0 => true
  | .qunbind1 => true
  | .qunbind2 => true
  | .qunbind3 => true
  | .qunbind4 => true
  | .qunbind5 => true
  | .qunbind6 => true
  | .qunbind7 => true
  | .rtag => true
  | .loadDataArrival => true
  | .tileOpComplete => true
  | .copyTransfer => true
  | .followOnCommand => true
  | .batchComplete => true
  | .wakeConditionMet => true
  | .sleepDeadline => true
  | .warpTimer => true
  | .rasRefillDone => true
  | .preemptionRequest => true
  | .vectorWaitExpiry => true
  | .exitBudgetOverrun => true
  | .tmaskBoundExpiry => true
  | .rejoinTimeout => true
  | .switchedOut => true
  | .resumeWarp => true
  | .contextFault => true
  | .resetAlone => true
  | .resetComplete => true
  | .sliceEnd => true
  | .watchdog => true
  | .migrationStop => true
  | .migrationTimeout => true
  | .kernelLoad => true
  | .translationComplete => true
  | .kernelUnload => true
  | .lazyPageBound => true
  | .placeWorkGroup => true
  | .chainEntryRead => true
  | .nodeDispatch => true
  | .nodeAgeing => true
  | .nodeComplete => true
  | .binEntry => true
  | .gangArm => true
  | .gangAck => true
  | .gangGo => true
  | .gangTimeout => true
  | .gangAbort => true
  | .sampleRequest => true
  | .rngRingRefill => true
  | .eventAccept => true
  | .faultRecordPost => true
  | .ctxreg => true
  | .chreg => true
  | .ctxdestroy => true
  | .attest => true
  | .ctlchain => true
  | .ctltail => true
  | .shoot => true
  | .shootdownComplete => true
  | .fqAnswer => true
  | .evrHead => true
  | .fqHead => true
  | .fkrClear => true
  | .heatSeed => true
  | .heatEpoch => true
  | .rngKeyWrite => true
  | .vdHold => true
  | .vdRelease => true
  | .warmStart => true
  | .registerWrite => true
  | .functionLevelReset => true
  | .sriovEnable => true
  | .coldStart => true
  | .linkTrained => true
  | .flitCrcFail => true
  | .linkRetryTimeout => true
  | .linkRetrainDone => true
  | .supplySag => true
  | .stretchLong => true
  | .illegalEncoding => true
  | .gangMemberDone => true
  | .gangMemberReset => true
  | .supplyRecovery => true
  | .hostLinkRequest => true
  | .remoteAccess => true
  | .migrationResume => true

/-- The rows that are events of the part and have no encoding. -/
def Instr.isEvent : Instr → Bool
  | .compactIadd _ _ => false
  | .compactIsub _ _ => false
  | .compactAnd _ _ => false
  | .compactOr _ _ => false
  | .compactXor _ _ => false
  | .compactShl _ _ => false
  | .compactShr _ _ => false
  | .compactMov _ _ => false
  | .compactFadd _ _ => false
  | .compactFfma _ _ => false
  | .compactFmul _ _ => false
  | .compactFmax _ _ => false
  | .compactFmin _ _ => false
  | .compactImul _ _ => false
  | .compactHadd2 _ _ => false
  | .compactMovi _ _ => false
  | .iadd _ _ _ => false
  | .isub _ _ _ => false
  | .imul _ _ _ => false
  | .imulhI _ _ _ => false
  | .imulhN _ _ _ => false
  | .iaddsI _ _ _ => false
  | .iaddsN _ _ _ => false
  | .iabsd _ _ _ => false
  | .iminI _ _ _ => false
  | .iminN _ _ _ => false
  | .imaxI _ _ _ => false
  | .imaxN _ _ _ => false
  | .idivI _ _ _ => false
  | .idivN _ _ _ => false
  | .iremI _ _ _ => false
  | .iremN _ _ _ => false
  | .and _ _ _ => false
  | .or _ _ _ => false
  | .xor _ _ _ => false
  | .andn _ _ _ => false
  | .shl _ _ _ => false
  | .shr _ _ _ => false
  | .sar _ _ _ => false
  | .rol _ _ _ => false
  | .popc _ _ => false
  | .clz _ _ => false
  | .brev _ _ => false
  | .bfxI _ _ _ => false
  | .bfxN _ _ _ => false
  | .bfi _ _ _ => false
  | .permb _ _ _ => false
  | .mov _ _ => false
  | .imad _ _ _ => false
  | .imadw _ _ _ => false
  | .isel _ _ _ => false
  | .lea _ _ _ => false
  | .icmpEq _ _ _ => false
  | .icmpNe _ _ _ => false
  | .icmpLtI _ _ _ => false
  | .icmpLeI _ _ _ => false
  | .icmpLtN _ _ _ => false
  | .icmpLeN _ _ _ => false
  | .icmpTest _ _ _ => false
  | .icmpNtest _ _ _ => false
  | .capadd _ _ _ => false
  | .capset _ _ _ => false
  | .capnar _ _ _ => false
  | .caprm _ _ _ => false
  | .capget _ _ _ => false
  | .capchk _ _ _ => false
  | .capmov _ _ => false
  | .caplen _ _ => false
  | .uarithIadd _ _ _ => false
  | .uarithIsub _ _ _ => false
  | .uarithImul _ _ _ => false
  | .uarithImulhI _ _ _ => false
  | .uarithImulhN _ _ _ => false
  | .uarithIaddsI _ _ _ => false
  | .uarithIaddsN _ _ _ => false
  | .uarithIabsd _ _ _ => false
  | .uminmaxIminI _ _ _ => false
  | .uminmaxIminN _ _ _ => false
  | .uminmaxImaxI _ _ _ => false
  | .uminmaxImaxN _ _ _ => false
  | .uminmaxIdivI _ _ _ => false
  | .uminmaxIdivN _ _ _ => false
  | .uminmaxIremI _ _ _ => false
  | .uminmaxIremN _ _ _ => false
  | .ulogicAnd _ _ _ => false
  | .ulogicOr _ _ _ => false
  | .ulogicXor _ _ _ => false
  | .ulogicAndn _ _ _ => false
  | .ulogicShl _ _ _ => false
  | .ulogicShr _ _ _ => false
  | .ulogicSar _ _ _ => false
  | .ulogicRol _ _ _ => false
  | .ubitsPopc _ _ => false
  | .ubitsClz _ _ => false
  | .ubitsBrev _ _ => false
  | .ubitsBfxI _ _ _ => false
  | .ubitsBfxN _ _ _ => false
  | .ubitsBfi _ _ _ => false
  | .ubitsPermb _ _ _ => false
  | .ubitsMov _ _ => false
  | .ucmpEq _ _ _ => false
  | .ucmpNe _ _ _ => false
  | .ucmpLtI _ _ _ => false
  | .ucmpLeI _ _ _ => false
  | .ucmpLtN _ _ _ => false
  | .ucmpLeN _ _ _ => false
  | .ucmpTest _ _ _ => false
  | .ucmpNtest _ _ _ => false
  | .movs _ _ => false
  | .ureadf _ _ => false
  | .mpop _ _ => false
  | .mfind _ _ _ => false
  | .mand _ _ _ => false
  | .mor _ _ _ => false
  | .mxor _ _ _ => false
  | .fadd _ _ _ => false
  | .fsub _ _ _ => false
  | .fmul _ _ _ => false
  | .ffma _ _ _ => false
  | .fmin _ _ _ => false
  | .fmax _ _ _ => false
  | .fscale _ _ _ => false
  | .fcopys _ _ _ => false
  | .fcmpEq _ _ _ => false
  | .fcmpNe _ _ _ => false
  | .fcmpLt _ _ _ => false
  | .fcmpLe _ _ _ => false
  | .fcmpUnord _ _ _ => false
  | .fcmpOrd _ _ _ => false
  | .fcmpIsnan _ _ => false
  | .fcmpIsinf _ _ => false
  | .frcp _ _ => false
  | .frsq _ _ => false
  | .fsqrt _ _ => false
  | .fexp2 _ _ => false
  | .flog2 _ _ => false
  | .ftanh _ _ => false
  | .fdiv _ _ _ => false
  | .frint _ _ => false
  | .hadd2 _ _ _ => false
  | .hsub2 _ _ _ => false
  | .hmul2 _ _ _ => false
  | .hfma2 _ _ _ => false
  | .hmin2 _ _ _ => false
  | .hmax2 _ _ _ => false
  | .dot2 _ _ _ => false
  | .badd2 _ _ _ => false
  | .bsub2 _ _ _ => false
  | .bmul2 _ _ _ => false
  | .bfma2 _ _ _ => false
  | .bmin2 _ _ _ => false
  | .bmax2 _ _ _ => false
  | .bdot2 _ _ _ => false
  | .cvt _ _ _ => false
  | .cvpack _ _ _ => false
  | .cvunpk _ _ _ => false
  | .cvi _ _ _ => false
  | .cvsat _ _ _ => false
  | .shfl _ _ _ => false
  | .shflx _ _ _ => false
  | .wredf _ _ _ => false
  | .wredi _ _ _ => false
  | .wscanf _ _ _ _ => false
  | .wscani _ _ _ _ => false
  | .vote _ _ _ => false
  | .matchT _ _ _ => false
  | .sleep _ => false
  | .trap _ => false
  | .bra _ _ => false
  | .brv _ _ => false
  | .bru _ _ => false
  | .call _ _ => false
  | .calli _ _ => false
  | .join _ => false
  | .elect _ _ => false
  | .bri _ _ => false
  | .rgnent _ => false
  | .monument _ => false
  | .rdctl _ _ => false
  | .wrctl _ _ => false
  | .rdcyc _ => false
  | .rdcycTime _ => false
  | .rdwt _ => false
  | .wtarm _ => false
  | .bararr _ _ => false
  | .barwait _ _ => false
  | .barqry _ _ => false
  | .ld _ _ _ _ _ _ => false
  | .ldx _ _ _ _ _ _ => false
  | .ldq _ _ _ _ _ => false
  | .st _ _ _ _ _ => false
  | .stq _ _ _ _ => false
  | .cld _ _ _ _ => false
  | .cst _ _ _ _ => false
  | .lda _ _ _ _ _ _ _ => false
  | .stl _ _ _ _ _ _ => false
  | .atom _ _ _ _ _ _ _ _ => false
  | .atoms _ _ _ _ _ _ _ _ => false
  | .fence _ _ => false
  | .lds _ _ _ _ _ => false
  | .sts _ _ _ _ => false
  | .pref _ _ _ _ _ => false
  | .qbind _ _ _ => false
  | .qfree _ _ => false
  | .qpeek _ _ => false
  | .qremote _ _ _ => false
  | .dwinit _ _ => false
  | .dwwait _ _ => false
  | .dwadd _ _ => false
  | .rdrop _ => false
  | .rpin _ => false
  | .runpin _ => false
  | .rqry _ _ => false
  | .rclr _ => false
  | .tcfg _ _ => false
  | .tld _ _ _ _ _ _ => false
  | .tldt _ _ _ _ _ _ => false
  | .tst _ _ _ _ _ _ => false
  | .tzeroTile _ _ => false
  | .tzeroAcc _ _ => false
  | .mma _ _ _ _ _ _ => false
  | .scacc _ _ _ _ _ _ => false
  | .acst _ _ _ _ _ _ _ => false
  | .acld _ _ _ _ _ _ _ => false
  | .cpy _ _ _ => false
  | .cpyTile _ _ _ => false
  | .cpyout _ _ _ => false
  | .cpyoutTile _ _ _ => false
  | .cpyr _ _ _ => false
  | .cpyrQ _ _ _ => false
  | .cpyg _ _ _ => false
  | .cpygTile _ _ _ => false
  | .bseal _ => false
  | .bwait _ => false
  | .btest _ _ => false
  | .chapp _ _ _ => false
  | .chtail _ _ => false
  | .chwait _ _ => false
  | .chseq _ _ => false
  | .kvwin _ _ => false
  | .kvcommit _ => false
  | .kvabort _ => false
  | .kvlen _ _ => false
  | .smpl _ _ _ => false
  | .mact0 => false
  | .mact1 => false
  | .mact2 => false
  | .mact3 => false
  | .mact4 => false
  | .mact5 => false
  | .mact6 => false
  | .mact7 => false
  | .mact8 => false
  | .mact9 => false
  | .mact10 => false
  | .mact11 => false
  | .mact12 => false
  | .mact13 => false
  | .mact14 => false
  | .mact15 => false
  | .nop => false
  | .yield => false
  | .waitla => false
  | .tret => false
  | .tretSkip => false
  | .xdone => false
  | .edone => false
  | .ret => false
  | .mdrop0 => false
  | .mdrop1 => false
  | .mdrop2 => false
  | .mdrop3 => false
  | .mdrop4 => false
  | .mdrop5 => false
  | .mdrop6 => false
  | .mdrop7 => false
  | .mdrop8 => false
  | .mdrop9 => false
  | .mdrop10 => false
  | .mdrop11 => false
  | .mdrop12 => false
  | .mdrop13 => false
  | .mdrop14 => false
  | .mdrop15 => false
  | .exit => false
  | .tmaskOff => false
  | .tmaskOn => false
  | .barFile => false
  | .barCore => false
  | .barSlice => false
  | .barCluster => false
  | .qunbind0 => false
  | .qunbind1 => false
  | .qunbind2 => false
  | .qunbind3 => false
  | .qunbind4 => false
  | .qunbind5 => false
  | .qunbind6 => false
  | .qunbind7 => false
  | .rtag => false
  | .loadDataArrival => true
  | .tileOpComplete => true
  | .copyTransfer => true
  | .followOnCommand => true
  | .batchComplete => true
  | .wakeConditionMet => true
  | .sleepDeadline => true
  | .warpTimer => true
  | .rasRefillDone => true
  | .preemptionRequest => true
  | .vectorWaitExpiry => true
  | .exitBudgetOverrun => true
  | .tmaskBoundExpiry => true
  | .rejoinTimeout => true
  | .switchedOut => true
  | .resumeWarp => true
  | .contextFault => true
  | .resetAlone => true
  | .resetComplete => true
  | .sliceEnd => true
  | .watchdog => true
  | .migrationStop => true
  | .migrationTimeout => true
  | .kernelLoad => true
  | .translationComplete => true
  | .kernelUnload => true
  | .lazyPageBound => true
  | .placeWorkGroup => true
  | .chainEntryRead => true
  | .nodeDispatch => true
  | .nodeAgeing => true
  | .nodeComplete => true
  | .binEntry => true
  | .gangArm => true
  | .gangAck => true
  | .gangGo => true
  | .gangTimeout => true
  | .gangAbort => true
  | .sampleRequest => true
  | .rngRingRefill => true
  | .eventAccept => true
  | .faultRecordPost => true
  | .ctxreg => true
  | .chreg => true
  | .ctxdestroy => true
  | .attest => true
  | .ctlchain => true
  | .ctltail => true
  | .shoot => true
  | .shootdownComplete => true
  | .fqAnswer => true
  | .evrHead => true
  | .fqHead => true
  | .fkrClear => true
  | .heatSeed => true
  | .heatEpoch => true
  | .rngKeyWrite => true
  | .vdHold => true
  | .vdRelease => true
  | .warmStart => true
  | .registerWrite => true
  | .functionLevelReset => true
  | .sriovEnable => true
  | .coldStart => true
  | .linkTrained => true
  | .flitCrcFail => true
  | .linkRetryTimeout => true
  | .linkRetrainDone => true
  | .supplySag => true
  | .stretchLong => true
  | .illegalEncoding => true
  | .gangMemberDone => true
  | .gangMemberReset => true
  | .supplyRecovery => true
  | .hostLinkRequest => true
  | .remoteAccess => true
  | .migrationResume => true

end Sys2Proof
end

