-- ==== Sys2Proof/Decode.lean ====
section
/-! DEFINITION. The decoder: total on any bytes, rejecting by name (R94), and after it the encoder, both written from the
encoding tables of spec/04_encoding.md and of the reference entries. -/

namespace Sys2Proof

/-! ### Bit fields and bytes -/

/-- Bits `lo + n - 1` to `lo` of a number. -/
def bits (w lo n : Nat) : Nat := w / 2 ^ lo % 2 ^ n

/-- The number that a list of bytes spells, least significant byte first (R79). -/
def leNat : List Byte → Nat
  | [] => 0
  | b :: r => b.toNat + 256 * leNat r

/-- The `n` low bytes of a number, least significant byte first. -/
def natLE : Nat → Nat → List Byte
  | 0, _ => []
  | n + 1, w => BitVec.ofNat 8 w :: natLE n (w / 256)

/-! ### The reasons of a rejection (R94) -/

/-- Why bytes are no instruction: the first cause of R95 that the bits alone decide. -/
inductive Reject where
  /-- Unassigned major, reserved function, unassigned operation. -/
  | illegalOp
  /-- Reserved number, nonzero unused field, literal against R85. -/
  | reservedField
  /-- Fewer bytes than the instruction's length: no instruction to reject (the fetch is R80's). -/
  | short
  deriving DecidableEq, Repr

/-- A decoding in progress. -/
abbrev Dec := Except Reject

/-! ### Register codes (R81, R89) -/

/-- A per-thread register number of 7 bits. -/
def decPReg (n : Nat) : Dec PReg :=
  if h : n < 96 then .ok (.v ⟨n, h⟩)
  else if n < 104 then .ok (.o (Fin.ofNat 8 (n - 96)))
  else if n < 106 then .ok (.y (Fin.ofNat 2 (n - 104)))
  else if n = 106 then .ok .z
  else if n = 107 then .ok .tid
  else if 112 ≤ n ∧ n < 120 then .ok (.q (Fin.ofNat 8 (n - 112)))
  else .error .reservedField

/-- A DA code of the compact form. -/
def decDA (n : Nat) : Dec PReg :=
  if n < 32 then .ok (.v (Fin.ofNat 96 n))
  else if n < 40 then .ok (.o (Fin.ofNat 8 (n - 32)))
  else if n < 42 then .ok (.y (Fin.ofNat 2 (n - 40)))
  else if n = 42 then .ok .z
  else .error .reservedField

/-- A B code of the compact form. -/
def decB (n : Nat) : Dec PReg :=
  if n < 16 then .ok (.v (Fin.ofNat 96 n))
  else if n < 24 then .ok (.o (Fin.ofNat 8 (n - 16)))
  else if n < 26 then .ok (.y (Fin.ofNat 2 (n - 24)))
  else if n = 26 then .ok .z
  else if n = 27 then .ok .tid
  else .error .reservedField

/-- An `s` register or `z` of the uniform space. -/
def decSReg (n : Nat) : Dec SReg :=
  if h : n < 64 then .ok (.s ⟨n, h⟩) else if n = 88 then .ok .z else .error .reservedField

/-- An `s` register. -/
def decS (n : Nat) : Dec (Fin 64) :=
  if h : n < 64 then .ok ⟨n, h⟩ else .error .reservedField

/-- A mask register, uniform numbers 64 to 79. -/
def decM (n : Nat) : Dec (Fin 16) :=
  if 64 ≤ n ∧ n < 80 then .ok (Fin.ofNat 16 (n - 64)) else .error .reservedField

/-- A mask register, or `z` (88). -/
def decMz (n : Nat) : Dec (Option (Fin 16)) :=
  if n = 88 then .ok none else some <$> decM n

/-- A queue port named by its number (R205). -/
def decQ (n : Nat) : Dec (Fin 8) :=
  if 112 ≤ n ∧ n < 120 then .ok (Fin.ofNat 8 (n - 112)) else .error .reservedField

/-- A capability code in a 7-bit field: bits 6:4 must be 0 (R88). -/
def decCap (n : Nat) : Dec (Fin 16) :=
  if h : n < 16 then .ok ⟨n, h⟩ else .error .reservedField

/-- A capability named by an engine field: `k0` to `k7` are 80 to 87, `c0` to `c7` are 96 to 103 (R89, R215). -/
def decEngCap (n : Nat) : Dec (Fin 16) :=
  if 80 ≤ n ∧ n < 88 then .ok (Fin.ofNat 16 (n - 72))
  else if 96 ≤ n ∧ n < 104 then .ok (Fin.ofNat 16 (n - 96))
  else .error .reservedField

/-- A `v` register or `z` (R212). -/
def decVz (n : Nat) : Dec (Option (Fin 96)) :=
  if h : n < 96 then .ok (some ⟨n, h⟩) else if n = 106 then .ok none else .error .reservedField

/-- A field that must be 0 (R88). -/
def zero (n : Nat) : Dec Unit := if n = 0 then .ok () else .error .reservedField

/-- A literal that must be absent (R85). -/
def noLit (l : Option Word) : Dec Unit := if l.isNone then .ok () else .error .reservedField

/-- The fields of formats A3 and U (R84). -/
structure A3 where
  f : Nat
  b : Nat
  a : Nat
  d : Nat
  lit : Option Word

/-- The B field unused: 0, and no literal. -/
def A3.noB (x : A3) : Dec Unit := do zero x.b; noLit x.lit

/-- The per-thread source of B, or the literal that replaces it with B = 0. -/
def A3.src (x : A3) : Dec Src :=
  match x.lit with
  | some w => do zero x.b; .ok (.lit w)
  | none => .reg <$> decPReg x.b

/-- The uniform source of B. -/
def A3.usrc (x : A3) : Dec USrc :=
  match x.lit with
  | some w => do zero x.b; .ok (.lit w)
  | none => .reg <$> decSReg x.b

/-- An `s` register in B, or the literal. -/
def A3.ssrc (x : A3) : Dec SSrc :=
  match x.lit with
  | some w => do zero x.b; .ok (.lit w)
  | none => .reg <$> decS x.b

/-- D, A and srcB of a per-thread function. -/
def A3.pps (x : A3) (k : PReg → PReg → Src → Instr) : Dec Instr := do
  let d ← decPReg x.d; let a ← decPReg x.a; let b ← x.src; .ok (k d a b)

/-- D and A of a per-thread function that reads no B. -/
def A3.pp (x : A3) (k : PReg → PReg → Instr) : Dec Instr := do
  let d ← decPReg x.d; let a ← decPReg x.a; x.noB; .ok (k d a)

/-- D, A and srcB of a uniform function. -/
def A3.uuu (x : A3) (k : SReg → SReg → USrc → Instr) : Dec Instr := do
  let d ← decSReg x.d; let a ← decSReg x.a; let b ← x.usrc; .ok (k d a b)

/-- D and A of a uniform function that reads no B. -/
def A3.uu (x : A3) (k : SReg → SReg → Instr) : Dec Instr := do
  let d ← decSReg x.d; let a ← decSReg x.a; x.noB; .ok (k d a)

/-- A mask in D, and A and srcB of a compare. -/
def A3.mps (x : A3) (k : Fin 16 → PReg → Src → Instr) : Dec Instr := do
  let d ← decM x.d; let a ← decPReg x.a; let b ← x.src; .ok (k d a b)

/-- Every field and the literal unused. -/
def A3.none0 (x : A3) (i : Instr) : Dec Instr := do zero x.d; zero x.a; x.noB; .ok i

/-! ### The majors (R93) -/

/-- Major 0x01 (R114). -/
def decIarith (x : A3) : Dec Instr :=
  match x.f with
  | 0 => x.pps .iadd | 1 => x.pps .isub | 2 => x.pps .imul | 3 => x.pps .imulhI
  | 4 => x.pps .imulhN | 5 => x.pps .iaddsI | 6 => x.pps .iaddsN | _ => x.pps .iabsd

/-- Major 0x02 (R115). -/
def decIminmax (x : A3) : Dec Instr :=
  match x.f with
  | 0 => x.pps .iminI | 1 => x.pps .iminN | 2 => x.pps .imaxI | 3 => x.pps .imaxN
  | 4 => x.pps .idivI | 5 => x.pps .idivN | 6 => x.pps .iremI | _ => x.pps .iremN

/-- Major 0x03 (R116). -/
def decLogic (x : A3) : Dec Instr :=
  match x.f with
  | 0 => x.pps .and | 1 => x.pps .or | 2 => x.pps .xor | 3 => x.pps .andn
  | 4 => x.pps .shl | 5 => x.pps .shr | 6 => x.pps .sar | _ => x.pps .rol

/-- Major 0x04 (R117). MOV has A = z. -/
def decBits (x : A3) : Dec Instr :=
  match x.f with
  | 0 => x.pp .popc | 1 => x.pp .clz | 2 => x.pp .brev | 3 => x.pps .bfxI
  | 4 => x.pps .bfxN | 5 => x.pps .bfi | 6 => x.pps .permb
  | _ => if x.a = 106 then do let d ← decPReg x.d; let b ← x.src; .ok (.mov d b) else .error .reservedField

/-- Major 0x05 (R118). -/
def decImisc (x : A3) : Dec Instr :=
  match x.f with
  | 0 => x.pps .imad | 1 => x.pps .imadw | 2 => x.pps .isel | 3 => x.pps .lea
  | _ => .error .illegalOp

/-- Major 0x06 (R119). -/
def decIcmp (x : A3) : Dec Instr :=
  match x.f with
  | 0 => x.mps .icmpEq | 1 => x.mps .icmpNe | 2 => x.mps .icmpLtI | 3 => x.mps .icmpLeI
  | 4 => x.mps .icmpLtN | 5 => x.mps .icmpLeN | 6 => x.mps .icmpTest | _ => x.mps .icmpNtest

/-- Capability destination, capability source and srcB. -/
def A3.ccs (x : A3) (k : Fin 16 → Fin 16 → Src → Instr) : Dec Instr := do
  let d ← decCap x.d; let a ← decCap x.a; let b ← x.src; .ok (k d a b)

/-- Major 0x07 (R125 to R129). -/
def decCapMajor (x : A3) : Dec Instr :=
  match x.f with
  | 0 => x.ccs .capadd | 1 => x.ccs .capset | 2 => x.ccs .capnar | 3 => x.ccs .caprm
  | 4 => do let d ← decPReg x.d; let a ← decCap x.a; let b ← x.src; .ok (.capget d a b)
  | 5 => do let d ← decPReg x.d; let a ← decCap x.a; let b ← x.src; .ok (.capchk d a b)
  | 6 => do let d ← decCap x.d; let a ← decCap x.a; x.noB; .ok (.capmov d a)
  | _ => do let d ← decPReg x.d; let a ← decCap x.a; x.noB; .ok (.caplen d a)

/-- Major 0x08 (R120). -/
def decUarith (x : A3) : Dec Instr :=
  match x.f with
  | 0 => x.uuu .uarithIadd | 1 => x.uuu .uarithIsub | 2 => x.uuu .uarithImul | 3 => x.uuu .uarithImulhI
  | 4 => x.uuu .uarithImulhN | 5 => x.uuu .uarithIaddsI | 6 => x.uuu .uarithIaddsN | _ => x.uuu .uarithIabsd

/-- Major 0x09 (R120). -/
def decUminmax (x : A3) : Dec Instr :=
  match x.f with
  | 0 => x.uuu .uminmaxIminI | 1 => x.uuu .uminmaxIminN | 2 => x.uuu .uminmaxImaxI | 3 => x.uuu .uminmaxImaxN
  | 4 => x.uuu .uminmaxIdivI | 5 => x.uuu .uminmaxIdivN | 6 => x.uuu .uminmaxIremI | _ => x.uuu .uminmaxIremN

/-- Major 0x0A (R120). -/
def decUlogic (x : A3) : Dec Instr :=
  match x.f with
  | 0 => x.uuu .ulogicAnd | 1 => x.uuu .ulogicOr | 2 => x.uuu .ulogicXor | 3 => x.uuu .ulogicAndn
  | 4 => x.uuu .ulogicShl | 5 => x.uuu .ulogicShr | 6 => x.uuu .ulogicSar | _ => x.uuu .ulogicRol

/-- Major 0x0B (R120). MOV has A = z (88). -/
def decUbits (x : A3) : Dec Instr :=
  match x.f with
  | 0 => x.uu .ubitsPopc | 1 => x.uu .ubitsClz | 2 => x.uu .ubitsBrev | 3 => x.uuu .ubitsBfxI
  | 4 => x.uuu .ubitsBfxN | 5 => x.uuu .ubitsBfi | 6 => x.uuu .ubitsPermb
  | _ => if x.a = 88 then do let d ← decSReg x.d; let b ← x.usrc; .ok (.ubitsMov d b) else .error .reservedField

/-- Major 0x0C (R119). -/
def decUcmp (x : A3) : Dec Instr :=
  match x.f with
  | 0 => x.uuu .ucmpEq | 1 => x.uuu .ucmpNe | 2 => x.uuu .ucmpLtI | 3 => x.uuu .ucmpLeI
  | 4 => x.uuu .ucmpLtN | 5 => x.uuu .ucmpLeN | 6 => x.uuu .ucmpTest | _ => x.uuu .ucmpNtest

/-- Three masks. -/
def A3.mmm (x : A3) (k : Fin 16 → Fin 16 → Fin 16 → Instr) : Dec Instr := do
  let d ← decM x.d; let a ← decM x.a; let b ← decM x.b; noLit x.lit; .ok (k d a b)

/-- Major 0x0D (R122, R123). -/
def decMaskop (x : A3) : Dec Instr :=
  match x.f with
  | 0 => do let d ← decPReg x.d; let a ← decSReg x.a; x.noB; .ok (.movs d a)
  | 1 => do let d ← decS x.d; let a ← decPReg x.a; x.noB; .ok (.ureadf d a)
  | 2 => do let d ← decS x.d; let a ← decM x.a; x.noB; .ok (.mpop d a)
  | 3 => do let d ← decS x.d; let a ← decM x.a; let b ← x.usrc; .ok (.mfind d a b)
  | 4 => x.mmm .mand | 5 => x.mmm .mor | 6 => x.mmm .mxor
  | _ => do let d ← decM x.d; zero x.a; x.noB; .ok (mactOf d)

/-- Major 0x10 (R135). -/
def decFarith (x : A3) : Dec Instr :=
  match x.f with
  | 0 => x.pps .fadd | 1 => x.pps .fsub | 2 => x.pps .fmul | 3 => x.pps .ffma
  | 4 => x.pps .fmin | 5 => x.pps .fmax | 6 => x.pps .fscale | _ => x.pps .fcopys

/-- Major 0x11 (R137). -/
def decFcmp (x : A3) : Dec Instr :=
  match x.f with
  | 0 => x.mps .fcmpEq | 1 => x.mps .fcmpNe | 2 => x.mps .fcmpLt | 3 => x.mps .fcmpLe
  | 4 => x.mps .fcmpUnord | 5 => x.mps .fcmpOrd
  | 6 => do let d ← decM x.d; let a ← decPReg x.a; x.noB; .ok (.fcmpIsnan d a)
  | _ => do let d ← decM x.d; let a ← decPReg x.a; x.noB; .ok (.fcmpIsinf d a)

/-- Major 0x12 (R138). -/
def decFspec (x : A3) : Dec Instr :=
  match x.f with
  | 0 => x.pp .frcp | 1 => x.pp .frsq | 2 => x.pp .fsqrt | 3 => x.pp .fexp2
  | 4 => x.pp .flog2 | 5 => x.pp .ftanh | 6 => x.pps .fdiv | _ => x.pp .frint

/-- Major 0x13 (R140, R141). -/
def decHpack (x : A3) : Dec Instr :=
  match x.f with
  | 0 => x.pps .hadd2 | 1 => x.pps .hsub2 | 2 => x.pps .hmul2 | 3 => x.pps .hfma2
  | 4 => x.pps .hmin2 | 5 => x.pps .hmax2 | 6 => x.pps .dot2 | _ => .error .illegalOp

/-- Major 0x14 (R140, R141). -/
def decBpack (x : A3) : Dec Instr :=
  match x.f with
  | 0 => x.pps .badd2 | 1 => x.pps .bsub2 | 2 => x.pps .bmul2 | 3 => x.pps .bfma2
  | 4 => x.pps .bmin2 | 5 => x.pps .bmax2 | 6 => x.pps .bdot2 | _ => .error .illegalOp

/-- Major 0x15 (R144, R145). -/
def decCvt (x : A3) : Dec Instr :=
  match x.f with
  | 0 => x.pps .cvt | 1 => x.pps .cvpack | 2 => x.pps .cvunpk | 3 => x.pps .cvi | 4 => x.pps .cvsat
  | _ => .error .illegalOp

/-- Operation codes of WREDF and WSCANF (R148). -/
def decRedF (n : Nat) : Dec RedF :=
  match n with
  | 0 => .ok .sum | 1 => .ok .max | 2 => .ok .min | _ => .error .illegalOp

/-- Operation codes of WREDI and WSCANI (R148). -/
def decRedI (n : Nat) : Dec RedI :=
  match n with
  | 0 => .ok .add | 1 => .ok .minI | 2 => .ok .maxI | 3 => .ok .minN
  | 4 => .ok .maxN | 5 => .ok .and | 6 => .ok .or | _ => .ok .xor

/-- Operation codes of VOTE (R148). -/
def decVote (n : Nat) : Dec VoteOp :=
  match n with
  | 0 => .ok .all | 1 => .ok .any | 2 => .ok .uni | 3 => .ok .count | _ => .error .illegalOp

/-- Operation codes of MATCH (R148). -/
def decMatch (n : Nat) : Dec MatchOp :=
  match n with
  | 0 => .ok .leader | 1 => .ok .count | 2 => .ok .rank | _ => .error .illegalOp

/-- The B field of a reduction, scan, vote or match: the code in bits 2:0, EXCL in bit 3, bits 6:4 zero (R148). -/
def decRed {α : Type} (x : A3) (code : Nat → Dec α) (excl : Bool) (k : α → Bool → PReg → PReg → Instr) : Dec Instr := do
  let op ← code (x.b % 8)
  noLit x.lit
  zero (x.b / 16)
  if !excl then zero (x.b / 8)
  let d ← decPReg x.d
  let a ← decPReg x.a
  .ok (k op (x.b / 8 % 2 == 1) d a)

/-- Major 0x16 (R147 to R150). -/
def decXthread (x : A3) : Dec Instr :=
  match x.f with
  | 0 => x.pps .shfl | 1 => x.pps .shflx
  | 2 => decRed x decRedF false fun op _ => .wredf op
  | 3 => decRed x decRedI false fun op _ => .wredi op
  | 4 => decRed x decRedF true .wscanf
  | 5 => decRed x decRedI true .wscani
  | 6 => decRed x decVote false fun op _ => .vote op
  | _ => decRed x decMatch false fun op _ => .matchT op

/-- Major 0x00 (R155). -/
def decSys (x : A3) : Dec Instr :=
  match x.f with
  | 0 => x.none0 .nop
  | 1 => x.none0 .yield
  | 2 => x.none0 .waitla
  | 3 => do zero x.d; zero x.a; let n ← x.ssrc; .ok (.sleep n)
  | 4 => do zero x.d; zero x.a; zero x.b; .ok (.trap x.lit)
  | 5 => do
    zero x.d; zero x.a; noLit x.lit
    match x.b with
    | 0 => .ok .tret
    | 1 => .ok .tretSkip
    | _ => .error .reservedField
  | 6 => x.none0 .xdone
  | _ => x.none0 .edone

/-- Major 0x1C (R165 to R170). -/
def decFlow (x : A3) : Dec Instr :=
  match x.f with
  | 0 => do zero x.d; zero x.b; let a ← decPReg x.a; .ok (.calli a x.lit)
  | 1 => x.none0 .ret
  | 2 => do zero x.d; let a ← decM x.a; x.noB; .ok (.join a)
  | 3 => do zero x.d; let a ← decM x.a; x.noB; .ok (mdropOf a)
  | 4 => x.none0 .exit
  | 5 => do let d ← decS x.d; let a ← decMz x.a; x.noB; .ok (.elect d a)
  | 6 => do zero x.d; zero x.b; let a ← decPReg x.a; .ok (.bri a x.lit)
  | _ => .error .illegalOp

/-- The level codes of R177. -/
def decLevel (n : Nat) : Dec BarLevel :=
  match n with
  | 0 => .ok .file | 1 => .ok .core | 2 => .ok .slice | 3 => .ok .cluster | _ => .error .reservedField

/-- Major 0x1E (R177, R178). -/
def decBar (x : A3) : Dec Instr :=
  match x.f with
  | 0 => x.none0 .barFile | 1 => x.none0 .barCore | 2 => x.none0 .barSlice | 3 => x.none0 .barCluster
  | 4 => do let d ← decS x.d; zero x.a; let l ← decLevel x.b; noLit x.lit; .ok (.bararr d l)
  | 5 => do zero x.d; let a ← decS x.a; let l ← decLevel x.b; noLit x.lit; .ok (.barwait l a)
  | 6 => do let d ← decS x.d; zero x.a; let l ← decLevel x.b; noLit x.lit; .ok (.barqry d l)
  | _ => .error .illegalOp

/-- The modes of QBIND (R205). -/
def decQMode (n : Nat) : Dec QMode :=
  match n with
  | 0 => .ok .recv | 1 => .ok .send | 2 => .ok .rng | _ => .error .reservedField

/-- Major 0x30 (R205). -/
def decQport (x : A3) : Dec Instr :=
  match x.f with
  | 0 => do let d ← decQ x.d; let a ← decS x.a; let m ← decQMode x.b; noLit x.lit; .ok (.qbind d a m)
  | 1 => do let d ← decQ x.d; zero x.a; x.noB; .ok (qunbindOf d)
  | 2 => do let d ← decQ x.d; zero x.a; let n ← x.ssrc; .ok (.qfree d n)
  | 3 => do let d ← decPReg x.d; let a ← decQ x.a; x.noB; .ok (.qpeek d a)
  | 4 => do let d ← decQ x.d; let a ← decCap x.a; let n ← x.ssrc; .ok (.qremote d a n)
  | 5 => do zero x.d; let a ← decS x.a; let n ← x.ssrc; .ok (.dwinit a n)
  | 6 => do zero x.d; let a ← decS x.a; let n ← x.ssrc; .ok (.dwwait a n)
  | _ => do zero x.d; let a ← decS x.a; let n ← x.ssrc; .ok (.dwadd a n)

/-- Major 0x31 (R212). -/
def decRecipe (x : A3) : Dec Instr :=
  match x.f with
  | 0 => x.none0 .rtag
  | 1 => do let d ← decVz x.d; zero x.a; x.noB; .ok (.rdrop d)
  | 2 => do let d ← decVz x.d; zero x.a; x.noB; .ok (.rpin d)
  | 3 => do let d ← decVz x.d; zero x.a; x.noB; .ok (.runpin d)
  | 4 => do let d ← decPReg x.d; let a ← decVz x.a; x.noB; .ok (.rqry d a)
  | 5 => do let d ← decVz x.d; zero x.a; x.noB; .ok (.rclr d)
  | _ => .error .illegalOp

/-- Major 0x34 (R218): no functions, so F is an unused field. -/
def decTcfg (x : A3) : Dec Instr := do
  zero x.f
  let d ← decCap x.d
  if x.a = 88 then do let b ← x.ssrc; .ok (.tcfg d b) else .error .reservedField

/-- The target of a relative transfer: with a literal, OFF must be 0 (R85). -/
def decTarget (off : Nat) (lit : Option Word) : Dec Target :=
  match lit with
  | some w => do zero off; .ok (.lit w)
  | none => .ok (.off (BitVec.ofNat 17 off))

/-- The fields of format S (R84). -/
structure SFmt where
  f5 : Nat
  cr : Nat
  d : Nat
  lit : Option Word

/-- The value source of WRCTL and WTARM: a register, or a literal with D = 0. -/
def SFmt.src (x : SFmt) : Dec Src :=
  match x.lit with
  | some w => do zero x.d; .ok (.lit w)
  | none => .reg <$> decPReg x.d

/-- Major 0x1D (R171 to R176). -/
def decCtrl (x : SFmt) : Dec Instr :=
  match x.f5 with
  | 0 => do let d ← decPReg x.d; zero x.cr; noLit x.lit; .ok (.rgnent d)
  | 1 => do zero x.d; noLit x.lit; .ok (.monument (BitVec.ofNat 12 x.cr))
  | 2 => do
    zero x.d; noLit x.lit
    match x.cr with
    | 0 => .ok .tmaskOff
    | 1 => .ok .tmaskOn
    | _ => .error .reservedField
  | 3 => do let d ← decPReg x.d; noLit x.lit; .ok (.rdctl d (BitVec.ofNat 12 x.cr))
  | 4 => do let a ← x.src; .ok (.wrctl (BitVec.ofNat 12 x.cr) a)
  | 5 => do
    let d ← decPReg x.d; noLit x.lit
    match x.cr with
    | 0 => .ok (.rdcyc d)
    | 1 => .ok (.rdcycTime d)
    | _ => .error .reservedField
  | 6 => do let d ← decPReg x.d; zero x.cr; noLit x.lit; .ok (.rdwt d)
  | 7 => do let a ← x.src; zero x.cr; .ok (.wtarm a)
  | _ => .error .illegalOp

/-- Scope codes of R86. -/
def decScope (n : Nat) : Dec Scope :=
  match n with
  | 0 => .ok .thread | 1 => .ok .warp | 2 => .ok .file | 3 => .ok .core | 4 => .ok .slice | 5 => .ok .cluster
  | 6 => .ok .device | 7 => .ok .host | 8 => .ok .pool | 9 => .ok .domain | 10 => .ok .system
  | _ => .error .reservedField

/-- Fence kinds of R87; KIND 5 to 7 trap with ILLEGAL_OP (R199). -/
def decFenceKind (n : Nat) : Dec FenceKind :=
  match n with
  | 0 => .ok .acq | 1 => .ok .rel | 2 => .ok .ar | 3 => .ok .sc | 4 => .ok .un | _ => .error .illegalOp

/-- Major 0x2B (R87, R199). -/
def decFence (x : SFmt) : Dec Instr :=
  match x.f5 with
  | 0 => do
    let k ← decFenceKind (x.cr / 16 % 8)
    zero x.d; noLit x.lit; zero (x.cr / 128)
    let sc ← decScope (x.cr % 16)
    .ok (.fence k sc)
  | _ => .error .illegalOp

/-- The fields of format M (R84). -/
structure MFmt where
  la : Nat
  sz : Nat
  c : Nat
  a : Nat
  d : Nat
  lit : Option Word

/-- The SZ field. -/
def decSize (n : Nat) : Size :=
  match n with
  | 0 => .byte | 1 => .half | 2 => .word | _ => .dword

/-- The atomic operations; OP 13 to 15 trap with ILLEGAL_OP (R195). -/
def decAtomOp (n : Nat) : Dec AtomOp :=
  match n with
  | 0 => .ok .swap | 1 => .ok .cas | 2 => .ok .add | 3 => .ok .and | 4 => .ok .or | 5 => .ok .xor
  | 6 => .ok .minI | 7 => .ok .maxI | 8 => .ok .minN | 9 => .ok .maxN
  | 10 => .ok .fadd | 11 => .ok .fmin | 12 => .ok .fmax | _ => .error .illegalOp

/-- LA as a window length. -/
def MFmt.laF (x : MFmt) : Fin 16 := Fin.ofNat 16 x.la

/-- The C field holds a capability code directly (R88). -/
def MFmt.cap (x : MFmt) : Fin 16 := Fin.ofNat 16 x.c

/-- The required literal of R86: DISP, OP and SCOPE. -/
def MFmt.atomLit (x : MFmt) : Dec (BitVec 24 × Nat × Nat) :=
  match x.lit with
  | none => .error .reservedField
  | some w => .ok (BitVec.ofNat 24 (w.toNat / 256), w.toNat / 16 % 16, w.toNat % 16)

/-- Majors 0x20 to 0x2A and 0x2C to 0x2E (R188 to R204). -/
def decMem (maj : Nat) (x : MFmt) : Dec Instr :=
  match maj with
  | 0x20 => do
    let a ← decPReg x.a; let d ← decPReg x.d; .ok (.ld x.laF (decSize x.sz) x.cap a d x.lit)
  | 0x21 => do
    let a ← decPReg x.a; let d ← decPReg x.d; .ok (.ldx x.laF (decSize x.sz) x.cap a d x.lit)
  | 0x22 => do
    zero x.sz; let a ← decPReg x.a; let d ← decPReg x.d; .ok (.ldq x.laF x.cap a d x.lit)
  | 0x23 => do
    zero x.la; let a ← decPReg x.a; let d ← decPReg x.d; .ok (.st (decSize x.sz) x.cap a d x.lit)
  | 0x24 => do
    zero x.la; zero x.sz; let a ← decPReg x.a; let d ← decPReg x.d; .ok (.stq x.cap a d x.lit)
  | 0x25 => do
    zero x.la; zero x.sz; let a ← decPReg x.a; let d ← decCap x.d; .ok (.cld d x.cap a x.lit)
  | 0x26 => do
    zero x.la; zero x.sz; let a ← decPReg x.a; let d ← decCap x.d; .ok (.cst d x.cap a x.lit)
  | 0x27 => do
    let (disp, op, sc) ← x.atomLit
    zero op
    let sc ← decScope sc; let a ← decPReg x.a; let d ← decPReg x.d
    .ok (.lda x.laF (decSize x.sz) x.cap a d disp sc)
  | 0x28 => do
    let (disp, op, sc) ← x.atomLit
    zero op; zero x.la
    let sc ← decScope sc; let a ← decPReg x.a; let d ← decPReg x.d
    .ok (.stl (decSize x.sz) x.cap a d disp sc)
  | 0x29 => do
    let (disp, op, sc) ← x.atomLit
    let op ← decAtomOp op; let sc ← decScope sc; let a ← decPReg x.a; let d ← decPReg x.d
    .ok (.atom x.laF (decSize x.sz) x.cap a d disp op sc)
  | 0x2A => do
    let (disp, op, sc) ← x.atomLit
    let op ← decAtomOp op; let sc ← decScope sc; let a ← decPReg x.a; let d ← decPReg x.d
    .ok (.atoms x.laF (decSize x.sz) x.cap a d disp op sc)
  | 0x2C => do
    zero x.c; let a ← decPReg x.a; let d ← decPReg x.d; .ok (.lds x.laF (decSize x.sz) a d x.lit)
  | 0x2D => do
    zero x.la; zero x.c; let a ← decPReg x.a; let d ← decPReg x.d; .ok (.sts (decSize x.sz) a d x.lit)
  | 0x2E => do
    zero x.la; let a ← decPReg x.a
    match x.d with
    | 0 => .ok (.pref false (decSize x.sz) x.cap a x.lit)
    | 1 => .ok (.pref true (decSize x.sz) x.cap a x.lit)
    | _ => .error .reservedField
  | _ => .error .illegalOp

/-- The fields of format T (R84). -/
structure TFmt where
  la : Nat
  f4 : Nat
  x : Nat
  tb : Nat
  ta : Nat
  td : Nat
  lit : Option Word

/-- The required literal of R219: STRIDE and DISP. -/
def TFmt.tileLit (x : TFmt) : Dec (BitVec 13 × BitVec 19) :=
  match x.lit with
  | none => .error .reservedField
  | some w => .ok (BitVec.ofNat 13 (w.toNat / 2 ^ 19), BitVec.ofNat 19 w.toNat)

/-- TLD, TLDT and TST: X bit 21 is SPM; F4, TB and the other X bits must be 0 (R219). -/
def TFmt.tileIo (x : TFmt) (k : Fin 16 → Bool → Fin 16 → Fin 16 → BitVec 13 → BitVec 19 → Instr) : Dec Instr := do
  let (stride, disp) ← x.tileLit
  zero x.f4; zero x.tb; zero (x.x % 2); zero (x.x / 4)
  .ok (k (Fin.ofNat 16 x.la) (x.x / 2 % 2 == 1) (Fin.ofNat 16 x.ta) (Fin.ofNat 16 x.td) stride disp)

/-- ACST and ACLD (R227). -/
def TFmt.accIo (x : TFmt) (k : Fin 16 → Fin 16 → Bool → Fin 16 → Fin 16 → BitVec 13 → BitVec 19 → Instr) :
    Dec Instr := do
  let (stride, disp) ← x.tileLit
  zero (x.x % 2); zero (x.x / 4)
  .ok (k (Fin.ofNat 16 x.la) (Fin.ofNat 16 x.tb) (x.x / 2 % 2 == 1) (Fin.ofNat 16 x.ta) (Fin.ofNat 16 x.td) stride disp)

/-- TZERO (R222): TA, TB and X must be 0 and no literal. -/
def TFmt.tzero (x : TFmt) (k : Fin 16 → Fin 16 → Instr) : Dec Instr := do
  zero x.ta; zero x.tb; zero x.x; noLit x.lit
  .ok (k (Fin.ofNat 16 x.la) (Fin.ofNat 16 x.td))

/-- Majors 0x35 to 0x3B (R219 to R228). -/
def decTile (maj : Nat) (x : TFmt) : Dec Instr :=
  match maj with
  | 0x35 => x.tileIo .tld
  | 0x36 => x.tileIo .tldt
  | 0x37 => x.tileIo .tst
  | 0x38 =>
    match x.f4 with
    | 0 => x.tzero .tzeroTile
    | 1 => x.tzero .tzeroAcc
    | _ => .error .illegalOp
  | 0x39 => do
    noLit x.lit; zero (x.x / 2)
    .ok (.mma (Fin.ofNat 16 x.la) (Fin.ofNat 16 x.f4) (x.x % 2 == 1) (Fin.ofNat 16 x.tb) (Fin.ofNat 16 x.ta)
      (Fin.ofNat 16 x.td))
  | 0x3A => do
    zero x.f4; noLit x.lit
    .ok (.scacc (Fin.ofNat 16 x.la) (Fin.ofNat 8 (x.x / 2)) (x.x % 2 == 1) (Fin.ofNat 16 x.tb) (Fin.ofNat 16 x.ta)
      (Fin.ofNat 16 x.td))
  | 0x3B =>
    match x.f4 with
    | 0 => x.accIo .acst
    | 1 => x.accIo .acld
    | _ => .error .illegalOp
  | _ => .error .illegalOp

/-- The fields of format E (R84). -/
structure EFmt where
  la : Nat
  f : Nat
  g : Nat
  a : Nat
  d : Nat
  lit : Option Word

/-- The copies: an engine capability in A, the descriptor's first `s` register in D, no literal (R229, R230). -/
def EFmt.copy (x : EFmt) (k : Fin 16 → Fin 64 → Fin 16 → Instr) : Dec Instr := do
  noLit x.lit
  let a ← decEngCap x.a; let d ← decS x.d
  .ok (k (Fin.ofNat 16 x.la) d a)

/-- Major 0x3C (R230). -/
def decCpy (x : EFmt) : Dec Instr :=
  match x.f, x.g with
  | 0, 0 => x.copy .cpy | 0, 1 => x.copy .cpyTile
  | 1, 0 => x.copy .cpyout | 1, 1 => x.copy .cpyoutTile
  | 2, 0 => x.copy .cpyr | 2, 1 => x.copy .cpyrQ
  | 3, 0 => x.copy .cpyg | 3, 1 => x.copy .cpygTile
  | f, _ => if f < 4 then .error .reservedField else .error .illegalOp

/-- A number from an `s` register, or from a literal beside `z` (88) in the field (R235, R237). -/
def decSZ (n : Nat) (lit : Option Word) : Dec SSrc :=
  match lit with
  | some w => if n = 88 then .ok (.lit w) else .error .reservedField
  | none => .reg <$> decS n

/-- Major 0x3D (R235). -/
def decBatch (x : EFmt) : Dec Instr :=
  match x.f with
  | 0 => do zero x.la; zero x.g; noLit x.lit; zero x.a; let d ← decS x.d; .ok (.bseal d)
  | 1 => do zero x.la; zero x.g; zero x.d; let n ← decSZ x.a x.lit; .ok (.bwait n)
  | 2 => do zero x.la; zero x.g; let d ← decS x.d; let n ← decSZ x.a x.lit; .ok (.btest d n)
  | _ => .error .illegalOp

/-- The literal of CHAPP and SMPL: the staging capability code in bits 3:0, bits 31:4 zero (R237). -/
def decStaging (lit : Option Word) : Dec (Fin 16) :=
  match lit with
  | none => .error .reservedField
  | some w => decCap w.toNat

/-- Major 0x3E (R237). -/
def decChain (x : EFmt) : Dec Instr :=
  match x.f with
  | 0 => do
    zero x.la; zero x.g; let s ← decStaging x.lit; let a ← decEngCap x.a; let d ← decS x.d; .ok (.chapp d a s)
  | 1 => do
    zero x.g; zero x.d; noLit x.lit; let a ← decEngCap x.a; .ok (.chtail (Fin.ofNat 16 x.la) a)
  | 2 => do zero x.la; zero x.g; let a ← decEngCap x.a; let n ← decSZ x.d x.lit; .ok (.chwait a n)
  | 3 => do zero x.la; zero x.g; noLit x.lit; let a ← decEngCap x.a; let d ← decS x.d; .ok (.chseq d a)
  | _ => .error .illegalOp

/-- Major 0x3F (R239). -/
def decSpec (x : EFmt) : Dec Instr :=
  match x.f with
  | 0 => do zero x.la; zero x.g; noLit x.lit; let d ← decEngCap x.d; let a ← decS x.a; .ok (.kvwin d a)
  | 1 => do zero x.la; zero x.g; noLit x.lit; zero x.d; let a ← decS x.a; .ok (.kvcommit a)
  | 2 => do zero x.la; zero x.g; noLit x.lit; zero x.d; let a ← decS x.a; .ok (.kvabort a)
  | 3 => do zero x.la; zero x.g; noLit x.lit; let d ← decS x.d; let a ← decS x.a; .ok (.kvlen d a)
  | 4 => do
    zero x.la; zero x.g; let s ← decStaging x.lit; let a ← decEngCap x.a; let d ← decS x.d; .ok (.smpl d a s)
  | _ => .error .illegalOp

/-! ### Whole words -/

/-- The compact operations 0 to 14 (R82). -/
def compactOp (op : Nat) (d b : PReg) : Instr :=
  match op with
  | 0 => .compactIadd d b | 1 => .compactIsub d b | 2 => .compactAnd d b | 3 => .compactOr d b
  | 4 => .compactXor d b | 5 => .compactShl d b | 6 => .compactShr d b | 7 => .compactMov d b
  | 8 => .compactFadd d b | 9 => .compactFfma d b | 10 => .compactFmul d b | 11 => .compactFmax d b
  | 12 => .compactFmin d b | 13 => .compactImul d b | _ => .compactHadd2 d b

/-- A 16-bit instruction (R81, R82). -/
def decCompact (w : Nat) : Dec Instr := do
  let d ← decDA (bits w 5 6)
  if bits w 1 4 = 15 then .ok (.compactMovi d (BitVec.ofNat 5 (bits w 11 5)))
  else do
    let b ← decB (bits w 11 5)
    .ok (compactOp (bits w 1 4) d b)

/-- Formats A3 and U of a 32-bit word. -/
def a3Of (w : Nat) (lit : Option Word) : A3 := ⟨bits w 29 3, bits w 22 7, bits w 15 7, bits w 8 7, lit⟩

/-- Format M. -/
def mOf (w : Nat) (lit : Option Word) : MFmt := ⟨bits w 28 4, bits w 26 2, bits w 22 4, bits w 15 7, bits w 8 7, lit⟩

/-- Format T. -/
def tOf (w : Nat) (lit : Option Word) : TFmt :=
  ⟨bits w 28 4, bits w 24 4, bits w 20 4, bits w 16 4, bits w 12 4, bits w 8 4, lit⟩

/-- Format S. -/
def sOf (w : Nat) (lit : Option Word) : SFmt := ⟨bits w 27 5, bits w 15 12, bits w 8 7, lit⟩

/-- Format E. -/
def eOf (w : Nat) (lit : Option Word) : EFmt := ⟨bits w 28 4, bits w 24 4, bits w 22 2, bits w 15 7, bits w 8 7, lit⟩

/-- Format J: BRA and CALL take a mask or z, BRV a per-thread register, BRU an `s` register or z (R164). -/
def decJump (maj w : Nat) (lit : Option Word) : Dec Instr := do
  let t ← decTarget (bits w 15 17) lit
  match maj with
  | 0x18 => do let a ← decMz (bits w 8 7); .ok (.bra a t)
  | 0x19 => do let a ← decPReg (bits w 8 7); .ok (.brv a t)
  | 0x1A => do let a ← decSReg (bits w 8 7); .ok (.bru a t)
  | _ => do let a ← decMz (bits w 8 7); .ok (.call a t)

/-- Bit 7 of formats A3, U, M, J, S and E lies above D or A in bits 14:8; bit 15:12 of format T are TA. A 32-bit word with
its literal, by major (R93). -/
def decWord (w : Nat) (lit : Option Word) : Dec Instr :=
  match bits w 2 6 with
  | 0x00 => decSys (a3Of w lit)
  | 0x01 => decIarith (a3Of w lit)
  | 0x02 => decIminmax (a3Of w lit)
  | 0x03 => decLogic (a3Of w lit)
  | 0x04 => decBits (a3Of w lit)
  | 0x05 => decImisc (a3Of w lit)
  | 0x06 => decIcmp (a3Of w lit)
  | 0x07 => decCapMajor (a3Of w lit)
  | 0x08 => decUarith (a3Of w lit)
  | 0x09 => decUminmax (a3Of w lit)
  | 0x0A => decUlogic (a3Of w lit)
  | 0x0B => decUbits (a3Of w lit)
  | 0x0C => decUcmp (a3Of w lit)
  | 0x0D => decMaskop (a3Of w lit)
  | 0x10 => decFarith (a3Of w lit)
  | 0x11 => decFcmp (a3Of w lit)
  | 0x12 => decFspec (a3Of w lit)
  | 0x13 => decHpack (a3Of w lit)
  | 0x14 => decBpack (a3Of w lit)
  | 0x15 => decCvt (a3Of w lit)
  | 0x16 => decXthread (a3Of w lit)
  | 0x18 => decJump 0x18 w lit
  | 0x19 => decJump 0x19 w lit
  | 0x1A => decJump 0x1A w lit
  | 0x1B => decJump 0x1B w lit
  | 0x1C => decFlow (a3Of w lit)
  | 0x1D => decCtrl (sOf w lit)
  | 0x1E => decBar (a3Of w lit)
  | 0x20 => decMem 0x20 (mOf w lit)
  | 0x21 => decMem 0x21 (mOf w lit)
  | 0x22 => decMem 0x22 (mOf w lit)
  | 0x23 => decMem 0x23 (mOf w lit)
  | 0x24 => decMem 0x24 (mOf w lit)
  | 0x25 => decMem 0x25 (mOf w lit)
  | 0x26 => decMem 0x26 (mOf w lit)
  | 0x27 => decMem 0x27 (mOf w lit)
  | 0x28 => decMem 0x28 (mOf w lit)
  | 0x29 => decMem 0x29 (mOf w lit)
  | 0x2A => decMem 0x2A (mOf w lit)
  | 0x2B => decFence (sOf w lit)
  | 0x2C => decMem 0x2C (mOf w lit)
  | 0x2D => decMem 0x2D (mOf w lit)
  | 0x2E => decMem 0x2E (mOf w lit)
  | 0x30 => decQport (a3Of w lit)
  | 0x31 => decRecipe (a3Of w lit)
  | 0x34 => decTcfg (a3Of w lit)
  | 0x35 => decTile 0x35 (tOf w lit)
  | 0x36 => decTile 0x36 (tOf w lit)
  | 0x37 => decTile 0x37 (tOf w lit)
  | 0x38 => decTile 0x38 (tOf w lit)
  | 0x39 => decTile 0x39 (tOf w lit)
  | 0x3A => decTile 0x3A (tOf w lit)
  | 0x3B => decTile 0x3B (tOf w lit)
  | 0x3C => decCpy (eOf w lit)
  | 0x3D => decBatch (eOf w lit)
  | 0x3E => decChain (eOf w lit)
  | 0x3F => decSpec (eOf w lit)
  | _ => .error .illegalOp

/-- An instruction that breaks a rule of `Instr.wf` traps with RESERVED_FIELD. -/
def checked (r : Dec Instr) : Dec Instr :=
  match r with
  | .ok i => if i.wf then .ok i else .error .reservedField
  | .error e => .error e

/-- The length in bytes that the first halfword gives (R79). -/
def lengthOf (first : Nat) : Nat := if first % 2 = 0 then 2 else if first / 2 % 2 = 0 then 4 else 8

/-- An instruction from its first halfword or word and, for 64 bits, its literal word. -/
def decodeParts (first : Nat) (lit : Word) : Dec Instr :=
  checked (if first % 2 = 0 then decCompact first
    else if first / 2 % 2 = 0 then decWord first none
    else decWord first (some lit))

/-- THE DECODER: the instruction at the head of a list of bytes, with its length. (Log 84 DEDUCED.) -/
def decode (bs : List Byte) : Dec (Instr × Nat) :=
  match bs with
  | b0 :: b1 :: r =>
    let h := leNat [b0, b1]
    let n := lengthOf h
    if r.length + 2 < n then .error .short
    else if n = 2 then (·, 2) <$> decodeParts h 0
    else if n = 4 then (·, 4) <$> decodeParts (leNat (bs.take 4)) 0
    else (·, 8) <$> decodeParts (leNat (bs.take 4)) (BitVec.ofNat 32 (leNat ((bs.drop 4).take 4)))
  | _ => .error .short

/-- The instruction that the decoder reads from an instruction whose bits are `w`, bit 0 the least significant bit of its
first byte; bits above `nbits` are 0, up to the longest instruction of 8 bytes. -/
def decodeTableWord (nbits w : Nat) : Option Instr :=
  match decode (natLE 8 (w % 2 ^ nbits)) with
  | .ok (i, _) => some i
  | .error _ => none

/-! ### The encoder -/

/-- The per-thread register number (R89). -/
def PReg.code : PReg → Nat
  | .v n => n.val
  | .o n => 96 + n.val
  | .y n => 104 + n.val
  | .z => 106
  | .tid => 107
  | .q n => 112 + n.val

/-- The DA code of the compact form (R81). -/
def PReg.codeDA : PReg → Nat
  | .v n => n.val
  | .o n => 32 + n.val
  | .y n => 40 + n.val
  | _ => 42

/-- The B code of the compact form (R81). -/
def PReg.codeB : PReg → Nat
  | .v n => n.val
  | .o n => 16 + n.val
  | .y n => 24 + n.val
  | .tid => 27
  | _ => 26

/-- The uniform number of an `s` register or z. -/
def SReg.code : SReg → Nat
  | .s n => n.val
  | .z => 88

/-- The B field of a per-thread source: 0 beside a literal (R85). -/
def Src.code : Src → Nat
  | .reg r => r.code
  | .lit _ => 0

/-- The literal of a per-thread source. -/
def Src.lit? : Src → Option Word
  | .reg _ => none
  | .lit w => some w

/-- The B field of a uniform source. -/
def USrc.code : USrc → Nat
  | .reg r => r.code
  | .lit _ => 0

/-- The literal of a uniform source. -/
def USrc.lit? : USrc → Option Word
  | .reg _ => none
  | .lit w => some w

/-- The B field of an `s` source. -/
def SSrc.code : SSrc → Nat
  | .reg n => n.val
  | .lit _ => 0

/-- The field of an `s` source where a literal stands beside z. -/
def SSrc.codeZ : SSrc → Nat
  | .reg n => n.val
  | .lit _ => 88

/-- The literal of an `s` source. -/
def SSrc.lit? : SSrc → Option Word
  | .reg _ => none
  | .lit w => some w

/-- A mask's uniform number, or z. -/
def maskCode : Option (Fin 16) → Nat
  | none => 88
  | some m => 64 + m.val

/-- A `v` number, or z. -/
def vzCode : Option (Fin 96) → Nat
  | none => 106
  | some n => n.val

/-- The engine number of a capability (R89). -/
def engCap (c : Fin 16) : Nat := if c.val < 8 then 96 + c.val else 72 + c.val

/-- The SZ code. -/
def Size.code : Size → Nat
  | .byte => 0 | .half => 1 | .word => 2 | .dword => 3

/-- The scope code (R86). -/
def Scope.code : Scope → Nat
  | .thread => 0 | .warp => 1 | .file => 2 | .core => 3 | .slice => 4 | .cluster => 5
  | .device => 6 | .host => 7 | .pool => 8 | .domain => 9 | .system => 10

/-- The fence kind (R87). -/
def FenceKind.code : FenceKind → Nat
  | .acq => 0 | .rel => 1 | .ar => 2 | .sc => 3 | .un => 4

/-- The atomic OP (R195). -/
def AtomOp.code : AtomOp → Nat
  | .swap => 0 | .cas => 1 | .add => 2 | .and => 3 | .or => 4 | .xor => 5 | .minI => 6 | .maxI => 7
  | .minN => 8 | .maxN => 9 | .fadd => 10 | .fmin => 11 | .fmax => 12

/-- The code of R148. -/
def RedF.code : RedF → Nat
  | .sum => 0 | .max => 1 | .min => 2

/-- The code of R148. -/
def RedI.code : RedI → Nat
  | .add => 0 | .minI => 1 | .maxI => 2 | .minN => 3 | .maxN => 4 | .and => 5 | .or => 6 | .xor => 7

/-- The code of R148. -/
def VoteOp.code : VoteOp → Nat
  | .all => 0 | .any => 1 | .uni => 2 | .count => 3

/-- The code of R148. -/
def MatchOp.code : MatchOp → Nat
  | .leader => 0 | .count => 1 | .rank => 2

/-- The mode of QBIND (R205). -/
def QMode.code : QMode → Nat
  | .recv => 0 | .send => 1 | .rng => 2

/-- The level code (R177). -/
def BarLevel.code : BarLevel → Nat
  | .file => 0 | .core => 1 | .slice => 2 | .cluster => 3

/-- The words of an instruction. -/
inductive Words where
  | half (w : Nat)
  | word (w : Nat) (lit : Option Word)
  deriving DecidableEq, Repr

/-- The compact form (R81). -/
def encCompact (op d b : Nat) : Words := .half (b * 2 ^ 11 + d * 2 ^ 5 + op * 2)

/-- Bits 7:0 of a 32-bit word: MAJ, L and 1 (R83). -/
def encLow (maj : Nat) (lit : Option Word) : Nat := maj * 4 + (if lit.isSome then 3 else 1)

/-- Formats A3 and U (R84). -/
def encA3 (maj f d a b : Nat) (lit : Option Word) : Words :=
  .word (f * 2 ^ 29 + b * 2 ^ 22 + a * 2 ^ 15 + d * 2 ^ 8 + encLow maj lit) lit

/-- Format M (R84). -/
def encM (maj la sz c a d : Nat) (lit : Option Word) : Words :=
  .word (la * 2 ^ 28 + sz * 2 ^ 26 + c * 2 ^ 22 + a * 2 ^ 15 + d * 2 ^ 8 + encLow maj lit) lit

/-- Format T (R84). -/
def encT (maj la f4 x tb ta td : Nat) (lit : Option Word) : Words :=
  .word (la * 2 ^ 28 + f4 * 2 ^ 24 + x * 2 ^ 20 + tb * 2 ^ 16 + ta * 2 ^ 12 + td * 2 ^ 8 + encLow maj lit) lit

/-- Format J (R84, R85). -/
def encJ (maj a : Nat) : Target → Words
  | .off n => .word (n.toNat * 2 ^ 15 + a * 2 ^ 8 + encLow maj none) none
  | .lit w => .word (a * 2 ^ 8 + encLow maj (some w)) (some w)

/-- Format S (R84). -/
def encS (maj f5 d cr : Nat) (lit : Option Word) : Words :=
  .word (f5 * 2 ^ 27 + cr * 2 ^ 15 + d * 2 ^ 8 + encLow maj lit) lit

/-- Format E (R84). -/
def encE (maj la f g a d : Nat) (lit : Option Word) : Words :=
  .word (la * 2 ^ 28 + f * 2 ^ 24 + g * 2 ^ 22 + a * 2 ^ 15 + d * 2 ^ 8 + encLow maj lit) lit

/-- The literal of R86. -/
def encAtomLit (disp : BitVec 24) (op : Nat) (sc : Scope) : Word :=
  BitVec.ofNat 32 (disp.toNat * 256 + op * 16 + sc.code)

/-- The literal of R219. -/
def encTileLit (stride : BitVec 13) (disp : BitVec 19) : Word :=
  BitVec.ofNat 32 (stride.toNat * 2 ^ 19 + disp.toNat)

/-- The words of an instruction (none for an event, which has no encoding). -/
def words : Instr → Option Words
  | .compactIadd d b => some (encCompact 0 d.codeDA b.codeB)
  | .compactIsub d b => some (encCompact 1 d.codeDA b.codeB)
  | .compactAnd d b => some (encCompact 2 d.codeDA b.codeB)
  | .compactOr d b => some (encCompact 3 d.codeDA b.codeB)
  | .compactXor d b => some (encCompact 4 d.codeDA b.codeB)
  | .compactShl d b => some (encCompact 5 d.codeDA b.codeB)
  | .compactShr d b => some (encCompact 6 d.codeDA b.codeB)
  | .compactMov d b => some (encCompact 7 d.codeDA b.codeB)
  | .compactFadd d b => some (encCompact 8 d.codeDA b.codeB)
  | .compactFfma d b => some (encCompact 9 d.codeDA b.codeB)
  | .compactFmul d b => some (encCompact 10 d.codeDA b.codeB)
  | .compactFmax d b => some (encCompact 11 d.codeDA b.codeB)
  | .compactFmin d b => some (encCompact 12 d.codeDA b.codeB)
  | .compactImul d b => some (encCompact 13 d.codeDA b.codeB)
  | .compactHadd2 d b => some (encCompact 14 d.codeDA b.codeB)
  | .compactMovi d n => some (encCompact 15 d.codeDA n.toNat)
  | .iadd d a b => some (encA3 1 0 d.code a.code b.code b.lit?)
  | .isub d a b => some (encA3 1 1 d.code a.code b.code b.lit?)
  | .imul d a b => some (encA3 1 2 d.code a.code b.code b.lit?)
  | .imulhI d a b => some (encA3 1 3 d.code a.code b.code b.lit?)
  | .imulhN d a b => some (encA3 1 4 d.code a.code b.code b.lit?)
  | .iaddsI d a b => some (encA3 1 5 d.code a.code b.code b.lit?)
  | .iaddsN d a b => some (encA3 1 6 d.code a.code b.code b.lit?)
  | .iabsd d a b => some (encA3 1 7 d.code a.code b.code b.lit?)
  | .iminI d a b => some (encA3 2 0 d.code a.code b.code b.lit?)
  | .iminN d a b => some (encA3 2 1 d.code a.code b.code b.lit?)
  | .imaxI d a b => some (encA3 2 2 d.code a.code b.code b.lit?)
  | .imaxN d a b => some (encA3 2 3 d.code a.code b.code b.lit?)
  | .idivI d a b => some (encA3 2 4 d.code a.code b.code b.lit?)
  | .idivN d a b => some (encA3 2 5 d.code a.code b.code b.lit?)
  | .iremI d a b => some (encA3 2 6 d.code a.code b.code b.lit?)
  | .iremN d a b => some (encA3 2 7 d.code a.code b.code b.lit?)
  | .and d a b => some (encA3 3 0 d.code a.code b.code b.lit?)
  | .or d a b => some (encA3 3 1 d.code a.code b.code b.lit?)
  | .xor d a b => some (encA3 3 2 d.code a.code b.code b.lit?)
  | .andn d a b => some (encA3 3 3 d.code a.code b.code b.lit?)
  | .shl d a b => some (encA3 3 4 d.code a.code b.code b.lit?)
  | .shr d a b => some (encA3 3 5 d.code a.code b.code b.lit?)
  | .sar d a b => some (encA3 3 6 d.code a.code b.code b.lit?)
  | .rol d a b => some (encA3 3 7 d.code a.code b.code b.lit?)
  | .popc d a => some (encA3 4 0 d.code a.code 0 none)
  | .clz d a => some (encA3 4 1 d.code a.code 0 none)
  | .brev d a => some (encA3 4 2 d.code a.code 0 none)
  | .bfxI d a b => some (encA3 4 3 d.code a.code b.code b.lit?)
  | .bfxN d a b => some (encA3 4 4 d.code a.code b.code b.lit?)
  | .bfi d a b => some (encA3 4 5 d.code a.code b.code b.lit?)
  | .permb d a b => some (encA3 4 6 d.code a.code b.code b.lit?)
  | .mov d b => some (encA3 4 7 d.code 106 b.code b.lit?)
  | .imad d a b => some (encA3 5 0 d.code a.code b.code b.lit?)
  | .imadw d a b => some (encA3 5 1 d.code a.code b.code b.lit?)
  | .isel d a b => some (encA3 5 2 d.code a.code b.code b.lit?)
  | .lea d a b => some (encA3 5 3 d.code a.code b.code b.lit?)
  | .icmpEq m a b => some (encA3 6 0 (64 + m.val) a.code b.code b.lit?)
  | .icmpNe m a b => some (encA3 6 1 (64 + m.val) a.code b.code b.lit?)
  | .icmpLtI m a b => some (encA3 6 2 (64 + m.val) a.code b.code b.lit?)
  | .icmpLeI m a b => some (encA3 6 3 (64 + m.val) a.code b.code b.lit?)
  | .icmpLtN m a b => some (encA3 6 4 (64 + m.val) a.code b.code b.lit?)
  | .icmpLeN m a b => some (encA3 6 5 (64 + m.val) a.code b.code b.lit?)
  | .icmpTest m a b => some (encA3 6 6 (64 + m.val) a.code b.code b.lit?)
  | .icmpNtest m a b => some (encA3 6 7 (64 + m.val) a.code b.code b.lit?)
  | .capadd d a b => some (encA3 7 0 d.val a.val b.code b.lit?)
  | .capset d a b => some (encA3 7 1 d.val a.val b.code b.lit?)
  | .capnar d a b => some (encA3 7 2 d.val a.val b.code b.lit?)
  | .caprm d a b => some (encA3 7 3 d.val a.val b.code b.lit?)
  | .capget d a b => some (encA3 7 4 d.code a.val b.code b.lit?)
  | .capchk d a b => some (encA3 7 5 d.code a.val b.code b.lit?)
  | .capmov d a => some (encA3 7 6 d.val a.val 0 none)
  | .caplen d a => some (encA3 7 7 d.code a.val 0 none)
  | .uarithIadd d a b => some (encA3 8 0 d.code a.code b.code b.lit?)
  | .uarithIsub d a b => some (encA3 8 1 d.code a.code b.code b.lit?)
  | .uarithImul d a b => some (encA3 8 2 d.code a.code b.code b.lit?)
  | .uarithImulhI d a b => some (encA3 8 3 d.code a.code b.code b.lit?)
  | .uarithImulhN d a b => some (encA3 8 4 d.code a.code b.code b.lit?)
  | .uarithIaddsI d a b => some (encA3 8 5 d.code a.code b.code b.lit?)
  | .uarithIaddsN d a b => some (encA3 8 6 d.code a.code b.code b.lit?)
  | .uarithIabsd d a b => some (encA3 8 7 d.code a.code b.code b.lit?)
  | .uminmaxIminI d a b => some (encA3 9 0 d.code a.code b.code b.lit?)
  | .uminmaxIminN d a b => some (encA3 9 1 d.code a.code b.code b.lit?)
  | .uminmaxImaxI d a b => some (encA3 9 2 d.code a.code b.code b.lit?)
  | .uminmaxImaxN d a b => some (encA3 9 3 d.code a.code b.code b.lit?)
  | .uminmaxIdivI d a b => some (encA3 9 4 d.code a.code b.code b.lit?)
  | .uminmaxIdivN d a b => some (encA3 9 5 d.code a.code b.code b.lit?)
  | .uminmaxIremI d a b => some (encA3 9 6 d.code a.code b.code b.lit?)
  | .uminmaxIremN d a b => some (encA3 9 7 d.code a.code b.code b.lit?)
  | .ulogicAnd d a b => some (encA3 10 0 d.code a.code b.code b.lit?)
  | .ulogicOr d a b => some (encA3 10 1 d.code a.code b.code b.lit?)
  | .ulogicXor d a b => some (encA3 10 2 d.code a.code b.code b.lit?)
  | .ulogicAndn d a b => some (encA3 10 3 d.code a.code b.code b.lit?)
  | .ulogicShl d a b => some (encA3 10 4 d.code a.code b.code b.lit?)
  | .ulogicShr d a b => some (encA3 10 5 d.code a.code b.code b.lit?)
  | .ulogicSar d a b => some (encA3 10 6 d.code a.code b.code b.lit?)
  | .ulogicRol d a b => some (encA3 10 7 d.code a.code b.code b.lit?)
  | .ubitsPopc d a => some (encA3 11 0 d.code a.code 0 none)
  | .ubitsClz d a => some (encA3 11 1 d.code a.code 0 none)
  | .ubitsBrev d a => some (encA3 11 2 d.code a.code 0 none)
  | .ubitsBfxI d a b => some (encA3 11 3 d.code a.code b.code b.lit?)
  | .ubitsBfxN d a b => some (encA3 11 4 d.code a.code b.code b.lit?)
  | .ubitsBfi d a b => some (encA3 11 5 d.code a.code b.code b.lit?)
  | .ubitsPermb d a b => some (encA3 11 6 d.code a.code b.code b.lit?)
  | .ubitsMov d b => some (encA3 11 7 d.code 88 b.code b.lit?)
  | .ucmpEq d a b => some (encA3 12 0 d.code a.code b.code b.lit?)
  | .ucmpNe d a b => some (encA3 12 1 d.code a.code b.code b.lit?)
  | .ucmpLtI d a b => some (encA3 12 2 d.code a.code b.code b.lit?)
  | .ucmpLeI d a b => some (encA3 12 3 d.code a.code b.code b.lit?)
  | .ucmpLtN d a b => some (encA3 12 4 d.code a.code b.code b.lit?)
  | .ucmpLeN d a b => some (encA3 12 5 d.code a.code b.code b.lit?)
  | .ucmpTest d a b => some (encA3 12 6 d.code a.code b.code b.lit?)
  | .ucmpNtest d a b => some (encA3 12 7 d.code a.code b.code b.lit?)
  | .movs d a => some (encA3 13 0 d.code a.code 0 none)
  | .ureadf d a => some (encA3 13 1 d.val a.code 0 none)
  | .mpop d a => some (encA3 13 2 d.val (64 + a.val) 0 none)
  | .mfind d a b => some (encA3 13 3 d.val (64 + a.val) b.code b.lit?)
  | .mand d a b => some (encA3 13 4 (64 + d.val) (64 + a.val) (64 + b.val) none)
  | .mor d a b => some (encA3 13 5 (64 + d.val) (64 + a.val) (64 + b.val) none)
  | .mxor d a b => some (encA3 13 6 (64 + d.val) (64 + a.val) (64 + b.val) none)
  | .fadd d a b => some (encA3 16 0 d.code a.code b.code b.lit?)
  | .fsub d a b => some (encA3 16 1 d.code a.code b.code b.lit?)
  | .fmul d a b => some (encA3 16 2 d.code a.code b.code b.lit?)
  | .ffma d a b => some (encA3 16 3 d.code a.code b.code b.lit?)
  | .fmin d a b => some (encA3 16 4 d.code a.code b.code b.lit?)
  | .fmax d a b => some (encA3 16 5 d.code a.code b.code b.lit?)
  | .fscale d a b => some (encA3 16 6 d.code a.code b.code b.lit?)
  | .fcopys d a b => some (encA3 16 7 d.code a.code b.code b.lit?)
  | .fcmpEq m a b => some (encA3 17 0 (64 + m.val) a.code b.code b.lit?)
  | .fcmpNe m a b => some (encA3 17 1 (64 + m.val) a.code b.code b.lit?)
  | .fcmpLt m a b => some (encA3 17 2 (64 + m.val) a.code b.code b.lit?)
  | .fcmpLe m a b => some (encA3 17 3 (64 + m.val) a.code b.code b.lit?)
  | .fcmpUnord m a b => some (encA3 17 4 (64 + m.val) a.code b.code b.lit?)
  | .fcmpOrd m a b => some (encA3 17 5 (64 + m.val) a.code b.code b.lit?)
  | .fcmpIsnan m a => some (encA3 17 6 (64 + m.val) a.code 0 none)
  | .fcmpIsinf m a => some (encA3 17 7 (64 + m.val) a.code 0 none)
  | .frcp d a => some (encA3 18 0 d.code a.code 0 none)
  | .frsq d a => some (encA3 18 1 d.code a.code 0 none)
  | .fsqrt d a => some (encA3 18 2 d.code a.code 0 none)
  | .fexp2 d a => some (encA3 18 3 d.code a.code 0 none)
  | .flog2 d a => some (encA3 18 4 d.code a.code 0 none)
  | .ftanh d a => some (encA3 18 5 d.code a.code 0 none)
  | .fdiv d a b => some (encA3 18 6 d.code a.code b.code b.lit?)
  | .frint d a => some (encA3 18 7 d.code a.code 0 none)
  | .hadd2 d a b => some (encA3 19 0 d.code a.code b.code b.lit?)
  | .hsub2 d a b => some (encA3 19 1 d.code a.code b.code b.lit?)
  | .hmul2 d a b => some (encA3 19 2 d.code a.code b.code b.lit?)
  | .hfma2 d a b => some (encA3 19 3 d.code a.code b.code b.lit?)
  | .hmin2 d a b => some (encA3 19 4 d.code a.code b.code b.lit?)
  | .hmax2 d a b => some (encA3 19 5 d.code a.code b.code b.lit?)
  | .dot2 d a b => some (encA3 19 6 d.code a.code b.code b.lit?)
  | .badd2 d a b => some (encA3 20 0 d.code a.code b.code b.lit?)
  | .bsub2 d a b => some (encA3 20 1 d.code a.code b.code b.lit?)
  | .bmul2 d a b => some (encA3 20 2 d.code a.code b.code b.lit?)
  | .bfma2 d a b => some (encA3 20 3 d.code a.code b.code b.lit?)
  | .bmin2 d a b => some (encA3 20 4 d.code a.code b.code b.lit?)
  | .bmax2 d a b => some (encA3 20 5 d.code a.code b.code b.lit?)
  | .bdot2 d a b => some (encA3 20 6 d.code a.code b.code b.lit?)
  | .cvt d a b => some (encA3 21 0 d.code a.code b.code b.lit?)
  | .cvpack d a b => some (encA3 21 1 d.code a.code b.code b.lit?)
  | .cvunpk d a b => some (encA3 21 2 d.code a.code b.code b.lit?)
  | .cvi d a b => some (encA3 21 3 d.code a.code b.code b.lit?)
  | .cvsat d a b => some (encA3 21 4 d.code a.code b.code b.lit?)
  | .shfl d a b => some (encA3 22 0 d.code a.code b.code b.lit?)
  | .shflx d a b => some (encA3 22 1 d.code a.code b.code b.lit?)
  | .wredf op d a => some (encA3 22 2 d.code a.code op.code none)
  | .wredi op d a => some (encA3 22 3 d.code a.code op.code none)
  | .wscanf op excl d a => some (encA3 22 4 d.code a.code (op.code + 8 * excl.toNat) none)
  | .wscani op excl d a => some (encA3 22 5 d.code a.code (op.code + 8 * excl.toNat) none)
  | .vote op d a => some (encA3 22 6 d.code a.code op.code none)
  | .matchT op d a => some (encA3 22 7 d.code a.code op.code none)
  | .sleep n => some (encA3 0 3 0 0 n.code n.lit?)
  | .trap lit => some (encA3 0 4 0 0 0 lit)
  | .bra a t => some (encJ 24 (maskCode a) t)
  | .brv a t => some (encJ 25 a.code t)
  | .bru a t => some (encJ 26 a.code t)
  | .call a t => some (encJ 27 (maskCode a) t)
  | .calli a lit => some (encA3 28 0 0 a.code 0 lit)
  | .join a => some (encA3 28 2 0 (64 + a.val) 0 none)
  | .elect d a => some (encA3 28 5 d.val (maskCode a) 0 none)
  | .bri a lit => some (encA3 28 6 0 a.code 0 lit)
  | .rgnent d => some (encS 29 0 d.code 0 none)
  | .monument n => some (encS 29 1 0 n.toNat none)
  | .rdctl d c => some (encS 29 3 d.code c.toNat none)
  | .wrctl c a => some (encS 29 4 a.code c.toNat a.lit?)
  | .rdcyc d => some (encS 29 5 d.code 0 none)
  | .rdcycTime d => some (encS 29 5 d.code 1 none)
  | .rdwt d => some (encS 29 6 d.code 0 none)
  | .wtarm a => some (encS 29 7 a.code 0 a.lit?)
  | .bararr d lv => some (encA3 30 4 d.val 0 lv.code none)
  | .barwait lv a => some (encA3 30 5 0 a.val lv.code none)
  | .barqry d lv => some (encA3 30 6 d.val 0 lv.code none)
  | .ld la sz c a d disp => some (encM 32 la.val sz.code c.val a.code d.code disp)
  | .ldx la sz c a d disp => some (encM 33 la.val sz.code c.val a.code d.code disp)
  | .ldq la c a d disp => some (encM 34 la.val 0 c.val a.code d.code disp)
  | .st sz c a d disp => some (encM 35 0 sz.code c.val a.code d.code disp)
  | .stq c a d disp => some (encM 36 0 0 c.val a.code d.code disp)
  | .cld d c a disp => some (encM 37 0 0 c.val a.code d.val disp)
  | .cst d c a disp => some (encM 38 0 0 c.val a.code d.val disp)
  | .lda la sz c a d disp sc => some (encM 39 la.val sz.code c.val a.code d.code (some (encAtomLit disp 0 sc)))
  | .stl sz c a d disp sc => some (encM 40 0 sz.code c.val a.code d.code (some (encAtomLit disp 0 sc)))
  | .atom la sz c a d disp op sc => some (encM 41 la.val sz.code c.val a.code d.code (some (encAtomLit disp op.code sc)))
  | .atoms la sz c a d disp op sc => some (encM 42 la.val sz.code c.val a.code d.code (some (encAtomLit disp op.code sc)))
  | .fence k sc => some (encS 43 0 0 (16 * k.code + sc.code) none)
  | .lds la sz a d disp => some (encM 44 la.val sz.code 0 a.code d.code disp)
  | .sts sz a d disp => some (encM 45 0 sz.code 0 a.code d.code disp)
  | .pref xlat sz c a disp => some (encM 46 0 sz.code c.val a.code xlat.toNat disp)
  | .qbind d a mode => some (encA3 48 0 (112 + d.val) a.val mode.code none)
  | .qfree d n => some (encA3 48 2 (112 + d.val) 0 n.code n.lit?)
  | .qpeek d a => some (encA3 48 3 d.code (112 + a.val) 0 none)
  | .qremote d a n => some (encA3 48 4 (112 + d.val) a.val n.code n.lit?)
  | .dwinit a n => some (encA3 48 5 0 a.val n.code n.lit?)
  | .dwwait a n => some (encA3 48 6 0 a.val n.code n.lit?)
  | .dwadd a n => some (encA3 48 7 0 a.val n.code n.lit?)
  | .rdrop d => some (encA3 49 1 (vzCode d) 0 0 none)
  | .rpin d => some (encA3 49 2 (vzCode d) 0 0 none)
  | .runpin d => some (encA3 49 3 (vzCode d) 0 0 none)
  | .rqry d a => some (encA3 49 4 d.code (vzCode a) 0 none)
  | .rclr d => some (encA3 49 5 (vzCode d) 0 0 none)
  | .tcfg d b => some (encA3 52 0 d.val 88 b.code b.lit?)
  | .tld la spm ta td stride disp => some (encT 53 la.val 0 (2 * spm.toNat) 0 ta.val td.val (some (encTileLit stride disp)))
  | .tldt la spm ta td stride disp => some (encT 54 la.val 0 (2 * spm.toNat) 0 ta.val td.val (some (encTileLit stride disp)))
  | .tst la spm ta td stride disp => some (encT 55 la.val 0 (2 * spm.toNat) 0 ta.val td.val (some (encTileLit stride disp)))
  | .tzeroTile la td => some (encT 56 la.val 0 0 0 0 td.val none)
  | .tzeroAcc la td => some (encT 56 la.val 1 0 0 0 td.val none)
  | .mma la fmt acc tb ta td => some (encT 57 la.val fmt.val acc.toNat tb.val ta.val td.val none)
  | .scacc la pair acc tb ta td => some (encT 58 la.val 0 (acc.toNat + 2 * pair.val) tb.val ta.val td.val none)
  | .acst la fmt spm ta td stride disp => some (encT 59 la.val 0 (2 * spm.toNat) fmt.val ta.val td.val (some (encTileLit stride disp)))
  | .acld la fmt spm ta td stride disp => some (encT 59 la.val 1 (2 * spm.toNat) fmt.val ta.val td.val (some (encTileLit stride disp)))
  | .cpy la d a => some (encE 60 la.val 0 0 (engCap a) d.val none)
  | .cpyTile la d a => some (encE 60 la.val 0 1 (engCap a) d.val none)
  | .cpyout la d a => some (encE 60 la.val 1 0 (engCap a) d.val none)
  | .cpyoutTile la d a => some (encE 60 la.val 1 1 (engCap a) d.val none)
  | .cpyr la d a => some (encE 60 la.val 2 0 (engCap a) d.val none)
  | .cpyrQ la d a => some (encE 60 la.val 2 1 (engCap a) d.val none)
  | .cpyg la d a => some (encE 60 la.val 3 0 (engCap a) d.val none)
  | .cpygTile la d a => some (encE 60 la.val 3 1 (engCap a) d.val none)
  | .bseal d => some (encE 61 0 0 0 0 d.val none)
  | .bwait n => some (encE 61 0 1 0 n.codeZ 0 n.lit?)
  | .btest d n => some (encE 61 0 2 0 n.codeZ d.val n.lit?)
  | .chapp d a s => some (encE 62 0 0 0 (engCap a) d.val (some (BitVec.ofNat 32 s.val)))
  | .chtail la a => some (encE 62 la.val 1 0 (engCap a) 0 none)
  | .chwait a n => some (encE 62 0 2 0 (engCap a) n.codeZ n.lit?)
  | .chseq d a => some (encE 62 0 3 0 (engCap a) d.val none)
  | .kvwin d a => some (encE 63 0 0 0 a.val (engCap d) none)
  | .kvcommit a => some (encE 63 0 1 0 a.val 0 none)
  | .kvabort a => some (encE 63 0 2 0 a.val 0 none)
  | .kvlen d a => some (encE 63 0 3 0 a.val d.val none)
  | .smpl d a s => some (encE 63 0 4 0 (engCap a) d.val (some (BitVec.ofNat 32 s.val)))
  | .mact0 => some (encA3 13 7 64 0 0 none)
  | .mact1 => some (encA3 13 7 65 0 0 none)
  | .mact2 => some (encA3 13 7 66 0 0 none)
  | .mact3 => some (encA3 13 7 67 0 0 none)
  | .mact4 => some (encA3 13 7 68 0 0 none)
  | .mact5 => some (encA3 13 7 69 0 0 none)
  | .mact6 => some (encA3 13 7 70 0 0 none)
  | .mact7 => some (encA3 13 7 71 0 0 none)
  | .mact8 => some (encA3 13 7 72 0 0 none)
  | .mact9 => some (encA3 13 7 73 0 0 none)
  | .mact10 => some (encA3 13 7 74 0 0 none)
  | .mact11 => some (encA3 13 7 75 0 0 none)
  | .mact12 => some (encA3 13 7 76 0 0 none)
  | .mact13 => some (encA3 13 7 77 0 0 none)
  | .mact14 => some (encA3 13 7 78 0 0 none)
  | .mact15 => some (encA3 13 7 79 0 0 none)
  | .nop => some (encA3 0 0 0 0 0 none)
  | .yield => some (encA3 0 1 0 0 0 none)
  | .waitla => some (encA3 0 2 0 0 0 none)
  | .tret => some (encA3 0 5 0 0 0 none)
  | .tretSkip => some (encA3 0 5 0 0 1 none)
  | .xdone => some (encA3 0 6 0 0 0 none)
  | .edone => some (encA3 0 7 0 0 0 none)
  | .ret => some (encA3 28 1 0 0 0 none)
  | .mdrop0 => some (encA3 28 3 0 64 0 none)
  | .mdrop1 => some (encA3 28 3 0 65 0 none)
  | .mdrop2 => some (encA3 28 3 0 66 0 none)
  | .mdrop3 => some (encA3 28 3 0 67 0 none)
  | .mdrop4 => some (encA3 28 3 0 68 0 none)
  | .mdrop5 => some (encA3 28 3 0 69 0 none)
  | .mdrop6 => some (encA3 28 3 0 70 0 none)
  | .mdrop7 => some (encA3 28 3 0 71 0 none)
  | .mdrop8 => some (encA3 28 3 0 72 0 none)
  | .mdrop9 => some (encA3 28 3 0 73 0 none)
  | .mdrop10 => some (encA3 28 3 0 74 0 none)
  | .mdrop11 => some (encA3 28 3 0 75 0 none)
  | .mdrop12 => some (encA3 28 3 0 76 0 none)
  | .mdrop13 => some (encA3 28 3 0 77 0 none)
  | .mdrop14 => some (encA3 28 3 0 78 0 none)
  | .mdrop15 => some (encA3 28 3 0 79 0 none)
  | .exit => some (encA3 28 4 0 0 0 none)
  | .tmaskOff => some (encS 29 2 0 0 none)
  | .tmaskOn => some (encS 29 2 0 1 none)
  | .barFile => some (encA3 30 0 0 0 0 none)
  | .barCore => some (encA3 30 1 0 0 0 none)
  | .barSlice => some (encA3 30 2 0 0 0 none)
  | .barCluster => some (encA3 30 3 0 0 0 none)
  | .qunbind0 => some (encA3 48 1 112 0 0 none)
  | .qunbind1 => some (encA3 48 1 113 0 0 none)
  | .qunbind2 => some (encA3 48 1 114 0 0 none)
  | .qunbind3 => some (encA3 48 1 115 0 0 none)
  | .qunbind4 => some (encA3 48 1 116 0 0 none)
  | .qunbind5 => some (encA3 48 1 117 0 0 none)
  | .qunbind6 => some (encA3 48 1 118 0 0 none)
  | .qunbind7 => some (encA3 48 1 119 0 0 none)
  | .rtag => some (encA3 49 0 0 0 0 none)
  | .loadDataArrival => none
  | .tileOpComplete => none
  | .copyTransfer => none
  | .followOnCommand => none
  | .batchComplete => none
  | .wakeConditionMet => none
  | .sleepDeadline => none
  | .warpTimer => none
  | .rasRefillDone => none
  | .preemptionRequest => none
  | .vectorWaitExpiry => none
  | .exitBudgetOverrun => none
  | .tmaskBoundExpiry => none
  | .rejoinTimeout => none
  | .switchedOut => none
  | .resumeWarp => none
  | .contextFault => none
  | .resetAlone => none
  | .resetComplete => none
  | .sliceEnd => none
  | .watchdog => none
  | .migrationStop => none
  | .migrationTimeout => none
  | .kernelLoad => none
  | .translationComplete => none
  | .kernelUnload => none
  | .lazyPageBound => none
  | .placeWorkGroup => none
  | .chainEntryRead => none
  | .nodeDispatch => none
  | .nodeAgeing => none
  | .nodeComplete => none
  | .binEntry => none
  | .gangArm => none
  | .gangAck => none
  | .gangGo => none
  | .gangTimeout => none
  | .gangAbort => none
  | .sampleRequest => none
  | .rngRingRefill => none
  | .eventAccept => none
  | .faultRecordPost => none
  | .ctxreg => none
  | .chreg => none
  | .ctxdestroy => none
  | .attest => none
  | .ctlchain => none
  | .ctltail => none
  | .shoot => none
  | .shootdownComplete => none
  | .fqAnswer => none
  | .evrHead => none
  | .fqHead => none
  | .fkrClear => none
  | .heatSeed => none
  | .heatEpoch => none
  | .rngKeyWrite => none
  | .vdHold => none
  | .vdRelease => none
  | .warmStart => none
  | .registerWrite => none
  | .functionLevelReset => none
  | .sriovEnable => none
  | .coldStart => none
  | .linkTrained => none
  | .flitCrcFail => none
  | .linkRetryTimeout => none
  | .linkRetrainDone => none
  | .supplySag => none
  | .stretchLong => none
  | .illegalEncoding => none
  | .gangMemberDone => none
  | .gangMemberReset => none
  | .supplyRecovery => none
  | .hostLinkRequest => none
  | .remoteAccess => none
  | .migrationResume => none

/-- The bytes of an instruction's words, little-endian (R79). -/
def Words.bytes : Words → List Byte
  | .half w => natLE 2 w
  | .word w none => natLE 4 w
  | .word w (some l) => natLE 4 w ++ natLE 4 l.toNat

/-- THE ENCODER: the bytes of a well-formed instruction. -/
def encode (i : Instr) : Option (List Byte) := if i.wf then Words.bytes <$> words i else none

end Sys2Proof
end

