-- ==== Sys2Proof/Machine/Alu.lean ====
section
/-! DEFINITION. The integer functions of the ALU as pure values (R109, R114 to R120), each once for every width: 32 bits
per thread, 64 bits uniform. -/

namespace Sys2Proof.Machine

/-- x clamped to [lo, hi] (R5). -/
def clampInt (x lo hi : Int) : Int := if x < lo then lo else if hi < x then hi else x

/-- IADD. -/
def aluAdd {w : Nat} (a b : BitVec w) : BitVec w := a + b

/-- ISUB. -/
def aluSub {w : Nat} (a b : BitVec w) : BitVec w := a - b

/-- IMUL, low half. -/
def aluMul {w : Nat} (a b : BitVec w) : BitVec w := a * b

/-- IMULH.i: the exact signed product shifted right arithmetically by the width. -/
def aluMulhI {w : Nat} (a b : BitVec w) : BitVec w := BitVec.ofInt w (a.toInt * b.toInt / 2 ^ w)

/-- IMULH.n. -/
def aluMulhN {w : Nat} (a b : BitVec w) : BitVec w := BitVec.ofNat w (a.toNat * b.toNat / 2 ^ w)

/-- IADDS.i: the exact sum clamped to the signed range. -/
def aluAddsI {w : Nat} (a b : BitVec w) : BitVec w :=
  BitVec.ofInt w (clampInt (a.toInt + b.toInt) (-2 ^ (w - 1)) (2 ^ (w - 1) - 1))

/-- IADDS.n: the exact sum clamped to the natural range. -/
def aluAddsN {w : Nat} (a b : BitVec w) : BitVec w := BitVec.ofNat w (min (a.toNat + b.toNat) (2 ^ w - 1))

/-- IABSD. -/
def aluAbsd {w : Nat} (a b : BitVec w) : BitVec w := BitVec.ofNat w (a.toInt - b.toInt).natAbs

/-- IMIN.i. -/
def aluMinI {w : Nat} (a b : BitVec w) : BitVec w := if b.toInt < a.toInt then b else a

/-- IMIN.n. -/
def aluMinN {w : Nat} (a b : BitVec w) : BitVec w := if b.toNat < a.toNat then b else a

/-- IMAX.i. -/
def aluMaxI {w : Nat} (a b : BitVec w) : BitVec w := if a.toInt < b.toInt then b else a

/-- IMAX.n. -/
def aluMaxN {w : Nat} (a b : BitVec w) : BitVec w := if a.toNat < b.toNat then b else a

/-- IDIV.i: divisor 0 gives all ones; the least number by −1 gives itself; else truncation toward zero (R115). -/
def aluDivI {w : Nat} (a b : BitVec w) : BitVec w :=
  if b = 0#w then BitVec.allOnes w else BitVec.ofInt w (a.toInt.tdiv b.toInt)

/-- IDIV.n. -/
def aluDivN {w : Nat} (a b : BitVec w) : BitVec w :=
  if b = 0#w then BitVec.allOnes w else BitVec.ofNat w (a.toNat / b.toNat)

/-- IREM.i: divisor 0 gives the dividend; else the dividend less quotient times divisor. -/
def aluRemI {w : Nat} (a b : BitVec w) : BitVec w :=
  if b = 0#w then a else BitVec.ofInt w (a.toInt.tmod b.toInt)

/-- IREM.n. -/
def aluRemN {w : Nat} (a b : BitVec w) : BitVec w :=
  if b = 0#w then a else BitVec.ofNat w (a.toNat % b.toNat)

/-- AND. -/
def aluAnd {w : Nat} (a b : BitVec w) : BitVec w := a &&& b

/-- OR. -/
def aluOr {w : Nat} (a b : BitVec w) : BitVec w := a ||| b

/-- XOR. -/
def aluXor {w : Nat} (a b : BitVec w) : BitVec w := a ^^^ b

/-- ANDN: A AND NOT B. -/
def aluAndn {w : Nat} (a b : BitVec w) : BitVec w := a &&& ~~~b

/-- The shift count: B[4:0] of 32 bits, B[5:0] of 64 bits (R116, R120). -/
def shiftCount {w : Nat} (b : BitVec w) : Nat := b.toNat % w

/-- SHL. -/
def aluShl {w : Nat} (a b : BitVec w) : BitVec w := a <<< shiftCount b

/-- SHR. -/
def aluShr {w : Nat} (a b : BitVec w) : BitVec w := a >>> shiftCount b

/-- SAR. -/
def aluSar {w : Nat} (a b : BitVec w) : BitVec w := a.sshiftRight (shiftCount b)

/-- ROL. -/
def aluRol {w : Nat} (a b : BitVec w) : BitVec w := (a <<< shiftCount b) ||| (a >>> (w - shiftCount b))

/-- The number of set bits among the `n` low bits of a number. -/
def popNat : Nat → Nat → Nat
  | 0, _ => 0
  | n + 1, x => x % 2 + popNat n (x / 2)

/-- popc (R109). -/
def popc {w : Nat} (a : BitVec w) : Nat := popNat w a.toNat

/-- The number of leading zeros of the `n` low bits of a number; `n` when they are all 0. -/
def clzNat : Nat → Nat → Nat
  | 0, _ => 0
  | n + 1, x => if x / 2 ^ n % 2 = 1 then 0 else 1 + clzNat n x

/-- POPC. -/
def aluPopc {w : Nat} (a : BitVec w) : BitVec w := BitVec.ofNat w (popc a)

/-- CLZ. -/
def aluClz {w : Nat} (a : BitVec w) : BitVec w := BitVec.ofNat w (clzNat w a.toNat)

/-- The `n` low bits of a number in reverse order. -/
def revNat : Nat → Nat → Nat
  | 0, _ => 0
  | n + 1, x => x % 2 * 2 ^ n + revNat n (x / 2)

/-- BREV. -/
def aluBrev {w : Nat} (a : BitVec w) : BitVec w := BitVec.ofNat w (revNat w a.toNat)

/-- The field control of BFX and BFI: position P, and the width that fits. P is B[4:0] and N is B[13:8] for 32 bits,
B[5:0] and B[14:8] for 64 bits; N above the width counts as the width (R117, R120). -/
def fieldCtl {w : Nat} (b : BitVec w) : Nat × Nat :=
  let p := b.toNat % w
  let n := min (b.toNat / 256 % (2 * w)) w
  (p, min n (w - p))

/-- BFX.i. -/
def aluBfxI {w : Nat} (a b : BitVec w) : BitVec w :=
  let (p, n) := fieldCtl b
  BitVec.signExtend w (BitVec.ofNat n (a.toNat / 2 ^ p))

/-- BFX.n. -/
def aluBfxN {w : Nat} (a b : BitVec w) : BitVec w :=
  let (p, n) := fieldCtl b
  BitVec.ofNat w (a.toNat / 2 ^ p % 2 ^ n)

/-- BFI: the bits that fit are inserted into D. -/
def aluBfi {w : Nat} (d a b : BitVec w) : BitVec w :=
  let (p, n) := fieldCtl b
  let f := BitVec.ofNat w ((2 ^ n - 1) * 2 ^ p)
  (d &&& ~~~f) ||| ((a <<< p) &&& f)

/-- Byte `i` of a word. -/
def byteOf {w : Nat} (a : BitVec w) (i : Nat) : Nat := a.toNat / 2 ^ (8 * i) % 256

/-- The bytes `f 0` to `f (n - 1)` as a number. -/
def fromBytes (n : Nat) (f : Nat → Nat) : Nat := ((List.range n).map fun i => f i * 2 ^ (8 * i)).sum

/-- PERMB, per thread: four selectors; bits 1:0 select, bit 2 zero, bit 3 sign (R117). -/
def aluPermb32 (a b : Word) : Word :=
  BitVec.ofNat 32 (fromBytes 4 fun i =>
    let s := b.toNat / 2 ^ (4 * i) % 16
    let y := byteOf a (s % 4)
    if s / 4 % 2 = 1 then 0 else if s / 8 = 1 then (if y ≥ 128 then 255 else 0) else y)

/-- PERMB, uniform: eight selectors; bits 2:0 select, bit 3 zero; no sign fill (R120). -/
def aluPermb64 (a b : DWord) : DWord :=
  BitVec.ofNat 64 (fromBytes 8 fun i =>
    let s := b.toNat / 2 ^ (4 * i) % 16
    if s / 8 = 1 then 0 else byteOf a (s % 8))

/-- IMAD. -/
def aluMad (d a b : Word) : Word := a * b + d

/-- IMADW: the 64-bit natural multiply-add of the pair. -/
def aluMadw (lo hi a b : Word) : Word × Word :=
  let w := a.toNat * b.toNat + hi.toNat * 2 ^ 32 + lo.toNat
  (BitVec.ofNat 32 w, BitVec.ofNat 32 (w / 2 ^ 32))

/-- ISEL: the condition is D before it is written. -/
def aluSel (d a b : Word) : Word := if d ≠ 0 then a else b

/-- LEA: A plus four times B. -/
def aluLea (a b : Word) : Word := a + (b <<< 2)

/-! ### The conditions of ICMP and UCMP (R119) -/

/-- EQ. -/
def condEq {w : Nat} (a b : BitVec w) : Bool := a == b

/-- NE. -/
def condNe {w : Nat} (a b : BitVec w) : Bool := a != b

/-- LT.i. -/
def condLtI {w : Nat} (a b : BitVec w) : Bool := decide (a.toInt < b.toInt)

/-- LE.i. -/
def condLeI {w : Nat} (a b : BitVec w) : Bool := decide (a.toInt ≤ b.toInt)

/-- LT.n. -/
def condLtN {w : Nat} (a b : BitVec w) : Bool := decide (a.toNat < b.toNat)

/-- LE.n. -/
def condLeN {w : Nat} (a b : BitVec w) : Bool := decide (a.toNat ≤ b.toNat)

/-- TEST. -/
def condTest {w : Nat} (a b : BitVec w) : Bool := (a &&& b) != 0#w

/-- NTEST. -/
def condNtest {w : Nat} (a b : BitVec w) : Bool := (a &&& b) == 0#w

end Sys2Proof.Machine
end

