-- ==== Sys2Proof/Config.lean ====
section
/-! DEFINITION. What an implementation fixes and the spec leaves open: the free values. Each is an opaque constant with no
body, so that a statement about one holds for every value it may have. -/

namespace Sys2Proof.Config

/-- The sampler's round(e^(x − m)) where the spec does not fix it: x and m are both +∞ (R378): rounding mode, x and m.
(Log 72 DESIGN CHOICE.) -/
opaque expTie : Nat → Word → Word → Word

/-- A free bit for a choice the spec does not fix, by the step's counter of free values. (Log 6 DESIGN CHOICE.) -/
opaque freeBit : Nat → Bool

/-- A free number for a value or an order that the spec does not fix, by the step's counter of free values.
(Log 6 DESIGN CHOICE.) -/
opaque freeNat : Nat → Nat

/-- A free 32-bit register value, by the step's counter of free values. (Log 6 DESIGN CHOICE.) -/
opaque freeWord : Nat → Word

/-- What a MODE of 6 or 7 rounds by, as a mode's number modulo 6 (R35): WRCTL writes no such mode, but a frame's header that has been
altered may hold one. (Log 102 DESIGN CHOICE.) -/
opaque oddMode : Nat → Nat

/-- The number of the compression arena of a tenant on a stack (R350, R351): the spec does not number the arenas. -/
opaque arenaOf : Nat → Nat → Nat

/-- What the compressor makes of a 2 KiB block that is not all zero, as a number: the spec does not give its algorithm
(R350). -/
opaque compSize : Nat → Nat

/-- The number that a LINK event reports for a link's new state (R399, R403): of 0 Down, 1 Degraded, 2 Up.
(Log 75 DESIGN CHOICE.) -/
opaque linkStateCode : Nat → DWord

/-- CFG_REV, the fused revision identifier (R64). (Log 85 DESIGN CHOICE.) -/
opaque cfgRev : Word

/-- The version of the translator in use (R295). (Log 85 DESIGN CHOICE.) -/
opaque translatorVersion : DWord

/-- The SHA-256 of the firmware key that the fuses hold; none where no key is fused (R406, R408). (Log 85 DESIGN CHOICE.) -/
opaque fusedKeyHash : Option (List Byte)

/-- The bytes of the SHA-256 of the firmware body that stands in a device which no start of this run has loaded (R409).
(Log 37 DEDUCED.) -/
opaque heldFirmware : Nat → Byte

/-- The 384-byte RSASSA-PSS signature by the identity key over a report's preceding bytes (R409), by the step's counter of free
values, since its salt is free. (Log 37 DEDUCED.) -/
opaque attestSignature : Nat → List Byte → List Byte

end Sys2Proof.Config
end

