-- ==== Sys2Proof/Machine/Float.lean ====
section
/-! DEFINITION. The floating-point formats, rounding, special values and exact sums of spec/02_numbers.md, and the special
functions of R138. A finite value is an exact dyadic number, so that every operation is formed exactly and rounded once. -/

namespace Sys2Proof.Machine

/-! ### Formats (R29, R143) -/

/-- The float formats, in the order of their codes (R143). -/
inductive Fmt where
  | f32 | f16 | bf16 | e4m3 | e5m2 | e2m1 | dm8 | e8m0
  deriving DecidableEq, Repr

/-- The format of a float code of R143. -/
def fmtOf (n : Nat) : Fmt :=
  match n with
  | 0 => .f32 | 1 => .f16 | 2 => .bf16 | 3 => .e4m3 | 4 => .e5m2 | 5 => .e2m1 | 6 => .dm8 | _ => .e8m0

/-- The width in bits. -/
def Fmt.width : Fmt → Nat
  | .f32 => 32 | .f16 => 16 | .bf16 => 16 | .e4m3 => 8 | .e5m2 => 8 | .e2m1 => 4 | .dm8 => 8 | .e8m0 => 8

/-- The fraction bits of a format with an exponent and a fraction field. -/
def Fmt.frac : Fmt → Nat
  | .f32 => 23 | .f16 => 10 | .bf16 => 7 | .e4m3 => 3 | .e5m2 => 2 | .e2m1 => 1 | .dm8 => 0 | .e8m0 => 0

/-- The exponent bias. -/
def Fmt.bias : Fmt → Nat
  | .f32 => 127 | .f16 => 15 | .bf16 => 127 | .e4m3 => 7 | .e5m2 => 15 | .e2m1 => 1 | .dm8 => 0 | .e8m0 => 127

/-- The code, without its sign, of the largest finite value. -/
def Fmt.maxCode : Fmt → Nat
  | .f32 => 0x7F7FFFFF | .f16 => 0x7BFF | .bf16 => 0x7F7F | .e4m3 => 0x7E | .e5m2 => 0x7B | .e2m1 => 0x7
  | .dm8 => 0x01 | .e8m0 => 0xFE

/-- The code, without its sign, of infinity where the format has one; e4m3 has its NaN in that place (R39). -/
def Fmt.infCode : Fmt → Nat
  | .f32 => 0x7F800000 | .f16 => 0x7C00 | .bf16 => 0x7F80 | .e4m3 => 0x7F | .e5m2 => 0x7C | .e2m1 => 0x7
  | .dm8 => 0x01 | .e8m0 => 0xFF

/-- A value that a format's bits stand for: a signed dyadic `m × 2^e`, an infinity, a NaN with its sign, its fraction bits
and their number, or a NaN that the operation itself generates (R43). -/
inductive FVal where
  | fin (neg : Bool) (m : Nat) (e : Int)
  | inf (neg : Bool)
  | nan (neg : Bool) (frac : Nat) (width : Nat)
  | gen
  deriving DecidableEq, Repr

/-- The rounding modes of R35. -/
inductive Mode where
  | rne | rtz | rup | rdn | rna | rto
  deriving DecidableEq, Repr

/-- The mode of a number (R35). -/
def modeAt (n : Nat) : Mode :=
  match n with
  | 0 => .rne | 1 => .rtz | 2 => .rup | 3 => .rdn | 4 => .rna | _ => .rto

/-- MODE of RMODE bits 2:0 (R35). The spec gives 6 and 7, which only an altered frame header brings, no meaning: the mode is free.
(Log 102 DESIGN CHOICE.) -/
def modeOf (n : Nat) : Mode := if n < 6 then modeAt n else modeAt (Config.oddMode n % 6)

/-! ### DM8 (R32, R33) -/

/-- The magnitude of a DM8 body from 1 to 127, in units of 1/64. -/
def dm8Mag (body : Nat) : Nat :=
  let z := 6 - Nat.log2 body
  let p := 6 - z
  if p = 0 then 64 * 64
  else
    let d := body / 2 ^ (p - 1) % 2
    let f := body % 2 ^ (p - 1)
    if d = 0 then 64 * 2 ^ z * (2 ^ (p - 1) + f) / 2 ^ (p - 1)
    else 64 * (2 ^ (p - 1) + f) / 2 ^ (p - 1) / 2 ^ (z + 1)

/-- The DM8 body of a magnitude `k/64` that is a DM8 value: the inverse of `dm8Mag` by search over the bodies. -/
def dm8Body (k : Nat) : Nat := ((List.range 128).find? fun c => c != 0 && dm8Mag c == k).getD 0

/-- The DM8 magnitudes in units of 1/64, the greatest at or below `x`, and the least above it (R33). -/
def dm8Below (x : Nat) : Nat :=
  (List.range 128).foldl (fun a c => if c != 0 && dm8Mag c ≤ x && a < dm8Mag c then dm8Mag c else a) 0

/-- The least DM8 magnitude above `x`, at most 64. -/
def dm8Above (x : Nat) : Nat :=
  (List.range 128).foldl (fun a c => if c != 0 && x < dm8Mag c && dm8Mag c < a then dm8Mag c else a) 4096

/-! ### Decoding (R29 to R33) -/

/-- dec(x, f) of a format with sign, exponent and fraction fields. `top` tells whether the highest exponent holds the
specials of R29. -/
def decFields (f : Fmt) (x : Nat) : FVal :=
  let w := f.width
  let fb := f.frac
  let neg := decide (x / 2 ^ (w - 1) % 2 = 1)
  let e := x / 2 ^ fb % 2 ^ (w - 1 - fb)
  let m := x % 2 ^ fb
  let special := decide (e = 2 ^ (w - 1 - fb) - 1)
  match f with
  | .e4m3 =>
    if special && m == 7 then .nan neg m fb
    else if e = 0 then .fin neg m (1 - (f.bias : Int) - fb) else .fin neg (2 ^ fb + m) ((e : Int) - f.bias - fb)
  | .e2m1 =>
    if e = 0 then .fin neg m (1 - (f.bias : Int) - fb) else .fin neg (2 ^ fb + m) ((e : Int) - f.bias - fb)
  | _ =>
    if special then (if m = 0 then .inf neg else .nan neg m fb)
    else if e = 0 then .fin neg m (1 - (f.bias : Int) - fb) else .fin neg (2 ^ fb + m) ((e : Int) - f.bias - fb)

/-- dec(x, f) (R131): the bits `x` read in format `f`. -/
def fdec (f : Fmt) (x : Nat) : FVal :=
  match f with
  | .dm8 =>
    let body := x % 128
    if body = 0 then (if x / 128 % 2 = 1 then .nan true 0 0 else .fin false 0 0)
    else .fin (decide (x / 128 % 2 = 1)) (dm8Mag body) (-6)
  | .e8m0 => if x % 256 = 255 then .nan false 0 0 else .fin false 1 ((x % 256 : Nat) - 127)
  | f => decFields f x

/-! ### Rounding (R37 to R40) -/

/-- Whether the upper of the two neighbouring candidates is taken: `odd` is the parity of the lower, `cmp` how the value
lies to the midpoint (R37). -/
def roundUp (mode : Mode) (neg odd : Bool) (cmp : Ordering) : Bool :=
  match mode with
  | .rne => cmp == .gt || (cmp == .eq && odd)
  | .rtz => false
  | .rup => !neg
  | .rdn => neg
  | .rna => cmp != .lt
  | .rto => !odd

/-- An integer quotient `n / 2^s` rounded to an integer of the same sign. -/
def roundShift (mode : Mode) (neg : Bool) (n s : Nat) : Nat :=
  let lo := n / 2 ^ s
  let rem := n % 2 ^ s
  if rem = 0 then lo
  else if roundUp mode neg (lo % 2 == 1) (compare (2 * rem) (2 ^ s)) then lo + 1 else lo

/-- Whether an overflow gives infinity (R39, f32 row). -/
def overflowInf (mode : Mode) (neg : Bool) : Bool :=
  match mode with
  | .rne => true
  | .rna => true
  | .rtz => false
  | .rto => false
  | .rup => !neg
  | .rdn => neg

/-- SAT applies to every destination but f32 (R39). -/
def Fmt.sat (f : Fmt) (sat : Bool) : Bool := sat && f != .f32

/-- The sign bit of a format with one. -/
def signBit (f : Fmt) (neg : Bool) : Nat := if neg then 2 ^ (f.width - 1) else 0

/-- A nonzero dyadic rounded into a format with exponent and fraction fields. -/
def encFin (f : Fmt) (mode : Mode) (sat neg : Bool) (m : Nat) (e : Int) : Nat :=
  let qmin : Int := 1 - (f.bias : Int) - f.frac
  let q : Int := max ((Nat.log2 m : Int) + e - f.frac) qmin
  let sig := if e ≥ q then m * 2 ^ (e - q).toNat else roundShift mode neg m (q - e).toNat
  let code := (q - qmin).toNat * 2 ^ f.frac + sig
  if code ≤ f.maxCode then signBit f neg + code
  else if f = .e2m1 then signBit f neg + f.maxCode
  else if f.sat sat then signBit f neg + f.maxCode
  else if overflowInf mode neg then signBit f neg + f.infCode
  else signBit f neg + f.maxCode

/-- A nonzero dyadic rounded into DM8 (R34): magnitudes of 64 and above give 64. -/
def encDm8 (mode : Mode) (neg : Bool) (m : Nat) (e : Int) : Nat :=
  -- The magnitude in units of 2^-s of 1/64.
  let s := (-(e + 6)).toNat
  let n := m * 2 ^ (e + 6).toNat
  let x := n / 2 ^ s
  let body :=
    if x ≥ 4096 then 1
    else
      let lo := dm8Below x
      if lo * 2 ^ s = n then (if lo = 0 then 0 else dm8Body lo)
      else
        let hi := dm8Above x
        let loC := if lo = 0 then 0 else dm8Body lo
        let cmp := compare (2 * n) ((lo + hi) * 2 ^ s)
        if roundUp mode neg (loC % 2 == 1) cmp then dm8Body hi else loC
  if body = 0 then 0 else (if neg then 128 else 0) + body

/-- A nonzero dyadic rounded into e8m0 (R40). -/
def encE8m0 (mode : Mode) (sat neg : Bool) (m : Nat) (e : Int) : Nat :=
  if neg then 0xFF
  else
    let l := Nat.log2 m
    let k : Int := (l : Int) + e
    let rem := m - 2 ^ l
    if k < -127 then 0
    else
      let up := decide (rem ≠ 0) && roundUp mode false ((k + 127).toNat % 2 == 1) (compare (2 * rem) (2 ^ l))
      let k' := if up then k + 1 else k
      if k' > 127 then (if sat then 0xFE else 0xFF) else (k' + 127).toNat

/-- Where a generated NaN comes from: the origin hash and the low 7 bits (R43). -/
structure Origin where
  hash : Nat
  low : Nat
  deriving DecidableEq, Repr

/-- The XOR of the 15-bit chunks of a number; a PC of 57 bits has at most four (R43). -/
def originHash (pc : Nat) : Nat :=
  let x := pc / 2
  (x % 2 ^ 15) ^^^ (x / 2 ^ 15 % 2 ^ 15) ^^^ (x / 2 ^ 30 % 2 ^ 15) ^^^ (x / 2 ^ 45 % 2 ^ 15)

/-- The fraction bits of a NaN carried into a format with `fb` fraction bits, quieted (R41, R44). -/
def carryFrac (frac width fb : Nat) : Nat :=
  let x := if width ≤ fb then frac * 2 ^ (fb - width) else frac / 2 ^ (width - fb)
  x % 2 ^ (fb - 1) + 2 ^ (fb - 1)

/-- enc(v, f) (R131): one rounding into format `f`, as bits. -/
def fenc (f : Fmt) (mode : Mode) (sat : Bool) (o : Origin) (v : FVal) : Nat :=
  match v with
  | .gen =>
    match f with
    | .f32 => 0x7FC00000 + o.hash * 128 + o.low
    | .f16 => 0x7E00 ||| (o.hash / 2 ^ 6)
    | .bf16 => 0x7FC0 ||| (o.hash / 2 ^ 9)
    | .e4m3 => 0x7F
    | .e5m2 => 0x7F
    | .e2m1 => 0
    | .dm8 => 0x80
    | .e8m0 => 0xFF
  | .nan neg frac width =>
    match f with
    | .e4m3 => signBit f neg + 0x7F
    | .e5m2 => signBit f neg + 0x7F
    | .e2m1 => 0
    | .dm8 => 0x80
    | .e8m0 => 0xFF
    | f => signBit f neg + f.infCode + carryFrac frac width f.frac
  | .inf neg =>
    match f with
    | .dm8 => signBit f neg + 1
    | .e2m1 => signBit f neg + 7
    | .e8m0 => if neg then 0xFF else if sat then 0xFE else 0xFF
    | f => signBit f neg + (if f.sat sat then f.maxCode else f.infCode)
  | .fin neg 0 _ =>
    match f with
    | .dm8 => 0
    | .e8m0 => 0xFF
    | f => signBit f neg
  | .fin neg m e =>
    match f with
    | .dm8 => encDm8 mode neg m e
    | .e8m0 => encE8m0 mode sat neg m e
    | f => encFin f mode sat neg m e

/-! ### Exact arithmetic -/

/-- A term of an exact sum: sign, magnitude and exponent. -/
structure Term where
  neg : Bool
  m : Nat
  e : Int
  deriving DecidableEq, Repr

/-- The signed numerator of a term over `2^e0`, for `e0` at or below its exponent. -/
def Term.at (t : Term) (e0 : Int) : Int :=
  let n : Int := (t.m * 2 ^ (t.e - e0).toNat : Nat)
  if t.neg then -n else n

/-- The least exponent of a list of terms. -/
def minExp (l : List Term) : Int :=
  match l with
  | [] => 0
  | t :: r => r.foldl (fun a u => if u.e < a then u.e else a) t.e

/-- The exact sum of terms. An exact zero is −0 when every term is −0, +0 when every term is +0 or there is none, and
otherwise follows R38. -/
def sumTerms (mode : Mode) (l : List Term) : FVal :=
  let e0 := minExp l
  let n : Int := l.foldl (fun a t => a + t.at e0) 0
  if n ≠ 0 then .fin (decide (n < 0)) n.natAbs e0
  else if l.all (fun t => !t.neg && t.m == 0) then .fin false 0 0
  else if l.all (fun t => t.neg && t.m == 0) then .fin true 0 0
  else .fin (mode == .rdn) 0 0

/-- Whether a value is a NaN, a generated one included. -/
def FVal.isNan : FVal → Bool
  | .nan _ _ _ => true
  | .gen => true
  | _ => false

/-- The first NaN of a list of operands (R44). -/
def firstNan (l : List FVal) : Option FVal := l.find? FVal.isNan

/-- The exact sum of values that are no NaN, infinities included: infinities of both signs generate a NaN. -/
def sumVals (mode : Mode) (l : List FVal) : FVal :=
  let pos := l.any fun v => v == .inf false
  let neg := l.any fun v => v == .inf true
  if l.any (· == .gen) || (pos && neg) then .gen
  else if pos then .inf false
  else if neg then .inf true
  else sumTerms mode (l.filterMap fun v =>
    match v with
    | .fin s m e => some ⟨s, m, e⟩
    | _ => none)

/-- The exact product of two values that are no NaN; 0 × ∞ generates a NaN. -/
def mulVals (a b : FVal) : FVal :=
  match a, b with
  | .fin s m e, .fin t n f => .fin (s != t) (m * n) (e + f)
  | .fin s m _, .inf t => if m = 0 then .gen else .inf (s != t)
  | .inf s, .fin t n _ => if n = 0 then .gen else .inf (s != t)
  | .inf s, .inf t => .inf (s != t)
  | _, _ => .gen

/-- The opposite of a value; a NaN keeps its sign (R44). -/
def negVal : FVal → FVal
  | .fin s m e => .fin (!s) m e
  | .inf s => .inf (!s)
  | v => v

/-- a + b. -/
def addF (mode : Mode) (a b : FVal) : FVal := (firstNan [a, b]).getD (sumVals mode [a, b])

/-- a − b. -/
def subF (mode : Mode) (a b : FVal) : FVal := (firstNan [a, b]).getD (sumVals mode [a, negVal b])

/-- a × b. -/
def mulF (a b : FVal) : FVal := (firstNan [a, b]).getD (mulVals a b)

/-- a × b + d, formed exactly; the NaN order is A, B, D (R135). -/
def fmaF (mode : Mode) (a b d : FVal) : FVal :=
  (firstNan [a, b, d]).getD (sumVals mode [mulVals a b, d])

/-- a × 2^n (R135). Beyond ±1000 every nonzero f32 operand overflows or lies below every candidate. -/
def scaleF (a : FVal) (n : Int) : FVal :=
  match a with
  | .fin s m e => .fin s m (e + clampInt n (-1000) 1000)
  | v => v

/-- d + lo(A) × lo(B) + hi(A) × hi(B) (R141). -/
def dot2F (mode : Mode) (al ah bl bh d : FVal) : FVal :=
  (firstNan [al, ah, bl, bh, d]).getD (sumVals mode [mulVals al bl, mulVals ah bh, d])

/-- A magnitude whose exact value lies strictly between `m × 2^e` and `(m + 1) × 2^e` when `inexact`: half a unit above
`m` rounds as every such value does when `m` has more bits than any destination. -/
def sticky (neg : Bool) (m : Nat) (e : Int) (inexact : Bool) : FVal :=
  if inexact then .fin neg (2 * m + 1) (e - 1) else .fin neg m e

/-- The number of bits of a number. -/
def bitLen (n : Nat) : Nat := if n = 0 then 0 else Nat.log2 n + 1

/-- a / b (R138, R139). -/
def divF (a b : FVal) : FVal :=
  (firstNan [a, b]).getD <|
  match a, b with
  | .fin s m e, .fin t n f =>
    if n = 0 then (if m = 0 then .gen else .inf (s != t))
    else
      let k : Nat := 70 + bitLen n
      let q := m * 2 ^ k / n
      if m = 0 then .fin (s != t) 0 0
      else sticky (s != t) q (e - f - k) (decide (m * 2 ^ k % n ≠ 0))
  | .fin s _ _, .inf t => .fin (s != t) 0 0
  | .inf s, .fin t _ _ => .inf (s != t)
  | _, _ => .gen

/-- The integer square root by binary digits: `i` counts the digits still to try, `r` is the root so far. -/
def isqrtFrom (n : Nat) : Nat → Nat → Nat
  | 0, r => r
  | i + 1, r => if (r + 2 ^ i) * (r + 2 ^ i) ≤ n then isqrtFrom n i (r + 2 ^ i) else isqrtFrom n i r

/-- The greatest `r` with `r × r ≤ n`. -/
def isqrt (n : Nat) : Nat := isqrtFrom n (bitLen n / 2 + 1) 0

/-- sqrt(a) (R138, R139). -/
def sqrtF (a : FVal) : FVal :=
  match a with
  | .fin s m e =>
    if m = 0 then .fin s 0 0
    else if s then .gen
    else
      let k : Nat := 120 + (if (e - 120) % 2 = 0 then 0 else 1)
      let n := m * 2 ^ k
      let r := isqrt n
      sticky false r ((e - k) / 2) (decide (r * r ≠ n))
  | .inf s => if s then .gen else .inf false
  | v => v

/-- 1 / sqrt(a) (R138, R139). -/
def rsqrtF (a : FVal) : FVal :=
  match a with
  | .fin s m e =>
    if m = 0 then .inf s
    else if s then .gen
    else
      let k : Nat := 160 + (if ((e + 160) % 2 : Int) = 0 then 0 else 1)
      let r := isqrt (2 ^ k / m)
      sticky false r (-((e + k) / 2)) (decide (r * r * m ≠ 2 ^ k))
  | .inf s => if s then .gen else .fin false 0 0
  | v => v

/-- A finite value rounded to an integer, as a signed integer (R138, R42). -/
def roundInt (mode : Mode) (neg : Bool) (m : Nat) (e : Int) : Int :=
  let n := if e ≥ 0 then m * 2 ^ e.toNat else roundShift mode neg m (-e).toNat
  if neg then -(n : Int) else n

/-- FRINT: the sign of the operand stays with a zero (R139). -/
def rintF (mode : Mode) (a : FVal) : FVal :=
  match a with
  | .fin s m e => if e ≥ 0 then .fin s m e else .fin s (roundShift mode s m (-e).toNat) 0
  | v => v

/-! ### Powers, logarithms and the hyperbolic tangent (R138)

Each is enclosed between two dyadic numbers 2^−240 apart or less. The exact result of an f32 operand is irrational where it is not
treated by itself, and lies farther than that from every rounding boundary, so that both ends round to one value. (Log 73
DEDUCED.) -/

/-- The enclosures count in units of 2^−256. -/
def fixBits : Nat := 256

/-- floor(ln 2 × 2^256). -/
def ln2Fix : Nat := 80260960185991308862233904206310070533990667611589946606122867505419956976171

/-- A lower sum of e^x in units of 2^−256, `x` in the same units and below 1: `n` terms from the `i`-th on. -/
def expSum (x : Nat) : Nat → Nat → Nat → Nat
  | 0, _, _ => 0
  | n + 1, i, t => t + expSum x n (i + 1) (t * x / 2 ^ fixBits / (i + 1))

/-- e^x lies between this and this + 1024 units. -/
def expFix (x : Nat) : Nat := expSum x 72 0 (2 ^ fixBits)

/-- The two ends of a positive enclosure with units 2^u, as values. -/
def ends (neg : Bool) (lo hi : Nat) (u : Int) : FVal × FVal := (.fin neg lo u, .fin neg hi u)

/-- The enclosure of 2^a of a finite nonzero `a`; beyond ±256 the result overflows or lies below every candidate. -/
def exp2Ends (neg : Bool) (m : Nat) (e : Int) : FVal × FVal :=
  let big := decide ((Nat.log2 m : Int) + e ≥ 8)
  if big then (if neg then ends false 1 1 (-400) else ends false 1 1 400)
  else
    -- |a| in units of 2^-256, exact because e ≥ -149.
    let x := m * 2 ^ (e + 256).toNat
    let n : Int := if neg then -((x + 2 ^ fixBits - 1) / 2 ^ fixBits : Nat) else ((x / 2 ^ fixBits : Nat) : Int)
    let f : Nat := if neg then (2 ^ fixBits - x % 2 ^ fixBits) % 2 ^ fixBits else x % 2 ^ fixBits
    if f = 0 then ends false 1 1 n
    else
      let y := expFix (f * ln2Fix / 2 ^ fixBits)
      ends false y (y + 2048) (n - 256)

/-- A lower sum of 2 atanh(z): `t` is z to the power 2i + 1 in units of 2^−256, `z2` its square. -/
def atanhSum (z2 : Nat) : Nat → Nat → Nat → Nat
  | 0, _, _ => 0
  | n + 1, i, t => t / (2 * i + 1) + atanhSum z2 n (i + 1) (t * z2 / 2 ^ fixBits)

/-- The enclosure of log2(a) of a positive finite `a` that is no power of two. -/
def log2Ends (m : Nat) (e : Int) : FVal × FVal :=
  let l := Nat.log2 m
  let k : Int := (l : Int) + e
  -- z = (y − 1) / (y + 1) for y = m / 2^l.
  let z := (m - 2 ^ l) * 2 ^ fixBits / (m + 2 ^ l)
  let z2 := z * z / 2 ^ fixBits
  let s := 2 * atanhSum z2 84 0 z
  let lo : Int := (s * 2 ^ fixBits / (ln2Fix + 1) : Nat)
  let hi : Int := ((s + 2048) * 2 ^ fixBits / ln2Fix + 1 : Nat)
  let a : Int := k * 2 ^ fixBits + lo
  let b : Int := k * 2 ^ fixBits + hi
  (.fin (decide (a < 0)) a.natAbs (-256), .fin (decide (b < 0)) b.natAbs (-256))

/-- The enclosure of tanh(a) of a finite nonzero `a`. Below 2^−40 the value lies within 2^−80 of `a`, on the side of zero;
above 64 within 2^−100 of 1. -/
def tanhEnds (neg : Bool) (m : Nat) (e : Int) : FVal × FVal :=
  let top : Int := (Nat.log2 m : Int) + e
  if top < -40 then ends neg (m * 2 ^ 80 - 1) (m * 2 ^ 80 - 1) (e - 80)
  else if top ≥ 6 then ends neg (2 ^ 100 - 1) (2 ^ 100 - 1) (-100)
  else
    let x := 2 * m * 2 ^ (e + 256).toNat
    let n := x / ln2Fix
    let r := x % ln2Fix
    let y := expFix r
    -- e^(−x) lies between tLo and tHi in units of 2^−256.
    let tLo := 2 ^ (2 * fixBits) / (y + 4096) / 2 ^ n
    let tHi := 2 ^ (2 * fixBits) / (y - 4096) / 2 ^ n + 4096
    let lo := (2 ^ fixBits - tHi) * 2 ^ fixBits / (2 ^ fixBits + tHi)
    let hi := (2 ^ fixBits - tLo) * 2 ^ fixBits / (2 ^ fixBits + tLo) + 1
    ends neg lo hi (-256)

/-- FEXP2, FLOG2 and FTANH as f32 bits: function code 3, 4 or 5. The exact value lies strictly above the magnitude of the lower end
and rounds as it does. (Log 73 DEDUCED.) -/
def transF32 (f : Nat) (mode : Mode) (o : Origin) (x : Word) : Nat :=
  let pick (p : FVal × FVal) : Nat := fenc .f32 mode false o p.1
  match f, fdec .f32 x.toNat with
  | _, .nan s fr w => fenc .f32 mode false o (.nan s fr w)
  | 3, .fin s m e => if m = 0 then 0x3F800000 else pick (exp2Ends s m e)
  | 3, .inf s => if s then 0 else 0x7F800000
  | 4, .fin s m e =>
    if m = 0 then 0xFF800000
    else if s then fenc .f32 mode false o .gen
    else if m = 2 ^ Nat.log2 m then
      let k : Int := (Nat.log2 m : Int) + e
      fenc .f32 mode false o (.fin (decide (k < 0)) k.natAbs 0)
    else pick (log2Ends m e)
  | 4, .inf s => if s then fenc .f32 mode false o .gen else 0x7F800000
  | _, .fin s m e => if m = 0 then signBit .f32 s else pick (tanhEnds s m e)
  | _, .inf s => signBit .f32 s + 0x3F800000
  | _, .gen => 0

/-! ### Comparisons of bits (R136, R137) -/

/-- The bits of format `f` stand for a NaN. -/
def isNanBits (f : Fmt) (x : Nat) : Bool := (fdec f x).isNan

/-- The magnitude part of the bits. -/
def magBits (f : Fmt) (x : Nat) : Nat := x % 2 ^ (f.width - 1)

/-- The sign of the bits. -/
def signOf (f : Fmt) (x : Nat) : Bool := x / 2 ^ (f.width - 1) % 2 == 1

/-- An order key of bits that are no NaN, −0 below +0 (R136). -/
def orderKey (f : Fmt) (x : Nat) : Int := if signOf f x then -1 - (magBits f x : Int) else magBits f x

/-- An order key with −0 equal to +0 (R137). -/
def valueKey (f : Fmt) (x : Nat) : Int := if signOf f x then -(magBits f x : Int) else magBits f x

/-- A NaN's bits with its top fraction bit set. -/
def quietBits (f : Fmt) (x : Nat) : Nat := x ||| 2 ^ (f.frac - 1)

/-- fmin of R136, bit for bit. -/
def fminBits (f : Fmt) (a b : Nat) : Nat :=
  match isNanBits f a, isNanBits f b with
  | true, true => quietBits f a
  | true, false => b
  | false, true => a
  | false, false => if orderKey f b < orderKey f a then b else a

/-- fmax of R136, bit for bit. -/
def fmaxBits (f : Fmt) (a b : Nat) : Nat :=
  match isNanBits f a, isNanBits f b with
  | true, true => quietBits f a
  | true, false => b
  | false, true => a
  | false, false => if orderKey f a < orderKey f b then b else a

/-- The conditions of FCMP (R137). -/
inductive FCond where
  | eq | ne | lt | le | unord | ord | isnan | isinf
  deriving DecidableEq, Repr

/-- cond of R137 on f32 bits. -/
def fcond (c : FCond) (a b : Nat) : Bool :=
  let un := isNanBits .f32 a || isNanBits .f32 b
  match c with
  | .eq => !un && valueKey .f32 a == valueKey .f32 b
  | .ne => un || valueKey .f32 a != valueKey .f32 b
  | .lt => !un && decide (valueKey .f32 a < valueKey .f32 b)
  | .le => !un && decide (valueKey .f32 a ≤ valueKey .f32 b)
  | .unord => un
  | .ord => !un
  | .isnan => isNanBits .f32 a
  | .isinf => magBits .f32 a == 0x7F800000

/-! ### Matrix sums (R46 to R49) -/

/-- One group of products summed exactly (R46, R47). -/
def groupSum (mode : Mode) (ps : List (FVal × FVal)) : FVal := sumVals mode (ps.map fun p => mulVals p.1 p.2)

/-- The bits of an f32 addition of a running value and a group sum. A NaN stays unchanged (R47). -/
def accStep (mode : Mode) (o : Origin) (acc : Nat) (s : FVal) : Nat :=
  if isNanBits .f32 acc then acc else fenc .f32 mode false o (sumVals mode [fdec .f32 acc, s])

/-- The groups of `g` consecutive products, at most `n` of them. -/
def groups {α : Type} (g : Nat) : Nat → List α → List (List α)
  | 0, _ => []
  | n + 1, l => if l.isEmpty then [] else l.take g :: groups g n (l.drop g)

/-- One output element of MMA: the first NaN of A, B and the accumulator, or the groups in increasing order (R46, R47).
(Log 53 DEDUCED.) -/
def mmaElem (mode : Mode) (o : Origin) (g : Nat) (as bs : List FVal) (acc : Option Nat) : Nat :=
  let start := acc.getD 0
  match firstNan (as ++ bs ++ (acc.map (fdec .f32)).toList) with
  | some v => fenc .f32 mode false o v
  | none =>
    (groups g (as.length + 1) (as.zip bs)).foldl (fun a ps => accStep mode o a (groupSum mode ps)) start

/-- One output element of SCACC: scale codes `sa` and `sb`, block value `p`, and the accumulator when ACC = 1 (R49, R226).
(Log 53 DEDUCED.) -/
def scaccElem (mode : Mode) (o : Origin) (sa sb p : Nat) (acc : Option Nat) : Nat :=
  if sa = 0xFF ∨ sb = 0xFF then fenc .f32 mode false o .gen
  else
    let v := match fdec .f32 p with
      | .fin s m e => .fin s m (e + ((sa : Int) - 127) + ((sb : Int) - 127))
      | v => v
    match acc with
    | none => fenc .f32 mode false o v
    | some d => fenc .f32 mode false o ((firstNan [v, fdec .f32 d]).getD (sumVals mode [fdec .f32 d, v]))

end Sys2Proof.Machine
end

