-- ==== Sys2Proof/Machine/FloatOps.lean ====
section
/-! DEFINITION. The floating-point functions as pure values of their operands, RMODE, PC and thread (R135 to R145). -/

namespace Sys2Proof.Machine

/-- What a float function reads besides its operands: the PC and thread that a generated NaN carries, and RMODE (R36, R43). -/
structure FEnv where
  pc : Nat
  t : Nat
  rmode : Nat
  deriving DecidableEq, Repr

/-- MODE. -/
def FEnv.mode (e : FEnv) : Mode := modeOf (e.rmode % 8)

/-- SAT. -/
def FEnv.sat (e : FEnv) : Bool := e.rmode / 8 % 2 == 1

/-- The origin of a generated NaN. -/
def FEnv.origin (e : FEnv) : Origin := ⟨originHash e.pc, e.t⟩

/-- dec(x, f32). -/
def decW (x : Word) : FVal := fdec .f32 x.toNat

/-- enc(v, f32). SAT never applies (R39). -/
def encW (e : FEnv) (v : FVal) : Word := BitVec.ofNat 32 (fenc .f32 e.mode false e.origin v)

/-- FADD (R135). -/
def fAdd (e : FEnv) (a b : Word) : Word := encW e (addF e.mode (decW a) (decW b))

/-- FSUB. -/
def fSub (e : FEnv) (a b : Word) : Word := encW e (subF e.mode (decW a) (decW b))

/-- FMUL. -/
def fMul (e : FEnv) (a b : Word) : Word := encW e (mulF (decW a) (decW b))

/-- FFMA: one rounding. -/
def fFma (e : FEnv) (a b d : Word) : Word := encW e (fmaF e.mode (decW a) (decW b) (decW d))

/-- FMIN (R136). -/
def fMin (a b : Word) : Word := BitVec.ofNat 32 (fminBits .f32 a.toNat b.toNat)

/-- FMAX (R136). -/
def fMax (a b : Word) : Word := BitVec.ofNat 32 (fmaxBits .f32 a.toNat b.toNat)

/-- FSCALE. -/
def fScale (e : FEnv) (a b : Word) : Word := encW e (scaleF (decW a) b.toInt)

/-- FCOPYS. -/
def fCopys (a b : Word) : Word := (a &&& 0x7FFFFFFF) ||| (b &&& 0x80000000)

/-- FRCP (R138, R139). -/
def fRcp (e : FEnv) (a : Word) : Word := encW e (divF (.fin false 1 0) (decW a))

/-- FRSQ. -/
def fRsq (e : FEnv) (a : Word) : Word := encW e (rsqrtF (decW a))

/-- FSQRT. -/
def fSqrt (e : FEnv) (a : Word) : Word := encW e (sqrtF (decW a))

/-- FEXP2. -/
def fExp2 (e : FEnv) (a : Word) : Word := BitVec.ofNat 32 (transF32 3 e.mode e.origin a)

/-- FLOG2. -/
def fLog2 (e : FEnv) (a : Word) : Word := BitVec.ofNat 32 (transF32 4 e.mode e.origin a)

/-- FTANH. -/
def fTanh (e : FEnv) (a : Word) : Word := BitVec.ofNat 32 (transF32 5 e.mode e.origin a)

/-- FDIV. -/
def fDiv (e : FEnv) (a b : Word) : Word := encW e (divF (decW a) (decW b))

/-- FRINT. -/
def fRint (e : FEnv) (a : Word) : Word := encW e (rintF e.mode (decW a))

/-! ### Packed pairs (R140, R141) -/

/-- Element `h` of a packed register: 0 low, 1 high. -/
def half (x : Word) (h : Nat) : Nat := x.toNat / 2 ^ (16 * h) % 2 ^ 16

/-- A packed register from its two elements, each computed on its own. -/
def pack2 (f : Nat → Nat) : Word := BitVec.ofNat 32 (f 0 % 2 ^ 16 + f 1 % 2 ^ 16 * 2 ^ 16)

/-- One rounding into an element's format, SAT included (R39). -/
def encH (f : Fmt) (e : FEnv) (v : FVal) : Nat := fenc f e.mode e.sat e.origin v

/-- HADD2 and BADD2. -/
def pAdd (f : Fmt) (e : FEnv) (a b : Word) : Word := pack2 fun h => encH f e (addF e.mode (fdec f (half a h)) (fdec f (half b h)))

/-- HSUB2 and BSUB2. -/
def pSub (f : Fmt) (e : FEnv) (a b : Word) : Word := pack2 fun h => encH f e (subF e.mode (fdec f (half a h)) (fdec f (half b h)))

/-- HMUL2 and BMUL2. -/
def pMul (f : Fmt) (e : FEnv) (a b : Word) : Word := pack2 fun h => encH f e (mulF (fdec f (half a h)) (fdec f (half b h)))

/-- HFMA2 and BFMA2. -/
def pFma (f : Fmt) (e : FEnv) (a b d : Word) : Word :=
  pack2 fun h => encH f e (fmaF e.mode (fdec f (half a h)) (fdec f (half b h)) (fdec f (half d h)))

/-- HMIN2 and BMIN2. -/
def pMin (f : Fmt) (a b : Word) : Word := pack2 fun h => fminBits f (half a h) (half b h)

/-- HMAX2 and BMAX2. -/
def pMax (f : Fmt) (a b : Word) : Word := pack2 fun h => fmaxBits f (half a h) (half b h)

/-- DOT2 and BDOT2: an f32 accumulation with one rounding (R141). -/
def pDot (f : Fmt) (e : FEnv) (a b d : Word) : Word :=
  encW e (dot2F e.mode (fdec f (half a 0)) (fdec f (half a 1)) (fdec f (half b 0)) (fdec f (half b 1)) (decW d))

/-! ### Conversions (R142 to R145) -/

/-- The functions of CVT. -/
inductive CvtFn where
  | cvt | pack | unpk | cvi | sat
  deriving DecidableEq, Repr

/-- SRC of a control word. -/
def cwSrc (c : Word) : Nat := c.toNat % 8

/-- DST. -/
def cwDst (c : Word) : Nat := c.toNat / 8 % 8

/-- SOV. -/
def cwSov (c : Word) : Nat := c.toNat / 64 % 4

/-- ROV. -/
def cwRov (c : Word) : Nat := c.toNat / 256 % 8

/-- IDX. -/
def cwIdx (c : Word) : Nat := c.toNat / 2048 % 8

/-- DIR. -/
def cwDir (c : Word) : Nat := c.toNat / 16384 % 2

/-- The width of an integer code (R143). -/
def intWidth (c : Nat) : Nat := 8 * 2 ^ (c % 4)

/-- An integer code is signed. -/
def intSigned (c : Nat) : Bool := c < 4

/-- The source is an integer type. -/
def cvtIntSrc (f : CvtFn) (c : Word) : Bool :=
  match f with
  | .cvi => cwDir c == 1
  | .sat => true
  | _ => false

/-- The destination is an integer type. -/
def cvtIntDst (f : CvtFn) (c : Word) : Bool :=
  match f with
  | .cvi => cwDir c == 0
  | .sat => true
  | _ => false

/-- The source is a 64-bit pair. -/
def cvtWideSrc (f : CvtFn) (c : Word) : Bool := cvtIntSrc f c && intWidth (cwSrc c) == 64

/-- The destination is a 64-bit pair. -/
def cvtWideDst (f : CvtFn) (c : Word) : Bool := cvtIntDst f c && intWidth (cwDst c) == 64

/-- The RESERVED_FIELD conditions of a control word (R145). -/
def cvtReserved (f : CvtFn) (c : Word) (d a : PReg) : Bool :=
  c.toNat / 2 ^ 15 != 0 || (cwDir c != 0 && f != .cvi) || (cwIdx c != 0 && f != .pack && f != .unpk)
    || (cvtWideSrc f c && !a.pair) || (cvtWideDst f c && !d.pair)

/-- The FORMAT conditions of a control word (R145). -/
def cvtFormat (f : CvtFn) (c : Word) : Bool :=
  cwRov c == 7 || cwSov c == 3
    || (f == .pack && (cwSrc c != 0 || cwDst c == 0 || 32 / (fmtOf (cwDst c)).width ≤ cwIdx c))
    || (f == .unpk && (cwSrc c == 0 || 32 / (fmtOf (cwSrc c)).width ≤ cwIdx c))

/-- The environment with the mode and SAT that ROV and SOV select (R142). -/
def cvtEnv (e : FEnv) (c : Word) : FEnv :=
  let m := if cwRov c = 0 then e.rmode % 8 else cwRov c - 1
  let s := if cwSov c = 0 then e.rmode / 8 % 2 else cwSov c - 1
  { e with rmode := m + 8 * s }

/-- An integer of a code's type from its bits. -/
def intOf (c : Nat) (v : Nat) : Int :=
  let w := intWidth c
  if intSigned c then (BitVec.ofNat w v).toInt else ((v % 2 ^ w : Nat) : Int)

/-- The least value of an integer type. -/
def intMin (c : Nat) : Int := if intSigned c then -2 ^ (intWidth c - 1) else 0

/-- The greatest value of an integer type. -/
def intMax (c : Nat) : Int := if intSigned c then 2 ^ (intWidth c - 1) - 1 else 2 ^ intWidth c - 1

/-- A float value rounded and saturated to an integer type (R42). -/
def toIntType (mode : Mode) (c : Nat) (v : FVal) : Int :=
  match v with
  | .fin neg m e => clampInt (roundInt mode neg m e) (intMin c) (intMax c)
  | .inf neg => if neg then intMin c else intMax c
  | .nan .. => 0
  | .gen => 0

/-- An exact integer as a value. -/
def intVal (n : Int) : FVal := .fin (decide (n < 0)) n.natAbs 0

/-- The result of a conversion as 64 bits; a narrower integer is extended by its own sign, and `d` is the old D (R144). `a`
is the source register, with the next one above it where the source is a pair. -/
def cvtValue (f : CvtFn) (e0 : FEnv) (c : Word) (a : Nat) (d : Word) : DWord :=
  let e := cvtEnv e0 c
  let enc := fun (g : Fmt) (v : FVal) => fenc g e.mode e.sat e.origin v
  let fs := fmtOf (cwSrc c)
  let fd := fmtOf (cwDst c)
  match f with
  | .cvt => BitVec.ofNat 64 (enc fd (fdec fs (a % 2 ^ fs.width)))
  | .pack =>
    let v := enc fd (fdec .f32 (a % 2 ^ 32))
    let p := fd.width * cwIdx c
    let old := d.toNat / 2 ^ p % 2 ^ fd.width
    BitVec.ofNat 64 (d.toNat - old * 2 ^ p + v * 2 ^ p)
  | .unpk => BitVec.ofNat 64 (enc fd (fdec fs (a / 2 ^ (fs.width * cwIdx c) % 2 ^ fs.width)))
  | .cvi =>
    if cwDir c = 0 then BitVec.ofInt 64 (toIntType e.mode (cwDst c) (fdec fs (a % 2 ^ fs.width)))
    else BitVec.ofNat 64 (enc fd (intVal (intOf (cwSrc c) a)))
  | .sat => BitVec.ofInt 64 (clampInt (intOf (cwSrc c) a) (intMin (cwDst c)) (intMax (cwDst c)))

end Sys2Proof.Machine
end

