-- ==== Sys2Proof/Machine/Store.lean ====
section
/-! DEFINITION. Sparse tables in one canonical form: keys strictly rising, no entry equal to what an unlisted key reads as.
Memory, the register files, tiles, accumulators and the device's counters are such tables. -/

namespace Sys2Proof.Machine

/-- A sparse table from numbers to values. -/
abbrev Store (α : Type) := List (Nat × α)

/-- The value of key `k`; an unlisted key reads as `d`. -/
def sget {α : Type} (d : α) (l : Store α) (k : Nat) : α :=
  match l with
  | [] => d
  | (j, v) :: r => if j < k then sget d r k else if j = k then v else d

/-- The entries from key `k` on. -/
def sfrom {α : Type} (l : Store α) (k : Nat) : Store α :=
  match l with
  | [] => []
  | (j, v) :: r => if j < k then sfrom r k else (j, v) :: r

/-- Remove key `k`. -/
def sdel {α : Type} (l : Store α) (k : Nat) : Store α :=
  match l with
  | [] => []
  | (j, v) :: r => if j < k then (j, v) :: sdel r k else if j = k then sfrom r (k + 1) else (j, v) :: r

/-- Put value `v` at key `k`. -/
def sput {α : Type} (l : Store α) (k : Nat) (v : α) : Store α :=
  match l with
  | [] => [(k, v)]
  | (j, w) :: r => if j < k then (j, w) :: sput r k v else if j = k then (k, v) :: r else (k, v) :: (j, w) :: r

/-- Write value `v` at key `k`: the default removes the entry, so that equal tables are equal data. -/
def sset {α : Type} [DecidableEq α] (d : α) (l : Store α) (k : Nat) (v : α) : Store α :=
  if v = d then sdel l k else sput l k v

/-- The value of key `k` where it is listed. -/
def sfind {α : Type} (l : Store α) (k : Nat) : Option α :=
  match l with
  | [] => none
  | (j, v) :: r => if j < k then sfind r k else if j = k then some v else none

/-- Change the value of key `k` where it is listed. -/
def smod {α : Type} (l : Store α) (k : Nat) (f : α → α) : Store α :=
  match l with
  | [] => []
  | (j, v) :: r => if j < k then (j, v) :: smod r k f else if j = k then (j, f v) :: r else (j, v) :: r

/-- Every key from `lo` on is above `lo`'s predecessor and keys rise strictly; no entry holds the default. -/
def Store.wfFrom {α : Type} [DecidableEq α] (d : α) (lo : Nat) : Store α → Bool
  | [] => true
  | (k, v) :: r => decide (lo ≤ k) && decide (v ≠ d) && Store.wfFrom d (k + 1) r

/-- The canonical form. -/
def Store.wf {α : Type} [DecidableEq α] (d : α) (l : Store α) : Bool := Store.wfFrom d 0 l

/-- The entries of `vs` at keys `k`, `k + 1`, … that do not hold the default. -/
def listed {α : Type} [DecidableEq α] (d : α) (k : Nat) : List α → Store α
  | [] => []
  | v :: r => if v = d then listed d (k + 1) r else (k, v) :: listed d (k + 1) r

/-- The entries below key `k`. -/
def sbelow {α : Type} (l : Store α) (k : Nat) : Store α :=
  match l with
  | [] => []
  | (j, v) :: r => if j < k then (j, v) :: sbelow r k else []

/-- Write `vs` at keys `k`, `k + 1`, … -/
def ssetMany {α : Type} [DecidableEq α] (d : α) (l : Store α) (k : Nat) (vs : List α) : Store α :=
  sbelow l k ++ listed d k vs ++ sfrom l (k + vs.length)

/-- The values of keys `k` to `k + n − 1` of a table whose first key is not below `k`. -/
def sread {α : Type} (d : α) : Store α → Nat → Nat → List α
  | _, _, 0 => []
  | [], _, n + 1 => List.replicate (n + 1) d
  | (j, v) :: r, k, n + 1 => if j = k then v :: sread d (sfrom r (k + 1)) (k + 1) n else d :: sread d ((j, v) :: r) (k + 1) n
  termination_by structural _ _ n => n

/-- The values of keys `k` to `k + n − 1`. -/
def sgetMany {α : Type} (d : α) (l : Store α) (k n : Nat) : List α := sread d (sfrom l k) k n

/-- Drop every key in `[lo, hi)`. -/
def sclear {α : Type} (l : Store α) (lo hi : Nat) : Store α := sbelow l lo ++ sfrom l hi

end Sys2Proof.Machine
end

