-- ==== Sys2Proof/Machine/State.lean ====
section
/-! DEFINITION. The state of the KV9 as plain data: all that the spec gives the device, and the model's own fields (the
agenda of events to come, the unit in turn and two counters). -/

namespace Sys2Proof.Machine

/-! ### Capabilities and places -/

/-- A capability: 128 bits and the hidden tag (R336). -/
structure Cap where
  bits : QWord
  tag : Bool
  deriving DecidableEq, Repr

/-- The untagged zero capability. -/
def Cap.null : Cap := ⟨0, false⟩

/-- Where a unit runs (R65): on an offset core `core` is the offset core and `slot` the thread context. -/
structure Loc where
  cluster : Nat
  slice : Nat
  core : Nat
  part : Nat
  slot : Nat
  deriving DecidableEq, Repr

/-! ### A warp (R51) -/

/-- The register files of a warp. Keys: `v`, `o`, `y` and `c` registers by number × 128 + thread; tiles by tile × 4096 +
byte; accumulators by number × 4096 + row × 64 + column. Poison: 0 none, 1 from memory, 2 always trapping (R185). -/
structure Regs where
  x : Store Word
  xp : Store Nat
  s : Store DWord
  sp : Store Nat
  m : Store QWord
  mp : Store Nat
  c : Store Cap
  cp : Store Nat
  k : Store Cap
  t : Store Byte
  tp : Store Bool
  a : Store Word
  ap : Store Bool
  deriving DecidableEq, Repr

/-- The mark of a thread in the PC table (R151, R270). -/
inductive Mark where
  | ready
  /-- Parked at a JOIN, with the mask register that JOIN names. -/
  | parked (m : Nat)
  /-- Blocked at a blocking point, or on a translation fault. -/
  | blocked (onStub : Bool)
  /-- Ejected, with the rejoin mask register of the region. -/
  | ejected (m : Nat)
  deriving DecidableEq, Repr

/-- A return-address stack: entries on chip, oldest first, and the spilled count (R74). A stack with no entry on chip and
entries spilled has its refill in flight (R75, R286). -/
structure Ras where
  chip : List DWord
  spilled : Nat
  deriving DecidableEq, Repr

/-- The states of a recipe entry (R66). -/
inductive RState where
  | valid | dropped | pinned
  deriving DecidableEq, Repr

/-- A recipe entry (R66, R249, R307): the tagged instruction's word and literal, its PC, RMODE, depth, state and row. `lost`
marks an entry whose register came back poisoned and that reads as no entry (R73, R214). -/
structure Recipe where
  reg : Nat
  insn : Nat
  lit : Nat
  pc : Nat
  rmode : Nat
  depth : Nat
  st : RState
  stale : Bool
  lost : Bool
  row : Option Nat
  deriving DecidableEq, Repr

/-- One destination register still to be written: register number, value, and whether the data came poisoned. -/
structure Dest where
  reg : Nat
  val : Word
  poison : Bool
  deriving DecidableEq, Repr

/-- A long-latency instruction of one thread with its lookahead window (R96, R97): `left` instructions may still issue. -/
structure Pend where
  id : Nat
  thread : Nat
  pc : Nat
  insn : Nat
  lit : Nat
  left : Nat
  dests : List Dest
  /-- The data has arrived. -/
  arrived : Bool
  /-- The thread has issued a later instruction: the access stands before it, so that a reissue gives the data read at first
  (R361 to R369). -/
  performed : Bool
  /-- The access faulted and waits for a replay. -/
  faulted : Bool
  /-- An atomic or acquire, inside whose window no memory instruction issues (R186). -/
  atomic : Bool
  /-- A load that may become a replay packet (R251). -/
  load : Bool
  /-- The object and byte offset resolved at issue. -/
  obj : Nat
  off : Nat
  /-- The tokens of the faults that the access met at its last issue, one per page (R355). -/
  tokens : List Nat
  deriving DecidableEq, Repr

/-- A write of one tile or accumulator that an operation in flight has still to make: the whole new contents and marks. -/
structure TileWrite where
  acc : Bool
  num : Nat
  bytes : Store Byte
  bpoison : Store Bool
  words : Store Word
  wpoison : Store Bool
  deriving DecidableEq, Repr

/-- A tile instruction or follow-on command in flight: what it reads and writes by scoreboard number (tiles 0 to 7,
accumulators 8 to 11), its window, and its result (R216). -/
structure TileOp where
  id : Nat
  reads : List Nat
  writes : List Nat
  left : Nat
  result : List TileWrite
  deriving DecidableEq, Repr

/-- A byte with its poison mark. -/
abbrev PByte := Byte × Bool

/-- A row of a copy that a fault, or a missing credit, has stopped midway: the source bytes read so far, the destination bytes done
with, those of them that have landed, and whether any was not written (R234). -/
structure RowPart where
  row : Nat
  src : List PByte
  put : Nat
  landed : Nat
  lost : Bool
  deriving DecidableEq, Repr

/-- A copy in flight (R229 to R234): the kind as F and G of R230, the descriptor words, capabilities, mode and shapes
captured at issue, its PC, the rows still to move, and its batch (none while unsealed). -/
structure Copy where
  id : Nat
  f : Nat
  g : Nat
  desc : List DWord
  src : List Cap
  dst : Cap
  areg : Nat
  rmode : Nat
  tshp : List Nat
  ashp : List Nat
  pc : Nat
  rows : List Nat
  nrows : Nat
  batch : Option Nat
  poison : Bool
  parts : List RowPart
  /-- The tile image under construction, for a tile destination. -/
  image : Store Byte
  imagePoison : Store Bool
  /-- The follow-on command has still to run. -/
  follow : Bool
  /-- Suspended on a fault: its token and the page, as `denied` numbers pages. -/
  token : Option (Nat × Nat)
  /-- Faulting bytes are denied from now on: source pages, destination pages (R356). -/
  denied : List Nat
  /-- Cancelled at a save; the resume issues it again from its record (R258). -/
  cancelled : Bool
  /-- A copy out of a tile whose rows `image` holds, because its warp has left its slot. -/
  held : Bool
  deriving DecidableEq, Repr

/-- A sealed batch of a warp (R332). -/
structure Batch where
  num : Nat
  copies : List Nat
  poison : Bool
  complete : Bool
  deriving DecidableEq, Repr

/-- A queue-port binding (R311): mode 0 unbound, 1 receive, 2 send local, 3 send remote, 4 random ring. -/
structure Port where
  mode : Nat
  place : Nat
  offset : Nat
  request : Nat
  credits : Nat
  deriving DecidableEq, Repr

/-- The blocking points with what their wake condition needs (R334). -/
structure Wait where
  kind : Nat
  arg : Nat
  flags : Nat
  value : Nat
  mask : Nat
  obj : Nat
  off : Nat
  /-- The threads blocked here, the PC of the instruction and its length, and its destination where it has one. -/
  threads : Nat
  pc : Nat
  len : Nat
  dest : Option Nat
  deriving DecidableEq, Repr

/-- A routine in progress (R250 to R260). -/
structure Routine where
  exit : Bool
  threads : Nat
  region : Nat
  reason : Nat
  size : Nat
  high : Nat
  count : Nat
  /-- The registers the routine has written, by EDONE's number (v, o, y number; 65536 + uniform; 131072 + capability). -/
  written : List Nat
  /-- What the header's STATUS says of the save besides its outcome. -/
  npkt : Nat
  blocked : Bool
  eject : Bool
  /-- Of an entry routine: the PC table and the waits that the header holds, which the warp takes at EDONE (R255). -/
  pcs : Store Nat
  marks : Store Mark
  waits : List Wait
  deriving DecidableEq, Repr

/-- Vectoring that waits for outstanding operations (R251, step 2). -/
structure Vec where
  reason : Nat
  expired : Bool
  deriving DecidableEq, Repr

/-- What an ejected or class 1 thread carries (R272, R320): its warp, its thread index, its rejoin mask register and its
eject lists as bit masks. -/
structure Off where
  parent : Option Nat
  thread : Nat
  rejoin : Option Nat
  ejV : Nat
  ejO : Nat
  ejY : Nat
  /-- The context at `loc` is kept for the recall of this thread, whose warp is resuming (R255, R256). -/
  held : Bool
  deriving DecidableEq, Repr

/-- The states of a warp (R269). A warp whose group has ended stays as `ended` while copies that it issued move (R322). -/
inductive WStat where
  | resident | outAlone | outCtx | ended
  deriving DecidableEq, Repr

/-- A warp, or a thread on an offset core as a warp of one thread (R273). -/
structure Warp where
  grp : Nat
  idx : Nat
  asid : Nat
  loc : Loc
  stat : WStat
  base : Nat
  elastic : Nat
  ntiles : Nat
  naccs : Nat
  live : Nat
  pcs : Store Nat
  marks : Store Mark
  regs : Regs
  /-- The registers as they stood at step 1 of vectoring, while a routine runs (R253). -/
  saved : Option Regs
  ras : Store Ras
  rmode : Nat
  tm : Bool
  inh : Bool
  shadow61 : DWord
  shadow62 : DWord
  shadow15 : QWord
  handler : Nat
  tshp : Store Nat
  ashp : Store Nat
  wtime : Nat
  wtcmp : Nat
  wtstage : Option Word
  /-- Latches of CYC, TIME and WTIME, by counter × 128 + thread (R63). -/
  latch : Store (Option Word)
  recipes : List Recipe
  pends : List Pend
  tops : List TileOp
  copies : List Copy
  sealCtr : Nat
  batches : List Batch
  /-- A copy that completed before it was sealed met poisoned data (R236). -/
  openPoison : Bool
  ports : Store Port
  waits : List Wait
  /-- By thread, 1 + the PC of a call that a spill fault has stopped: it completes without offsetting (R272). -/
  noEject : Store Nat
  /-- Passed over by its own YIELD, with the units that have still to issue (R156). -/
  yield : List Nat
  /-- GEN, the generation tag of its frame (R265). -/
  gen : Nat
  vec : Option Vec
  routine : Option Routine
  heldPre : Option Nat
  tmaskClk : Nat
  resumeGuard : Bool
  /-- Trap causes that handed-back threads carry (R159): by thread, cause and INFO × 256. -/
  carried : Store Nat
  /-- Why the warp is out: the REASON of R250. -/
  reason : Nat
  rejoinWait : Nat
  off : Option Off
  rows : List Nat
  /-- Fault tokens this unit waits on, with the page each answers for. -/
  tokens : List (Nat × Nat)
  /-- The tokens of this warp's faults that were denied (R356). -/
  denied : List Nat
  /-- Bits that MDROP of ejected threads cleared while the warp was away, by mask register (R168, R273). -/
  drops : Store QWord
  deriving DecidableEq, Repr

/-! ### Groups, launches and contexts -/

/-- A barrier instance (R177, R326): level 0 to 3 and the instance of the tier. -/
structure Bar where
  level : Nat
  inst : Nat
  n : Nat
  gen : Nat
  count : Nat
  /-- Warps that have arrived in the current generation. -/
  arrived : List Nat
  deriving DecidableEq, Repr

/-- A DWWAIT that waits on a datum word of an allocation: its unit and threads, the word's offset and the generation; `met` once an
update or a store has left a word for which the wait is over (R330). -/
structure Watch where
  unit : Nat
  threads : Nat
  off : Nat
  gen : Nat
  met : Bool
  deriving DecidableEq, Repr

/-- A scratchpad allocation of a core group (R14). -/
structure Alloc where
  cluster : Nat
  slice : Nat
  core : Nat
  base : Nat
  size : Nat
  bytes : Store Byte
  poison : Store Bool
  watch : List Watch
  deriving DecidableEq, Repr

/-- The states of a work group (R268) once it is placed. -/
inductive GStat where
  | running | out | done | ended
  deriving DecidableEq, Repr

/-- A work group. -/
structure Group where
  launch : Nat
  idx : Nat
  asid : Nat
  stat : GStat
  /-- Its warps, or class 1 threads, that have not ended. -/
  members : List Nat
  cores : List (Nat × Nat × Nat)
  bars : List Bar
  allocs : List Alloc
  status : Nat
  cause : Nat
  pc : Nat
  deriving DecidableEq, Repr

/-- The launch record's fields (R289) and the progress of the node that names it. -/
structure Launch where
  asid : Nat
  kernel : Nat
  base : Nat
  elastic : Nat
  ntiles : Nat
  naccs : Nat
  level : Nat
  args : Nat
  groups : Nat
  warps : Nat
  threads : Nat
  handler : Option Nat
  frameSize : Nat
  nregions : Nat
  regtab : Nat
  montab : Nat
  nmon : Nat
  /-- Offset of the Cheori body, where the return-site list ends (R289, R305). -/
  cheori : Nat
  scratch : Nat
  stack : Nat
  k : List Cap
  frames : Cap
  save : Cap
  stackT : Cap
  /-- The declared tile operand of the node, or untagged (R320). -/
  operand : Cap
  /-- The gang member's index, for s2 (R58). -/
  member : Nat
  /-- Class 1 node: its threads run alone on offset cores (R320). -/
  offThreads : Bool
  chain : Nat
  seq : Nat
  placed : Nat
  finished : Nat
  status : Nat
  cause : Nat
  pc : Nat
  deriving DecidableEq, Repr

/-- The states of a context (R245, R246). -/
inductive CState where
  | created | ready | resident | switchingOut | switchedOut | faulted | resetting | destroyed
  deriving DecidableEq, Repr

/-- A context (R245). Bounds hold effective values. -/
structure Ctx where
  vd : Nat
  /-- HBM address of the descriptor, whose word 3 the hardware writes. -/
  desc : Cap
  hpart : Nat
  state : CState
  fcause : Nat
  exitBudget : Nat
  tmaskBound : Nat
  rejoinLimit : Nat
  slice : Nat
  watchdog : Nat
  /-- Progress-eligible time since the context last issued or advanced, in ns (R263). -/
  idle : Nat
  sliceStart : Nat
  reason : Nat
  /-- Overrun counts by kernel and region; 16 makes the region raw-only (R252). -/
  overruns : List (Nat × Nat × Nat)
  /-- A migration stop is pending, with its deadline in TIME (R300). -/
  migration : Option Nat
  /-- The last migration failed with MIGRATION_TIMEOUT (R301). -/
  migFailed : Bool
  /-- The status with which pending nodes complete at a reset: 4 CONTEXT_RESET, or 9 GANG_ABORT (R325). -/
  resetStatus : Nat
  /-- The context is destroyed once its reset is complete (R246). -/
  dying : Bool
  faultsIgnored : Nat
  deriving DecidableEq, Repr

/-- A kernel (R287, R288). -/
structure Kernel where
  asid : Nat
  record : Cap
  state : Nat
  status : Nat
  dataCap : Cap
  deriving DecidableEq, Repr

/-- The state of a chain entry (R319). -/
inductive EState where
  | waiting | held | ready | running | complete
  deriving DecidableEq, Repr

/-- A chain entry that its engine has read (R317). -/
structure Entry where
  seq : Nat
  state : EState
  granules : List Cap
  length : Nat
  prio : Nat
  readyAt : Nat
  agedAt : Nat
  launch : Nat
  moved : Nat
  token : Option Nat
  denied : Bool
  status : Nat
  /-- Status, cause and PC are fixed, and the completion waits on a fault of the chain's own memory. -/
  fixed : Option (Nat × Nat × Nat)
  /-- ERRCODE, ERRSEQ and the event of the completion have been written and presented; DONE has still to advance (R322). -/
  posted : Bool
  /-- What a sampler request that waits on a fault has read, in order, and the capabilities among it; what it is to write, once that
  is computed, and how many bytes of it have been written (R356, R374). -/
  got : List PByte
  gotCaps : List Cap
  out : List (Cap × List Byte)
  put : Nat
  deriving DecidableEq, Repr

/-- A registered chain (R313, R314). -/
structure Chain where
  asid : Nat
  vd : Nat
  cap : Cap
  engine : Nat
  cluster : Nat
  log2n : Nat
  next : Nat
  done : Nat
  entries : List Entry
  /-- An entry that is no longer kept completed with a nonzero status. -/
  oldFailed : Bool
  deriving DecidableEq, Repr

/-- The state of a gang (R324). -/
inductive GangState where
  | arming | running | aborted | done
  deriving DecidableEq, Repr

/-- A gang this device leads: the node's context, kernel and chain entry, members, those acknowledged and those done with their
status. -/
structure Gang where
  asid : Nat
  kernel : Nat
  chain : Nat
  seq : Nat
  state : GangState
  members : List Nat
  acked : List Nat
  done : List (Nat × Nat)
  deadline : Nat
  deriving DecidableEq, Repr

/-- A gang this device is a member of: the launch, its context, whether it has acknowledged and whether GO has come, and the warps and
groups for which it keeps places until they are placed (R324). -/
structure GangPart where
  launch : Nat
  asid : Nat
  leader : Nat
  acked : Bool
  started : Bool
  units : Store Warp
  groups : Store Group
  deriving DecidableEq, Repr

/-- A random-engine slot (R380). -/
structure RngSlot where
  key : DWord
  nxt : DWord
  owner : Nat
  en : Bool
  ring : List DWord
  deriving DecidableEq, Repr

/-- A page of a window: its number, its HBM frame, and ATTR of the pool, under which the frame was taken (R390). -/
structure WPage where
  page : Nat
  frame : Nat
  attr : Nat
  deriving DecidableEq, Repr

/-- A window-table entry (R388), with its window pages and snapshot pages. -/
structure Window where
  asid : Nat
  last : Nat
  isOpen : Bool
  pos : Nat
  len : Nat
  kv : Cap
  rs : Cap
  pool : Cap
  kvb : Nat
  sb : Nat
  pages : List WPage
  snaps : List WPage
  /-- Snapshot 0 with its poison marks, and the bytes of later snapshots that have been written. -/
  snap0 : Store Byte
  snap0Poison : Store Bool
  snapSet : Store Bool
  deriving DecidableEq, Repr

/-! ### The device -/

/-- A virtual device (R396 to R401). -/
structure Vd where
  /-- 0 Disabled, 1 Enabled, 2 Running, 3 Held. -/
  state : Nat
  gen : Nat
  ctlchain : Nat
  ctlTail : Nat
  ctlNext : Nat
  ctlLog2 : Nat
  /-- Control entries that completed with a nonzero status. -/
  ctlFailed : List Nat
  xlatSel : Nat
  shootBusy : Bool
  shoot : Nat
  shootPg : DWord
  evrBase : DWord
  evrLog2 : Nat
  evrHead : Nat
  evrTail : Nat
  /-- The next event written to an empty ring raises vector 0. -/
  evrArmed : Bool
  evLost : Nat
  evStale : Nat
  /-- Events lost since the last OVERFLOW entry. -/
  lostSince : Nat
  fqBase : DWord
  fqLog2 : Nat
  fqHead : Nat
  fqTail : Nat
  fqArmed : Bool
  rngSel : Nat
  deriving DecidableEq, Repr

/-- A fault record (R355): its four words and its virtual device. -/
structure Fault32 where
  vd : Nat
  w0 : DWord
  w1 : DWord
  w2 : DWord
  w3 : DWord
  deriving DecidableEq, Repr

/-- What the arbiter accepts (R26): an entry of the event ring, an interrupt that no entry or record raises, a fault record for the
fault queue, or a function-level reset, which is itself an event (R401). -/
inductive EvWhat where
  | entry
  | irq (vec : Nat)
  | record (f : Fault32)
  | reset
  deriving DecidableEq, Repr

/-- An event presented to the arbiter (R26, R399), with its source number (R27). -/
structure Event where
  src : Nat
  /-- The clk in which it was presented. -/
  clk : Nat
  vd : Nat
  typ : Nat
  asid : Nat
  gen : Nat
  a : Nat
  b : Nat
  c : Nat
  what : EvWhat
  deriving DecidableEq, Repr

/-- What a fault token stands for (R356): a unit, a copy of a unit, or a chain entry. -/
inductive TokenOf where
  | unit (u : Nat) (threads : Nat)
  | copy (u id : Nat)
  | entry (chain seq : Nat)
  deriving DecidableEq, Repr

/-- A token not yet answered. -/
structure Token where
  num : Nat
  asid : Nat
  routine : Bool
  /-- The fault arose in a recipe replay (R72), or in an entry routine (R260). -/
  replay : Bool
  entry : Bool
  /-- A translation fault: the page, for its one record. -/
  page : Option Nat
  fault : TokenOf
  deriving DecidableEq, Repr

/-- A cached translation (R344): the page `page` of an object, its unified page, the Cadastre entry and the leaf. -/
structure TlbEntry where
  asid : Nat
  obj : Nat
  page : Nat
  upage : Nat
  cad : QWord
  leaf : DWord
  large : Bool
  deriving DecidableEq, Repr

/-- A compression arena's status record (R351). -/
structure Arena where
  rawblk : Word
  fullflt : Word
  chkfail : Word
  freesect : Word
  deriving DecidableEq, Repr

/-- The state of a link (R403): 0 Down, 1 Degraded, 2 Up, and the lanes it trained to. -/
structure Link where
  state : Nat
  lanes : Nat
  deriving DecidableEq, Repr

/-- A portable frame of a migrating context (R300), with the warp that wrote it. -/
structure Portable where
  unit : Nat
  asid : Nat
  /-- The group's index in its launch, and the warp's in its group. -/
  group : Nat
  idx : Nat
  monument : Nat
  segment : Nat
  op : Nat
  rmode : Nat
  sealCtr : Nat
  live : Nat
  /-- Values by map entry and thread: Cheori register × 128 + thread. -/
  vals : Store DWord
  caps : Store Cap
  /-- Return stacks by thread, as Cheori successors, oldest first. -/
  retStacks : Store (List Nat)
  /-- The barriers of the warp: level, generation, count, and whether it has arrived. -/
  bars : List (Nat × Nat × Nat × Bool)
  deriving DecidableEq, Repr

/-- The operands an event comes with. Each event reads the fields its docstring names. (Log 35 DESIGN CHOICE.) -/
structure EvArg where
  unit : Nat
  id : Nat
  row : Nat
  asid : Nat
  vd : Nat
  chain : Nat
  seq : Nat
  gang : Nat
  member : Nat
  addr : Nat
  value : Nat
  flag : Bool
  bytes : List Byte
  cap : Cap
  cap2 : Cap
  loc : Loc
  deriving DecidableEq, Repr

/-- An event to come, with its operands; what the host and other devices have written to host, pool and fabric memory before it,
by place in `State.mem`; and the errors that have struck before it: compressed blocks whose stored stream is hit, and tile bytes
and accumulator elements whose parity fails, by unit, whether of an accumulator, and key in the file; and from here on the contexts
that the governors of their tenants hold, where that changes (R263). (Log 80 DESIGN CHOICE.) -/
structure Item where
  event : Instr
  arg : EvArg
  outside : List (Nat × List Byte)
  errors : List Nat
  parity : List (Nat × Bool × Nat)
  governed : Option (List Nat)
  deriving DecidableEq, Repr

/-- THE STATE. -/
structure State where
  /-- Bytes of HBM, host, pool and fabric memory and of compressed frames, at the bases of `Mem.lean`. -/
  mem : Store Byte
  /-- Tags of HBM granules, by address / 16. -/
  tags : Store Bool
  /-- Poisoned bytes of memory. -/
  memPoison : Store Bool
  units : Store Warp
  groups : Store Group
  launches : Store Launch
  ctxs : Store Ctx
  kernels : Store Kernel
  chains : Store Chain
  gangs : Store Gang
  gangParts : Store GangPart
  slots : Store RngSlot
  windows : Store Window
  /-- XLAT_CAD and XLAT_PT by ASID. -/
  xlatCad : Store DWord
  xlatPt : Store DWord
  /-- First-level TLBs by core, second-level TLBs by slice; newest first. -/
  tlb1 : Store (List TlbEntry)
  tlb2 : Store (List TlbEntry)
  /-- Frame-key claims, by tier × 2^28 + frame; unlisted is unclaimed. -/
  frameKeys : Store (Option Nat)
  /-- Heat counters, by tier × 2^28 + frame, and the LFSR of each port or gateway. -/
  heat : Store Nat
  lfsr : Store Word
  heatCtl : Nat
  arenas : Store Arena
  /-- Sectors that each block of a compressed frame takes, by frame × 32 + block (R350). -/
  blocks : Store Nat
  /-- Compressed blocks whose check fails on decompression (R351). -/
  failed : Store Bool
  conn : Store DWord
  partReq : Store DWord
  partAsid : Store DWord
  connViol : Nat
  domainId : Nat
  /-- START_CTL, as last written (R397, R406). -/
  startCtl : Nat
  bootStat : Nat
  stretchCnt : Nat
  vdPart : Store Nat
  vds : Store Vd
  /-- Held events (R401) and fault records waiting for room (R400), oldest first. -/
  holding : List Event
  waitingFaults : List Fault32
  /-- Events presented and not yet accepted, in arrival order; and the arbiter's position. -/
  arbiter : List Event
  arbPos : Nat
  tokens : List Token
  nextToken : Nat
  answersIgnored : Nat
  /-- MSI-X interrupts raised: virtual device and vector, newest first. -/
  irqs : List (Nat × Nat)
  /-- CYC of each compute die and TIME (R77); 1 while the die's clock is stretched, 2 once that has been posted (R410). -/
  cyc : Store Nat
  time : Nat
  stretch : Store Nat
  links : Store Link
  /-- Round-robin pointers of the offset cores (R285), by slice × 4 + core. -/
  offPtr : Store Nat
  /-- By partition, the slot after the one that issued last (R281). -/
  slotPtr : Store Nat
  /-- The chain each cluster's sampler engine served last (R374). -/
  sampPtr : Store Nat
  /-- Firmware image body hash and version (R405, R409); none before a cold start has loaded one. -/
  image : Option (List Byte)
  /-- The SIMT cores that this part has not, by core key, and its missing offset cores, by slice × 4 + core (R2). -/
  absentCores : List Nat
  absentOff : List Nat
  /-- The contexts that the bandwidth or power governor of their tenant holds (R263). -/
  governed : List Nat
  /-- The devices of the domain (R64). -/
  devices : Nat
  portables : List Portable
  /-- Bytes returned for the last read request from outside the device, and whether they came poisoned. -/
  hostReply : List Byte
  hostPoison : Bool
  /-- The unit whose instruction `exec` runs. -/
  turn : Nat
  /-- The operands of the event that `exec` runs. -/
  ev : EvArg
  agenda : List Item
  fresh : Nat
  nextId : Nat
  deriving DecidableEq, Repr

/-- Why the machine stops. -/
inductive Fault where
  /-- An ordinary instruction was to run and no unit is in turn: raised by every encoded instruction; safe, no run of
  `step` reaches it because a step names the unit before it runs an instruction. -/
  | noUnit
  deriving DecidableEq, Repr

/-- Why an instruction has no meaning. -/
inductive Refusal where
  /-- Not modelled yet: raised only by an arm of `exec`; safe. -/
  | notModelled (mnemonic : String)
  deriving DecidableEq, Repr

/-! ### Reset -/

/-- A location of zeros. -/
def Loc.zero : Loc := ⟨0, 0, 0, 0, 0⟩

/-- No operands. -/
def EvArg.none : EvArg :=
  { unit := 0, id := 0, row := 0, asid := 0, vd := 0, chain := 0, seq := 0, gang := 0, member := 0, addr := 0, value := 0,
    flag := false, bytes := [], cap := Cap.null, cap2 := Cap.null, loc := Loc.zero }

/-- A virtual device with its registers at reset values (R397). (Log 2 DESIGN CHOICE.) -/
def Vd.reset (state gen : Nat) : Vd :=
  { state := state, gen := gen, ctlchain := 0, ctlTail := 0, ctlNext := 1, ctlLog2 := 0, ctlFailed := [], xlatSel := 0, shootBusy := false,
    shoot := 0, shootPg := 0, evrBase := 0, evrLog2 := 0, evrHead := 0, evrTail := 0, evrArmed := true, evLost := 0,
    evStale := 0, lostSince := 0, fqBase := 0, fqLog2 := 0, fqHead := 0, fqTail := 0, fqArmed := true, rngSel := 0 }

/-- Register files of zeros: no tag, no poison mark (R51, R52). -/
def Regs.zero : Regs :=
  { x := [], xp := [], s := [], sp := [], m := [], mp := [], c := [], cp := [], k := [], t := [], tp := [], a := [], ap := [] }

/-- The device after a cold start of the full configuration has completed (R25, R64, R397, R406, R408): no context is
registered, HBM is clear, the physical function is enabled, every link but the host link is Down.
(Log 2 DESIGN CHOICE, log 3 DESIGN CHOICE, log 4 DESIGN CHOICE, log 7 DESIGN CHOICE.) -/
def State.reset : State :=
  { mem := [], tags := [], memPoison := [], units := [], groups := [], launches := [], ctxs := [], kernels := [],
    chains := [], gangs := [], gangParts := [], slots := [], windows := [], xlatCad := [], xlatPt := [], tlb1 := [],
    tlb2 := [], frameKeys := [], heat := [], lfsr := [], heatCtl := 0, arenas := [], blocks := [], failed := [], conn := [], partReq := [],
    partAsid := [], connViol := 0, domainId := 0, startCtl := 0, bootStat := 15, stretchCnt := 0, vdPart := [],
    vds := [(0, Vd.reset 1 0)], holding := [], waitingFaults := [], arbiter := [], arbPos := 0, tokens := [],
    nextToken := 1, answersIgnored := 0, irqs := [], cyc := [], time := 0, stretch := [],
    links := [(0, ⟨2, 16⟩)], offPtr := [], slotPtr := [], sampPtr := [], image := none,
    absentCores := [], absentOff := [], governed := [], devices := 2304, portables := [], hostReply := [], hostPoison := false,
    turn := 0, ev := EvArg.none, agenda := [], fresh := 0, nextId := 1 }

end Sys2Proof.Machine
end

