-- ==== Sys2Proof/Machine/Regs.lean ====
section
/-! DEFINITION. The register files of a unit: every read and write of a register goes through here (R51 to R57, R89). -/

namespace Sys2Proof.Machine

/-- The per-thread register number of R89. -/
def pnum : PReg → Nat
  | .v n => n.val
  | .o n => 96 + n.val
  | .y n => 104 + n.val
  | .z => 106
  | .tid => 107
  | .q n => 112 + n.val

/-- The register of a per-thread number. -/
def pregOf (n : Nat) : PReg :=
  if h : n < 96 then .v ⟨n, h⟩
  else if h : n - 96 < 8 then .o ⟨n - 96, h⟩
  else if h : n - 104 < 2 then .y ⟨n - 104, h⟩
  else if n = 107 then .tid
  else .z

/-- The next register of a pair or quad (R118, R188). -/
def pnext (r : PReg) (i : Nat) : PReg :=
  match r with
  | .v n => pregOf (n.val + i)
  | .o n => pregOf (96 + n.val + i)
  | r => r

/-- Threads in the order of R184: rising phase, and rising lane within a phase (R20). -/
def threadOrder : List Nat := (List.range 8).flatMap fun c => (List.range 16).map fun j => 8 * j + c

/-- The mask of a list of threads. -/
def maskOf (ts : List Nat) : Nat := ts.foldl (fun m t => m ||| 2 ^ t) 0

/-- The threads of a mask, in the order of R184. -/
def threadsOf (m : Nat) : List Nat := threadOrder.filter fun t => m.testBit t

/-- The lowest-indexed thread of a list; 0 of none. -/
def lowest (ts : List Nat) : Nat := ts.foldl min (ts.headD 0)

/-- The recipe entry of an elastic register, dropped entries included; an entry lost on resume reads as none (R214). -/
def recipeOf (w : Warp) (n : Nat) : Option Recipe := w.recipes.find? fun r => r.reg == n && !r.lost

/-- v register `n` lies in the elastic window (R53). -/
def isElastic (w : Warp) (n : Nat) : Bool := w.base ≤ n && n < w.base + w.elastic

/-- The key of register number `n` of thread `t`. -/
def xkey (n t : Nat) : Nat := n * 128 + t

/-- The value of per-thread register `r` in thread `t` (R54). An elastic register that holds no recipe reads 0 (R53). -/
def getX (w : Warp) (t : Nat) (r : PReg) : Word :=
  match r with
  | .z => 0
  | .tid => BitVec.ofNat 32 t
  | .q _ => 0
  | .v n => if w.base ≤ n.val && (recipeOf w n.val).isNone then 0 else sget 0 w.regs.x (xkey n.val t)
  | r => sget 0 w.regs.x (xkey (pnum r) t)

/-- The poison mark of a per-thread register: 0 none, 1 poisoned by memory, 2 always trapping (R185). -/
def poisonX (w : Warp) (t : Nat) (r : PReg) : Nat :=
  match r with
  | .z => 0
  | .tid => 0
  | .q _ => 0
  | r => sget 0 w.regs.xp (xkey (pnum r) t)

/-- Record that a routine wrote a register (R260). Numbers: per-thread number, 65536 + uniform number, 131072 + capability
code. -/
def note (w : Warp) (n : Nat) : Warp :=
  match w.routine with
  | none => w
  | some r => if r.written.contains n then w else { w with routine := some { r with written := n :: r.written } }

/-- A write to a register drops every pending result of the thread for it (R97). A replay packet keeps its destinations
(R251). -/
def dropPend (w : Warp) (t n : Nat) : Warp :=
  if w.pends.isEmpty then w
  else { w with pends := w.pends.map fun p =>
    if p.thread == t && !p.faulted then { p with dests := p.dests.filter fun d => d.reg != n } else p }

/-- A result of a register is still pending in some thread (R69). -/
def pendingReg (w : Warp) (n : Nat) : Bool := w.pends.any fun p => p.dests.any fun d => d.reg == n

/-- The plain write of register number `n` of thread `t`, with its poison mark. -/
def putX (w : Warp) (t n : Nat) (v : Word) (p : Nat) : Warp :=
  { w with regs := { w.regs with x := sset 0 w.regs.x (xkey n t) v, xp := sset 0 w.regs.xp (xkey n t) p } }

/-- Write per-thread register `r` of thread `t` (R54): a write to z is discarded, and a write to y0 pushes. A write inside
a lookahead window replaces the pending result (R97). -/
def setX (w : Warp) (t : Nat) (r : PReg) (v : Word) (p : Nat) : Warp :=
  match r with
  | .z => w
  | .tid => w
  | .q _ => w
  | .y n =>
    if n.val = 0 then
      note (note (putX (putX w t 105 (sget 0 w.regs.x (xkey 104 t)) (sget 0 w.regs.xp (xkey 104 t))) t 104 v p) 104) 105
    else note (putX w t 105 v p) 105
  | r => note (putX (dropPend w t (pnum r)) t (pnum r) v p) (pnum r)

/-- Mark a register poisoned without changing its value. -/
def markX (w : Warp) (t n p : Nat) : Warp :=
  { w with regs := { w.regs with xp := sset 0 w.regs.xp (xkey n t) p } }

/-- The value of `s` register `n`. -/
def getS (w : Warp) (n : Nat) : DWord := sget 0 w.regs.s n

/-- Write `s` register `n`, which clears its poison mark. -/
def setS (w : Warp) (n : Nat) (v : DWord) : Warp :=
  note { w with regs := { w.regs with s := sset 0 w.regs.s n v, sp := sset 0 w.regs.sp n 0 } } (65536 + n)

/-- The value of a uniform integer register: z reads 0 (R121). -/
def getU (w : Warp) : SReg → DWord
  | .s n => getS w n.val
  | .z => 0

/-- Write a uniform integer register: a write to z is discarded. -/
def setU (w : Warp) (d : SReg) (v : DWord) : Warp :=
  match d with
  | .s n => setS w n.val v
  | .z => w

/-- The value of mask register `n`. -/
def getM (w : Warp) (n : Nat) : QWord := sget 0 w.regs.m n

/-- Write all 128 bits of mask register `n` (R55, R124). -/
def setM (w : Warp) (n : Nat) (v : QWord) : Warp :=
  note { w with regs := { w.regs with m := sset 0 w.regs.m n v, mp := sset 0 w.regs.mp n 0 } } (65600 + n)

/-- A 128-bit mask with bit `t` set to `b`. (Log 40 DEDUCED.) -/
def setBit (m : QWord) (t : Nat) (b : Bool) : QWord :=
  if b then m ||| BitVec.ofNat 128 (2 ^ t) else m &&& ~~~(BitVec.ofNat 128 (2 ^ t))

/-- The capability named by a capability code (R89): c0 to c7 of thread `t`, then k0 to k7. Outside a routine c7 reads as an
untagged zero capability (R56). -/
def getC (w : Warp) (t code : Nat) : Cap :=
  if code < 8 then
    if code = 7 && w.routine.isNone then Cap.null else sget Cap.null w.regs.c (xkey code t)
  else sget Cap.null w.regs.k (code - 8)

/-- The poison mark of a capability register; `k` registers carry none. -/
def poisonC (w : Warp) (t code : Nat) : Nat := if code < 8 then sget 0 w.regs.cp (xkey code t) else 0

/-- Write c register `code` of thread `t`, which clears its poison mark. -/
def setC (w : Warp) (t code : Nat) (c : Cap) : Warp :=
  note { w with regs := { w.regs with
    c := sset Cap.null w.regs.c (xkey code t) c, cp := sset 0 w.regs.cp (xkey code t) 0 } } (131072 + code)

/-- Byte `i` of tile `n`. -/
def getTile (w : Warp) (n i : Nat) : Byte := sget 0 w.regs.t (n * 4096 + i)

/-- Element (row, column) of accumulator `n`. -/
def getAcc (w : Warp) (n r c : Nat) : Word := sget 0 w.regs.a (n * 4096 + r * 64 + c)

/-- The shape registers: TSHP0 to TSHP7 (R60). -/
def getTshp (w : Warp) (n : Nat) : Nat := sget 0x2FFF w.tshp n

/-- ASHP0 to ASHP3 (R61). -/
def getAshp (w : Warp) (n : Nat) : Nat := sget 0xFFF w.ashp n

/-- The return-address stack of thread `t` (R74). -/
def getRas (w : Warp) (t : Nat) : Ras := sget ⟨[], 0⟩ w.ras t

/-- Replace the return-address stack of thread `t`. -/
def setRas (w : Warp) (t : Nat) (r : Ras) : Warp := { w with ras := sset ⟨[], 0⟩ w.ras t r }

/-- The PC of thread `t`. -/
def getPc (w : Warp) (t : Nat) : Nat := sget 0 w.pcs t

/-- Set the PC of thread `t`: 57 bits of unified address (R74). -/
def setPc (w : Warp) (t p : Nat) : Warp := { w with pcs := sset 0 w.pcs t (p % 2 ^ 57) }

/-- The mark of thread `t` in the PC table (R151). -/
def getMark (w : Warp) (t : Nat) : Mark := sget .ready w.marks t

/-- Set the mark of thread `t`. A thread that becomes Ready sets the count of the rejoin wait to 0 (R279). -/
def setMark (w : Warp) (t : Nat) (m : Mark) : Warp :=
  { w with marks := sset .ready w.marks t m, rejoinWait := if m = .ready then 0 else w.rejoinWait }

/-- Set the PC of each thread of a list. -/
def setPcs (w : Warp) (ts : List Nat) (p : Nat) : Warp := ts.foldl (fun w t => setPc w t p) w

/-- Set the mark of each thread of a list. -/
def setMarks (w : Warp) (ts : List Nat) (m : Mark) : Warp := ts.foldl (fun w t => setMark w t m) w

/-- Thread `t` is live (R267). -/
def isLive (w : Warp) (t : Nat) : Bool := w.live.testBit t

/-- The live threads, in the order of R184. -/
def liveThreads (w : Warp) : List Nat := threadsOf w.live

/-- Thread `t` is ready. While the warp runs its trap handler only the handler threads are (R151). -/
def isReady (w : Warp) (t : Nat) : Bool :=
  isLive w t && getMark w t == .ready && (!w.inh || w.handler.testBit t)

/-- The ready threads in the order of R184. -/
def readyThreads (w : Warp) : List Nat := (liveThreads w).filter (isReady w)

/-- The lowest PC of the given threads; 0 of none. -/
def lowPc (w : Warp) (ts : List Nat) : Nat :=
  match ts with
  | [] => 0
  | t :: r => r.foldl (fun m t => min m (getPc w t)) (getPc w t)

/-- The PC group: the ready threads whose PC is the lowest ready PC (R151). -/
def activeThreads (w : Warp) : List Nat :=
  let r := readyThreads w
  r.filter fun t => getPc w t == lowPc w r

/-- A thread is ejected. -/
def isEjected (w : Warp) (t : Nat) : Bool :=
  match getMark w t with
  | .ejected _ => true
  | _ => false

/-- Some live thread is ejected. -/
def anyEjected (w : Warp) : Bool := (liveThreads w).any (isEjected w)

/-- The live threads that are not ejected. -/
def heldThreads (w : Warp) : List Nat := (liveThreads w).filter fun t => !isEjected w t

/-- The unit runs on an offset core. -/
def onOffset (w : Warp) : Bool := w.off.isSome

/-- The warp runs an exit routine. -/
def inExit (w : Warp) : Bool :=
  match w.routine with
  | some r => r.exit
  | none => false

/-- The warp runs an entry routine. -/
def inEntry (w : Warp) : Bool :=
  match w.routine with
  | some r => !r.exit
  | none => false

end Sys2Proof.Machine
end

