-- ==== Sys2Proof/Machine/Cap.lean ====
section
/-! DEFINITION. Capabilities as values: their fields (R336), narrowing (R126), inspection (R127, R128) and the local checks
of an access (R181). -/

namespace Sys2Proof.Machine

/-- Bits `lo` up, `n` of them. -/
def bitsOf (v lo n : Nat) : Nat := v / 2 ^ lo % 2 ^ n

/-- Bits `lo` up, `n` of them, of a capability's bits. -/
def capField (c : Cap) (lo n : Nat) : Nat := c.bits.toNat / 2 ^ lo % 2 ^ n

/-- CURSOR. -/
def Cap.cursor (c : Cap) : Nat := capField c 0 40

/-- E, the bounds exponent. -/
def Cap.exp (c : Cap) : Nat := capField c 40 6

/-- LOWM. -/
def Cap.lowM (c : Cap) : Nat := capField c 46 14

/-- HIGHM. -/
def Cap.highM (c : Cap) : Nat := capField c 60 14

/-- The low bound, LOWM << E. -/
def Cap.low (c : Cap) : Nat := c.lowM * 2 ^ c.exp

/-- The high bound, HIGHM << E. -/
def Cap.high (c : Cap) : Nat := c.highM * 2 ^ c.exp

/-- RIGHTS: R, W, X, LC, SC, AT, IM, SP from bit 0. -/
def Cap.rights (c : Cap) : Nat := capField c 74 8

/-- OBJECT. -/
def Cap.object (c : Cap) : Nat := capField c 82 24

/-- TENANT. -/
def Cap.tenant (c : Cap) : Nat := capField c 106 13

/-- KIND. -/
def Cap.kind (c : Cap) : Nat := capField c 119 2

/-- The bits above KIND, which must be 0. -/
def Cap.top (c : Cap) : Nat := capField c 121 7

/-- A capability with the field at bit `lo`, `n` bits wide, replaced. -/
def Cap.setField (c : Cap) (lo n v : Nat) : Cap :=
  { c with bits := BitVec.ofNat 128 (c.bits.toNat - capField c lo n * 2 ^ lo + v % 2 ^ n * 2 ^ lo) }

/-- A capability from its fields. -/
def mkCap (kind tenant object rights highM lowM exp cursor : Nat) (tag : Bool) : Cap :=
  ⟨BitVec.ofNat 128 (cursor % 2 ^ 40 + exp % 64 * 2 ^ 40 + lowM % 2 ^ 14 * 2 ^ 46 + highM % 2 ^ 14 * 2 ^ 60
    + rights % 256 * 2 ^ 74 + object % 2 ^ 24 * 2 ^ 82 + tenant % 2 ^ 13 * 2 ^ 106 + kind % 4 * 2 ^ 119), tag⟩

/-- The least number of halvings that brings ⌈e / 2^E⌉ to 14 bits, found from E = `x` up with `fuel` tries left (R126). -/
def narrowExp : Nat → Nat → Nat → Nat
  | 0, x, _ => x
  | f + 1, x, e => if (e + 2 ^ x - 1) / 2 ^ x ≤ 16383 then x else narrowExp f (x + 1) e

/-- The smallest representable range that holds [c, e): E, LOWM and HIGHM (R126). -/
def narrowRange (c e : Nat) : Nat × Nat × Nat :=
  let x := narrowExp 63 0 e
  (x, c / 2 ^ x, (e + 2 ^ x - 1) / 2 ^ x)

/-- narrowed(cap, n) of R126; none where it traps with CAP_BOUNDS. -/
def narrowed (c : Cap) (n : Nat) : Option Cap :=
  let r := narrowRange c.cursor (c.cursor + n)
  if r.2.1 * 2 ^ r.1 < c.low || c.high < r.2.2 * 2 ^ r.1 then none
  else some (((c.setField 40 6 r.1).setField 46 14 r.2.1).setField 60 14 r.2.2)

/-- CAPADD: the cursor moved by a signed number; outside [0, 2^40) the tag is cleared (R125). -/
def capAdd (c : Cap) (b : Word) : Cap :=
  let n : Int := (c.cursor : Int) + b.toInt
  if 0 ≤ n && n < 2 ^ 40 then c.setField 0 40 n.toNat else { c with tag := false }

/-- CAPSET (R125). -/
def capSet (c : Cap) (b : Word) : Cap := c.setField 0 40 b.toNat

/-- CAPRM: rights AND NOT b[7:0] (R125). -/
def capRm (c : Cap) (b : Word) : Cap := c.setField 74 8 (c.rights &&& (255 - b.toNat % 256))

/-- CAPGET: the field that a selector names (R127). -/
def capGet (c : Cap) (b : Word) : Word :=
  BitVec.ofNat 32 (match b.toNat with
    | 0 => c.cursor % 2 ^ 32
    | 1 => c.cursor / 2 ^ 32
    | 2 => c.low % 2 ^ 32
    | 3 => c.low / 2 ^ 32 % 2 ^ 9
    | 4 => c.high % 2 ^ 32
    | 5 => c.high / 2 ^ 32 % 2 ^ 9
    | 6 => c.rights
    | 7 => c.object
    | 8 => c.tenant
    | 9 => c.kind
    | 10 => c.tag.toNat
    | 11 => c.exp
    | _ => 0)

/-- CAPCHK: the local checks that an access would fail (R128). -/
def capChk (c : Cap) (b : Word) : Word :=
  let req := b.toNat % 256
  let n := b.toNat / 256
  let inB := if n = 0 then c.low ≤ c.cursor && c.cursor < c.high else c.low ≤ c.cursor && c.cursor + n ≤ c.high
  let miss := req &&& (255 - c.rights) != 0 || (c.rights.testBit 6 && req &&& 0b110010 != 0)
  BitVec.ofNat 32 ((!c.tag).toNat + 2 * (!inB).toNat + 4 * miss.toNat)

/-- CAPLEN: the length of the bounds, clamped to 32 bits (R125). -/
def capLen (c : Cap) : Word := BitVec.ofInt 32 (clampInt ((c.high : Int) - c.low) 0 (2 ^ 32 - 1))

/-- The bit masks of R, W, X, LC, SC and AT. -/
def rR : Nat := 1
def rW : Nat := 2
def rX : Nat := 4
def rLC : Nat := 8
def rSC : Nat := 16
def rAT : Nat := 32
def rIM : Nat := 64

/-- The capability holds every right of `need`; W, SC and AT are refused where it holds IM (R338). -/
def rightsOk (c : Cap) (need : Nat) : Bool :=
  need &&& (255 - c.rights) == 0 && !(c.rights.testBit 6 && need &&& 0b110010 != 0)

/-- Trap causes (R107). -/
def cIllegalOp : Nat := 0x01
def cReservedField : Nat := 0x02
def cCapTag : Nat := 0x03
def cCapBounds : Nat := 0x04
def cCapRights : Nat := 0x05
def cMisalign : Nat := 0x06
def cMaskPartial : Nat := 0x07
def cTileShape : Nat := 0x08
def cElasticWrite : Nat := 0x09
def cPoisonRead : Nat := 0x0A
def cStackLimit : Nat := 0x0B
def cExitDiverged : Nat := 0x0C
def cWarpTimer : Nat := 0x0D
def cSoft : Nat := 0x0E
def cQueueUnbound : Nat := 0x0F
def cOffsetIllegal : Nat := 0x10
def cWindow : Nat := 0x11
def cChain : Nat := 0x12
def cRoutine : Nat := 0x13
def cRecipe : Nat := 0x14
def cFormat : Nat := 0x15

end Sys2Proof.Machine
end

