-- ==== Sys2Proof/Machine/Units.lean ====
section
/-! DEFINITION. Operations on the device's tables of units, groups and launches, and the passing of time. -/

namespace Sys2Proof.Machine

/-- A warp of zeros, read where a unit number is not listed. -/
def Warp.blank : Warp :=
  { grp := 0, idx := 0, asid := 0, loc := Loc.zero, stat := .outCtx, base := 8, elastic := 0, ntiles := 0, naccs := 0,
    live := 0, pcs := [], marks := [], regs := Regs.zero, saved := none, ras := [], rmode := 0, tm := false, inh := false,
    shadow61 := 0, shadow62 := 0, shadow15 := 0, handler := 0, tshp := [], ashp := [], wtime := 0, wtcmp := 0,
    wtstage := none, latch := [], recipes := [], pends := [], tops := [], copies := [], sealCtr := 0, batches := [], openPoison := false,
    ports := [], waits := [], noEject := [], yield := [], gen := 0, vec := none, routine := none, heldPre := none,
    tmaskClk := 0, resumeGuard := false, carried := [], reason := 0, rejoinWait := 0, off := none, rows := [],
    tokens := [], denied := [], drops := [] }

/-- A launch of zeros. -/
def Launch.blank : Launch :=
  { asid := 0, kernel := 0, base := 8, elastic := 0, ntiles := 0, naccs := 0, level := 1, args := 0, groups := 0, warps := 0,
    threads := 0, handler := none, frameSize := 0, nregions := 0, regtab := 0, montab := 0, nmon := 0, cheori := 0, scratch := 0,
    stack := 0, k := [], frames := Cap.null, save := Cap.null, stackT := Cap.null, operand := Cap.null, member := 0, offThreads := false,
    chain := 0, seq := 0, placed := 0, finished := 0, status := 0, cause := 0, pc := 0 }

/-- A group of zeros. -/
def Group.blank : Group :=
  { launch := 0, idx := 0, asid := 0, stat := .ended, members := [], cores := [], bars := [], allocs := [], status := 0,
    cause := 0, pc := 0 }

/-- A context of zeros, read where an ASID is not registered. -/
def Ctx.blank : Ctx :=
  { vd := 0, desc := Cap.null, hpart := 0, state := .destroyed, fcause := 0, exitBudget := 8192, tmaskBound := 4096,
    rejoinLimit := 65536, slice := 0, watchdog := 0, idle := 0, sliceStart := 0, reason := 0, overruns := [],
    migration := none, migFailed := false, resetStatus := 4, dying := false, faultsIgnored := 0 }

/-- Unit `u`. -/
def unitOf (s : State) (u : Nat) : Warp := sget Warp.blank s.units u

/-- Change unit `u`. -/
def modUnit (s : State) (u : Nat) (f : Warp → Warp) : State := { s with units := smod s.units u f }

/-- Replace unit `u`. -/
def setUnit (s : State) (u : Nat) (w : Warp) : State := { s with units := smod s.units u fun _ => w }

/-- Group `g`. -/
def groupOf (s : State) (g : Nat) : Group := sget Group.blank s.groups g

/-- Change group `g`. -/
def modGroup (s : State) (g : Nat) (f : Group → Group) : State := { s with groups := smod s.groups g f }

/-- Launch `l`. -/
def launchOf (s : State) (l : Nat) : Launch := sget Launch.blank s.launches l

/-- Change launch `l`. -/
def modLaunch (s : State) (l : Nat) (f : Launch → Launch) : State := { s with launches := smod s.launches l f }

/-- The context of an ASID. -/
def ctxOf (s : State) (asid : Nat) : Ctx := sget Ctx.blank s.ctxs asid

/-- Change the context of an ASID. -/
def modCtx (s : State) (asid : Nat) (f : Ctx → Ctx) : State := { s with ctxs := smod s.ctxs asid f }

/-- The launch of a unit's group. -/
def launchOfUnit (s : State) (w : Warp) : Launch := launchOf s (groupOf s w.grp).launch

/-- Virtual device `v`. -/
def vdOf (s : State) (v : Nat) : Vd := sget (Vd.reset 0 0) s.vds v

/-- Change virtual device `v`. -/
def modVd (s : State) (v : Nat) (f : Vd → Vd) : State := { s with vds := smod s.vds v f }

/-- Present to the arbiter (R26). (Log 36 DEDUCED, log 74 DEDUCED.) -/
def presentWhat (s : State) (src vd typ asid a b c : Nat) (what : EvWhat) : State :=
  { s with arbiter := s.arbiter ++
      [{ src := src, clk := s.fresh, vd := vd, typ := typ, asid := asid, gen := 0, a := a, b := b, c := c, what := what }] }

/-- Present an event of the event ring. Its generation is stamped when it is accepted. (Log 36 DEDUCED, log 74 DEDUCED.) -/
def present (s : State) (src vd typ asid a b c : Nat) : State := presentWhat s src vd typ asid a b c .entry

/-- Raise an MSI-X vector of a virtual device (R396). -/
def raiseIrq (s : State) (vd vec : Nat) : State := { s with irqs := (vd, vec) :: s.irqs }

/-- Present an interrupt that no event-ring entry and no record raises (R26). (Log 74 DEDUCED.) -/
def presentIrq (s : State) (src vd vec : Nat) : State := presentWhat s src vd 0 0 0 0 0 (.irq vec)

/-- Take a new identifier. (Log 6 DESIGN CHOICE.) -/
def newId (s : State) : Nat × State := (s.nextId, { s with nextId := s.nextId + 1 })

/-! ### Time -/

/-- The compute die of a place: two to a cluster, slices 0 to 5 and 6 to 11 (R7, R19). -/
def dieOf (l : Loc) : Nat := 2 * l.cluster + (if l.slice < 6 then 0 else 1)

/-- The unit's warp holds a slot, so its WTIME counts (R77). -/
def holdsSlot (w : Warp) : Bool := w.off.isNone && w.stat == .resident

/-- The warp waits for ejected threads with no ready thread (R279). -/
def waitsRejoin (w : Warp) : Bool := holdsSlot w && anyEjected w && (readyThreads w).isEmpty

/-- The count of rejoin-wait clk after `n` more (R279). (Log 55 DEDUCED.) -/
def rejoinCount (w : Warp) (n : Nat) : Nat :=
  if w.marks.isEmpty then 0 else if waitsRejoin w then w.rejoinWait + n else 0

/-- What `n` clk of the lanes, `k` clk in all, in which unit `u` issued, do to a unit: WTIME counts, a rejoin wait counts,
and `u` no longer stands before a unit that its own YIELD passed over (R77, R156, R279). (Log 8 DESIGN CHOICE.) -/
def passTime (u n k : Nat) (w : Warp) : Warp :=
  if holdsSlot w then
    { w with wtime := (w.wtime + k) % 2 ^ 64, rejoinWait := rejoinCount w n, yield := w.yield.filter fun v => v != u }
  else { w with yield := w.yield.filter fun v => v != u }

/-- A serviced fault that the context waits on: time in this state is not progress-eligible. (Log 86 DEDUCED.) -/
def waitsFault (s : State) (asid : Nat) : Bool := s.tokens.any fun t => t.asid == asid && !t.routine

/-- Time is progress-eligible for a context: it is resident, no governor of its tenant holds it and it waits on no serviced fault
(R263). (Log 86 DEDUCED.) -/
def eligible (s : State) (asid : Nat) (c : Ctx) : Bool := c.state == .resident && !s.governed.contains asid && !waitsFault s asid

/-- Time passes while unit `u` issues: `n` clk and a free number more on each die, a free number of ns on TIME (R77), which the
watchdog counts (R263). (Log 6 DESIGN CHOICE, log 8 DESIGN CHOICE.) -/
def tick (s : State) (u n : Nat) : State :=
  let f := s.fresh
  let inc := fun d => n + Config.freeNat (f + d)
  let ns := Config.freeNat (f + 8)
  { s with
    fresh := f + 9
    time := s.time + ns
    ctxs := s.ctxs.map fun p => (p.1, if eligible s p.1 p.2 then { p.2 with idle := p.2.idle + ns } else p.2)
    cyc := (List.range 8).foldl (fun c d => sput c d (sget 0 c d + inc d)) s.cyc
    units := s.units.map fun p => (p.1, passTime u n (inc (dieOf p.2.loc)) p.2) }

/-- TIME moves on by `n` ns: the watchdog counts it for every context in which it is progress-eligible (R263). -/
def elapse (s : State) (n : Nat) : State :=
  { s with time := s.time + n, ctxs := s.ctxs.map fun p => (p.1, if eligible s p.1 p.2 then { p.2 with idle := p.2.idle + n } else p.2) }

/-- TIME moves on to at least `t`: an event whose moment is TIME `t` has come. -/
def reachTime (s : State) (t : Nat) : State := elapse s (t - s.time)

/-- The clk an instruction holds the lanes: one for each phase with an active thread, one for a uniform instruction (R20),
one on an offset core (R273). -/
def issueClk (off uniform : Bool) (act : List Nat) : Nat :=
  if off || uniform then 1 else (List.range 8).countP fun c => act.any fun t => t % 8 == c

/-! ### Places -/

/-- The key of a SIMT core, by cluster, slice and core. -/
def coreKey (l : Loc) : Nat := (l.cluster * 12 + l.slice) * 16 + l.core

/-- The key of a slice. -/
def sliceKey (l : Loc) : Nat := l.cluster * 12 + l.slice

/-- The key of an offset core. -/
def offKey (l : Loc) : Nat := sliceKey l * 4 + l.core

/-- The key of a partition of a SIMT core. -/
def partKey (l : Loc) : Nat := coreKey l * 4 + l.part

/-- Requester port of a slice lies in a hard partition (R8, R402). -/
def portIn (s : State) (h port : Nat) : Bool := (sget 0 s.partReq h).getLsbD port

/-! ### The configuration present (R2, R64) -/

/-- The SIMT cores of a slice that the part has. -/
def sliceCores (s : State) (k : Nat) : Nat := (List.range 16).countP fun c => !s.absentCores.contains (k * 16 + c)

/-- CFG_CORES. -/
def cfgCores (s : State) : Nat := (List.range 48).foldl (fun n k => n + sliceCores s k) 0

/-- CFG_OFFCORES. -/
def cfgOffcores (s : State) : Nat := (List.range 192).countP fun k => !s.absentOff.contains k

/-- CFG_LEVEL1 to CFG_LEVEL7: the warps that the largest instance of a level that the part has holds; of level 7 the devices of the
domain. -/
def cfgLevel (s : State) (level : Nat) : Nat :=
  match level with
  | 1 => 1
  | 2 => 8
  | 3 => 32
  | 4 => ((List.range 48).map (sliceCores s)).foldl max 0 * 32
  | 5 => ((List.range 4).map fun c => (List.range 12).foldl (fun n k => n + sliceCores s (c * 12 + k)) 0).foldl max 0 * 32
  | 6 => cfgCores s * 32
  | _ => s.devices

/-- CFG_SELF (R65). -/
def cfgSelf (w : Warp) : Nat :=
  (onOffset w).toNat * 2 ^ 31 + w.loc.cluster * 2 ^ 15 + w.loc.slice * 2 ^ 11 + w.loc.core * 2 ^ 7 + w.loc.part * 2 ^ 5
    + w.loc.slot * 2 ^ 2

/-- The cores that a group holds in a cluster, in rising order of slice and core: the places of R337. -/
def placesOf (g : Group) (cluster : Nat) : List (Nat × Nat × Nat) := g.cores.filter fun c => c.1 == cluster

/-- The scratchpad allocation of a group on a core (R14). -/
def allocAt (g : Group) (c : Nat × Nat × Nat) : Option Alloc :=
  g.allocs.find? fun a => a.cluster == c.1 && a.slice == c.2.1 && a.core == c.2.2

/-- The core whose scratchpad a unit's local offsets name: its own, or for an ejected thread its warp's (R273). -/
def homeCore (s : State) (w : Warp) : Nat × Nat × Nat :=
  match w.off with
  | some o =>
    match o.parent with
    | some p => let l := (unitOf s p).loc; (l.cluster, l.slice, l.core)
    | none => (w.loc.cluster, w.loc.slice, w.loc.core)
  | none => (w.loc.cluster, w.loc.slice, w.loc.core)

/-- Replace the allocation of a group on a core. -/
def setAlloc (g : Group) (a : Alloc) : Group :=
  { g with allocs := g.allocs.map fun b =>
    if b.cluster == a.cluster && b.slice == a.slice && b.core == a.core then a else b }

/-! ### Scratchpads -/

/-- A number from little-endian bytes. -/
def ofBytes : List Byte → Nat
  | [] => 0
  | b :: r => b.toNat + 256 * ofBytes r

/-- A wait for generation `g` of a datum word is over: (generation − g) mod 2^16 < 2^15 (R210). -/
def datumDone (v g : Nat) : Bool := (bitsOf v 48 16 + 2 ^ 16 - g % 2 ^ 16) % 2 ^ 16 < 2 ^ 15

/-- Every DWWAIT on a word of the allocation looks at it again: after every update and every store (R330). -/
def Alloc.look (a : Alloc) : Alloc :=
  { a with watch := a.watch.map fun x => { x with met := x.met || datumDone (ofBytes (sgetMany 0 a.bytes x.off 8)) x.gen } }

/-- `n` bytes of a group's allocation on a core from offset `o`, with whether any is poisoned; none where a byte lies
outside [0, SCRATCH) (R14). -/
def spmRead (s : State) (g : Nat) (c : Nat × Nat × Nat) (o : Int) (n : Nat) : Option (List Byte × Bool) :=
  match allocAt (groupOf s g) c with
  | none => none
  | some a =>
    if 0 ≤ o && o + n ≤ a.size then
      some (sgetMany 0 a.bytes o.toNat n, (sgetMany false a.poison o.toNat n).any id)
    else none

/-- The same bytes, each with its poison mark. -/
def spmReadM (s : State) (g : Nat) (c : Nat × Nat × Nat) (o : Int) (n : Nat) : Option (List (Byte × Bool)) :=
  match allocAt (groupOf s g) c with
  | none => none
  | some a =>
    if 0 ≤ o && o + n ≤ a.size then some ((sgetMany 0 a.bytes o.toNat n).zip (sgetMany false a.poison o.toNat n)) else none

/-- Write bytes of a group's allocation with their poison marks; none outside it. -/
def spmWriteM (s : State) (g : Nat) (c : Nat × Nat × Nat) (o : Int) (l : List (Byte × Bool)) : Option State :=
  match allocAt (groupOf s g) c with
  | none => none
  | some a =>
    if 0 ≤ o && o + l.length ≤ a.size then
      some (modGroup s g fun g => setAlloc g (Alloc.look { a with
        bytes := ssetMany 0 a.bytes o.toNat (l.map (·.1)), poison := ssetMany false a.poison o.toNat (l.map (·.2)) }))
    else none

/-- Write bytes of a group's allocation, with one poison mark for all; none outside it. -/
def spmWrite (s : State) (g : Nat) (c : Nat × Nat × Nat) (o : Int) (bs : List Byte) (p : Bool) : Option State :=
  spmWriteM s g c o (bs.map fun b => (b, p))

/-- `n` little-endian bytes of a number. -/
def toBytes : Nat → Nat → List Byte
  | 0, _ => []
  | n + 1, v => BitVec.ofNat 8 v :: toBytes n (v / 256)

end Sys2Proof.Machine
end

