-- ==== Sys2Proof/Machine/Mem.lean ====
section
/-! DEFINITION. Memory objects: the Cadastre, the page tables, the TLBs, keys, heat counters, compression and the bytes
themselves (R17, R336 to R354, R402, R404). An access is made whole at one moment of the run. -/

namespace Sys2Proof.Machine

/-- The base of a tier's bytes in `State.mem`: 0 HBM, 1 host, 2 pool, 3 fabric, 4 compressed frames. -/
def tierBase (t : Nat) : Nat := t * 2 ^ 64

/-- The canonical form of memory: addresses strictly rising, and no entry equal to what an unlisted address reads as. -/
def Memory.wf (m : Store Byte) : Bool := Store.wf 0 m

/-- One byte of memory. An unlisted address reads 0. (Log 3 DESIGN CHOICE.) -/
def memByte (s : State) (a : Nat) : Byte := sget 0 s.mem a

/-- `n` bytes of memory. -/
def memBytes (s : State) (a n : Nat) : List Byte := sgetMany 0 s.mem a n

/-- Write bytes of memory, with one poison mark for all. -/
def putBytes (s : State) (a : Nat) (bs : List Byte) (p : Bool) : State :=
  { s with mem := ssetMany 0 s.mem a bs, memPoison := ssetMany false s.memPoison a (bs.map fun _ => p) }

/-- Write bytes of memory with their poison marks. -/
def putMarked (s : State) (a : Nat) (l : List PByte) : State :=
  { s with mem := ssetMany 0 s.mem a (l.map (·.1)), memPoison := ssetMany false s.memPoison a (l.map (·.2)) }

/-- Clear the tag of every granule that `n` bytes at `a` touch (R191). -/
def clearTags (s : State) (a n : Nat) : State := { s with tags := sclear s.tags (a / 16) ((a + n + 15) / 16) }

/-- An 8-byte word of HBM. -/
def hbm64 (s : State) (a : Nat) : Nat := ofBytes (memBytes s a 8)

/-- HBM holds 512 GiB (R12). -/
def hbmSize : Nat := 2 ^ 39

/-- Who makes an access: tenant, first-level and second-level TLB, and requester port (R8). -/
structure Req where
  asid : Nat
  core : Nat
  slice : Nat
  port : Nat
  deriving DecidableEq, Repr

/-- The fault of an access on one page: CAUSE, SUB, unified address, and the object's byte (R355). -/
structure PageFlt where
  cause : Nat
  sub : Nat
  ua : Nat
  off : Nat
  deriving DecidableEq, Repr

/-- Why an access is not served: the fault of its first page that faults, with those of its later pages (R355), or KEY_ALIAS
(R347). -/
inductive Flt where
  | page (f : PageFlt) (more : List PageFlt)
  | key
  deriving DecidableEq, Repr

/-- The same, met at byte `o`. -/
def Flt.at (o : Nat) : Flt → Flt
  | .page f more => .page { f with off := o } more
  | .key => .key

/-- A translation. -/
structure Tr where
  ua : Nat
  tier : Nat
  frame : Nat
  keyid : Nat
  heat : Bool
  comp : Bool
  oa : Nat
  /-- The tenant, whose arena a compressed frame lies in (R350). -/
  tenant : Nat
  /-- A heat view, whose FIRST frame `frame` names and whose HTIER `tier` names (R354). -/
  hv : Bool
  deriving DecidableEq, Repr

/-- What a walk finds: the tenant, the Cadastre entry, the leaf and whether it is a 2 MiB leaf. -/
structure Walked where
  asid : Nat
  cad : QWord
  leaf : DWord
  large : Bool
  deriving DecidableEq, Repr

/-! ### Translation -/

/-- The table walk below level `l` (R340): the level, the table's address and the unified address. SUB of the page fault
where a pointer does not lead on. (Log 22 DEDUCED.) -/
def walk (s : State) : Nat → Nat → Nat → Except Nat (DWord × Bool)
  | 0, tab, ua =>
    let a := tab + 8 * bitsOf ua 16 5
    if hbmSize ≤ a then .error 1 else .ok (BitVec.ofNat 64 (hbm64 s a), false)
  | l + 1, tab, ua =>
    let a := tab + 8 * bitsOf ua (21 + 9 * l) 9
    if hbmSize ≤ a then .error 1
    else
      let e := hbm64 s a
      if l = 0 && bitsOf e 9 1 = 1 then .ok (BitVec.ofNat 64 e, true)
      else if bitsOf e 0 1 = 0 then .error 0
      else if bitsOf e 52 12 ≠ 0 || bitsOf e 1 9 ≠ 0 || (l ≠ 0 && bitsOf e 10 2 ≠ 0) then .error 1
      else walk s l (bitsOf e 10 42 * 1024) ua

/-- The Cadastre entry of an object (R339). -/
def cadEntry (s : State) (asid obj : Nat) : QWord :=
  let a := (sget 0 s.xlatCad asid).toNat + 16 * obj
  if hbmSize ≤ a then 0 else BitVec.ofNat 128 (ofBytes (memBytes s a 16))

/-- BASE of a Cadastre entry. -/
def cadBase (c : QWord) : Nat := bitsOf c.toNat 0 57

/-- HV of a Cadastre entry. -/
def cadHv (c : QWord) : Bool := bitsOf c.toNat 126 1 == 1

/-- [off, off + n) of the object is in extent (R339). (Log 22 DEDUCED.) -/
def inExtent (c : QWord) (off n : Nat) : Bool :=
  let v := c.toNat
  bitsOf v 127 1 == 1 && bitsOf v 105 19 == 0 && bitsOf v 57 7 == 0 && (cadHv c || bitsOf v 0 16 == 0)
    && off + n ≤ bitsOf v 64 41

/-- Look up an object's page afresh: the Cadastre, then the page tables. -/
def lookup (s : State) (asid obj off n : Nat) : Except Flt Walked :=
  let c := cadEntry s asid obj
  if !inExtent c off n then .error (.page ⟨0x80, 2, 0, off⟩ [])
  else if cadHv c then .ok ⟨asid, c, 0, false⟩
  else
    let ua := (cadBase c + off) % 2 ^ 57
    match walk s 4 (sget 0 s.xlatPt asid).toNat ua with
    | .error sub => .error (.page ⟨0x80, sub, ua, off⟩ [])
    | .ok (leaf, large) => .ok ⟨asid, c, leaf, large⟩

/-- The frame number lies in its tier's range (R348). (Log 22 DEDUCED.) -/
def frameOk (tier frame : Nat) : Bool :=
  match tier with
  | 0 => frame < 2 ^ 23
  | 1 => true
  | 2 => frame < 3 * 2 ^ 23
  | _ => frame / 2 ^ 16 < 2304

/-- Every path of a pool or fabric frame is Down (R404): links 1 to 4 and 5 to 22. (Log 79 DEDUCED.) -/
def pathDown (s : State) (tier : Nat) : Bool :=
  match tier with
  | 2 => (List.range 4).all fun i => (sget ⟨0, 0⟩ s.links (1 + i)).state == 0
  | 3 => (List.range 18).all fun i => (sget ⟨0, 0⟩ s.links (5 + i)).state == 0
  | _ => false

/-- What a leaf gives for an access to `off`: a translation, or the fault of R342. -/
def trOf (s : State) (k : Walked) (off : Nat) (wr ft : Bool) : Except Flt Tr :=
  if cadHv k.cad then
    if wr then .error (.page ⟨0x80, 3, 0, off⟩ [])
    else .ok { ua := 0, tier := bitsOf k.cad.toNat 124 2, frame := bitsOf k.cad.toNat 0 28, keyid := 0, heat := false,
               comp := false, oa := 0, tenant := k.asid, hv := true }
  else
    let ua := (cadBase k.cad + off) % 2 ^ 57
    let e := k.leaf.toNat
    let frame0 := bitsOf e 24 28
    let tier := bitsOf e 6 2
    let comp := bitsOf e 3 1 == 1
    if bitsOf e 0 1 = 0 then .error (.page ⟨if frame0 = 0 then 0x80 else 0x81, 0, ua, off⟩ [])
    else
      let frame := frame0 + (if k.large then bitsOf ua 16 5 else 0)
      if bitsOf e 10 2 ≠ 0 || bitsOf e 4 2 = 3 || (comp && tier ≠ 0) || ((tier = 1 || tier = 3) && bitsOf e 12 12 ≠ 0)
          || bitsOf e 9 1 ≠ k.large.toNat || (k.large && frame0 % 32 ≠ 0) || !frameOk tier frame then
        .error (.page ⟨0x80, 1, ua, off⟩ [])
      else if wr && bitsOf e 1 1 = 0 then .error (.page ⟨0x80, 3, ua, off⟩ [])
      else if ft && bitsOf e 2 1 = 0 then .error (.page ⟨0x84, 0, ua, off⟩ [])
      else if pathDown s tier then .error (.page ⟨0x80, 0, ua, off⟩ [])
      else .ok { ua := ua, tier := tier, frame := frame, keyid := bitsOf e 12 12, heat := bitsOf e 8 1 == 1, comp := comp,
                 oa := bitsOf e 4 2, tenant := k.asid, hv := false }

/-- The entry of a TLB for a page of an object. -/
def tlbFind (l : List TlbEntry) (asid obj page : Nat) : Option TlbEntry :=
  l.find? fun e => e.asid == asid && e.obj == obj && e.page == page

/-- The cached translation of a page, first level before second (R344). -/
def cached (s : State) (rq : Req) (obj page : Nat) : Option TlbEntry :=
  (tlbFind (sget [] s.tlb1 rq.core) rq.asid obj page).or (tlbFind (sget [] s.tlb2 rq.slice) rq.asid obj page)

/-- Put an entry first, in place of the page's earlier one, and keep `n` entries. (Log 90 DEDUCED.) -/
def tlbPut (l : List TlbEntry) (e : TlbEntry) (n : Nat) : List TlbEntry :=
  (e :: l.filter fun f => !(f.asid == e.asid && f.obj == e.obj && f.page == e.page)).take n

/-- Fill both TLBs (R344). (Log 90 DEDUCED.) -/
def tlbFill (s : State) (rq : Req) (e : TlbEntry) : State :=
  { s with tlb1 := sput s.tlb1 rq.core (tlbPut (sget [] s.tlb1 rq.core) e 192),
           tlb2 := sput s.tlb2 rq.slice (tlbPut (sget [] s.tlb2 rq.slice) e 8192) }

/-- The memory-side port of an HBM address (R343). -/
def hbmPort (a : Nat) : Nat := 8 * (a / 2 ^ 36 % 8) + a / 256 % 8

/-- The addresses that a walk below level `l` reads. -/
def walkAddrs (s : State) : Nat → Nat → Nat → List Nat
  | 0, tab, ua => [tab + 8 * bitsOf ua 16 5]
  | l + 1, tab, ua =>
    let a := tab + 8 * bitsOf ua (21 + 9 * l) 9
    let e := hbm64 s a
    if hbmSize ≤ a || (l = 0 && bitsOf e 9 1 = 1) || bitsOf e 0 1 = 0 then [a] else a :: walkAddrs s l (bitsOf e 10 42 * 1024) ua

/-- The connection matrix refuses a read of the requester's walker: of the Cadastre entry or, where that has the access in
extent, of a table (R344, R402). (Log 14 DEDUCED.) -/
def walkRefused (s : State) (rq : Req) (obj off n : Nat) : Bool :=
  !s.conn.isEmpty &&
    let c := cadEntry s rq.asid obj
    let row := sget (BitVec.ofNat 64 (2 ^ 64 - 1)) s.conn rq.port
    (((sget 0 s.xlatCad rq.asid).toNat + 16 * obj)
      :: (if cadHv c || !inExtent c off n then [] else walkAddrs s 4 (sget 0 s.xlatPt rq.asid).toNat ((cadBase c + off) % 2 ^ 57))).any fun a =>
        !row.getLsbD (hbmPort a)

/-- Count a refused request (R402), saturating at 64 bits. (Log 14 DEDUCED.) -/
def countViol (s : State) : State := { s with connViol := min (s.connViol + 1) (2 ^ 64 - 1) }

/-- A walk for a page: what the tables hold, which fills the TLBs. One of which the connection matrix refuses a read finds a bad
entry (R344, R402). (Log 14 DEDUCED.) -/
def walkNow (s : State) (rq : Req) (obj off n : Nat) : State × Except Flt Walked :=
  if walkRefused s rq obj off n then
    (countViol s, .error (.page ⟨0x80, 1, (cadBase (cadEntry s rq.asid obj) + off) % 2 ^ 57, off⟩ []))
  else
    match lookup s rq.asid obj off n with
    | .error f => (s, .error f)
    | .ok k =>
      (tlbFill s rq ⟨rq.asid, obj, off / 65536, (cadBase k.cad + off) % 2 ^ 57 / 65536, k.cad, k.leaf, k.large⟩, .ok k)

/-- What an access finds for a page. Where a cached entry differs from the tables, the access uses either: the entry, or what a
walk finds (R344). (Log 11 DESIGN CHOICE.) -/
def find (s : State) (rq : Req) (obj off n : Nat) : State × Except Flt Walked :=
  match cached s rq obj (off / 65536) with
  | none => walkNow s rq obj off n
  | some e =>
    let old : Except Flt Walked :=
      if inExtent e.cad off n then .ok ⟨rq.asid, e.cad, e.leaf, e.large⟩ else .error (.page ⟨0x80, 2, 0, off⟩ [])
    if lookup s rq.asid obj off n = .ok ⟨rq.asid, e.cad, e.leaf, e.large⟩ then (s, old)
    else if Config.freeBit s.fresh then ({ s with fresh := s.fresh + 1 }, old)
    else walkNow { s with fresh := s.fresh + 1 } rq obj off n

/-- Translate byte `off` of an object for an access whose rest is `n` bytes long. -/
def xlate (s : State) (rq : Req) (obj off n : Nat) (wr ft : Bool) : State × Except Flt Tr :=
  match find s rq obj off n with
  | (s, .error f) => (s, .error f)
  | (s, .ok k) => (s, trOf s k off wr ft)

/-- The pieces of an access at lines of `g` bytes. (Log 13 DEDUCED.) -/
def piecesOf (g : Nat) : Nat → Nat → Nat → List (Nat × Nat)
  | 0, _, _ => []
  | f + 1, off, n =>
    if n = 0 then [] else
      let m := min n (g - off % g)
      (off, m) :: piecesOf g f (off + m) (n - m)

/-- The pieces of [off, off + n) at 64-byte lines: each lies in one page and at one memory port, and is one request (R343, R352).
(Log 13 DEDUCED.) -/
def pieces (off n : Nat) : List (Nat × Nat) := piecesOf 64 (n / 64 + 2) off n

/-- The pieces of [off, off + n) at the 2 KiB blocks of compressed pages (R350). -/
def blockPieces (off n : Nat) : List (Nat × Nat) := piecesOf 2048 (n / 2048 + 2) off n

/-- A piece with its translation. -/
structure Piece where
  tr : Tr
  off : Nat
  len : Nat
  deriving DecidableEq, Repr

/-- The faults of an access on one page and on its later pages. -/
def Flt.join : Flt → Flt → Flt
  | .page f l, .page g m => .page f (l ++ g :: m)
  | f, _ => f

/-- Translate every piece; `bad` is the page whose fault has been met. Every page that faults is found (R355). `e` is the end of
the access. -/
def xlateFrom (s : State) (rq : Req) (obj e : Nat) (wr ft : Bool) : Option Nat → List (Nat × Nat) → State × Except Flt (List Piece)
  | _, [] => (s, .ok [])
  | bad, (o, m) :: r =>
    if bad = some (o / 65536) then xlateFrom s rq obj e wr ft bad r
    else
      match xlate s rq obj o (e - o) wr ft with
      | (s, .error f) =>
        match xlateFrom s rq obj e wr ft (some (o / 65536)) r with
        | (s, .error g) => (s, .error (f.join g))
        | (s, .ok _) => (s, .error f)
      | (s, .ok t) =>
        match xlateFrom s rq obj e wr ft none r with
        | (s, .error f) => (s, .error f)
        | (s, .ok l) => (s, .ok (⟨t, o, m⟩ :: l))

/-- Translate every piece of an access that ends at `e`. -/
def xlateAll (s : State) (rq : Req) (obj e : Nat) (wr ft : Bool) (l : List (Nat × Nat)) : State × Except Flt (List Piece) :=
  xlateFrom s rq obj e wr ft none l

/-! ### Ports, keys and heat -/

/-- The number of a compressed frame among those of every tenant's arenas (R350). (Log 15 DESIGN CHOICE.) -/
def compFrame (t : Tr) : Nat := t.tenant * 2 ^ 23 + t.frame

/-- The byte's place in `State.mem`. -/
def physOf (t : Tr) (off : Nat) : Nat :=
  (if t.comp then tierBase 4 + compFrame t * 65536 else tierBase t.tier + t.frame * 65536) + off % 65536

/-- The memory-side port of a piece, or the gateway: 64 host, 65 pool, 66 fabric (R343, R348). -/
def portOf (t : Tr) (off : Nat) : Nat :=
  if t.tier = 0 then 8 * (t.frame / 2 ^ 20 % 8) + off / 256 % 8 else 63 + t.tier

/-- The connection matrix lets the requester reach the port (R402). Gateways are outside the matrix (R9). (Log 14 DEDUCED.) -/
def connOk (s : State) (rq : Req) (port : Nat) : Bool :=
  64 ≤ port || (sget (BitVec.ofNat 64 (2 ^ 64 - 1)) s.conn rq.port).getLsbD port

/-- The index of a frame in the frame-key registries and the heat counters: a compressed page's FRAME counts as the HBM frame of
that number (R347, R352). (Log 96 DESIGN CHOICE.) -/
def keyIndex (t : Tr) : Nat := t.tier * 2 ^ 28 + t.frame

/-- The registry check of R347: none is KEY_ALIAS; an unclaimed frame is claimed. Host and fabric frames have no registry,
and a heat view reads no frame. -/
def keyStep (s : State) (t : Tr) : Option State :=
  if t.hv || t.tier = 1 || t.tier = 3 then some s
  else
    match sget none s.frameKeys (keyIndex t) with
    | none => some { s with frameKeys := sset none s.frameKeys (keyIndex t) (some t.keyid) }
    | some k => if k = t.keyid then some s else none

/-- The registry check of every piece whose request reaches its port. -/
def keyAll (s : State) (rq : Req) : List Piece → Option State
  | [] => some s
  | p :: r =>
    if connOk s rq (portOf p.tr p.off) then
      match keyStep s p.tr with
      | none => none
      | some s => keyAll s rq r
    else keyAll s rq r

/-- The LFSR step of R352. -/
def lfsrStep (v : Word) : Word := if v.getLsbD 0 then (v >>> 1) ^^^ 0x80200003 else v >>> 1

/-- The heat draw of one request that reaches its port (R352). (Log 12 DESIGN CHOICE.) -/
def drawAt (s : State) (t : Tr) (off : Nat) : State :=
  let p := portOf t off
  let v := lfsrStep (sget 1 s.lfsr p)
  let s := { s with lfsr := sset 1 s.lfsr p v }
  let k := keyIndex t
  if s.heatCtl / 256 % 2 = 1 && v.toNat % 2 ^ (s.heatCtl % 16) = 0 then
    { s with heat := sset 0 s.heat k (min (sget 0 s.heat k + 1) 0xFFFF) }
  else s

/-- The heat draw of a request that has reached its port: a failed check or a full arena is seen nowhere else (R17, R352). -/
def drawReached (s : State) (t : Tr) (off : Nat) : State := if t.heat then drawAt s t off else s

/-- The heat draw of one request. Whether a slice's request misses its L2 and so reaches the port is free; the requests of
ports 48 and above have no L2 before them (R8). (Log 12 DESIGN CHOICE.) -/
def drawHeat (s : State) (rq : Req) (t : Tr) (off : Nat) : State :=
  if !t.heat then s
  else if 48 ≤ rq.port then drawAt s t off
  else if Config.freeBit s.fresh then drawAt { s with fresh := s.fresh + 1 } t off
  else { s with fresh := s.fresh + 1 }

/-! ### Compression (R350, R351) -/

/-- The sectors that a block's bytes take: none when all are zero, 16 when stored raw. -/
def sectorsOf (bs : List Byte) : Nat :=
  if bs.all (· == 0) then 0 else 1 + Config.compSize (ofBytes bs) % 16

/-- The block of a compressed page's byte, by compressed frame and block. -/
def blockOf (t : Tr) (off : Nat) : Nat := compFrame t * 32 + off % 65536 / 2048

/-- The arena of a tenant's compressed frame. (Log 15 DESIGN CHOICE.) -/
def arenaKey (asid : Nat) (t : Tr) : Nat := Config.arenaOf asid (t.frame / 2 ^ 20 % 8)

/-- An arena's status record of zeros. -/
def Arena.zero : Arena := ⟨0, 0, 0, 0⟩

/-- A counter that saturates at 0xFFFF_FFFF (R351). -/
def satInc (c : Word) : Word := if c = 0xFFFFFFFF then c else c + 1

/-- The sectors of the block after writing bytes at `off`. (Log 15 DESIGN CHOICE.) -/
def sectorsAfter (s : State) (t : Tr) (off : Nat) (bs : List Byte) : Nat :=
  let b := physOf t (off / 2048 * 2048)
  let m := ssetMany 0 s.mem (physOf t off) bs
  sectorsOf (sgetMany 0 m b 2048)

/-- The block's check fails on decompression (R351). (Log 15 DESIGN CHOICE.) -/
def badBlock (s : State) (t : Tr) (off : Nat) : Bool := t.comp && !t.hv && sget false s.failed (blockOf t off)

/-- Count a check that failed. -/
def countFail (s : State) (asid : Nat) (t : Tr) : State :=
  let a := sget Arena.zero s.arenas (arenaKey asid t)
  { s with arenas := sput s.arenas (arenaKey asid t) { a with chkfail := satInc a.chkfail } }

/-- An error strikes the stored stream of block `b`: its check fails from now on. A block that is all zero or stored raw has no
stream. (Log 15 DESIGN CHOICE.) -/
def strike (s : State) (b : Nat) : State :=
  if 0 < sget 0 s.blocks b && sget 0 s.blocks b < 16 then { s with failed := sset false s.failed b true } else s

/-- The write needs more sectors than the arena has free. A write that a failed check drops needs none.
(Log 15 DESIGN CHOICE.) -/
def compFull (s : State) (asid : Nat) (t : Tr) (off : Nat) (bs : List Byte) : Bool :=
  t.comp && !badBlock s t off &&
    (sget Arena.zero s.arenas (arenaKey asid t)).freesect.toNat + sget 0 s.blocks (blockOf t off)
      < sectorsAfter s t off bs

/-- Count a COMP_FULL fault. -/
def countFull (s : State) (asid : Nat) (t : Tr) : State :=
  let a := sget Arena.zero s.arenas (arenaKey asid t)
  { s with arenas := sput s.arenas (arenaKey asid t) { a with fullflt := satInc a.fullflt } }

/-- Account for the sectors of a rewritten block. -/
def compWrite (s : State) (asid : Nat) (t : Tr) (off : Nat) (bs : List Byte) : State :=
  if !t.comp then s
  else
    let a := sget Arena.zero s.arenas (arenaKey asid t)
    let old := sget 0 s.blocks (blockOf t off)
    let new := sectorsAfter s t off bs
    { s with
      blocks := sset 0 s.blocks (blockOf t off) new
      arenas := sput s.arenas (arenaKey asid t)
        { a with freesect := BitVec.ofNat 32 (a.freesect.toNat + old - new),
                 rawblk := if new = 16 then satInc a.rawblk else a.rawblk } }

/-! ### The bytes -/

/-- Byte `i` of a heat view: the counters of frames FIRST on, two bytes each (R354). -/
def heatByte (s : State) (t : Tr) (off : Nat) : Byte :=
  BitVec.ofNat 8 (sget 0 s.heat (t.tier * 2 ^ 28 + t.frame + off / 2) / 256 ^ (off % 2))

/-- The bytes of marked bytes, and whether any is poisoned. -/
def unmarked (l : List PByte) : List Byte × Bool := (l.map (·.1), l.any (·.2))

/-- The bytes of a piece with their poison marks. -/
def pieceData (s : State) (p : Piece) : List PByte :=
  if p.tr.hv then (List.range p.len).map fun i => (heatByte s p.tr (p.off + i), false)
  else
    let a := physOf p.tr p.off
    (memBytes s a p.len).zip (sgetMany false s.memPoison a p.len)

/-- The bytes of a refused read, or of a block whose check fails: free values (R351, R402). (Log 14 DEDUCED.) -/
def freeBytes (s : State) (n : Nat) : List Byte := (List.range n).map fun i => BitVec.ofNat 8 (Config.freeNat (s.fresh + i))

/-- Bytes that no access has read: free values, poisoned (R351, R402). (Log 31 DEDUCED.) -/
def lostBytes (s : State) (n : Nat) : State × List PByte :=
  ({ s with fresh := s.fresh + n }, (freeBytes s n).map fun b => (b, true))

/-- Read one piece: its bytes with their marks. A request that the matrix refuses, and a block whose check fails, give free bytes,
poisoned (R351, R402). -/
def readPiece (s : State) (rq : Req) (p : Piece) : State × List PByte :=
  if connOk s rq (portOf p.tr p.off) then
    if badBlock s p.tr p.off then
      let (s, l) := lostBytes s p.len
      (countFail (drawReached s p.tr p.off) rq.asid p.tr, l)
    else (drawHeat s rq p.tr p.off, pieceData s p)
  else
    let (s, l) := lostBytes s p.len
    (countViol s, l)

/-- Read the pieces in order. -/
def readPieces (s : State) (rq : Req) : List Piece → State × List PByte
  | [] => (s, [])
  | p :: r =>
    let (s, l) := readPiece s rq p
    let (s, m) := readPieces s rq r
    (s, l ++ m)

/-- Write one piece. A write that the matrix refuses, and one to a block whose check fails, is dropped (R351, R402). -/
def writePiece (s : State) (rq : Req) (c : Piece) (l : List PByte) : State :=
  if connOk s rq (portOf c.tr c.off) then
    if badBlock s c.tr c.off then countFail (drawReached s c.tr c.off) rq.asid c.tr
    else
      clearTags (putMarked (compWrite (drawHeat s rq c.tr c.off) rq.asid c.tr c.off (l.map (·.1))) (physOf c.tr c.off) l)
        (physOf c.tr c.off) c.len
  else countViol s

/-- Write the pieces in order. -/
def writePieces (s : State) (rq : Req) : List Piece → List PByte → State
  | [], _ => s
  | c :: r, l => writePieces (writePiece s rq c (l.take c.len)) rq r (l.drop c.len)

/-- The pieces of one write cover the whole block. (Log 15 DESIGN CHOICE.) -/
def covers (s : State) (rq : Req) (ps : List Piece) (b : Nat) : Bool :=
  ((ps.filter fun p => p.tr.comp && blockOf p.tr p.off == b && connOk s rq (portOf p.tr p.off)).map (·.len)).foldl (· + ·) 0 == 2048

/-- A write of a whole block replaces one whose check fails (R351). (Log 15 DESIGN CHOICE.) -/
def heal (s : State) (rq : Req) (ps : List Piece) : State :=
  { s with failed := ps.foldl (fun l p =>
      if badBlock s p.tr p.off && covers s rq ps (blockOf p.tr p.off) then sset false l (blockOf p.tr p.off) false else l) s.failed }

/-- The first piece whose write the arena cannot hold, once the pieces before it are written. -/
def fullPiece (s : State) (rq : Req) : List Piece → List Byte → Option Piece
  | [], _ => none
  | c :: r, bs =>
    let now := bs.take c.len
    if !connOk s rq (portOf c.tr c.off) || !c.tr.comp then fullPiece s rq r (bs.drop c.len)
    else if compFull s rq.asid c.tr c.off now then some c
    else if badBlock s c.tr c.off then fullPiece s rq r (bs.drop c.len)
    else fullPiece (putBytes (compWrite s rq.asid c.tr c.off now) (physOf c.tr c.off) now false) rq r (bs.drop c.len)

/-- The heat draws of a write that ends at step 4 of R17, at piece `full`, whose request has reached its port (R352). -/
def heatAll (s : State) (rq : Req) (ps : List Piece) (full : Piece) : State :=
  ps.foldl (fun s c =>
    if !connOk s rq (portOf c.tr c.off) then s
    else if c = full then drawReached s c.tr c.off
    else drawHeat s rq c.tr c.off) s

/-- A COMP_FULL fault: the draws are made, the fault is counted, nothing is written (R17, R351). -/
def compFault (s : State) (rq : Req) (ps : List Piece) (c : Piece) : State × Flt :=
  let first := (ps.find? fun p => p.off / 65536 == c.off / 65536).getD c
  (countFull (heatAll s rq ps c) rq.asid c.tr, .page ⟨0x82, 0, first.tr.ua, first.off⟩ [])

/-- Read translated pieces: R17 from step 2 on. -/
def readReq (s : State) (rq : Req) (ps : List Piece) : State × Except Flt (List PByte) :=
  match keyAll s rq ps with
  | none => (s, .error .key)
  | some s => let (s, l) := readPieces s rq ps; (s, .ok l)

/-- Write translated pieces: R17 from step 2 on. -/
def writeReq (s : State) (rq : Req) (ps : List Piece) (l : List PByte) : State × Except Flt Unit :=
  match keyAll s rq ps with
  | none => (s, .error .key)
  | some s =>
    match fullPiece (heal s rq ps) rq ps (l.map (·.1)) with
    | some c => let (s, f) := compFault s rq ps c; (s, .error f)
    | none => (writePieces (heal s rq ps) rq ps l, .ok ())

/-- Read `n` bytes at `off` of an object with their poison marks, or the fault. (Log 5 DESIGN CHOICE.) -/
def objReadM (s : State) (rq : Req) (obj off n : Nat) (ft : Bool) : State × Except Flt (List PByte) :=
  match xlateAll s rq obj (off + n) false ft (pieces off n) with
  | (s, .error f) => (s, .error f)
  | (s, .ok ps) => readReq s rq ps

/-- Read `n` bytes at `off` of an object: the bytes and whether any came poisoned, or the fault. (Log 5 DESIGN CHOICE.) -/
def objRead (s : State) (rq : Req) (obj off n : Nat) (ft : Bool) : State × Except Flt (List Byte × Bool) :=
  match objReadM s rq obj off n ft with
  | (s, .error f) => (s, .error f)
  | (s, .ok l) => (s, .ok (unmarked l))

/-- Write bytes at `off` of an object with their poison marks, or the fault: then nothing is written. (Log 5 DESIGN CHOICE.) -/
def objWriteM (s : State) (rq : Req) (obj off : Nat) (l : List PByte) : State × Except Flt Unit :=
  match xlateAll s rq obj (off + l.length) true false (pieces off l.length) with
  | (s, .error f) => (s, .error f)
  | (s, .ok ps) => writeReq s rq ps l

/-- Write bytes at `off` of an object with one poison mark for all. (Log 5 DESIGN CHOICE.) -/
def objWrite (s : State) (rq : Req) (obj off : Nat) (bs : List Byte) (p : Bool) : State × Except Flt Unit :=
  objWriteM s rq obj off (bs.map fun b => (b, p))

/-- Read `n` bytes and write what `f` makes of them, as one access: an atomic (R198). `f` answers none where nothing is
written. -/
def objUpdate (s : State) (rq : Req) (obj off n : Nat) (f : List Byte → Option (List Byte)) :
    State × Except Flt (List Byte × Bool) :=
  match xlateAll s rq obj (off + n) true false (pieces off n) with
  | (s, .error e) => (s, .error e)
  | (s, .ok ps) =>
    match keyAll s rq ps with
    | none => (s, .error .key)
    | some s =>
      let (s', l) := readPieces s rq ps
      let (old, p) := unmarked l
      match f old with
      | none => (s', .ok (old, p))
      | some new =>
        match fullPiece s rq ps new with
        | some c => let (s, f) := compFault s rq ps c; (s, .error f)
        | none => (writePieces s rq ps (new.map fun b => (b, p)), .ok (old, p))

/-- The frame of a piece is tag-capable: an HBM frame with COMP = 0 (R193). -/
def tagCapable (t : Tr) : Bool := t.tier == 0 && !t.comp && !t.hv

/-- Read a capability: 16 bytes and the tag of their granule; the tag counts only on a tag-capable frame. (Log 28 DEDUCED.) -/
def objReadCap (s : State) (rq : Req) (obj off : Nat) : State × Except Flt (Cap × Bool) :=
  match xlateAll s rq obj (off + 16) false false (pieces off 16) with
  | (s, .error f) => (s, .error f)
  | (s, .ok ps) =>
    match readReq s rq ps with
    | (s, .error f) => (s, .error f)
    | (s, .ok l) =>
      let (bs, p) := unmarked l
      let tag := match ps with
        | [c] => tagCapable c.tr && connOk s rq (portOf c.tr c.off) && sget false s.tags (physOf c.tr off / 16)
        | _ => false
      (s, .ok (⟨BitVec.ofNat 128 (ofBytes bs), tag⟩, p))

/-- Write a capability's 16 bytes, and its tag where the frame is tag-capable (R193). -/
def objWriteCap (s : State) (rq : Req) (obj off : Nat) (c : Cap) (p : Bool) : State × Except Flt Unit :=
  match xlateAll s rq obj (off + 16) true false (pieces off 16) with
  | (s, .error f) => (s, .error f)
  | (s, .ok ps) =>
    match writeReq s rq ps ((toBytes 16 c.bits.toNat).map fun b => (b, p)) with
    | (s, .error f) => (s, .error f)
    | (s, .ok _) =>
      match ps with
      | [d] =>
        if tagCapable d.tr && connOk s rq (portOf d.tr d.off) then
          ({ s with tags := sset false s.tags (physOf d.tr off / 16) c.tag }, .ok ())
        else (s, .ok ())
      | _ => (s, .ok ())

/-- The bytes of an object as the hardware reads its own tables: no key is claimed, no heat drawn, no TLB filled; none where
the object is not in extent or a page is not there. (Log 21 DESIGN CHOICE.) -/
def peekPieces (s : State) (asid obj e : Nat) : List (Nat × Nat) → Option (List Byte)
  | [] => some []
  | (o, m) :: r =>
    match lookup s asid obj o (e - o) with
    | .error _ => none
    | .ok k =>
      match trOf s k o false false with
      | .error _ => none
      | .ok t =>
        match peekPieces s asid obj e r with
        | none => none
        | some bs => some ((pieceData s ⟨t, o, m⟩).map (·.1) ++ bs)

/-- `n` bytes at `off` of an object, read by the hardware for itself. (Log 21 DESIGN CHOICE.) -/
def peek (s : State) (asid obj off n : Nat) : Option (List Byte) := peekPieces s asid obj (off + n) (pieces off n)

/-- The frame is claimed under another key identifier. -/
def keyTaken (s : State) (t : Tr) : Bool := (keyStep s t).isNone

/-- Translate only, and fill the TLBs: PREF.xlat (R203, R204). It claims no frame, and a frame claimed under another key fails.
(Log 43 DESIGN CHOICE.) -/
def objTouch (s : State) (rq : Req) (obj off n : Nat) : State × Except Flt Unit :=
  match xlateAll s rq obj (off + n) false false (pieces off n) with
  | (s, .error f) => (s, .error f)
  | (s, .ok ps) => (s, if ps.any fun p => keyTaken s p.tr then .error .key else .ok ())

/-- What requests leave behind in the device `t` where the instruction that made them meets a fault and performs nothing: the
frames they claimed, heat, filled TLBs, and counts of faults and refusals (R347, R351, R352, R402). -/
def keepCounts (s t : State) : State :=
  { s with
    tlb1 := t.tlb1, tlb2 := t.tlb2, frameKeys := t.frameKeys, heat := t.heat, lfsr := t.lfsr, fresh := t.fresh
    connViol := t.connViol
    arenas := t.arenas.map fun p =>
      let a := sget Arena.zero s.arenas p.1
      (p.1, { p.2 with freesect := a.freesect, rawblk := a.rawblk }) }

/-- The requester of a unit's accesses. An offset core has no first-level TLB (R15). (Log 78 DESIGN CHOICE.) -/
def reqOf (w : Warp) : Req :=
  { asid := w.asid, core := if onOffset w then 1000000 else coreKey w.loc, slice := sliceKey w.loc,
    port := sliceKey w.loc }

/-- The requester of the device engines of the I/O die, port 48 (R8), on behalf of a tenant. (Log 82 DEDUCED.) -/
def reqEngine (asid : Nat) : Req := ⟨asid, 1000000, 1000000, 48⟩

end Sys2Proof.Machine
end

