-- ==== Sys2Proof/Machine/Device.lean ====
section
/-! DEFINITION. Contexts, context faults, fault records, the ends of groups, and the tables of a code object. -/

namespace Sys2Proof.Machine

/-- The STATE code of a context descriptor (R245). -/
def CState.code : CState → Nat
  | .created => 0
  | .ready => 1
  | .resident => 2
  | .switchingOut => 3
  | .switchedOut => 4
  | .faulted => 5
  | .resetting => 6
  | .destroyed => 7

/-- Write word 3 of a context's descriptor (R245). -/
def writeDesc (s : State) (asid : Nat) : State :=
  let c := ctxOf s asid
  if c.desc.tag then
    (objWrite s (reqEngine c.desc.tenant) c.desc.object (c.desc.cursor + 24) (toBytes 8 (c.state.code + 256 * c.fcause))
      false).1
  else s

/-- A context changes state (R246). -/
def setCtxState (s : State) (asid : Nat) (st : CState) : State :=
  writeDesc (modCtx s asid fun c => { c with state := st }) asid

/-- A context fault (R246, R247): the code goes to FCAUSE and the fault event; a context in or past its reset only counts
it. (Log 20 DEDUCED.) -/
def ctxFault (s : State) (asid code src : Nat) : State :=
  let c := ctxOf s asid
  match c.state with
  | .ready | .resident | .switchingOut | .switchedOut | .created =>
    present (setCtxState (modCtx s asid fun c => { c with fcause := code, resetStatus := if code = 5 then 9 else 4 }) asid .faulted) src c.vd 4 asid code 0 0
  | .faulted | .resetting | .destroyed => modCtx s asid fun c => { c with faultsIgnored := c.faultsIgnored + 1 }

/-- A context's units may issue (R246). -/
def ctxRuns (s : State) (asid : Nat) : Bool :=
  match (ctxOf s asid).state with
  | .ready | .resident | .switchingOut => true
  | _ => false

/-! ### Fault records (R355) -/

/-- A faulting access: the fault of its first page that faults, and those of its later pages. -/
structure AccFault where
  cause : Nat
  sub : Nat
  ua : Nat
  obj : Nat
  off : Nat
  write : Bool
  fetch : Bool
  more : List PageFlt
  deriving DecidableEq, Repr

/-- The fault on each page of an access. -/
def AccFault.each (a : AccFault) : List AccFault :=
  { a with more := [] } :: a.more.map fun f => { a with cause := f.cause, sub := f.sub, ua := f.ua, off := f.off, more := [] }

/-- The page that a fault names: by unified address, or by object and page where it has none. -/
def AccFault.page (a : AccFault) : Nat × Nat := if a.sub = 2 then (a.obj + 1, a.off / 65536) else (0, a.ua / 65536)

/-- A unit, copy or engine command of the context advances: the watchdog's count starts again (R263). -/
def advanced (s : State) (asid : Nat) : State := modCtx s asid fun c => { c with idle := 0 }

/-- Words 0 to 3 of a fault record, its source and the flags ROUTINE and REPLAY. -/
def faultRecord (s : State) (asid source whr : Nat) (routine replay : Bool) (a : AccFault) : Fault32 :=
  { vd := (ctxOf s asid).vd
    w0 := BitVec.ofNat 64 (a.cause + a.sub * 2 ^ 8 + source * 2 ^ 12 + a.write.toNat * 2 ^ 16 + routine.toNat * 2 ^ 17
      + replay.toNat * 2 ^ 18 + a.fetch.toNat * 2 ^ 19 + asid * 2 ^ 32)
    w1 := BitVec.ofNat 64 (if a.cause = 0x80 && a.sub = 2 then 0 else a.ua)
    w2 := BitVec.ofNat 64 (a.off * 2 ^ 24 + a.obj)
    w3 := BitVec.ofNat 64 (s.nextToken + whr % 2 ^ 15 * 2 ^ 32) }

/-- The fault is one of a unit's entry routine. -/
def entryFault (s : State) : TokenOf → Bool
  | .unit u _ => inEntry (unitOf s u)
  | _ => false

/-- The arbiter's source of a fault record (R27): the fault unit for warps and offset threads, the copy engines of a cluster, the
graph, binning or sampler engine. `whr` names the place as WHERE does. (Log 36 DEDUCED.) -/
def faultSrc (source whr : Nat) : Nat :=
  let cluster := whr / 2 ^ 13 % 4
  match source with
  | 2 => 8 + cluster
  | 3 => 1
  | 4 => 2
  | 5 => 3 + cluster
  | _ => 0

/-- Post one fault record with a new token (R355): it is presented to the arbiter. The token's number is answered.
(Log 7 DESIGN CHOICE.) -/
def raiseFault (s : State) (asid source whr : Nat) (routine replay : Bool) (a : AccFault) (what : TokenOf) : Nat × State :=
  let r := faultRecord s asid source whr routine replay a
  (s.nextToken,
   { presentWhat s (faultSrc source whr) r.vd 0 asid 0 0 0 (.record r) with
     tokens := { num := s.nextToken, asid := asid, routine := routine, replay := replay, entry := entryFault s what,
                 page := if a.cause = 0x84 then some (a.ua / 65536) else none, fault := what } :: s.tokens
     nextToken := (s.nextToken + 1) % 2 ^ 32 })

/-! ### The ends of warps and groups -/

/-- Remove a unit: its slot, tiles, accumulators, recipe entries and rows are free. -/
def delUnit (s : State) (u : Nat) : State := { s with units := sdel s.units u }

/-- The group's outcome counts towards its node: the first nonzero status in arbiter order is the node's (R322). -/
def groupFinished (s : State) (g : Nat) : State :=
  let x := groupOf s g
  modLaunch s x.launch fun l =>
    if l.status = 0 then
      { l with finished := l.finished + 1, status := x.status, cause := x.cause, pc := x.pc }
    else { l with finished := l.finished + 1 }

/-- A warp that ends: nothing of it is left but the copies that it has issued and that still move; those that its save cancelled are
never issued again (R258, R322). -/
def endWarp (w : Warp) : Warp :=
  { w with
    copies := w.copies.filter fun c => !c.cancelled
    stat := .ended, live := 0, marks := [], waits := [], pends := [], tops := [], recipes := [], rows := [], vec := none
    routine := none, saved := none, heldPre := none, carried := [], off := none }

/-- The units without those of group `g`; its warps with copies in flight stay until these have completed (R322). -/
def endUnits (l : Store Warp) (g : Nat) : Store Warp :=
  l.filterMap fun p => if p.2.grp != g then some p else if (endWarp p.2).copies.isEmpty then none else some (p.1, endWarp p.2)

/-- End every warp and offset thread of a group with a status (R160, R268): its scratchpads and barriers go with it.
(Log 18 DEDUCED.) -/
def endGroup (s : State) (g status cause pc : Nat) : State :=
  match (groupOf s g).stat with
  | .done | .ended => s
  | .running | .out =>
    groupFinished (modGroup { s with units := endUnits s.units g } g fun x =>
      { x with stat := .ended, members := [], allocs := [], bars := [], status := status, cause := cause, pc := pc }) g

/-! ### The code object -/

/-- The unified address of byte 0 of the code object. (Log 17 DEDUCED.) -/
def codeObjBase (s : State) (w : Warp) : Nat := cadBase (cadEntry s w.asid (getC w 0 9).object)

/-- base: the low bound of k1, the code object's first byte (R152), as a unified address. -/
def codeBase (s : State) (w : Warp) : Nat := codeObjBase s w + (getC w 0 9).low

/-- A region (R294). -/
structure Region where
  start : Nat
  stop : Nat
  exit : Nat
  entry : Nat
  id : Nat
  ejt : Nat
  rejoin : Nat
  frame : Nat
  liveV : Nat
  liveO : Nat
  liveY : Nat
  liveC : Nat
  liveS : Nat
  liveM : Nat
  ejO : Nat
  ejY : Nat
  ejV : Nat
  deriving DecidableEq, Repr

/-- A little-endian field of bytes. -/
def fieldAt (bs : List Byte) (o n : Nat) : Nat := ofBytes ((bs.drop o).take n)

/-- A region table entry (R294). -/
def parseRegion (b : List Byte) : Region :=
  let ctl := fieldAt b 0x12 2
  { start := fieldAt b 0 4, stop := fieldAt b 4 4, exit := fieldAt b 8 4, entry := fieldAt b 0xC 4, id := fieldAt b 0x10 2,
    ejt := ctl % 32, rejoin := ctl / 256 % 16, frame := fieldAt b 0x14 4, liveV := fieldAt b 0x18 12,
    liveO := fieldAt b 0x24 1, liveY := fieldAt b 0x25 1 % 4, liveC := fieldAt b 0x26 1, liveS := fieldAt b 0x28 8,
    liveM := fieldAt b 0x30 2, ejO := fieldAt b 0x32 1, ejY := fieldAt b 0x33 1 % 4, ejV := fieldAt b 0x34 12 }

/-- Read `n` bytes at byte `o` from base in the code object. -/
def codeBytes (s : State) (w : Warp) (o n : Nat) : Option (List Byte) :=
  peek s w.asid (getC w 0 9).object ((getC w 0 9).low + o) n

/-- The region table of a unit's kernel (R294). -/
def regionsOf (s : State) (w : Warp) : List Region :=
  let l := launchOfUnit s w
  (List.range l.nregions).filterMap fun i => (codeBytes s w (l.regtab + 64 * i) 64).map parseRegion

/-- The declared region that holds a PC; none is region 0. -/
def regionAt (s : State) (w : Warp) (pc : Nat) : Option Region :=
  let b := codeBase s w
  if pc < b then none else (regionsOf s w).find? fun r => r.start ≤ pc - b && pc - b < r.stop

/-- The identifier of the region that holds a PC: 0 for region 0. -/
def regionId (s : State) (w : Warp) (pc : Nat) : Nat :=
  match regionAt s w pc with
  | some r => r.id
  | none => 0

/-- The size F of a kernel's routine area: the largest `.frame`, rounded up to 256 (R248). -/
def routineSize (s : State) (w : Warp) : Nat :=
  ((regionsOf s w).foldl (fun m r => max m r.frame) 0 + 255) / 256 * 256

/-- Any region of the kernel may eject threads. -/
def kernelEjects (s : State) (w : Warp) : Bool := (regionsOf s w).any fun r => 0 < r.ejt

/-- The overrun count of a region (R252). -/
def overrunsOf (s : State) (asid kernel region : Nat) : Nat :=
  match (ctxOf s asid).overruns.find? fun o => o.1 == kernel && o.2.1 == region with
  | some o => o.2.2
  | none => 0

/-- Count an overrun of a region. At 16 the region becomes raw-only, and the graph engine posts REGION_RAW_ONLY (R252). -/
def countOverrun (s : State) (asid kernel region : Nat) : State :=
  let n := overrunsOf s asid kernel region
  let s := modCtx s asid fun c =>
    { c with overruns := (kernel, region, min (n + 1) 16) ::
        c.overruns.filter fun o => !(o.1 == kernel && o.2.1 == region) }
  if n = 15 then present s 1 (ctxOf s asid).vd 3 asid region 0 0 else s

end Sys2Proof.Machine
end

