-- ==== Sys2Proof/Machine/Frame.lean ====
section
/-! DEFINITION. The frame of a warp: where it stands and its layout, written and read (R248, R249, R253, R257, R258, R311,
R334). -/

namespace Sys2Proof.Machine

/-! ### CRC-32C -/

/-- Eight steps of the reflected CRC-32C polynomial (R249). -/
def crcByte : Nat → Nat → Nat
  | 0, c => c
  | n + 1, c => crcByte n (if c % 2 = 1 then (c / 2) ^^^ 0x82F63B78 else c / 2)

/-- CRC-32C of bytes (R249). (Log 37 DEDUCED.) -/
def crc32c (bs : List Byte) : Nat :=
  (bs.foldl (fun c b => crcByte 8 (c ^^^ b.toNat)) 0xFFFFFFFF) ^^^ 0xFFFFFFFF

/-! ### Places -/

/-- The global index of a warp in its launch (R248). -/
def globalIndex (s : State) (w : Warp) : Nat :=
  let g := groupOf s w.grp
  g.idx * (launchOf s g.launch).warps + w.idx

/-- The byte of the frame-array object at which a warp's frame starts (R248). -/
def frameOff (s : State) (w : Warp) : Nat :=
  let l := launchOfUnit s w
  l.frames.cursor + globalIndex s w * l.frameSize

/-- The raw size of a warp's registers, rounded up to 256 (R253). -/
def rawSize (w : Warp) : Nat :=
  let n := w.base * 512 + 5120 + 768 + 16512 + (w.base + 10) * 16 + 128 + 16 + w.ntiles * 4608 + w.naccs * 16896
  (n + 255) / 256 * 256

/-- The offset of the eject area in the frame (R248). -/
def ejectArea (s : State) (w : Warp) : Nat := 0x4000 + routineSize s w + rawSize w

/-- The hardware writes bytes of a frame; a fault is a FRAME_CHECK context fault (R248). (Log 27 DEDUCED.) -/
def frameWrite (s : State) (w : Warp) (o : Nat) (bs : List Byte) : State :=
  match objWrite s (reqOf { w with off := none }) (launchOfUnit s w).frames.object (frameOff s w + o) bs false with
  | (s, .ok _) => s
  | (s, .error .key) => ctxFault s w.asid 1 0
  | (s, .error (.page ..)) => ctxFault s w.asid 2 0

/-- The hardware reads bytes of a frame; none on a fault. (Log 27 DEDUCED.) -/
def frameRead (s : State) (w : Warp) (o n : Nat) : State × Option (List Byte) :=
  match objRead s (reqOf { w with off := none }) (launchOfUnit s w).frames.object (frameOff s w + o) n false with
  | (s, .ok (bs, _)) => (s, some bs)
  | (s, .error .key) => (ctxFault s w.asid 1 0, none)
  | (s, .error (.page ..)) => (ctxFault s w.asid 2 0, none)

/-! ### Small layouts -/

/-- `n` zero bytes. -/
def zeros (n : Nat) : List Byte := List.replicate n 0

/-- Bytes cut or filled with zeros to length `n`. -/
def padTo (n : Nat) (bs : List Byte) : List Byte := (bs ++ zeros (n - bs.length)).take n

/-- Eight flags as a byte, lowest bit first. -/
def byteOfBits (l : List Bool) : Byte :=
  BitVec.ofNat 8 (l.foldr (fun b n => b.toNat + 2 * n) 0)

/-- Flags packed eight to a byte. -/
def packBits : Nat → List Bool → List Byte
  | 0, _ => []
  | n + 1, l => byteOfBits (l.take 8) :: packBits n (l.drop 8)

/-- The flags of bytes. -/
def unpackBits (bs : List Byte) : List Bool := bs.flatMap fun b => (List.range 8).map fun i => b.getLsbD i

/-- A binding as 8 bytes (R311). -/
def portBits (p : Port) : Nat :=
  p.mode + p.place * 2 ^ 3 + p.offset * 2 ^ 12 + p.credits * 2 ^ 31 + p.request * 2 ^ 42

/-- The binding that 8 bytes hold. -/
def portFrom (v : Nat) : Port :=
  { mode := bitsOf v 0 3, place := bitsOf v 3 8, offset := bitsOf v 12 19, credits := bitsOf v 31 11,
    request := bitsOf v 42 11 }

/-- The unbound port. -/
def Port.unbound : Port := ⟨0, 0, 0, 0, 0⟩

/-- The WAKE field (R334). -/
def wakeBytes (x : Wait) : List Byte :=
  toBytes 1 x.kind ++ toBytes 1 x.arg ++ toBytes 1 x.flags ++ zeros 5 ++ toBytes 8 x.value
    ++ (if x.kind = 3 || x.kind = 4 then toBytes 16 x.mask else toBytes 16 (x.obj * 2 ^ 40 + x.off))

/-- The wake condition that a WAKE field holds; the threads and the instruction are the hardware's own. -/
def wakeFrom (b : List Byte) (x : Wait) : Wait :=
  let k := fieldAt b 0 1
  { x with kind := k, arg := fieldAt b 1 1, flags := fieldAt b 2 1, value := fieldAt b 8 8,
           mask := if k = 3 || k = 4 then fieldAt b 16 16 else x.mask,
           obj := if k = 3 || k = 4 then x.obj else fieldAt b 21 3, off := fieldAt b 16 5 }

/-- The mark code of a thread record (R249). -/
def Mark.code : Mark → Nat
  | .ready => 0
  | .parked _ => 1
  | .blocked _ => 2
  | .ejected _ => 3

/-- A recipe entry of the header (R249). -/
def recipeBytes (r : Recipe) : List Byte :=
  let st := match r.st with
    | .valid => 1
    | .dropped => 2
    | .pinned => 3
  toBytes 4 r.insn ++ toBytes 4 r.lit ++ toBytes 1 r.reg ++ toBytes 1 (st + 4 * r.stale.toNat + 8 * r.depth)
    ++ toBytes 1 r.rmode ++ zeros 5

/-- The recipe entry of 16 bytes; none where unused. -/
def recipeFrom (b : List Byte) : Option Recipe :=
  let st := fieldAt b 9 1
  if st % 4 = 0 then none
  else some { reg := fieldAt b 8 1, insn := fieldAt b 0 4, lit := fieldAt b 4 4, pc := 0, rmode := fieldAt b 10 1 % 16,
              depth := st / 8 % 4, st := if st % 4 = 1 then .valid else if st % 4 = 2 then .dropped else .pinned,
              stale := st / 4 % 2 = 1, lost := false, row := none }

/-- Insert a recipe in rising register number. -/
def recipeInsert (r : Recipe) : List Recipe → List Recipe
  | [] => [r]
  | q :: l => if r.reg < q.reg then r :: q :: l else q :: recipeInsert r l

/-- Recipes in rising register number. -/
def recipeSort (l : List Recipe) : List Recipe := l.foldr recipeInsert []

/-- The instruction identifiers of the loads that become replay packets, oldest first (R251). -/
def packetIds (w : Warp) : List Nat := ((w.pends.filter fun p => p.load && p.faulted && !p.dests.isEmpty).map fun p => p.id).dedup

/-- The threads of a packet. -/
def packetMask (w : Warp) (id : Nat) : Nat :=
  maskOf ((w.pends.filter fun p => p.id == id && !p.dests.isEmpty).map fun p => p.thread)

/-- A replay packet (R251): instruction word and literal, mask, and the slot. -/
def packetBytes (w : Warp) (id slot : Nat) : List Byte :=
  match w.pends.find? fun p => p.id == id with
  | some p => toBytes 4 p.insn ++ toBytes 4 p.lit ++ toBytes 16 (packetMask w id) ++ toBytes 8 slot
  | none => zeros 32

/-- A thread's replay address slot. -/
def slotBytes (w : Warp) (t id : Nat) : List Byte :=
  match w.pends.find? fun p => p.id == id && p.thread == t with
  | some p => toBytes 8 (p.off % 2 ^ 40 + p.obj * 2 ^ 40)
  | none => zeros 8

/-- The thread record of thread `t` (R249). -/
def threadRecord (w : Warp) (ids : List Nat) (t : Nat) : List Byte :=
  let r := getRas w t
  toBytes 8 (getPc w t + (getMark w t).code * 2 ^ 62) ++ toBytes 8 (r.chip.length + r.spilled * 2 ^ 8)
    ++ padTo 32 (r.chip.flatMap fun e => toBytes 8 e.toNat) ++ padTo 64 (ids.flatMap fun id => slotBytes w t id)

/-- A tile reissue record (R258). -/
def reissueBytes (c : Copy) : List Byte :=
  let src := c.src.headD Cap.null
  let gather := c.f == 3
  padTo 32 (c.desc.flatMap fun d => toBytes 8 d.toNat) ++ (if gather then zeros 16 else toBytes 16 src.bits.toNat)
    ++ toBytes 1 (1 + 2 * (if gather then 0 else src.tag.toNat) + 4 * gather.toNat + 8 * c.batch.isSome.toNat)
    ++ toBytes 1 c.rmode ++ toBytes 1 (if gather then c.areg else 0) ++ zeros 1 ++ toBytes 2 (c.batch.getD 0) ++ zeros 2
    ++ toBytes 8 c.pc

/-! ### The header (R249) -/

/-- STATUS from its fields. -/
def statusWord (region cause reason ovr npkt : Nat) (blocked eject direct inh rfault ovrn raw : Bool) : Nat :=
  region * 2 ^ 48 + cause * 2 ^ 40 + reason * 2 ^ 32 + ovr * 2 ^ 27 + npkt * 2 ^ 8 + 2 ^ 7 + blocked.toNat * 2 ^ 6
    + eject.toNat * 2 ^ 5 + direct.toNat * 2 ^ 4 + inh.toNat * 2 ^ 3 + rfault.toNat * 2 ^ 2 + ovrn.toNat * 2 + raw.toNat

/-- WARPCTL. -/
def warpCtl (w : Warp) : Nat :=
  w.rmode + w.tm.toNat * 2 ^ 32 + w.inh.toNat * 2 ^ 33 + w.sealCtr * 2 ^ 48

/-- The header, tile reissue records left 0: they are written at the end of the save. -/
def headerBytes (w : Warp) (status crc high : Nat) (ids : List Nat) : List Byte :=
  toBytes 8 status ++ toBytes 8 (w.gen % 2 ^ 32) ++ toBytes 8 w.wtime ++ toBytes 8 w.wtcmp ++ toBytes 4 crc
    ++ toBytes 4 high ++ toBytes 8 (getS w 63).toNat ++ toBytes 8 (warpCtl w)
    ++ toBytes 8 (match w.wtstage with
      | some v => v.toNat + 2 ^ 32
      | none => 0)
    ++ toBytes 16 w.live ++ toBytes 8 w.shadow61.toNat ++ toBytes 8 w.shadow62.toNat ++ toBytes 16 w.shadow15.toNat
    ++ (match w.waits with
      | x :: _ => wakeBytes x
      | [] => zeros 32)
    ++ ((List.range 8).flatMap fun q => toBytes 8 (portBits (sget Port.unbound w.ports q))) ++ zeros 48
    ++ padTo 256 ((ids.zipIdx.flatMap fun p => packetBytes w p.1 p.2))
    ++ padTo 512 ((recipeSort (w.recipes.filter fun r => !r.lost)).flatMap recipeBytes)
    ++ ((List.range 8).flatMap fun i => toBytes 4 (getTshp w i)) ++ ((List.range 4).flatMap fun i => toBytes 4 (getAshp w i))
    ++ zeros 16 ++ zeros 512 ++ zeros 448

/-- The header and the thread area. -/
def headAndThreads (w : Warp) (status crc high : Nat) (ids : List Nat) : List Byte :=
  headerBytes w status crc high ids ++ (List.range 128).flatMap fun t => threadRecord w ids t

/-! ### The raw area (R253) -/

/-- The registers of a warp in the raw area's order. -/
def rawBytes (w : Warp) (r : Regs) : List Byte :=
  let regs := (List.range w.base) ++ (List.range 10).map (96 + ·)
  let rows := regs.flatMap fun n => (List.range 128).flatMap fun t => toBytes 4 (sget 0 r.x (xkey n t)).toNat
  rows
    ++ ((List.range 64).flatMap fun n => toBytes 8 (sget 0 r.s n).toNat)
    ++ ((List.range 16).flatMap fun n => toBytes 16 (sget 0 r.m n).toNat)
    ++ ((List.range 1024).flatMap fun k => toBytes 16 (sget Cap.null r.c k).bits.toNat)
    ++ packBits 128 ((List.range 1024).map fun k => (sget Cap.null r.c k).tag)
    ++ packBits ((w.base + 10) * 16) (regs.flatMap fun n => (List.range 128).map fun t => sget 0 r.xp (xkey n t) != 0)
    ++ packBits 128 ((List.range 1024).map fun k => sget 0 r.cp k != 0)
    ++ packBits 10 ((List.range 64).map (fun n => sget 0 r.sp n != 0) ++ (List.range 16).map (fun n => sget 0 r.mp n != 0))
    ++ zeros 6
    ++ ((List.range w.ntiles).flatMap fun n =>
      sgetMany 0 r.t (n * 4096) 4096 ++ packBits 512 (sgetMany false r.tp (n * 4096) 4096))
    ++ ((List.range w.naccs).flatMap fun n =>
      ((sgetMany 0 r.a (n * 4096) 4096).flatMap fun v => toBytes 4 v.toNat)
        ++ packBits 512 (sgetMany false r.ap (n * 4096) 4096))

/-- Words of `n` bytes each, as numbers. -/
def wordsOf (n : Nat) : Nat → List Byte → List Nat
  | 0, _ => []
  | k + 1, bs => ofBytes (bs.take n) :: wordsOf n k (bs.drop n)

/-- The entries of a list that differ from the default, keyed from `k`. -/
def storeOf {α : Type} [DecidableEq α] (d : α) (k : Nat) (l : List α) : Store α := listed d k l

/-- Poison marks come back as the kind that always traps (R253). -/
def markOf (b : Bool) : Nat := if b then 2 else 0

/-- The register files that a raw area holds; k registers and the elastic window are the launch's and the recipes' (R253).
-/
def rawFrom (w : Warp) (k : Store Cap) (bs : List Byte) : Regs :=
  let nb := w.base * 128
  let (bv, r) := bs.splitAt (nb * 4)
  let (bo, r) := r.splitAt 5120
  let (bS, r) := r.splitAt 512
  let (bM, r) := r.splitAt 256
  let (bC, r) := r.splitAt 16384
  let (bT, r) := r.splitAt 128
  let (pv, r) := r.splitAt (nb / 8)
  let (po, r) := r.splitAt 160
  let (pc, r) := r.splitAt 128
  let (ps, r) := r.splitAt 16
  let (bt, ba) := r.splitAt (w.ntiles * 4608)
  let flags := unpackBits ps
  let tags := unpackBits bT
  { x := storeOf 0 0 ((wordsOf 4 nb bv).map (BitVec.ofNat 32)) ++ storeOf 0 (96 * 128) ((wordsOf 4 1280 bo).map (BitVec.ofNat 32))
    xp := storeOf 0 0 ((unpackBits pv).map markOf) ++ storeOf 0 (96 * 128) ((unpackBits po).map markOf)
    s := storeOf 0 0 ((wordsOf 8 64 bS).map (BitVec.ofNat 64))
    sp := storeOf 0 0 ((flags.take 64).map markOf)
    m := storeOf 0 0 ((wordsOf 16 16 bM).map (BitVec.ofNat 128))
    mp := storeOf 0 0 (((flags.drop 64).take 16).map markOf)
    c := storeOf Cap.null 0 ((wordsOf 16 1024 bC).zipWith (fun v g => ⟨BitVec.ofNat 128 v, g⟩) tags)
    cp := storeOf 0 0 ((unpackBits pc).map markOf)
    k := k
    t := storeOf 0 0 ((List.range w.ntiles).flatMap fun n => (bt.drop (n * 4608)).take 4096)
    tp := storeOf false 0 ((List.range w.ntiles).flatMap fun n => unpackBits ((bt.drop (n * 4608 + 4096)).take 512))
    a := storeOf 0 0 ((List.range w.naccs).flatMap fun n =>
      (wordsOf 4 4096 (ba.drop (n * 16896))).map (BitVec.ofNat 32))
    ap := storeOf false 0 ((List.range w.naccs).flatMap fun n =>
      unpackBits ((ba.drop (n * 16896 + 16384)).take 512)) }

/-! ### Eject-area records (R257) -/

/-- The registers of a mask, in rising number. -/
def bitList (m n : Nat) : List Nat := (List.range n).filter fun i => m.testBit i

/-- The record of an offset thread: `state` bit 8 ejected, bit 9 returned. -/
def ejectRecord (w : Warp) (o : Off) (state : Nat) : List Byte :=
  let t := o.thread
  let r := getRas w t
  let vs := bitList o.ejV 96
  let pv := vs.map fun n => sget 0 w.regs.xp (xkey n t) != 0
  let po := (List.range 8).map fun i => o.ejO.testBit i && sget 0 w.regs.xp (xkey (96 + i) t) != 0
  let py := (List.range 2).map fun i => o.ejY.testBit i && sget 0 w.regs.xp (xkey (104 + i) t) != 0
  let pc := (List.range 7).map fun i => sget 0 w.regs.cp (xkey i t) != 0
  let caps := (List.range 7).map fun i => sget Cap.null w.regs.c (xkey i t)
  let pois := packBits 4 pv ++ packBits 1 po
    ++ toBytes 3 (ofBytes (packBits 1 py) % 4 + ofBytes (packBits 1 pc) * 4)
  toBytes 8 (t + state * 2 ^ 8 + o.rejoin.getD 0 * 2 ^ 16) ++ toBytes 8 (getPc w t)
    ++ toBytes 8 (r.chip.length + r.spilled * 2 ^ 8) ++ pois ++ toBytes 8 (ofBytes (packBits 1 (caps.map (·.tag)))) ++ zeros 8
    ++ padTo 32 (r.chip.flatMap fun e => toBytes 8 e.toNat)
    ++ padTo 128 (vs.flatMap fun n => toBytes 4 (sget 0 w.regs.x (xkey n t)).toNat)
    ++ ((List.range 8).flatMap fun i => toBytes 4 (if o.ejO.testBit i then (sget 0 w.regs.x (xkey (96 + i) t)).toNat else 0))
    ++ ((List.range 2).flatMap fun i => toBytes 4 (if o.ejY.testBit i then (sget 0 w.regs.x (xkey (104 + i) t)).toNat else 0))
    ++ zeros 8 ++ (caps.flatMap fun c => toBytes 16 c.bits.toNat) ++ zeros 144

/-- Write a record's registers, capabilities and stack into thread `t` of a unit (R256, R275). -/
def ejectLoad (w : Warp) (t ejV ejO ejY : Nat) (b : List Byte) : Warp :=
  let pois := fieldAt b 0x18 8
  let tags := fieldAt b 0x20 8
  let mk := fun i => if pois.testBit i then 2 else 0
  let w := (bitList ejV 96).zipIdx.foldl
    (fun w p => putX w t p.1 (BitVec.ofNat 32 (fieldAt b (0x50 + 4 * p.2) 4)) (mk p.2)) w
  let w := (bitList ejO 8).foldl (fun w i => putX w t (96 + i) (BitVec.ofNat 32 (fieldAt b (0xD0 + 4 * i) 4)) (mk (32 + i))) w
  let w := (bitList ejY 2).foldl (fun w i => putX w t (104 + i) (BitVec.ofNat 32 (fieldAt b (0xF0 + 4 * i) 4)) (mk (40 + i))) w
  let w := (List.range 7).foldl (fun w i =>
    { w with regs := { w.regs with
      c := sset Cap.null w.regs.c (xkey i t) ⟨BitVec.ofNat 128 (fieldAt b (0x100 + 16 * i) 16), tags.testBit i⟩,
      cp := sset 0 w.regs.cp (xkey i t) (mk (42 + i)) } }) w
  let st := fieldAt b 0x10 8
  setRas w t ⟨(wordsOf 8 (min (st % 8) 4) (b.drop 0x30)).map (BitVec.ofNat 64), bitsOf st 8 24⟩

end Sys2Proof.Machine
end

