-- ==== Sys2Proof/Machine/Access.lean ====
section
/-! DEFINITION. Accesses through a capability: the local checks of R181, the kinds of R337, the frame (R252), and
speculative windows (R242, R388 to R391). -/

namespace Sys2Proof.Machine

/-- Why an access of one thread does not complete: a fault of its page, a context fault, or a trap cause. -/
inductive Bad where
  | fault (f : AccFault)
  | ctx (code : Nat)
  | trap (cause : Nat)
  deriving DecidableEq, Repr

/-- A fault of an object access with the object that it names. -/
def badOf (obj : Nat) (wr ft : Bool) : Flt → Bad
  | .key => .ctx 1
  | .page f more => .fault ⟨f.cause, f.sub, f.ua, obj, f.off, wr, ft, more⟩

/-- The size of a group's allocation at a place of a cluster; 0 where it holds none (R337). -/
def placeSize (g : Group) (cluster place : Nat) : Nat :=
  match (placesOf g cluster)[place]? with
  | none => 0
  | some c =>
    match allocAt g c with
    | none => 0
    | some a => a.size

/-! ### Speculative windows -/

/-- Open windows whose KV object is `obj` of the tenant: slot and entry. -/
def windowsOn (s : State) (asid obj : Nat) : Store Window :=
  s.windows.filter fun p => p.2.isOpen && p.2.asid == asid && p.2.kv.object == obj

/-- The first byte offset of snapshots (R389). -/
def snapBase : Nat := 0x8000000000

/-- The zones of R389: committed bytes, window bytes, snapshot 0, a later snapshot. -/
inductive Zone where
  | committed | window | snap0
  | snap (k i : Nat)
  deriving DecidableEq, Repr

/-- The zone of byte `b` of a window; none traps. -/
def zoneOf (x : Window) (b : Nat) : Option Zone :=
  if b < x.len * x.kvb then some .committed
  else if b < (x.len + x.pos + 1) * x.kvb && b < snapBase then some .window
  else if snapBase ≤ b && x.rs.tag && 0 < x.sb then
    let o := b - snapBase
    if o < x.sb then some .snap0
    else if o < (x.pos + 2) * x.sb then some (.snap (o / x.sb) (o % x.sb))
    else none
  else none

/-- Every byte of the access lies in a zone that the window allows. -/
def windowOk (x : Window) (off n : Nat) (wr : Bool) : Bool :=
  (List.range n).all fun i =>
    match zoneOf x (off + i) with
    | none => false
    | some .committed => !wr
    | some .snap0 => !wr
    | some _ => true

/-- A page of a list, where it has its frame. -/
def pageOf (l : List WPage) (page : Nat) : Option WPage := l.find? fun p => p.page == page

/-- Where a byte of a window that is not committed stands: in a page's frame, among the bytes of snapshot 0, or nowhere: then it
reads 0. -/
inductive WPlace where
  | frame (g : WPage) (o : Nat)
  | first (i : Nat)
  | nowhere
  deriving DecidableEq, Repr

/-- Byte `o` of a list of pages. -/
def pagePlace (l : List WPage) (o : Nat) : WPlace :=
  match pageOf l (o / 65536) with
  | some g => .frame g (o % 65536)
  | none => .nowhere

/-- Byte `i` of snapshot `k`: that of the latest written snapshot at or below it (R389). -/
def snapPlace (x : Window) : Nat → Nat → WPlace
  | 0, i => .first i
  | k + 1, i =>
    let o := (k + 1) * x.sb + i
    if sget false x.snapSet o then pagePlace x.snaps o else snapPlace x k i

/-- Where byte `b` of a window stands. -/
def windowPlace (x : Window) (b : Nat) : WPlace :=
  match zoneOf x b with
  | some .window => pagePlace x.pages b
  | some .snap0 => .first (b - snapBase)
  | some (.snap k i) => snapPlace x k i
  | _ => .nowhere

/-- A page's frame as a request reaches it: an HBM frame under KEYID and HEAT of ATTR (R16, R390). (Log 58 DEDUCED.) -/
def pageTr (x : Window) (g : WPage) : Tr :=
  { ua := 0, tier := 0, frame := g.frame, keyid := bitsOf g.attr 0 12, heat := g.attr.testBit 12, comp := false, oa := 0
    tenant := x.asid, hv := false }

/-- A stretch of a window's bytes: a request to a page's frame, or a byte with its mark that needs none. -/
inductive WSeg where
  | req (p : Piece)
  | byte (v : PByte)
  deriving DecidableEq, Repr

/-- A byte before the stretches `l`: one request reaches bytes of one 64-byte line. -/
def addSeg (x : Window) (pl : WPlace) (l : List WSeg) : List WSeg :=
  match pl with
  | .nowhere => .byte (0, false) :: l
  | .first i => .byte (sget 0 x.snap0 i, sget false x.snap0Poison i) :: l
  | .frame g o =>
    match l with
    | .req p :: r =>
      if p.tr = pageTr x g && p.off = o + 1 && p.off % 64 ≠ 0 then .req { p with off := o, len := p.len + 1 } :: r
      else .req ⟨pageTr x g, o, 1⟩ :: l
    | _ => .req ⟨pageTr x g, o, 1⟩ :: l

/-- The stretches of `n` bytes of a window. -/
def windowSegs (x : Window) (off n : Nat) : List WSeg :=
  (List.range n).foldr (fun i l => addSeg x (windowPlace x (off + i)) l) []

/-- The requests of stretches. -/
def segPieces (l : List WSeg) : List Piece :=
  l.filterMap fun g =>
    match g with
    | .req p => some p
    | .byte _ => none

/-- Read stretches in order. -/
def readSegs (s : State) (rq : Req) : List WSeg → State × List PByte
  | [] => (s, [])
  | .byte v :: r => let (s, l) := readSegs s rq r; (s, v :: l)
  | .req p :: r =>
    let (s, l) := readPiece s rq p
    let (s, m) := readSegs s rq r
    (s, l ++ m)

/-- Read bytes of a window that are not committed: R17 from step 2 on. -/
def windowData (s : State) (rq : Req) (x : Window) (off n : Nat) : State × Except Bad (List PByte) :=
  let l := windowSegs x off n
  match keyAll s rq (segPieces l) with
  | none => (s, .error (.ctx 1))
  | some s => let (s, l) := readSegs s rq l; (s, .ok l)

/-- Read through a window: committed bytes from the KV object, the others from the window. -/
def windowRead (s : State) (rq : Req) (x : Window) (off n : Nat) : State × Except Bad (List PByte) :=
  let com := min n (x.len * x.kvb - off)
  if com = 0 then windowData s rq x off n
  else
    match objReadM s rq x.kv.object off com false with
    | (s, .error f) => (s, .error (badOf x.kv.object false false f))
    | (s, .ok l) =>
      match windowData s rq x (off + com) (n - com) with
      | (s, .error b) => (s, .error b)
      | (s, .ok m) => (s, .ok (l ++ m))

/-- The page fault of an empty pool (R390). (Log 58 DEDUCED.) -/
def poolFault (pool : Cap) : Bad := .fault ⟨0x80, 0, 0, pool.object, 0, true, false, []⟩

/-- Clear an HBM frame to zeros, which claims it under the page's KEYID; none where it is claimed under another (R347, R390). The
clear is the base die's own act: it is no request and draws no heat. (Log 58 DEDUCED.) -/
def clearFrame (s : State) (x : Window) (g : WPage) : Option State :=
  (keyStep s (pageTr x g)).map fun s =>
    { s with mem := sclear s.mem (g.frame * 65536) (g.frame * 65536 + 65536),
             memPoison := sclear s.memPoison (g.frame * 65536) (g.frame * 65536 + 65536),
             tags := sclear s.tags (g.frame * 4096) (g.frame * 4096 + 4096) }

/-- Pop a frame of the speculative page pool of a window for page `p`, and clear it (R390). (Log 58 DEDUCED.) -/
def takeFrame (s : State) (rq : Req) (x : Window) (p : Nat) : State × Except Bad WPage :=
  let obj := x.pool.object
  match objRead s rq obj 0 12 false with
  | (s, .error f) => (s, .error (badOf obj false false f))
  | (s, .ok (hb, _)) =>
    let n := fieldAt hb 0 4
    if n = 0 then (s, .error (poolFault x.pool))
    else
      match objRead s rq obj (0x10 + 4 * (n - 1)) 4 false with
      | (s, .error f) => (s, .error (badOf obj false false f))
      | (s, .ok (fb, _)) =>
        match objWrite s rq obj 0 (toBytes 4 (n - 1)) false with
        | (s, .error f) => (s, .error (badOf obj true false f))
        | (s, .ok _) =>
          let g : WPage := ⟨p, ofBytes fb % 2 ^ 23, fieldAt hb 8 4⟩
          match clearFrame s x g with
          | none => (s, .error (.ctx 1))
          | some s => (s, .ok g)

/-- Push a frame back to the pool (R390). -/
def giveFrame (s : State) (rq : Req) (pool : Cap) (f : Nat) : State × Except Bad Unit :=
  let obj := pool.object
  match objRead s rq obj 0 4 false with
  | (s, .error e) => (s, .error (badOf obj false false e))
  | (s, .ok (cb, _)) =>
    match objWrite s rq obj (0x10 + 4 * ofBytes cb) (toBytes 4 f) false with
    | (s, .error e) => (s, .error (badOf obj true false e))
    | (s, .ok _) =>
      match objWrite s rq obj 0 (toBytes 4 (ofBytes cb + 1)) false with
      | (s, .error e) => (s, .error (badOf obj true false e))
      | (s, .ok _) => (s, .ok ())

/-- The pages that a write touches, window pages as (false, page), snapshot pages as (true, page). -/
def pagesTouched (off n : Nat) : List (Bool × Nat) :=
  if off < snapBase then ((List.range n).map fun i => (false, (off + i) / 65536)).dedup
  else ((List.range n).map fun i => (true, (off + i - snapBase) / 65536)).dedup

/-- The pages of a window, or of its snapshots. -/
def Window.list (x : Window) (sn : Bool) : List WPage := if sn then x.snaps else x.pages

/-- Take a frame for each page that has none. -/
def takePages (s : State) (rq : Req) (slot : Nat) : List (Bool × Nat) → State × Except Bad Unit
  | [] => (s, .ok ())
  | (sn, p) :: r =>
    match sfind s.windows slot with
    | none => (s, .ok ())
    | some x =>
      if (pageOf (x.list sn) p).isSome then takePages s rq slot r
      else
        match takeFrame s rq x p with
        | (s, .error b) => (s, .error b)
        | (s, .ok g) =>
          takePages { s with windows := smod s.windows slot fun x =>
            if sn then { x with snaps := x.snaps ++ [g] } else { x with pages := x.pages ++ [g] } } rq slot r

/-- The requests of a write of `n` bytes at byte `o` of a window's pages, or of its snapshots, each with its first byte. -/
def putPieces (x : Window) (sn : Bool) (o n : Nat) : List (Nat × Piece) :=
  (pieces o n).filterMap fun q => (pageOf (x.list sn) (q.1 / 65536)).map fun g => (q.1, ⟨pageTr x g, q.1 % 65536, q.2⟩)

/-- The bytes of snapshots that requests have written. -/
def noteSnaps (s : State) (rq : Req) (slot : Nat) (l : List (Nat × Piece)) : State :=
  l.foldl (fun s q =>
    if connOk s rq (portOf q.2.tr q.2.off) then
      { s with windows := smod s.windows slot fun x =>
          { x with snapSet := ssetMany false x.snapSet q.1 (List.replicate q.2.len true) } }
    else s) s

/-- Write bytes of a window whose pages have their frames. -/
def windowPut (s : State) (rq : Req) (slot off : Nat) (l : List PByte) : State × Except Bad Unit :=
  match sfind s.windows slot with
  | none => (s, .ok ())
  | some x =>
    let sn : Bool := snapBase ≤ off
    let ps := putPieces x sn (if sn then off - snapBase else off) l.length
    match writeReq s rq (ps.map (·.2)) l with
    | (s, .error f) => (s, .error (badOf x.kv.object true false f))
    | (s, .ok _) => (if sn then noteSnaps s rq slot ps else s, .ok ())

/-- Write through a window (R390): pages are taken first, then the bytes land. -/
def windowWrite (s : State) (rq : Req) (slot off : Nat) (l : List PByte) : State × Except Bad Unit :=
  match takePages s rq slot (pagesTouched off l.length) with
  | (s, .error b) => (s, .error b)
  | (s, .ok _) => windowPut s rq slot off l

/-! ### The local checks -/

/-- The exact bounds of c7: [0, F) in an exit routine, [0, HIGH) in an entry routine (R252, R255). (Log 27 DEDUCED.) -/
def frameLimit (w : Warp) : Nat :=
  match w.routine with
  | some r => if r.exit then r.size else r.high
  | none => 0

/-- Local checks of an access (R181, R242, R252, R337): the first cause that holds. `kinds` is a bit mask of kinds. -/
def localCheck (s : State) (w : Warp) (c : Cap) (ea : Int) (n need kinds align : Nat) : Option Nat :=
  let wr := need.testBit 1
  if !c.tag then some cCapTag
  else if ea < c.low || (c.high : Int) < ea + n
      || (c.kind = 1 && (c.object ≠ 0 || (placeSize (groupOf s w.grp) w.loc.cluster (ea.toNat / 2 ^ 19) : Int) < ea % 2 ^ 19 + n))
      || (c.kind = 3 && (frameLimit w : Int) < ea + n) then some cCapBounds
  else if !rightsOk c need || !kinds.testBit c.kind then some cCapRights
  else if ea % align ≠ 0 then some cMisalign
  else if c.kind ≠ 1 && c.kind ≠ 3 && c.rights.testBit 7 then
    match windowsOn s w.asid c.object with
    | [(_, x)] => if windowOk x ea.toNat n wr then none else some cWindow
    | _ => some cWindow
  else none

/-- A capability of another tenant is not in extent (R339). -/
def foreign (w : Warp) (c : Cap) (ea : Nat) (wr : Bool) : Option Bad :=
  if c.tenant = w.asid then none else some (.fault ⟨0x80, 2, 0, c.object, ea, wr, false, []⟩)

/-- The core of a kind-01 place. -/
def placeCore (s : State) (w : Warp) (ea : Nat) : Nat × Nat × Nat :=
  ((placesOf (groupOf s w.grp) w.loc.cluster)[ea / 2 ^ 19]?).getD (0, 0, 0)

/-- A fault of a routine's own access through c7: it is posted and ends the routine as any fault of its does (R252, R260).
-/
def frameBad (s : State) (w : Warp) (wr : Bool) (f : Flt) : Bad :=
  badOf (launchOfUnit s w).frames.object wr false f

/-- Read `n` bytes with their poison marks through a capability whose local checks have passed. -/
def capReadM (s : State) (w : Warp) (c : Cap) (ea n : Nat) : State × Except Bad (List PByte) :=
  if c.kind = 1 then
    match spmReadM s w.grp (placeCore s w ea) (ea % 2 ^ 19 : Nat) n with
    | some r => (s, .ok r)
    | none => (s, .error (.trap cCapBounds))
  else if c.kind = 3 then
    match objReadM s (reqOf w) (launchOfUnit s w).frames.object (frameOff s w + 0x4000 + ea) n false with
    | (s, .ok r) => (s, .ok r)
    | (s, .error f) => (s, .error (frameBad s w false f))
  else
    match foreign w c ea false with
    | some b => (s, .error b)
    | none =>
      if c.rights.testBit 7 then
        match windowsOn s w.asid c.object with
        | [(_, x)] => windowRead s (reqOf w) x ea n
        | _ => (s, .error (.trap cWindow))
      else
        match objReadM s (reqOf w) c.object ea n false with
        | (s, .ok r) => (s, .ok r)
        | (s, .error f) => (s, .error (badOf c.object false false f))

/-- Read `n` bytes through a capability whose local checks have passed, and whether any is poisoned. -/
def capRead (s : State) (w : Warp) (c : Cap) (ea n : Nat) : State × Except Bad (List Byte × Bool) :=
  match capReadM s w c ea n with
  | (s, .error b) => (s, .error b)
  | (s, .ok l) => (s, .ok (unmarked l))

/-- Write bytes with their poison marks through a capability whose local checks have passed. -/
def capWriteM (s : State) (w : Warp) (c : Cap) (ea : Nat) (l : List PByte) : State × Except Bad Unit :=
  if c.kind = 1 then
    match spmWriteM s w.grp (placeCore s w ea) (ea % 2 ^ 19 : Nat) l with
    | some s => (s, .ok ())
    | none => (s, .error (.trap cCapBounds))
  else if c.kind = 3 then
    match objWriteM s (reqOf w) (launchOfUnit s w).frames.object (frameOff s w + 0x4000 + ea) l with
    | (s, .ok _) => (s, .ok ())
    | (s, .error f) => (s, .error (frameBad s w true f))
  else
    match foreign w c ea true with
    | some b => (s, .error b)
    | none =>
      if c.rights.testBit 7 then
        match windowsOn s w.asid c.object with
        | [(slot, _)] => windowWrite s (reqOf w) slot ea l
        | _ => (s, .error (.trap cWindow))
      else
        match objWriteM s (reqOf w) c.object ea l with
        | (s, .ok _) => (s, .ok ())
        | (s, .error f) => (s, .error (badOf c.object true false f))

/-- Write bytes through a capability whose local checks have passed, with one poison mark for all. -/
def capWrite (s : State) (w : Warp) (c : Cap) (ea : Nat) (bs : List Byte) (p : Bool) : State × Except Bad Unit :=
  capWriteM s w c ea (bs.map fun b => (b, p))

/-- Read and write in one step through a capability whose local checks have passed: the atomics (R198). -/
def capUpdate (s : State) (w : Warp) (c : Cap) (ea n : Nat) (f : List Byte → Option (List Byte)) :
    State × Except Bad (List Byte × Bool) :=
  if c.kind = 1 || c.kind = 3 || c.rights.testBit 7 then
    match capRead s w c ea n with
    | (s, .error b) => (s, .error b)
    | (s, .ok (old, p)) =>
      match f old with
      | none => (s, .ok (old, p))
      | some new =>
        match capWrite s w c ea new p with
        | (s, .error b) => (s, .error b)
        | (s, .ok _) => (s, .ok (old, p))
  else
    match foreign w c ea true with
    | some b => (s, .error b)
    | none =>
      match objUpdate s (reqOf w) c.object ea n f with
      | (s, .ok r) => (s, .ok r)
      | (s, .error e) => (s, .error (badOf c.object true false e))

/-- Read a capability through a capability (CLD, R193); only a memory object gives a tag. (Log 28 DEDUCED.) -/
def capReadCap (s : State) (w : Warp) (c : Cap) (ea : Nat) : State × Except Bad (Cap × Bool) :=
  if c.kind = 0 && !c.rights.testBit 7 then
    match foreign w c ea false with
    | some b => (s, .error b)
    | none =>
      match objReadCap s (reqOf w) c.object ea with
      | (s, .ok r) => (s, .ok r)
      | (s, .error f) => (s, .error (badOf c.object false false f))
  else if c.kind = 3 then
    match objReadCap s (reqOf w) (launchOfUnit s w).frames.object (frameOff s w + 0x4000 + ea) with
    | (s, .ok r) => (s, .ok r)
    | (s, .error f) => (s, .error (frameBad s w false f))
  else
    match capRead s w c ea 16 with
    | (s, .error b) => (s, .error b)
    | (s, .ok (bs, p)) => (s, .ok (⟨BitVec.ofNat 128 (ofBytes bs), false⟩, p))

/-- Write a capability through a capability (CST, R193). -/
def capWriteCap (s : State) (w : Warp) (c : Cap) (ea : Nat) (v : Cap) (p : Bool) : State × Except Bad Unit :=
  if c.kind = 0 && !c.rights.testBit 7 then
    match foreign w c ea true with
    | some b => (s, .error b)
    | none =>
      match objWriteCap s (reqOf w) c.object ea v p with
      | (s, .ok _) => (s, .ok ())
      | (s, .error f) => (s, .error (badOf c.object true false f))
  else if c.kind = 3 then
    match objWriteCap s (reqOf w) (launchOfUnit s w).frames.object (frameOff s w + 0x4000 + ea) v p with
    | (s, .ok _) => (s, .ok ())
    | (s, .error f) => (s, .error (frameBad s w true f))
  else capWrite s w c ea (toBytes 16 v.bits.toNat) p

/-! ### Return-address stacks (R74, R75, R286) -/

/-- The byte address in c6's object of spilled entry number `n`, counted from 1. -/
def spillAddr (c : Cap) (n : Nat) : Int := (c.high : Int) - 8 * n

/-- The spill to entry `n` is refused (R75). -/
def spillBad (c : Cap) (n : Nat) : Bool :=
  !c.tag || c.rights &&& 3 != 3 || spillAddr c n < c.cursor || spillAddr c n < c.low

/-- Load the newest spilled entry of thread `t` back where none is on chip (R75). A stack capability that does not allow the load
leaves the stack as it is, a STACK_LIMIT condition for the instruction that waits for the entry (R286). (Log 25 DEDUCED.) -/
def rasRefill (s : State) (u t : Nat) : State × Except Bad Unit :=
  let w := unitOf s u
  let r := getRas w t
  if !r.chip.isEmpty || r.spilled = 0 then (s, .ok ())
  else
    let c := getC w t 6
    let a := spillAddr c r.spilled
    match localCheck s w c a 8 rR 0b1111 1 with
    | some _ => (s, .error (.trap cStackLimit))
    | none =>
      match capRead s w c a.toNat 8 with
      | (s, .error b) => (s, .error b)
      | (s, .ok (bs, _)) =>
        (modUnit s u fun w => setRas w t ⟨[BitVec.ofNat 64 (ofBytes bs)], r.spilled - 1⟩, .ok ())

/-- The push of a return address spills the oldest entry first where four are on chip (R75). -/
def rasPush (s : State) (u t x : Nat) : State × Except Bad Unit :=
  let w := unitOf s u
  let r := getRas w t
  match r.chip with
  | e :: rest =>
    if rest.length < 3 then (modUnit s u fun w => setRas w t ⟨r.chip ++ [BitVec.ofNat 64 x], r.spilled⟩, .ok ())
    else
      let c := getC w t 6
      match capWrite s w c (spillAddr c (r.spilled + 1)).toNat (toBytes 8 e.toNat) false with
      | (s, .error b) => (s, .error b)
      | (s, .ok _) => (modUnit s u fun w => setRas w t ⟨rest ++ [BitVec.ofNat 64 x], r.spilled + 1⟩, .ok ())
  | [] => (modUnit s u fun w => setRas w t ⟨[BitVec.ofNat 64 x], r.spilled⟩, .ok ())

/-- The cause for which a push of thread `t` is refused: STACK_LIMIT where its spill is (R75), else what the spill meets as a
store (R181, R338). -/
def pushCause (s : State) (w : Warp) (t : Nat) : Option Nat :=
  let r := getRas w t
  let c := getC w t 6
  if r.chip.length < 4 then none
  else if spillBad c (r.spilled + 1) then some cStackLimit
  else localCheck s w c (spillAddr c (r.spilled + 1)) 8 rW 0b1011 1

/-- The stack without its newest entry. -/
def rasDrop (r : Ras) : Ras := { r with chip := r.chip.dropLast }

end Sys2Proof.Machine
end

