-- ==== Sys2Proof/Machine/Stops.lean ====
section
/-! DEFINITION. Why an instruction stops, and the instruction that issues (R95, R151, R157). -/

namespace Sys2Proof.Machine

/-- Why an instruction does not complete. -/
inductive Stop where
  /-- A trap condition: its cause, the threads for which it held, INFO, and whether it arose in a recipe replay. -/
  | trap (cause mask info : Nat) (replay : Bool)
  /-- A context fault (R247). -/
  | ctx (code : Nat)
  /-- A forbidden act of an exit routine (R187, R217). -/
  | forbid
  /-- Accesses that faulted, by thread (R183). -/
  | page (fs : List (Nat × AccFault)) (replay : Bool)
  /-- The active threads block here (R333). -/
  | stall (x : Wait)
  /-- The handler's TRET finds a handler thread not active (R161). -/
  | doubleTrap
  /-- The instruction waits for engine work of its warp, and issues again. -/
  | hold
  /-- The second half of an RTAG pair is not fetched (R80, R92). -/
  | fetch (b : Bad)
  deriving DecidableEq, Repr

/-- What an instruction's own effect gives: the state after it, or why it stops with what it has done so far. -/
abbrev Res := Except (Stop × State) State

/-- The instruction that issues: its unit, PC, length and PC group (R151), RMODE (R36), and the counter's value at issue. -/
structure Cx where
  u : Nat
  pc : Nat
  len : Nat
  act : List Nat
  rmode : Nat
  id : Nat
  deriving DecidableEq, Repr

/-- A condition of the whole instruction holds for every active thread (R157). -/
def trapAll (cx : Cx) (s : State) (cause : Nat) : Res := .error (.trap cause (maskOf cx.act) 0 false, s)

/-- Stop with a trap for some threads. -/
def trapFor (ts : List Nat) (s : State) (cause : Nat) : Res := .error (.trap cause (maskOf ts) 0 false, s)

/-- Continue only when no trap condition of the whole instruction holds. (Log 42 DEDUCED.) -/
def guardAll (cx : Cx) (s : State) (c : Option Nat) (k : State → Res) : Res :=
  match c with
  | some cause => trapAll cx s cause
  | none => k s

/-- The first of several causes in the order of R181, which their codes follow, and the threads for which it holds. -/
def firstCause (l : List (Nat × Option Nat)) : Option (Nat × List Nat) :=
  match l.filterMap (·.2) with
  | [] => none
  | c :: r =>
    let m := r.foldl min c
    some (m, (l.filter fun p => p.2 == some m).map (·.1))

end Sys2Proof.Machine
end

