-- ==== Sys2Proof/Machine/Recipe.lean ====
section
/-! DEFINITION. Recipes: which instructions may be one, their value, and replay (R66 to R72, R307). -/

namespace Sys2Proof.Machine

/-- An instruction as a recipe: its destination, the per-thread registers it reads, the uniform register and the capability
it reads, its value, for LD and LDX the size, sign and displacement, and for a conversion the register of its control word, which
is read in the lowest live thread alone (R68, R142). -/
structure RForm where
  dst : PReg
  srcs : List PReg
  u : Option SReg
  cap : Option (Fin 16)
  fn : FEnv → List Word → Word
  load : Option (Nat × Bool × Word)
  cw : Option PReg

/-- The per-thread registers that a recipe names: those it reads in every thread, and that of its control word. -/
def RForm.regs (f : RForm) : List PReg := f.srcs ++ f.cw.toList

/-- The register of a source, where it is one. -/
def srcRegs : Src → List PReg
  | .reg r => [r]
  | .lit _ => []

/-- The value of a source: the literal, or the value read for its register. -/
def srcVal (b : Src) (v : Word) : Word :=
  match b with
  | .lit w => w
  | .reg _ => v

/-- A recipe of two operands. -/
def form2 (d a : PReg) (b : Src) (g : FEnv → Word → Word → Word) : Option RForm :=
  some { dst := d, srcs := a :: srcRegs b, u := none, cap := none,
         fn := fun e l => g e (l.getD 0 0) (srcVal b (l.getD 1 0)), load := none, cw := none }

/-- A recipe of one operand. -/
def form1 (d a : PReg) (g : FEnv → Word → Word) : Option RForm :=
  some { dst := d, srcs := [a], u := none, cap := none, fn := fun e l => g e (l.getD 0 0), load := none, cw := none }

/-- A conversion as a recipe, its control word known. A 64-bit destination writes two registers and is no recipe. -/
def formCvt (f : CvtFn) (d a : PReg) (b : Src) (c : Word) : Option RForm :=
  if cvtWideDst f c then none
  else
    let as := if cvtWideSrc f c then [a, pnext a 1] else [a]
    some { dst := d, srcs := as, u := none, cap := none,
           fn := fun e l =>
             let v := (l.getD 0 0).toNat + (if cvtWideSrc f c then (l.getD 1 0).toNat * 2 ^ 32 else 0)
             BitVec.ofNat 32 (cvtValue f e c v 0).toNat,
           load := none, cw := (srcRegs b).head? }

/-- Bytes of a size code (R180). -/
def sizeBytes : Size → Nat
  | .byte => 1
  | .half => 2
  | .word => 4
  | .dword => 8

/-- A load as a recipe; a 64-bit load writes two registers and is none. -/
def formLoad (d a : PReg) (c : Fin 16) (sz : Size) (sx : Bool) (disp : Option Word) : Option RForm :=
  match sz with
  | .dword => none
  | sz => some { dst := d, srcs := [a], u := none, cap := some c, fn := fun _ _ => 0,
                 load := some (sizeBytes sz, sx, disp.getD 0), cw := none }

/-- The instruction as a recipe (R68, R113, R134); `cw` gives the value of a register in the lowest live thread, for a
control word. None where it may not be one. -/
def recipeForm (cw : PReg → Word) : Instr → Option RForm
  | .compactMov d b => form1 d b fun _ x => x
  | .compactMovi d n => some ⟨d, [], none, none, fun _ _ => n.signExtend 32, none, none⟩
  | .iadd d a b => form2 d a b fun _ => aluAdd
  | .isub d a b => form2 d a b fun _ => aluSub
  | .imul d a b => form2 d a b fun _ => aluMul
  | .imulhI d a b => form2 d a b fun _ => aluMulhI
  | .imulhN d a b => form2 d a b fun _ => aluMulhN
  | .iaddsI d a b => form2 d a b fun _ => aluAddsI
  | .iaddsN d a b => form2 d a b fun _ => aluAddsN
  | .iabsd d a b => form2 d a b fun _ => aluAbsd
  | .iminI d a b => form2 d a b fun _ => aluMinI
  | .iminN d a b => form2 d a b fun _ => aluMinN
  | .imaxI d a b => form2 d a b fun _ => aluMaxI
  | .imaxN d a b => form2 d a b fun _ => aluMaxN
  | .idivI d a b => form2 d a b fun _ => aluDivI
  | .idivN d a b => form2 d a b fun _ => aluDivN
  | .iremI d a b => form2 d a b fun _ => aluRemI
  | .iremN d a b => form2 d a b fun _ => aluRemN
  | .and d a b => form2 d a b fun _ => aluAnd
  | .or d a b => form2 d a b fun _ => aluOr
  | .xor d a b => form2 d a b fun _ => aluXor
  | .andn d a b => form2 d a b fun _ => aluAndn
  | .shl d a b => form2 d a b fun _ => aluShl
  | .shr d a b => form2 d a b fun _ => aluShr
  | .sar d a b => form2 d a b fun _ => aluSar
  | .rol d a b => form2 d a b fun _ => aluRol
  | .popc d a => form1 d a fun _ => aluPopc
  | .clz d a => form1 d a fun _ => aluClz
  | .brev d a => form1 d a fun _ => aluBrev
  | .bfxI d a b => form2 d a b fun _ => aluBfxI
  | .bfxN d a b => form2 d a b fun _ => aluBfxN
  | .permb d a b => form2 d a b fun _ => aluPermb32
  | .mov d b => some ⟨d, srcRegs b, none, none, fun _ l => srcVal b (l.getD 0 0), none, none⟩
  | .lea d a b => form2 d a b fun _ => aluLea
  | .movs d a => some ⟨d, [], some a, none, fun _ l => l.getD 0 0, none, none⟩
  | .fadd d a b => form2 d a b fAdd
  | .fsub d a b => form2 d a b fSub
  | .fmul d a b => form2 d a b fMul
  | .fmin d a b => form2 d a b fun _ => fMin
  | .fmax d a b => form2 d a b fun _ => fMax
  | .fscale d a b => form2 d a b fScale
  | .fcopys d a b => form2 d a b fun _ => fCopys
  | .frcp d a => form1 d a fRcp
  | .frsq d a => form1 d a fRsq
  | .fsqrt d a => form1 d a fSqrt
  | .fexp2 d a => form1 d a fExp2
  | .flog2 d a => form1 d a fLog2
  | .ftanh d a => form1 d a fTanh
  | .fdiv d a b => form2 d a b fDiv
  | .frint d a => form1 d a fRint
  | .hadd2 d a b => form2 d a b (pAdd .f16)
  | .hsub2 d a b => form2 d a b (pSub .f16)
  | .hmul2 d a b => form2 d a b (pMul .f16)
  | .hmin2 d a b => form2 d a b fun _ => pMin .f16
  | .hmax2 d a b => form2 d a b fun _ => pMax .f16
  | .badd2 d a b => form2 d a b (pAdd .bf16)
  | .bsub2 d a b => form2 d a b (pSub .bf16)
  | .bmul2 d a b => form2 d a b (pMul .bf16)
  | .bmin2 d a b => form2 d a b fun _ => pMin .bf16
  | .bmax2 d a b => form2 d a b fun _ => pMax .bf16
  | .cvt d a b => formCvt .cvt d a b (match b with
    | .lit w => w
    | .reg r => cw r)
  | .cvunpk d a b => formCvt .unpk d a b (match b with
    | .lit w => w
    | .reg r => cw r)
  | .cvi d a b => formCvt .cvi d a b (match b with
    | .lit w => w
    | .reg r => cw r)
  | .cvsat d a b => formCvt .sat d a b (match b with
    | .lit w => w
    | .reg r => cw r)
  | .ld _ sz c a d disp => formLoad d a c sz false disp
  | .ldx _ sz c a d disp => formLoad d a c sz true disp
  | _ => none

/-- The value of a register in the lowest live thread. -/
def lowReg (w : Warp) (r : PReg) : Word := getX w (lowest (liveThreads w)) r

/-- The bytes of an instruction word and literal. -/
def insnBytes (insn lit : Nat) : List Byte :=
  if insn % 2 = 0 then toBytes 2 insn else if insn / 2 % 2 = 0 then toBytes 4 insn else toBytes 4 insn ++ toBytes 4 lit

/-- The instruction of a recipe entry. -/
def recipeInstr (r : Recipe) : Option Instr :=
  match decode (insnBytes r.insn r.lit) with
  | .ok (i, _) => some i
  | .error _ => none

/-- The register that holds the control word of a conversion (R142). -/
def cwRegs : Instr → List PReg
  | .cvt _ _ b => srcRegs b
  | .cvpack _ _ b => srcRegs b
  | .cvunpk _ _ b => srcRegs b
  | .cvi _ _ b => srcRegs b
  | .cvsat _ _ b => srcRegs b
  | _ => []

/-- The form of a recipe entry. -/
def formOf (w : Warp) (r : Recipe) : Option RForm := (recipeInstr r).bind (recipeForm (lowReg w))

/-- The sources of a recipe as numbers: per-thread number, 65536 + s number, 131072 + capability code (R71). -/
def formNums (f : RForm) : List Nat :=
  f.regs.map pnum
    ++ (match f.u with
      | some (.s n) => [65536 + n.val]
      | _ => [])
    ++ (match f.cap with
      | some c => [131072 + c.val]
      | none => [])

/-- Registers of the elastic window among the sources. (Log 100 DEDUCED.) -/
def elasticSrcs (w : Warp) (l : List PReg) : List Nat :=
  l.filterMap fun r =>
    match r with
    | .v n => if isElastic w n.val then some n.val else none
    | _ => none

/-- Replace the recipe entry of a register. -/
def putRecipe (w : Warp) (r : Recipe) : Warp :=
  { w with recipes := r :: w.recipes.filter fun q => q.reg != r.reg }

/-- Change the recipe entry of a register. -/
def modRecipe (w : Warp) (n : Nat) (f : Recipe → Recipe) : Warp :=
  { w with recipes := w.recipes.map fun q => if q.reg == n && !q.lost then f q else q }

/-! ### Rows (R307) -/

/-- Units on a partition. -/
def samePart (a b : Loc) : Bool := a.cluster == b.cluster && a.slice == b.slice && a.core == b.core && a.part == b.part

/-- The warps on the partition of a place. -/
def partUnits (s : State) (l : Loc) : Store Warp :=
  (s.units ++ s.gangParts.flatMap fun p => p.2.units).filter fun p => holdsSlot p.2 && samePart p.2.loc l

/-- The rows of a partition that base allocations claim or elastic values hold. -/
def usedRows (s : State) (l : Loc) : List Nat :=
  (partUnits s l).flatMap fun p => p.2.rows ++ p.2.recipes.filterMap (·.row)

/-- The VALID elastic value of another warp in the highest-numbered row: unit, register and row. (Log 48 DEDUCED.) -/
def victim (s : State) (u : Nat) (l : Loc) : Option (Nat × Nat × Nat) :=
  ((partUnits s l).filter fun p => p.1 != u).foldl (fun m p =>
    p.2.recipes.foldl (fun m r =>
      match r.row, r.st with
      | some k, .valid =>
        if pendingReg p.2 r.reg then m
        else match m with
          | some (_, _, k') => if k' < k then some (p.1, r.reg, k) else m
          | none => some (p.1, r.reg, k)
      | _, _ => m) m) none

/-- A row for a tagged write or a replay: the lowest free row, or the row of a dropped value of another warp; none where
there is neither (R307). (Log 48 DEDUCED.) -/
def takeRow (s : State) (u : Nat) : State × Option Nat :=
  let l := (unitOf s u).loc
  let used := usedRows s l
  match (List.range 192).find? fun k => !used.contains k with
  | some k => (s, some k)
  | none =>
    match victim s u l with
    | some (v, r, k) => (modUnit s v fun w => modRecipe w r fun q => { q with st := .dropped, row := none }, some k)
    | none => (s, none)

/-! ### Replay (R70 to R72) -/

/-- A replay ends in a trap, reported at the reading instruction with REPLAY (R72). The spec does not say which threads m15
names where the condition held in a thread that is not active: it is taken as one of the whole reading instruction, so that m15
names its active threads. (Log 93 DESIGN CHOICE.) -/
def replayTrap (cx : Cx) (s : State) (cause info : Nat) : Res := .error (.trap cause (maskOf cx.act) info true, s)

/-- The INFO numbers of what a recipe reads, in field order (R158): its capability, its registers, its uniform register. -/
def formInfos (f : RForm) : List Nat :=
  (match f.cap with
    | some c => [0x100 + c.val]
    | none => []) ++ f.regs.map pnum
    ++ (match f.u with
      | some (.s n) => [0x80 + n.val]
      | _ => [])

/-- The poison mark of a thread's register of an INFO number. -/
def infoMark (w : Warp) (t i : Nat) : Nat :=
  if 0x100 ≤ i then poisonC w t (i - 0x100) else if 0x80 ≤ i then sget 0 w.regs.sp (i - 0x80) else poisonX w t (pregOf i)

/-- A register that a recipe reads, by its INFO number, is poisoned in a live thread; of a control word, in the lowest alone. -/
def infoPoisoned (w : Warp) (f : RForm) (i : Nat) : Bool :=
  let cwOnly := (f.cw.any fun r => pnum r == i) && !(f.srcs.any fun r => pnum r == i)
  (if cwOnly then [lowest (liveThreads w)] else liveThreads w).any fun t => infoMark w t i != 0

/-- The effective address of a replayed load. -/
def replayEa (w : Warp) (f : RForm) (disp : Word) (t : Nat) : Int :=
  ((getC w t (f.cap.getD 0).val).cursor : Int) + (getX w t (f.srcs.headD .z)).toInt + disp.toInt

/-- The value that a replayed load of `nb` bytes writes (R189). -/
def replayWord (nb : Nat) (sx : Bool) (bs : List Byte) : Word :=
  let v := ofBytes bs
  BitVec.ofNat 32 (if sx then (BitVec.signExtend 32 (BitVec.ofNat (8 * nb) v)).toNat else v)

/-- The replayed loads of threads, in order: the faults they met (R72). -/
def replayLoads (cx : Cx) (r : Recipe) (f : RForm) (nb : Nat) (sx : Bool) (disp : Word) :
    List Nat → State → Except (Stop × State) (State × List AccFault)
  | [], s => .ok (s, [])
  | t :: ts, s =>
    let w := unitOf s cx.u
    match capRead s w (getC w t (f.cap.getD 0).val) (replayEa w f disp t).toNat nb with
    | (s, .ok (bs, p)) => replayLoads cx r f nb sx disp ts (modUnit s cx.u fun w => putX w t r.reg (replayWord nb sx bs) p.toNat)
    | (s, .error (.ctx k)) => .error (.ctx k, s)
    | (s, .error (.trap k)) => .error (.trap k (maskOf cx.act) 0 true, s)
    | (s, .error (.fault a)) =>
      match replayLoads cx r f nb sx disp ts s with
      | .error e => .error e
      | .ok (s, l) => .ok (s, a :: l)

/-- The value of a recipe that is no load, in thread `t`. -/
def formValue (w : Warp) (r : Recipe) (f : RForm) (t : Nat) : Word :=
  f.fn ⟨r.pc, t, r.rmode⟩ (match f.u with
    | some a => [BitVec.truncate 32 (getU w a)]
    | none => f.srcs.map (getX w t))

/-- A recipe that is no load executes in threads: no push, no window. -/
def formWrite (r : Recipe) (f : RForm) (ts : List Nat) (w : Warp) : Warp :=
  ts.foldl (fun w t => putX w t r.reg (formValue w r f t) 0) w

/-- The replay of one recipe in every live thread: it meets the conditions that the instruction meets there, poison before the
checks of R181, and each of them stops the reading instruction with REPLAY (R70, R72). -/
def replayRun (cx : Cx) (r : Recipe) (f : RForm) (s : State) : Res :=
  let w := unitOf s cx.u
  let ts := liveThreads w
  match (formInfos f).find? (infoPoisoned w f) with
  | some i => replayTrap cx s cPoisonRead i
  | none =>
    match f.load with
    | none => .ok (modUnit s cx.u (formWrite r f ts))
    | some (nb, sx, disp) =>
      match firstCause (ts.map fun t =>
          (t, localCheck s w (getC w t (f.cap.getD 0).val) (replayEa w f disp t) nb rR 0b1111 1)) with
      | some (c, _) => replayTrap cx s c 0
      | none =>
        match replayLoads cx r f nb sx disp ts s with
        | .error e => .error e
        | .ok (s, []) => .ok s
        | .ok (s, fs) => .error (.page (fs.flatMap fun a => cx.act.map fun t => (t, a)) true, s)

/-- Replay the recipe of a register where it is DROPPED, its dropped tagged sources first (R70). The spec orders one chain, deepest
first, and not two sources of one recipe: a register that holds the control word comes before the others, and these come in field
order, each with its own chain. (Log 100 DEDUCED.) -/
def replayReg (cx : Cx) : Nat → Nat → State → Res
  | 0, _, s => .ok s
  | fuel + 1, n, s =>
    let w := unitOf s cx.u
    match recipeOf w n with
    | none => .ok s
    | some r =>
      if r.st ≠ .dropped then .ok s
      else
        match recipeInstr r with
        | none => .ok s
        | some i =>
          match (elasticSrcs w (cwRegs i)).foldlM (fun s m => replayReg cx fuel m s) s with
          | .error e => .error e
          | .ok s =>
            match formOf (unitOf s cx.u) r with
            | none => .ok s
            | some f =>
              match (elasticSrcs w f.regs).foldlM (fun s m => replayReg cx fuel m s) s with
              | .error e => .error e
              | .ok s =>
                match replayRun cx r f s with
                | .error e => .error e
                | .ok s =>
                  let (s, row) := takeRow s cx.u
                  .ok (modUnit s cx.u fun w => modRecipe w n fun q => { q with st := .valid, row := row })

/-- Replay every dropped register among the sources of an instruction (R70). -/
def replaySrcs (cx : Cx) (l : List PReg) (s : State) : Res :=
  let w := unitOf s cx.u
  if w.recipes.isEmpty then .ok s else (elasticSrcs w l).foldlM (fun s n => replayReg cx 3 n s) s

/-- The live recipes that read one of the numbered registers (R71). -/
def dependents (w : Warp) (nums : List Nat) : List Recipe :=
  w.recipes.filter fun r =>
    !r.stale && !r.lost && (match formOf w r with
      | some f => (formNums f).any nums.contains
      | none => false)

/-- PINNED and STALE. -/
def pinEntries (w : Warp) (l : List Recipe) : Warp :=
  l.foldl (fun w r => modRecipe w r.reg fun q => { q with st := .pinned, stale := true }) w

/-- Every dependent of the numbered registers is pinned with the value that its register holds: where a result lands inside the
window in which the dependent was tagged, that value is the one a replay would give (R70, R71). (Log 92 DEDUCED.) -/
def pinWarp (w : Warp) (nums : List Nat) : Warp := if w.recipes.isEmpty then w else pinEntries w (dependents w nums)

/-- The register that holds the control word of a recipe whose sources depend on the word: where it is dropped, whether the
recipe reads one of the numbered registers shows only after its replay. -/
def cwDoubt (w : Warp) (nums : List Nat) (r : Recipe) : List Nat :=
  if r.stale || r.lost then []
  else
    match recipeInstr r with
    | some (.cvi _ a (.reg b)) => if nums.contains (pnum (pnext a 1)) then elasticSrcs w [b] else []
    | some (.cvsat _ a (.reg b)) => if nums.contains (pnum (pnext a 1)) then elasticSrcs w [b] else []
    | _ => []

/-- Before registers are written, every dependent of theirs is replayed where dropped, then PINNED and STALE (R71). -/
def pinDeps (cx : Cx) (nums : List Nat) (s : State) : Res :=
  let w := unitOf s cx.u
  if w.recipes.isEmpty then .ok s
  else
    match (w.recipes.flatMap (cwDoubt w nums)).foldlM (fun s n => replayReg cx 3 n s) s with
    | .error e => .error e
    | .ok s =>
      let deps := dependents (unitOf s cx.u) nums
      match deps.foldlM (fun s r => replayReg cx 3 r.reg s) s with
      | .error e => .error e
      | .ok s => .ok (modUnit s cx.u fun w => pinEntries w deps)

/-- The same where the hardware itself writes the registers and no instruction waits: a dependent whose replay stops keeps what
its register holds. (Log 92 DEDUCED.) -/
def pinQuiet (s : State) (u : Nat) (nums : List Nat) : State :=
  match pinDeps ⟨u, 0, 0, [], 0, 0⟩ nums s with
  | .ok s => s
  | .error (_, s) => modUnit s u fun w => pinWarp w nums

end Sys2Proof.Machine
end

