-- ==== Sys2Proof/Machine/Schedule.lean ====
section
/-! DEFINITION. Which units may issue, passing over, and the order of those that share issue slots (R156, R281, R283, R285). -/

namespace Sys2Proof.Machine

/-- The warp sleeps: its deadline has not come (R156). A routine does not wait for it. -/
def asleep (w : Warp) : Bool := w.routine.isNone && w.waits.any fun x => x.kind == 10

/-- The unit is ready: its context runs, no governor holds it, it is on a slot, nothing holds it, and a thread is ready (R281). A thread
of an offset core waits for the answers to its faults (R183). -/
def readyUnit (s : State) (w : Warp) : Bool :=
  ctxRuns s w.asid && !s.governed.contains w.asid && w.stat == .resident && w.vec.isNone && (!onOffset w || w.tokens.isEmpty) && !asleep w && !(readyThreads w).isEmpty

/-- A unit that its own YIELD passes over waits for the units noted there that are ready (R156). (Log 87 DEDUCED.) -/
def passedOver (s : State) (w : Warp) : Bool :=
  w.yield.any fun v =>
    match sfind s.units v with
    | some x => readyUnit s x
    | none => false

/-- The unit may issue. -/
def canIssue (s : State) (w : Warp) : Bool := readyUnit s w && !passedOver s w

/-- The units that share the unit's issue slots: the warps of its partition, or the contexts of its offset core. -/
def shareIssue (a b : Warp) : Bool := samePart a.loc b.loc && onOffset a == onOffset b

/-- The other ready units that share the unit's issue slots. (Log 87 DEDUCED.) -/
def rivals (s : State) (u : Nat) (w : Warp) : List Nat :=
  (s.units.filter fun p => p.1 != u && shareIssue w p.2 && readyUnit s p.2).map (·.1)

/-! ### Round robin (R281, R285) -/

/-- The place of a unit in the round of its partition, which starts after the slot that issued last (R281), or of its offset core,
which starts at the core's pointer (R285). (Log 9 DEDUCED.) -/
def issueOrder (s : State) (w : Warp) : Nat :=
  if onOffset w then (w.loc.slot + 4 - sget 0 s.offPtr (offKey w.loc)) % 4
  else (w.loc.slot + 16 - sget 0 s.slotPtr (partKey w.loc)) % 16

/-- No unit that shares the unit's issue slots and may issue comes before it. -/
def firstInTurn (s : State) (u : Nat) (w : Warp) : Bool :=
  s.units.all fun p => p.1 == u || !shareIssue w p.2 || !canIssue s p.2 || issueOrder s w ≤ issueOrder s p.2

/-- The unit that issues next of those that share the issue slots of unit `u`. -/
def turnUnit (s : State) (u : Nat) : Nat :=
  ((s.units.find? fun p => shareIssue (unitOf s u) p.2 && canIssue s p.2 && firstInTurn s p.1 p.2).map (·.1)).getD u

/-- The pointer after a unit issued: the slot, or the context, after its own. -/
def turnOff (s : State) (w : Warp) : State :=
  if onOffset w then { s with offPtr := sset 0 s.offPtr (offKey w.loc) ((w.loc.slot + 1) % 4) }
  else { s with slotPtr := sset 0 s.slotPtr (partKey w.loc) ((w.loc.slot + 1) % 16) }

/-- The pointer of an offset core none of whose contexts has an instruction ready returns to 0: in the clk that comes none of them
issues (R285). (Log 9 DEDUCED.) -/
def restCores (s : State) : State :=
  { s with offPtr := s.offPtr.filter fun p => s.units.any fun q => onOffset q.2 && offKey q.2.loc == p.1 && canIssue s q.2 }

end Sys2Proof.Machine
end

