-- ==== Sys2Proof/Machine/Lookahead.lean ====
section
/-! DEFINITION. Lookahead windows (R96 to R99), tile operations in flight (R216), JOIN evaluation (R167) and return-address
stacks (R75). -/

namespace Sys2Proof.Machine

/-- A result that lands drops the results of older operations still pending for its register; those of younger ones come after
it (R97). -/
def dropOlder (w : Warp) (t n id : Nat) : Warp :=
  { w with pends := w.pends.map fun p =>
    if p.thread == t && p.id < id && !p.faulted then { p with dests := p.dests.filter fun d => d.reg != n } else p }

/-- The register of a destination number, v or o (R98), takes its value and mark. -/
def landDest (w : Warp) (p : Pend) (d : Dest) : Warp :=
  note (putX (dropOlder w p.thread d.reg p.id) p.thread d.reg d.val (if d.poison then 1 else 0)) d.reg

/-- Tagged writes of the registers `ns` that have found no row, and that await no further result, are DROPPED at once (R307). -/
def dropLanded (ns : List Nat) (w : Warp) : Warp :=
  if w.recipes.isEmpty then w
  else { w with recipes := w.recipes.map fun r =>
    if r.st = .valid && r.row.isNone && ns.contains r.reg && !pendingReg w r.reg then { r with st := .dropped } else r }

/-- A pending operation completes: the recipes that read its destinations are pinned (R71), its remaining destinations are
written together (R189), and it is gone. (Log 44 DESIGN CHOICE.) -/
def landPend (w : Warp) (p : Pend) : Warp :=
  let ns := p.dests.map (·.reg)
  dropLanded ns (p.dests.foldl (fun w d => landDest w p d)
    (pinWarp { w with pends := w.pends.filter fun q => !(q.id == p.id && q.thread == p.thread) } ns))

/-- Complete every pending operation that satisfies `f`, oldest first. Those that wait for a replay stay. -/
def landWhere (w : Warp) (f : Pend → Bool) : Warp :=
  (w.pends.filter fun p => f p && !p.faulted).foldl landPend w

/-- A tile operation's result is written (R216). -/
def landTile (w : Warp) (x : TileWrite) : Warp :=
  if x.acc then
    { w with regs := { w.regs with
      a := sclear w.regs.a (x.num * 4096) (x.num * 4096 + 4096) |> fun l => x.words.foldl (fun l p => sset 0 l (x.num * 4096 + p.1) p.2) l
      ap := sclear w.regs.ap (x.num * 4096) (x.num * 4096 + 4096) |> fun l =>
        x.wpoison.foldl (fun l p => sset false l (x.num * 4096 + p.1) p.2) l } }
  else
    { w with regs := { w.regs with
      t := sclear w.regs.t (x.num * 4096) (x.num * 4096 + 4096) |> fun l => x.bytes.foldl (fun l p => sset 0 l (x.num * 4096 + p.1) p.2) l
      tp := sclear w.regs.tp (x.num * 4096) (x.num * 4096 + 4096) |> fun l =>
        x.bpoison.foldl (fun l p => sset false l (x.num * 4096 + p.1) p.2) l } }

/-- A tile operation completes. (Log 23 DEDUCED.) -/
def landTop (w : Warp) (o : TileOp) : Warp :=
  o.result.foldl landTile { w with tops := w.tops.filter fun p => p.id != o.id }

/-- Complete every tile operation that satisfies `f`, oldest first. -/
def landTops (w : Warp) (f : TileOp → Bool) : Warp := (w.tops.filter f).foldl landTop w

/-- closewin(t) for each thread of a list (R99, R152): every pending operation of theirs completes. (Log 23 DEDUCED.) -/
def closeWin (w : Warp) (ts : List Nat) : Warp :=
  if w.pends.isEmpty && w.tops.isEmpty then w
  else landTops (landWhere w fun p => ts.contains p.thread) fun _ => true

/-- An instruction waits while it lies beyond the window of a pending operation of one of its threads (R97). -/
def settleDue (w : Warp) (ts : List Nat) : Warp :=
  if w.pends.isEmpty && w.tops.isEmpty then w
  else landTops (landWhere w fun p => ts.contains p.thread && p.left == 0) fun o => o.left == 0

/-- The instruction counts in the windows of its threads that were open when it issued (R96): those numbered below `id`, whose
accesses stand before it; a load that has faulted has still to be made. (Log 23 DEDUCED, log 94 DEDUCED.) -/
def countWin (w : Warp) (ts : List Nat) (id : Nat) : Warp :=
  if w.pends.isEmpty && w.tops.isEmpty then w
  else { w with
    pends := w.pends.map fun p => if ts.contains p.thread && p.id < id then { p with left := p.left - 1, performed := p.performed || !p.faulted } else p
    tops := w.tops.map fun o => if o.id < id then { o with left := o.left - 1 } else o }

/-- A memory instruction waits for the atomics and acquires of its threads (R186). -/
def settleAtomics (w : Warp) (ts : List Nat) : Warp :=
  if w.pends.isEmpty then w else landWhere w fun p => ts.contains p.thread && p.atomic

/-- The scoreboard (R98, R216): operations that write a named tile or accumulator complete first, and those that read one
that is to be written. -/
def scoreboard (w : Warp) (reads writes : List Nat) : Warp :=
  landTops w fun o => o.writes.any (fun n => reads.contains n || writes.contains n) || o.reads.any writes.contains

/-- After an instruction has read its sources, a value that found no row is dropped again, but for one whose result is still
pending (R69, R307). (Log 48 DEDUCED.) -/
def dropRowless (w : Warp) : Warp :=
  if w.recipes.isEmpty then w
  else { w with recipes := w.recipes.map fun r =>
    if r.st = .valid && r.row.isNone && !pendingReg w r.reg then { r with st := .dropped } else r }

/-- A queue stall that has been woken and whose unserved threads have left the instruction: the threads served before go on
with them (R208). `flags` 2 marks a woken stall. -/
def stallDone (w : Warp) (x : Wait) : Bool :=
  x.flags == 2 && !((threadsOf x.mask).any fun t => isLive w t && getMark w t == .ready && getPc w t == x.pc)

/-- The threads of a stall that have been served. -/
def servedThreads (w : Warp) (x : Wait) : List Nat :=
  (threadsOf x.threads).filter fun t => isLive w t && !x.mask.testBit t

/-- Release the served threads of a stall past the instruction. -/
def releaseServed (w : Warp) (x : Wait) : Warp :=
  setPcs (setMarks w (servedThreads w x) .ready) (servedThreads w x) (x.pc + x.len)

/-- Release the served threads of every stall that is done. -/
def settleStalls (w : Warp) : Warp :=
  if w.waits.isEmpty then w
  else (w.waits.filter (stallDone w)).foldl releaseServed { w with waits := w.waits.filter fun x => !stallDone w x }

/-! ### JOIN (R167) -/

/-- Thread `t` is parked at the JOIN at `pc`. -/
def parkedAt (w : Warp) (pc t : Nat) : Bool :=
  match getMark w t with
  | .parked _ => getPc w t == pc
  | _ => false

/-- The JOIN at `pc` on mask register `m` releases: no live thread whose bit is set is unparked there. -/
def joinOpen (w : Warp) (pc m : Nat) : Bool :=
  (liveThreads w).all fun t => !(getM w m).getLsbD t || parkedAt w pc t

/-- Evaluate the JOIN at `pc` on mask register `m`: its parked threads become ready at PC + 4. (Log 10 DEDUCED.) -/
def evalJoin (w : Warp) (pc m : Nat) : Warp :=
  if joinOpen w pc m then
    let ts := (liveThreads w).filter (parkedAt w pc)
    setPcs (setMarks w ts .ready) ts (pc + 4)
  else w

/-- The PCs of the JOINs on mask register `m` with parked threads. (Log 10 DEDUCED.) -/
def joinPcs (w : Warp) (m : Nat) : List Nat :=
  (((liveThreads w).filter fun t => getMark w t == .parked m).map (getPc w)).dedup

/-- Evaluate every JOIN on mask register `m`. -/
def evalJoins (w : Warp) (m : Nat) : Warp :=
  if w.marks.isEmpty then w else (joinPcs w m).foldl (fun w pc => evalJoin w pc m) w

end Sys2Proof.Machine
end

