-- ==== Sys2Proof/Machine/Vector.lean ====
section
/-! DEFINITION. Taking a warp off its slot: vectoring into the exit routine, the raw save, the end of a save (R250 to R254,
R258), and the hand-back of an ejected thread (R159, R256, R275). -/

namespace Sys2Proof.Machine

/-! ### Fault records of a unit (R355) -/

/-- The distinct pages of faulting accesses, in the order met, with the threads of each: one record per page (R355).
(Log 91 DEDUCED.) -/
def faultPages (l : List (Nat × AccFault)) : List (AccFault × Nat) :=
  let fs := l.flatMap fun p => p.2.each.map fun f => (p.1, f)
  ((fs.map fun p => p.2.page).reverse.dedup.reverse).filterMap fun k =>
    match fs.find? fun p => p.2.page == k with
    | some p => some (p.2, maskOf ((fs.filter fun q => q.2.page == k).map (·.1)))
    | none => none

/-- The fault is one of this pending load's: on a page of its bytes, where the thread has several that faulted.
(Log 91 DEDUCED.) -/
def faultOfPend (w : Warp) (f : AccFault) (m : Nat) (p : Pend) : Bool :=
  let a := p.off / 65536
  let b := f.off / 65536
  let one := ((w.pends.filter fun q => q.faulted && q.thread == p.thread).length == 1)
  p.faulted && m.testBit p.thread && (one || (p.obj == f.obj && a ≤ b && b ≤ (p.off + 15) / 65536))

/-- Pending loads without a token note those of their faults, which the list gives with the faults and their threads.
(Log 46 DEDUCED.) -/
def notePends (l : List (Nat × AccFault × Nat)) (w : Warp) : Warp :=
  { w with pends := w.pends.map fun p =>
      if p.tokens.isEmpty then { p with tokens := (l.filter fun q => faultOfPend w q.2.1 q.2.2 p).map (·.1) } else p }

/-- Post one record per page for a unit: their tokens. -/
def postRecords (s : State) (u source : Nat) (routine replay : Bool) :
    List (AccFault × Nat) → State × List (Nat × AccFault × Nat)
  | [] => (s, [])
  | (f, m) :: r =>
    let w := unitOf s u
    let (n, s) := raiseFault s w.asid source (cfgSelf w / 4) routine replay f (.unit u m)
    let (s, l) := postRecords s u source routine replay r
    (s, (n, f, m) :: l)

/-- Post one record per page for a unit, and note the tokens it waits on. (Log 89 DEDUCED, log 91 DEDUCED.) -/
def postFaults (s : State) (u source : Nat) (routine replay wait : Bool) (fs : List (AccFault × Nat)) : State :=
  let (s, l) := postRecords s u source routine replay fs
  if wait then
    modUnit s u fun w => { notePends l w with tokens := w.tokens ++ l.map fun q => (q.1, q.2.1.ua / 65536) }
  else s

/-! ### Refills (R75, R286) -/

/-- The refills that a return starts after its own pop, and those that go on after a fault of theirs: the faults they meet. The
return has completed (R75, R286). (Log 25 DEDUCED.) -/
def startRefills (u : Nat) : List Nat → State → State × List (Nat × AccFault)
  | [], s => (s, [])
  | t :: ts, s =>
    match rasRefill s u t with
    | (s, .ok _) => startRefills u ts s
    | (s, .error (.trap _)) => startRefills u ts s
    | (s, .error (.ctx c)) => (ctxFault s (unitOf s u).asid c 0, [])
    | (s, .error (.fault f)) =>
      let (s, fs) := startRefills u ts s
      (s, (t, f) :: fs)

/-! ### Stopping ejected threads -/

/-- The offset threads of a warp: unit number and unit. -/
def offUnits (s : State) (u : Nat) : Store Warp :=
  s.units.filter fun p =>
    match p.2.off with
    | some o => o.parent == some u
    | none => false

/-- Write an offset thread's record into its warp's eject area (R257). (Log 24 DEDUCED.) -/
def writeEject (s : State) (parent : Warp) (w : Warp) (o : Off) (state : Nat) : State :=
  frameWrite s parent (ejectArea s parent + 512 * o.thread) (ejectRecord w o state)

/-- The translation-fault tokens that a unit's blocked threads wait on, with their pages. -/
def stubTokens (s : State) (w : Warp) : List (Nat × Nat) :=
  let ps := ((heldThreads w).filter fun t => getMark w t == .blocked true).flatMap fun t =>
    [getPc w t / 65536, (getPc w t + 11) / 65536]
  s.tokens.filterMap fun k =>
    match k.page with
    | some p => if k.asid == w.asid && ps.contains p then some (k.num, p) else none
    | none => none

/-- Stop one offset thread at its instruction boundary: its state goes to the eject area and its context is free (R251 step
4, R280). What the record does not hold, the snapshot of s, m and k and RMODE among it, stays with the stopped unit; its counter
latches are empty from then on (R63), and of its tokens those of translation faults are still waited on (R303).
(Log 45 DEDUCED.) -/
def stopOff (s : State) (u : Nat) (p : Nat × Warp) : State :=
  match p.2.off with
  | none => s
  | some o =>
    let s := modUnit s p.1 fun w => closeWin w [o.thread]
    let s := (rasRefill s p.1 o.thread).1
    modUnit (writeEject s (unitOf s u) (unitOf s p.1) o 1) p.1 fun w =>
      { w with
        stat := .outCtx, waits := w.waits.filter (fun x => x.kind == 10), tokens := stubTokens s w, pends := [], latch := [] }

/-- Stop every offset thread of a warp. -/
def stopEjected (s : State) (u : Nat) : State :=
  ((offUnits s u).filter fun p => p.2.stat == .resident).foldl (fun s p => stopOff s u p) s

/-- Drop a VALID tagged register; a pinned one, or one whose result is pending, is kept (R69). -/
def dropRecipe (w : Warp) (r : Recipe) : Recipe :=
  if r.st = .valid && !pendingReg w r.reg then { r with st := .dropped, row := none }
  else r

/-- Drop every elastic value of a warp (R69). (Log 48 DEDUCED.) -/
def dropElastic (w : Warp) : Warp := { w with recipes := w.recipes.map (dropRecipe w) }

/-- Tile copies and follow-on commands that a save cancels (R258). -/
def copyCancelled (c : Copy) : Bool := c.g == 1 && (c.f == 0 || c.f == 3)

/-- A copy as a save leaves it: a copy into a tile is cancelled; a copy out of a tile that waits for no earlier copy keeps
the tile's contents, since the warp's tile is free after the save. (Log 32 DEDUCED.) -/
def copyAtSave (w : Warp) (c : Copy) : Copy :=
  let t := bitsOf (c.desc.getD 2 0).toNat 32 4
  let names := fun (x : Copy) => copyCancelled x && bitsOf (x.desc.getD 2 0).toNat 32 4 == t
  if copyCancelled c then { c with cancelled := true, token := none }
  else if c.g == 1 && c.f == 1 && !c.held && !((w.copies.takeWhile fun x => x.id != c.id).any names) then
    { c with held := true, image := storeOf 0 0 (sgetMany 0 w.regs.t (t * 4096) 4096)
             imagePoison := storeOf false 0 (sgetMany false w.regs.tp (t * 4096) 4096) }
  else c

/-- The registers of a raw save: those of step 1 of vectoring, and the held tiles and accumulators, which no exit routine writes
(R217) and which a copy that completed while the routine ran has written (R253). -/
def heldRegs (w : Warp) : Regs :=
  { w.saved.getD w.regs with t := w.regs.t, tp := w.regs.tp, a := w.regs.a, ap := w.regs.ap }

/-- What a save records besides the warp's own state. -/
structure SaveInfo where
  region : Nat
  reason : Nat
  npkt : Nat
  blocked : Bool
  eject : Bool
  direct : Bool
  raw : Bool
  rfault : Bool
  ovrn : Bool
  cause : Nat
  high : Nat
  deriving DecidableEq, Repr

/-- The end of a save: tile reissue records, the raw area where the save is raw, the CRC and STATUS; then the warp leaves
its slot (R162, R252, R253, R258). -/
def saveEnd (s : State) (u : Nat) (i : SaveInfo) : State :=
  let w := unitOf s u
  let l := launchOfUnit s w
  let f := routineSize s w
  let s := frameWrite s w 0x440 (padTo 512 ((w.copies.filter copyCancelled).flatMap reissueBytes))
  let s := if i.raw then frameWrite s w (0x4000 + f) (rawBytes w (heldRegs w)) else s
  let (s, body) := if i.high = 0 then (s, some []) else frameRead s w 0x4000 i.high
  let s := frameWrite s w 0x10 (toBytes 8 w.wtime)
  let s := frameWrite s w 0x20 (toBytes 4 (crc32c (body.getD [])) ++ toBytes 4 i.high)
  let ovr := overrunsOf s w.asid l.kernel i.region
  let s := frameWrite s w 0
    (toBytes 8 (statusWord i.region i.cause i.reason ovr i.npkt i.blocked i.eject i.direct w.inh i.rfault i.ovrn i.raw))
  let out := if (ctxOf s w.asid).state = .switchingOut then WStat.outCtx else WStat.outAlone
  modUnit s u fun w =>
    { w with
      stat := out, regs := Regs.zero, routine := none, saved := none, vec := none, reason := i.reason,
      copies := w.copies.map (copyAtSave w),
      pends := w.pends.filter fun p => p.load && p.faulted && !p.dests.isEmpty,
      tops := [], latch := [], yield := [], resumeGuard := false, rejoinWait := 0 }

/-- A raw save of a warp whose routine has ended early (R252). -/
def rawSave (s : State) (u : Nat) (rfault ovrn : Bool) (cause : Nat) : State :=
  let w := unitOf s u
  match w.routine with
  | none => s
  | some r =>
    let s := if ovrn then countOverrun s w.asid (launchOfUnit s w).kernel r.region else s
    saveEnd s u { region := r.region, reason := r.reason, npkt := r.npkt, blocked := r.blocked, eject := r.eject,
                  direct := false, raw := true, rfault := rfault, ovrn := ovrn, cause := cause, high := 0 }

/-- The frame capability of a routine: kind 11, with the smallest representable range that holds [0, n) (R252). -/
def frameCap (asid n rights : Nat) : Cap :=
  let r := narrowRange 0 n
  mkCap 3 asid 0 rights r.2.2 r.2.1 r.1 0 true

/-- Put the frame capability into c7 of each thread, or take it away (R56). -/
def setFrameCap (w : Warp) (ts : List Nat) (c : Cap) : Warp :=
  ts.foldl (fun w t => { w with regs := { w.regs with
    c := sset Cap.null w.regs.c (xkey 7 t) c, cp := sset 0 w.regs.cp (xkey 7 t) 0 } }) w

/-- A wait on a load across a Stolybin link, whose load has become a packet, names the packet; one whose load has completed
is over (R334, R335). (Log 51 DEDUCED.) -/
def packWaits (w : Warp) : Warp :=
  let ids := packetIds w
  let gone := fun (x : Wait) => x.kind == 11 && !ids.contains x.value
  let w := (w.waits.filter gone).foldl (fun w x => setMarks w (threadsOf x.threads) .ready) w
  { w with waits := (w.waits.filter fun x => !gone x).map fun x =>
      if x.kind == 11 then { x with value := ids.findIdx fun i => i == x.value } else x }

/-- The loads still outstanding become replay packets: a return of the old generation is dropped (R251). Until its data comes
a destination holds the poison mark that its register has now; where the access stands before a later instruction of its thread
the data stays what it was. (Log 34 DEDUCED, log 46 DEDUCED, log 94 DEDUCED.) -/
def makePackets (w : Warp) : Warp :=
  let old := fun (t : Nat) (d : Dest) => ({ d with poison := sget 0 w.regs.xp (xkey d.reg t) != 0 } : Dest)
  { w with pends := w.pends.map fun p =>
    if !p.load then p
    else if p.performed then { p with faulted := true }
    else { p with faulted := true, dests := p.dests.map (old p.thread) } }

/-- Steps 3 to 7 of vectoring (R251), once nothing outstanding is waited for. STATUS, CRC and HIGH keep the last save's values
until this save ends (R266). -/
def finishVector (s : State) (u reason : Nat) : State :=
  let s := modUnit s u fun w => makePackets (landTops (landWhere w fun p => !p.load || p.arrived) fun _ => true)
  let s := if reason = 4 then s else stopEjected s u
  let s := modUnit s u fun w =>
    let woken := w.waits.filter fun x => x.flags == 2
    let w := woken.foldl releaseServed
      { w with gen := (w.gen + 1) % 2 ^ 32, vec := none, waits := w.waits.filter fun x => x.flags != 2 }
    let w := packWaits w
    (w.pends.filter fun p => p.load).foldl (fun w p => p.dests.foldl (fun w d => markX w p.thread d.reg 2) w) w
  let w := unitOf s u
  let ids := packetIds w
  let held := heldThreads w
  let low := lowPc w held
  let blocked := !w.waits.isEmpty
  let eject := anyEjected w
  let head := headAndThreads w 0 0 0 ids
  let s := frameWrite (frameWrite s w 8 ((head.drop 8).take 24)) w 0x28 (head.drop 0x28)
  let s := modUnit s u dropElastic
  let w := unitOf s u
  let rid := regionId s w low
  let direct := SaveInfo.mk rid reason ids.length blocked eject true true false false 0 0
  match regionAt s w low with
  | none => saveEnd s u direct
  | some r =>
    let one := held.all fun t => regionAt s w (getPc w t) == some r
    let hasR := r.exit ≠ 0xFFFFFFFF && r.entry ≠ 0xFFFFFFFF
    let rawOnly := 16 ≤ overrunsOf s w.asid (launchOfUnit s w).kernel r.id
    if !one || !hasR || rawOnly || w.inh then saveEnd s u direct
    else
      let f := routineSize s w
      modUnit s u fun w =>
        let w := { w with
          saved := some w.regs
          routine := some { exit := true, threads := maskOf held, region := r.id, reason := reason, size := f, high := 0,
                            count := 0, written := [], npkt := ids.length, blocked := blocked, eject := eject, pcs := [], marks := [], waits := [] } }
        let v := reason + blocked.toNat * 2 ^ 8 + eject.toNat * 2 ^ 9 + (!ids.isEmpty).toNat * 2 ^ 10
        let w := { w with regs := { w.regs with
          s := sset 0 w.regs.s 63 (BitVec.ofNat 64 v), sp := sset 0 w.regs.sp 63 0 } }
        let w := setFrameCap w held (frameCap w.asid f 3)
        setPcs (setMarks w held .ready) held (codeBase s w + r.exit)

/-- The stacks that vectoring copies, by unit and thread: those of the warp's threads and, but for REASON 4, those of the ejected
ones. A thread that carries a trap cause waits for no refill. -/
def copiedStacks (s : State) (u reason : Nat) : List (Nat × Nat) :=
  let mine := ((heldThreads (unitOf s u)).filter fun t => sget 0 (unitOf s u).carried t == 0).map fun t => (u, t)
  let off := ((offUnits s u).filter fun p => p.2.stat == .resident).filterMap fun p => p.2.off.map fun o => (p.1, o.thread)
  mine ++ (if reason = 4 then [] else off)

/-- Vectoring copies no stack before its refill has written the entry back: a refill that faults is waited for, with a record
where none of the unit's is unanswered (R286). The flag says that every refill is done. (Log 25 DEDUCED.) -/
def awaitRefills : List (Nat × Nat) → State → State × Bool
  | [], s => (s, true)
  | (v, t) :: r, s =>
    match startRefills v [t] s with
    | (s, []) => awaitRefills r s
    | (s, fs) =>
      let w := unitOf s v
      let s := if w.tokens.isEmpty then postFaults s v (if onOffset w then 1 else 0) false false true (faultPages fs) else s
      ((awaitRefills r s).1, false)

/-- Steps 3 to 7 of vectoring, once the refills of the stacks that it copies are done. -/
def closeVector (s : State) (u reason : Nat) : State :=
  match awaitRefills (copiedStacks s u reason) s with
  | (s, true) => finishVector s u reason
  | (s, false) => s

/-- Loads still outstanding, by instruction, oldest first. -/
def outstanding (w : Warp) : List Nat :=
  ((w.pends.filter fun p => p.load && !p.arrived && !p.faulted && !p.dests.isEmpty).map fun p => p.id).dedup

/-- Vectoring goes on when nothing outstanding is waited for: before the 256 clk are over nothing may be outstanding, after
them atomics complete and at most 8 loads remain (R251 step 2). -/
def tryVector (s : State) (u : Nat) : State :=
  let w := unitOf s u
  match w.vec with
  | none => s
  | some v =>
    if v.expired then
      let ids := outstanding w
      let faulted := ((w.pends.filter fun p => p.faulted && !p.dests.isEmpty).map fun p => p.id).dedup
      let done := ids.take (ids.length + faulted.length - 8)
      closeVector (modUnit s u fun w => landWhere w fun p => done.contains p.id) u v.reason
    else if w.pends.any fun p => !p.arrived && !p.faulted then s
    else closeVector s u v.reason

/-- Begin to vector a warp. -/
def startVector (s : State) (u reason : Nat) : State :=
  tryVector (modUnit s u fun w => { w with vec := some ⟨reason, false⟩ }) u

/-- A request to vector a unit with a REASON (R250 to R254, R280). A request that finds an exit routine running, or
vectoring begun, has no effect; during a resume, or while traps are masked, it is held. -/
def vectorUnit (s : State) (u reason : Nat) : State :=
  let w := unitOf s u
  if onOffset w then s
  else if w.stat ≠ .resident || inExit w || w.vec.isSome then s
  else if inEntry w || (w.resumeGuard && reason ≠ 3 && reason ≠ 4) then modUnit s u fun w => { w with heldPre := some (w.heldPre.getD reason) }
  else if w.tm && reason ≠ 3 && reason ≠ 4 then
    modUnit s u fun w => { w with heldPre := some (w.heldPre.getD reason), tmaskClk := if w.heldPre.isSome then w.tmaskClk else 0 }
  else startVector s u reason

/-- The warp waits on translation faults alone: some thread is blocked on one, and every thread that is not ejected is, or no
thread is ready and none is ejected (R303). (Log 63 DEDUCED.) -/
def allOnStub (w : Warp) : Bool :=
  let ts := heldThreads w
  (ts.any fun t => getMark w t == .blocked true)
    && ((ts.all fun t => getMark w t == .blocked true) || ((readyThreads w).isEmpty && !anyEjected w))

/-- A warp that waits on translation faults alone is vectored with REASON 3 (R303). -/
def stubVector (s : State) (u : Nat) : State :=
  let w := unitOf s u
  if w.marks.isEmpty || w.routine.isSome || w.vec.isSome || w.stat ≠ .resident || !allOnStub w then s
  else vectorUnit (modUnit s u fun w => { w with tokens := stubTokens s w }) u 3

/-- A held request is taken once nothing holds it back: TM is clear, and a resumed warp has issued an instruction (R161,
R173, R254, R255). -/
def releaseHeld (s : State) (u : Nat) : State :=
  let w := unitOf s u
  match w.heldPre with
  | none => s
  | some r =>
    if w.tm || w.resumeGuard || w.routine.isSome || w.stat ≠ .resident then s
    else vectorUnit (modUnit s u fun w => { w with heldPre := none }) u r

/-! ### Ejected threads coming back -/

/-- The warp's rows are not on a slot for its own instructions: it is out, it is being vectored, or its exit routine runs. A thread
that rejoins then is recorded as returned (R275, R280). -/
def isAway (w : Warp) : Bool := w.stat != .resident || w.vec.isSome || inExit w

/-- The register numbers of eject lists given as masks. -/
def ejectNums (v o y : Nat) : List Nat :=
  bitList v 96 ++ (bitList o 8).map (96 + ·) ++ (bitList y 2).map (104 + ·)

/-- Copy an offset thread's eject-list registers, c0 to c6 and stack into its warp (R275 step 2). -/
def copyBack (p w : Warp) (o : Off) : Warp :=
  let t := o.thread
  let p := (ejectNums o.ejV o.ejO o.ejY).foldl (fun p n => putX p t n (sget 0 w.regs.x (xkey n t)) (sget 0 w.regs.xp (xkey n t))) p
  let p := (List.range 7).foldl (fun p i => { p with regs := { p.regs with
    c := sset Cap.null p.regs.c (xkey i t) (sget Cap.null w.regs.c (xkey i t)),
    cp := sset 0 p.regs.cp (xkey i t) (sget 0 w.regs.cp (xkey i t)) } }) p
  setRas { p with latch := w.latch.foldl (fun l q => sput l q.1 q.2) p.latch } t (getRas w t)

/-- What the rows of a returning thread are to R71: its eject-list registers and c0 to c6. -/
def backNums (o : Off) : List Nat := ejectNums o.ejV o.ejO o.ejY ++ (List.range 7).map (131072 + ·)

/-- Every ejected thread of a warp has come back: those that did while it was away wait as returned (R256). -/
def allReturned (s : State) (u : Nat) : Bool := (offUnits s u).all fun p => p.2.stat == .outAlone

/-- Hand an offset thread back to its warp with its PC and mark (R159, R275); the recipes that read the registers written back are
pinned before (R71), and the rejoin wait starts anew (R279). Where the warp is away its record says returned, and the resume
applies it. (Log 45 DEDUCED.) -/
def handBack (s : State) (u : Nat) (pc : Nat) (m : Mark) : State :=
  let w := unitOf s u
  match w.off with
  | none => s
  | some o =>
    match o.parent with
    | none => s
    | some pu =>
      let p := unitOf s pu
      if isAway p then
        modUnit (writeEject s p (setPc w o.thread pc) o 2) u fun w =>
          { setPc w o.thread pc with stat := .outAlone, waits := [], tokens := [], pends := [] }
      else
        delUnit (modUnit (pinQuiet s pu (backNums o)) pu fun p =>
          { setMark (setPc (copyBack p w o) o.thread pc) o.thread m with rejoinWait := 0 }) u

end Sys2Proof.Machine
end

