-- ==== Sys2Proof/Machine/Ops.lean ====
section
/-! DEFINITION. The operations that instructions share: fetching, issuing, taking a trap and returning from it, faults of an
access, and blocking (R80, R92 to R97, R151, R157 to R161, R183). -/

namespace Sys2Proof.Machine

/-! ### Fetch (R79, R80) -/

/-- Fetch through k1: the trap of R80, or the byte's place in the code object. (Log 17 DEDUCED.) -/
def fetchCheck (s : State) (w : Warp) (pc n : Nat) : Except Nat Nat :=
  let k1 := getC w 0 9
  let b := codeObjBase s w
  if !k1.rights.testBit 2 then .error cCapRights
  else if pc < b + k1.low || b + k1.high < pc + n then .error cCapBounds
  else .ok (pc - b)

/-- The first halfword of the instruction at `pc`, looked at without a request. (Log 16 DEDUCED.) -/
def peekHalf (s : State) (w : Warp) (pc : Nat) : Nat :=
  match peek s w.asid (getC w 0 9).object (pc - codeObjBase s w) 2 with
  | some bs => ofBytes bs
  | none => 0

/-- Fetch `n` bytes at `pc`. -/
def fetchBytes (s : State) (w : Warp) (pc n : Nat) : State × Except Bad (List Byte) :=
  match fetchCheck s w pc n with
  | .error c => (s, .error (.trap c))
  | .ok off =>
    if (getC w 0 9).tenant ≠ w.asid then (s, .error (.fault ⟨0x80, 2, 0, (getC w 0 9).object, off, false, true, []⟩))
    else
      match objRead s (reqOf w) (getC w 0 9).object off n true with
      | (s, .ok (bs, _)) => (s, .ok bs)
      | (s, .error f) => (s, .error (badOf (getC w 0 9).object false true f))

/-- Fetch the instruction at `pc`: as many bytes as its first halfword says (R79, R80). (Log 16 DEDUCED.) -/
def fetchInsn (s : State) (w : Warp) (pc : Nat) : State × Except Bad (List Byte) :=
  match fetchCheck s w pc 2 with
  | .error c => (s, .error (.trap c))
  | .ok _ => fetchBytes s w pc (lengthOf (peekHalf s w pc))

/-- The RTAG word (R92). -/
def rtagWord : Nat := 0x000000C5

/-- len(p) of R152: the length of the instruction at `p`; for an RTAG pair, both halves. -/
def lenAt (s : State) (w : Warp) (p : Nat) : State × Except Bad Nat :=
  match fetchInsn s w p with
  | (s, .error b) => (s, .error b)
  | (s, .ok bs) =>
    if bs.length = 4 && ofBytes bs = rtagWord then
      match fetchInsn s w (p + 4) with
      | (s, .error b) => (s, .error b)
      | (s, .ok cs) => (s, .ok (4 + cs.length))
    else (s, .ok bs.length)

/-! ### Taking an exception -/

/-- s62 at trap entry (R158). -/
def s62Of (cause info : Nat) (replay : Bool) : DWord :=
  BitVec.ofNat 64 (cause % 256 + info % 2 ^ 32 * 2 ^ 8 + replay.toNat * 2 ^ 63)

/-- Trap entry, steps 2 to 6 (R157): the pending operations complete; s61, s62 and m15 go to the shadow and take the PC,
the cause and the threads; TM and INH are set; every active thread goes to the handler. (Log 52 DEDUCED.) -/
def trapEntry (w : Warp) (pc : Nat) (act : List Nat) (cause mask info : Nat) (replay : Bool) (handler : Nat) : Warp :=
  let w := closeWin w act
  let w := { w with shadow61 := getS w 61, shadow62 := getS w 62, shadow15 := getM w 15 }
  let w := setM (setS (setS w 61 (BitVec.ofNat 64 pc)) 62 (s62Of cause info replay)) 15 (BitVec.ofNat 128 mask)
  setPcs { w with tm := true, inh := true, handler := maskOf act } act handler

/-- The cause that an ejected thread carries back, as one number (R159). -/
def carryOf (cause info : Nat) (replay : Bool) : Nat := cause + info * 2 ^ 8 + replay.toNat * 2 ^ 40

/-- What trap entry and TRET write are to R71: s61 and s62. -/
def shadowNums : List Nat := [65536 + 61, 65536 + 62]

/-- TAKING AN EXCEPTION. A trap condition of the instruction at `pc` with active threads `act` (R157 to R160). An ejected
thread goes back to its warp with the cause; a trap in an exit routine ends in the raw save, one in an entry routine is a
FRAME_CHECK; with no handler, or in the handler, the work group ends; else the warp enters its handler, once the recipes that read
s61 or s62 are pinned (R71). A TRET whose words are malformed is such a condition too, so with INH = 0 it enters the handler (R160).
(Log 18 DEDUCED, log 104 DESIGN CHOICE.) -/
def takeTrap (s : State) (u pc : Nat) (act : List Nat) (cause mask info : Nat) (replay : Bool) : State :=
  let w := unitOf s u
  let l := launchOfUnit s w
  let rel := pc - codeBase s w
  match w.off with
  | some o =>
    match o.parent with
    | some p =>
      let s := modUnit s u fun w => closeWin w act
      handBack (modUnit s p fun p => { p with carried := sset 0 p.carried o.thread (carryOf cause info replay) }) u pc .ready
    | none => endGroup s w.grp 2 cause rel
  | none =>
    if inExit w then rawSave s u true false cause
    else if inEntry w then ctxFault s w.asid 2 0
    else if w.inh then endGroup s w.grp 3 cause rel
    else
      match l.handler with
      | none => endGroup s w.grp 2 cause rel
      | some h =>
        modUnit (pinQuiet s u shadowNums) u fun w => trapEntry w pc act cause mask info replay (codeBase s w + h)

/-- THE RETURN FROM AN EXCEPTION (R161): TRET with its skip bit. -/
def trapReturn (cx : Cx) (skip : Bool) (s : State) : Res :=
  let w := unitOf s cx.u
  if !w.inh then trapAll cx s cRoutine
  else if (threadsOf w.handler).any fun t => isLive w t && !cx.act.contains t then .error (.doubleTrap, s)
  else
    let s := modUnit s cx.u fun w => closeWin w cx.act
    let w := unitOf s cx.u
    let p := (getS w 61).toNat % 2 ^ 57
    if p % 2 = 1 then trapAll cx s cMisalign
    else
      let (s, n) := if skip then lenAt s w p else (s, .ok 0)
      match n with
      | .error (.trap c) => trapAll cx s c
      | .error (.ctx c) => .error (.ctx c, s)
      | .error (.fault f) => .error (.page (cx.act.map fun t => (t, f)) false, s)
      | .ok n =>
        match pinDeps cx shadowNums s with
        | .error e => .error e
        | .ok s =>
        .ok (modUnit s cx.u fun w =>
          setPcs { setM (setS (setS w 61 w.shadow61) 62 w.shadow62) 15 w.shadow15 with tm := false, inh := false, handler := 0 }
            cx.act (p + n))

/-! ### Faults of an access (R183) -/

/-- Accesses of a unit's instruction faulted. On an offset core the thread waits in its context. In an exit routine the
save is raw, and the record says ROUTINE. In an entry routine the routine is abandoned, with its loads and tile operations, and the
warp stays out. Otherwise the warp is vectored with REASON 3 (R183, R252, R260). (Log 61 DEDUCED.) -/
def pageStop (s : State) (u : Nat) (fs : List (Nat × AccFault)) (replay : Bool) : State :=
  let w := unitOf s u
  let ps := faultPages fs
  if onOffset w then postFaults s u 1 false replay true ps
  else if inExit w then
    rawSave (postFaults s u 0 true replay false ps) u true false ((fs.headD (0, ⟨0x80, 0, 0, 0, 0, false, false, []⟩)).2.cause)
  else if inEntry w then
    let s := postFaults s u 0 false replay true ps
    let out := if (ctxOf s w.asid).state = .switchingOut then WStat.outCtx else WStat.outAlone
    let s := (offUnits s u).foldl (fun s p => modUnit s p.1 fun w => { w with off := w.off.map fun o => { o with held := false } }) s
    modUnit s u fun w =>
      { w with
        stat := out, regs := Regs.zero, waits := (w.routine.map (·.waits)).getD [], routine := none, reason := 3
        pends := w.pends.filter (·.faulted), tops := [] }
  else vectorUnit (postFaults s u 0 false replay true ps) u 3

/-! ### Fetch faults -/

/-- The record of a page that has not been translated: one for the page, whoever fetches from it (R303). -/
def stubRecord (u : Nat) (s : State) (f : AccFault) : State :=
  let w := unitOf s u
  if f.cause ≠ 0x84 || s.tokens.any fun k => k.asid == w.asid && k.page == some (f.ua / 65536) then s
  else (raiseFault s w.asid (if onOffset w then 1 else 0) (cfgSelf w / 4) false false f (.unit u 0)).2

/-- A translation fault outside routines (R303): the threads aimed at the page are Blocked, each page has one record, and a warp that
goes on with no other thread is vectored. -/
def stubStop (s : State) (u : Nat) (act : List Nat) (f : AccFault) : State :=
  let s := modUnit s u fun w => setMarks w act (.blocked true)
  let s := f.each.foldl (stubRecord u) s
  if onOffset (unitOf s u) then s else stubVector s u

/-- The fetch of the instruction at `pc` does not succeed: a trap (R80), a page fault of every thread of the group (R183), or
a translation fault (R303). -/
def fetchStop (s : State) (u pc : Nat) (act : List Nat) : Bad → State
  | .trap c => takeTrap s u pc act c (maskOf act) 0 false
  | .ctx c => ctxFault s (unitOf s u).asid c 0
  | .fault f =>
    if f.cause = 0x84 && (unitOf s u).routine.isNone then stubStop s u act f
    else pageStop s u (act.map fun t => (t, f)) false

/-! ### Issue -/

/-- The active threads block at `pc` with a wake condition (R269, R270, R333). (Log 89 DEDUCED.) -/
def blockAt (w : Warp) (pc : Nat) (ts : List Nat) (x : Wait) : Warp :=
  setPcs (setMarks { w with waits := w.waits ++ [x] } ts (.blocked false)) ts pc

/-- What an instruction that stops leaves: the stop's own effect on the state `s`, in which the active threads' PCs are
back at the instruction. -/
def halt (cx : Cx) (s : State) : Stop → State
  | .trap cause mask info replay => takeTrap (modUnit s cx.u fun w => setPcs w cx.act cx.pc) cx.u cx.pc cx.act cause mask info replay
  | .ctx code => ctxFault (modUnit s cx.u fun w => setPcs w cx.act cx.pc) (unitOf s cx.u).asid code 0
  | .forbid => rawSave s cx.u true false 0x83
  | .page fs replay => pageStop (modUnit s cx.u fun w => setPcs w (fs.map (·.1)) cx.pc) cx.u fs replay
  | .stall x => modUnit s cx.u fun w => blockAt w cx.pc cx.act x
  | .hold => modUnit s cx.u fun w => setPcs w cx.act cx.pc
  | .fetch b => fetchStop (modUnit s cx.u fun w => setPcs w cx.act cx.pc) cx.u cx.pc cx.act b
  | .doubleTrap => endGroup s (unitOf s cx.u).grp 3 0 (cx.pc - codeBase s (unitOf s cx.u))

/-- `n` clk count for a routine (R252) and for a held pre-emption (R254). -/
def noteClk (inR : Bool) (n : Nat) (w : Warp) : Warp :=
  { w with
    routine := if inR then w.routine.map fun r => { r with count := r.count + n } else w.routine
    tmaskClk := if w.heldPre.isSome && w.tm then w.tmaskClk + n else w.tmaskClk }

/-- A call whose spill has faulted is noted until its thread has left it, but for routines and handlers (R272). -/
def forgetCalls (inR : Bool) (w : Warp) : Warp :=
  if w.noEject.isEmpty || inR || w.inh then w
  else { w with noEject := w.noEject.filter fun p => getPc w p.1 + 1 == p.2 }

/-- The unit's bookkeeping after an instruction of `n` clk: windows count it (R96), its clk count, and a resumed warp has issued
one instruction (R255). -/
def noteIssue (cx : Cx) (inR : Bool) (n : Nat) (w : Warp) : Warp :=
  let w := forgetCalls inR (noteClk inR n (settleStalls (dropRowless (countWin w cx.act cx.id))))
  { w with resumeGuard := inR && w.resumeGuard }

/-- The threads in whose windows an instruction that stops counts: one that issues again counts for the threads that need not
issue it again, and for the others when it completes (R96). -/
def Stop.counted (act : List Nat) : Stop → List Nat
  | .page fs _ => act.filter fun t => !(fs.any fun f => f.1 == t)
  | .hold => []
  | .fetch (.trap _) => act
  | .fetch _ => []
  | .stall x =>
    if x.kind == 3 || x.kind == 4 then act.filter fun t => !x.mask.testBit t
    else if x.kind == 7 || x.kind == 9 then []
    else act
  | _ => act

/-- The end of an issue by the unit `w`, as it was: bookkeeping, and time passes. -/
def endIssue (w : Warp) (cx : Cx) (n : Nat) (s : State) : State :=
  let s := stubVector (releaseHeld (modUnit s cx.u (noteIssue cx w.routine.isSome n)) cx.u) cx.u
  advanced (tick (restCores (turnOff s w)) cx.u n) w.asid

/-- The end of an opportunity at which nothing has issued (a hold): the clk count for a routine and for a held pre-emption, no
instruction counts, and the watchdog goes on counting (R252, R254, R255, R263). -/
def endHold (w : Warp) (cx : Cx) (n : Nat) (s : State) : State :=
  let s := modUnit s cx.u (noteClk w.routine.isSome n)
  tick (restCores (turnOff s w)) cx.u n

/-- The state in which an instruction's own effect begins: operations beyond their window have completed, and the active
threads' PCs stand after the instruction (R97, R151). -/
def beginIssue (s : State) (cx : Cx) : State :=
  modUnit { s with nextId := s.nextId + 1 } cx.u fun w => setPcs (settleDue w cx.act) cx.act (cx.pc + cx.len)

/-- The instruction context of unit `u`. -/
def cxOf (s : State) (u len : Nat) : Cx :=
  let w := unitOf s u
  let r := activeThreads w
  { u := u, pc := lowPc w r, len := len, act := r, rmode := w.rmode, id := s.nextId }

/-- Issue an instruction of `len` bytes for the unit in turn: its PC group is active (R151). The body gives the
instruction's own effect; a stop is taken by `halt`. -/
def issue (len : Nat) (uniform : Bool) (body : Cx → State → Res) (s : State) : Host.Outcome State Fault Refusal :=
  match sfind s.units s.turn with
  | none => .fault .noUnit
  | some w =>
    let cx := cxOf s s.turn len
    if cx.act.isEmpty then .fault .noUnit
    else
      let n := issueClk (onOffset w) uniform cx.act
      match body cx (beginIssue s cx) with
      | .ok t => .next (endIssue w cx n t)
      | .error (.hold, t) => .next (endHold w cx n (halt cx t .hold))
      | .error (stop, t) => .next (endIssue w { cx with act := stop.counted cx.act } n (halt cx t stop))

end Sys2Proof.Machine
end

