-- ==== Sys2Proof/Machine/Ports.lean ====
section
/-! DEFINITION. Queue ports: descriptors, pops, pushes and credits (R206 to R208, R308 to R311, R382, R414). -/

namespace Sys2Proof.Machine

/-- The binding of port `p`. -/
def getPort (w : Warp) (p : Nat) : Port := sget Port.unbound w.ports p

/-- Change the binding of port `p`. -/
def setPort (w : Warp) (p : Nat) (x : Port) : Warp := { w with ports := sset Port.unbound w.ports p x }

/-- A descriptor whose word 0 passes the checks of R206. -/
structure Desc where
  base : Nat
  count : Nat
  size : Nat
  head : Nat
  tail : Nat
  resv : Nat
  used : Nat
  free : Nat
  /-- The ignored bits beside USED and FREE, kept as they stand. -/
  ign : Nat
  deriving DecidableEq, Repr

/-- An 8-byte word of a scratchpad allocation; none outside it. -/
def spmWord (s : State) (g : Nat) (c : Nat × Nat × Nat) (o : Nat) : Option Nat := (spmRead s g c o 8).map fun r => ofBytes r.1

/-- The powers of two that COUNT may be. -/
def countOk (n : Nat) : Bool := ((List.range 11).map fun i => 2 ^ i).contains n

/-- The descriptor at offset `o` of a core's allocation, with the checks of R206. -/
def descAt (s : State) (g : Nat) (c : Nat × Nat × Nat) (o : Nat) : Option Desc :=
  match allocAt (groupOf s g) c, spmWord s g c o, spmWord s g c (o + 8), spmWord s g c (o + 16), spmWord s g c (o + 24) with
  | some a, some w0, some w1, some w2, some _ =>
    let count := bitsOf w0 32 11
    let size := 16 * 2 ^ bitsOf w0 20 2
    let base := bitsOf w0 0 19
    if o % 32 = 0 && bitsOf w0 20 2 != 3 && countOk count && base % size == 0 && base + count * size ≤ a.size then
      some { base := base, count := count, size := size, head := bitsOf w1 0 32, tail := bitsOf w1 32 32,
             resv := bitsOf w2 32 32, used := bitsOf w2 16 11, free := bitsOf w2 0 11, ign := w2 &&& 0xF800F800 }
    else none
  | _, _, _, _, _ => none

/-- The core whose allocation holds a port's descriptor: the place of a remote port, or the warp's own (R311). -/
def portCore (s : State) (w : Warp) (x : Port) : Nat × Nat × Nat :=
  if x.mode = 3 then ((placesOf (groupOf s w.grp) w.loc.cluster)[x.place]?).getD (0, 0, 0) else homeCore s w

/-- The descriptor of a port as it stands (R414). -/
def portDesc (s : State) (w : Warp) (x : Port) : Option Desc := descAt s w.grp (portCore s w x) x.offset

/-- Write bytes of an allocation; outside it nothing is written. -/
def spmPut (s : State) (g : Nat) (c : Nat × Nat × Nat) (o : Nat) (bs : List Byte) (p : Bool) : State :=
  (spmWrite s g c o bs p).getD s

/-- Words 1 and 2 of a descriptor. -/
def putDesc (s : State) (g : Nat) (c : Nat × Nat × Nat) (o : Nat) (d : Desc) : State :=
  spmPut s g c (o + 8)
    (toBytes 4 d.head ++ toBytes 4 d.tail ++ toBytes 4 (d.free % 2 ^ 11 + d.used % 2 ^ 11 * 2 ^ 16 + d.ign) ++ toBytes 4 d.resv) false

/-- A random slot serves the tenant (R380). -/
def slotOk (s : State) (n asid : Nat) : Bool :=
  match sfind s.slots n with
  | some x => x.en && x.owner == asid
  | none => false

/-- The port may be popped, or pushed (R208, R414). -/
def portOk (s : State) (w : Warp) (p : Nat) (push : Bool) : Bool :=
  let x := getPort w p
  match x.mode with
  | 1 => !push && (portDesc s w x).isSome
  | 2 => push && (portDesc s w x).isSome
  | 3 => push && (portDesc s w x).isSome
  | 4 => !push && slotOk s x.offset w.asid
  | _ => false

/-- Pop one entry of a port: its first 4 bytes, and whether they are poisoned; none where the queue or the ring is empty
(R207, R310, R382). (Log 39 DEDUCED.) -/
def popPort (s : State) (u p : Nat) : Option (State × Word × Bool) :=
  let w := unitOf s u
  let x := getPort w p
  if x.mode = 4 then
    match sfind s.slots x.offset with
    | none => none
    | some r =>
      match r.ring with
      | [] => none
      | v :: rest =>
        some ({ s with slots := smod s.slots x.offset fun r => { r with ring := rest, nxt := r.nxt + 1 } },
              BitVec.truncate 32 v, false)
  else
    match portDesc s w x with
    | none => none
    | some d =>
      if d.head = d.tail then none
      else
        let c := portCore s w x
        match spmRead s w.grp c (d.base + d.head % d.count * d.size : Nat) 4 with
        | none => none
        | some (bs, q) =>
          some (putDesc s w.grp c x.offset { d with head := (d.head + 1) % 2 ^ 32, used := d.used + 1 },
                BitVec.ofNat 32 (ofBytes bs), q)

/-- A credit for one push: a port with none first takes min(request, FREE); none where FREE is 0 too (R207).
(Log 39 DEDUCED.) -/
def takeCredit (s : State) (u p : Nat) : Option State :=
  let w := unitOf s u
  let x := getPort w p
  if 0 < x.credits then some (modUnit s u fun w => setPort w p { x with credits := x.credits - 1 })
  else
    match portDesc s w x with
    | none => none
    | some d =>
      let k := min x.request d.free
      if k = 0 then none
      else
        some (modUnit (putDesc s w.grp (portCore s w x) x.offset { d with free := d.free - k }) u fun w =>
          setPort w p { x with credits := k - 1 })

/-- Write an entry at RESV and publish it: every reservation made before is written, so TAIL follows RESV (R310). -/
def putEntry (s : State) (g : Nat) (c : Nat × Nat × Nat) (o : Nat) (d : Desc) (l : List PByte) : State :=
  let l := (l ++ List.replicate (d.size - l.length) (0, false)).take d.size
  let s := (spmWriteM s g c (d.base + d.resv % d.count * d.size : Nat) l).getD s
  putDesc s g c o { d with resv := (d.resv + 1) % 2 ^ 32, tail := (d.resv + 1) % 2 ^ 32 }

/-- Push an entry, whose bytes carry their poison marks, through a port whose credit has been taken.
(Log 39 DEDUCED, log 108 DESIGN CHOICE.) -/
def pushPort (s : State) (u p : Nat) (l : List PByte) : State :=
  let w := unitOf s u
  let x := getPort w p
  match portDesc s w x with
  | none => s
  | some d => putEntry s w.grp (portCore s w x) x.offset d l

/-- Move `k` entries from USED (where `fromUsed`) to FREE in word 2 of a descriptor, whatever word 0 holds (R206). -/
def addFree (s : State) (g : Nat) (c : Nat × Nat × Nat) (o k : Nat) (fromUsed : Bool) : State :=
  match spmWord s g c (o + 16) with
  | none => s
  | some v =>
    let v := v % 2 ^ 32
    let free := (v % 2 ^ 11 + k) % 2 ^ 11
    let used := if fromUsed then v / 2 ^ 16 % 2 ^ 11 - k else v / 2 ^ 16 % 2 ^ 11
    spmPut s g c (o + 16) (toBytes 4 (free + used * 2 ^ 16 + (v &&& 0xF800F800))) false

/-- Unbind a port: a sending one returns its credits (R206, R312). -/
def unbind (s : State) (u p : Nat) : State :=
  let w := unitOf s u
  let x := getPort w p
  let s := if x.mode = 2 || x.mode = 3 then addFree s w.grp (portCore s w x) x.offset x.credits false else s
  modUnit s u fun w => setPort w p Port.unbound

/-- The stall of a queue instruction: KIND 3 on a pop, 4 on a push (R334). The threads of a woken stall at the same
instruction go on waiting with it. (Log 39 DEDUCED.) -/
def queueStall (cx : Cx) (s : State) (kind port : Nat) (unserved : List Nat) : Res :=
  let old := (unitOf s cx.u).waits.filter fun x => x.flags == 2 && x.pc == cx.pc
  let served := old.foldl (fun m x => m ||| x.threads) (maskOf cx.act)
  .error (.stall { kind := kind, arg := port, flags := 0, value := 0, mask := maskOf unserved, obj := 0, off := 0,
                   threads := served, pc := cx.pc, len := cx.len, dest := none },
          modUnit s cx.u fun w => { w with waits := w.waits.filter fun x => !(x.flags == 2 && x.pc == cx.pc) })

end Sys2Proof.Machine
end

