-- ==== Sys2Proof/Machine/Operands.lean ====
section
/-! DEFINITION. Operands: what an instruction names, the conditions on it in the order of R95, reading and writing it (R53 to
R57, R70, R71, R89, R91, R185, R187, R273). -/

namespace Sys2Proof.Machine

/-- A register that an instruction names: per thread, uniform (s 0 to 63, m 64 to 79), or a capability code. -/
inductive RName where
  | x (r : PReg)
  | u (n : Nat)
  | c (n : Nat)
  deriving DecidableEq, Repr

/-- What an instruction names: the registers it reads in field order, those it writes, those among the read ones that are
data of a store, a push or an atomic (R185), whether RTAG prefixes it, and whether ELASTIC_WRITE comes later among the conditions
of its entry. -/
structure Uses where
  reads : List RName
  writes : List RName
  data : List RName
  tagged : Bool
  late : Bool := false
  deriving DecidableEq, Repr

/-- A uniform register as a name; z is none. -/
def uname : SReg → List RName
  | .s n => [.u n.val]
  | .z => []

/-- A mask register as a name. -/
def mname (m : Fin 16) : RName := .u (64 + m.val)

/-- A per-thread source as a name. -/
def srcName : Src → List RName
  | .reg r => [.x r]
  | .lit _ => []

/-- A uniform source as a name. -/
def usrcName : USrc → List RName
  | .reg r => uname r
  | .lit _ => []

/-- An s register or a literal as a name. -/
def ssrcName : SSrc → List RName
  | .reg n => [.u n.val]
  | .lit _ => []

/-- The name is a queue port. -/
def RName.isQ : RName → Bool
  | .x (.q _) => true
  | _ => false

/-- The queue ports among names, in order. -/
def portsOf (l : List RName) : List Nat :=
  l.filterMap fun n =>
    match n with
    | .x (.q p) => some p.val
    | _ => none

/-- The name is an elastic register. -/
def RName.elasticIn (w : Warp) : RName → Bool
  | .x (.v n) => isElastic w n.val
  | _ => false

/-- The name is a v register beyond the warp's allocation (R53). -/
def RName.beyond (w : Warp) : RName → Bool
  | .x (.v n) => w.base + w.elastic ≤ n.val
  | _ => false

/-- The name may not be used on an offset core: a v register outside the eject list, or a queue port (R91, R273). -/
def RName.offBad (w : Warp) : RName → Bool
  | .x (.v n) =>
    match w.off with
    | some o => !o.ejV.testBit n.val
    | none => false
  | .x (.q _) => true
  | _ => false

/-- The name is a uniform or mask register. -/
def RName.isU : RName → Bool
  | .u _ => true
  | _ => false

/-- The number that R260 and R71 give the register: per-thread number, 65536 + uniform number, 131072 + capability code. -/
def RName.num : RName → Nat
  | .x r => pnum r
  | .u n => 65536 + n
  | .c n => 131072 + n

/-- INFO of POISON_READ (R158). -/
def RName.info : RName → Nat
  | .x r => pnum r
  | .u n => n + 0x80
  | .c n => n + 0x100

/-- The poison mark of a named register for a thread. -/
def RName.mark (w : Warp) (t : Nat) : RName → Nat
  | .x r => poisonX w t r
  | .u n => if n < 64 then sget 0 w.regs.sp n else sget 0 w.regs.mp (n - 64)
  | .c n => poisonC w t n

/-- Conditions 3 to 6 of R95 that depend on the warp: RESERVED_FIELD, then OFFSET_ILLEGAL. (Log 54 DEDUCED.) -/
def nameCheck (w : Warp) (x : Uses) : Option Nat :=
  if (x.reads ++ x.writes).any (·.beyond w) then some cReservedField
  else if onOffset w && (x.tagged || (x.reads ++ x.writes).any (·.offBad w) || x.writes.any (·.isU)) then some cOffsetIllegal
  else none

/-- The conditions on a capability destination: c7 is reserved outside a routine, and in one it may only be derived from itself, a
condition of the entry that comes after those on names (R56, R95, R112, R192). -/
def guardCapDst (cx : Cx) (x : Uses) (d : Nat) (own : Bool) (k : State → Res) (s : State) : Res :=
  let w := unitOf s cx.u
  if d = 7 && w.routine.isNone then trapAll cx s cReservedField
  else
    match nameCheck w x with
    | some c => trapAll cx s c
    | none => if d = 7 && !own then trapAll cx s cRoutine else k s

/-- The first read register that is poisoned in an active thread, with the threads and whether it stops as a consumed error
(R185). (Log 40 DEDUCED.) -/
def poisonCheck (w : Warp) (act : List Nat) (x : Uses) : Option (RName × List Nat × Bool) :=
  match x.reads.find? fun n => act.any fun t => n.mark w t != 0 with
  | none => none
  | some n =>
    let hard := act.filter fun t => n.mark w t == 2 || (n.mark w t != 0 && !x.data.contains n)
    some (n, hard, hard.isEmpty)

/-- Stop with POISON_READ, or with the context fault of a consumed uncorrectable error, where a read register is poisoned.
(Log 40 DEDUCED.) -/
def guardPoison (cx : Cx) (x : Uses) (k : State → Res) (s : State) : Res :=
  match poisonCheck (unitOf s cx.u) cx.act x with
  | some (_, _, true) => .error (.ctx 3, s)
  | some (n, ts, false) => .error (.trap cPoisonRead (maskOf ts) n.info false, s)
  | none => k s

/-- Conditions of R95 on named registers, all but replay and poison; then `k`. In a routine a queue port is forbidden or
traps (R187). -/
def guardNames (cx : Cx) (x : Uses) (k : State → Res) (s : State) : Res :=
  let w := unitOf s cx.u
  let qs := (x.reads ++ x.writes).any (·.isQ)
  match nameCheck w x with
  | some c => trapAll cx s c
  | none =>
    if qs && inExit w then .error (.forbid, s)
    else if qs && inEntry w then trapAll cx s cRoutine
    else if !x.late && !x.tagged && x.writes.any (·.elasticIn w) then trapAll cx s cElasticWrite
    else if !((portsOf x.reads).all fun p => portOk s w p false) || !((portsOf x.writes).all fun p => portOk s w p true) then
      trapAll cx s cQueueUnbound
    else k s

/-- ELASTIC_WRITE where it comes after other conditions of the entry. -/
def guardElastic (cx : Cx) (x : Uses) (k : State → Res) (s : State) : Res :=
  if !x.tagged && x.writes.any (·.elasticIn (unitOf s cx.u)) then trapAll cx s cElasticWrite else k s

/-- The per-thread registers among names. -/
def xregs (l : List RName) : List PReg :=
  l.filterMap fun n =>
    match n with
    | .x r => some r
    | _ => none

/-- Every condition on the named registers: R95's, then replay of dropped sources, then poison (R70, R185). -/
def withOperands (cx : Cx) (x : Uses) (k : State → Res) (s : State) : Res :=
  guardNames cx x (fun s =>
    match replaySrcs cx (xregs x.reads) s with
    | .error e => .error e
    | .ok s => guardPoison cx x k s) s

/-- The registers about to be written pin their dependents (R71); then `k`. -/
def commit (cx : Cx) (x : Uses) (k : State → Res) (s : State) : Res :=
  match pinDeps cx (x.writes.map (·.num)) s with
  | .error e => .error e
  | .ok s => k s

/-! ### Per-thread functions -/

/-- The value of a per-thread source. -/
def getSrc (w : Warp) (t : Nat) : Src → Word
  | .reg r => getX w t r
  | .lit v => v

/-- A literal replaces a uniform register, sign-extended to 64 bits (R85). -/
def getUSrc (w : Warp) : USrc → DWord
  | .reg r => getU w r
  | .lit v => v.signExtend 64

/-- The value of an s register or a literal, sign-extended. -/
def getSSrc (w : Warp) : SSrc → DWord
  | .reg n => getS w n.val
  | .lit v => v.signExtend 64

/-- A per-thread function: the registers it reads in field order, those it writes, and its values. The data registers are
those of a MOV to a port (R185). -/
structure TFun where
  reads : List PReg
  writes : List PReg
  data : List PReg
  fn : FEnv → List Word → List Word

/-- What a per-thread function names. -/
def TFun.uses (f : TFun) (tagged : Bool) : Uses :=
  { reads := f.reads.map .x, writes := f.writes.map .x, data := f.data.map .x, tagged := tagged }

/-- The float environment of a thread of the instruction: PC, thread and RMODE. An RTAG's function is at the prefixed
instruction's own PC. -/
def envOf (cx : Cx) (t : Nat) : FEnv := ⟨cx.pc, t, cx.rmode⟩

/-- Write values to registers of a thread, in order. -/
def writeRegs (w : Warp) (t : Nat) (p : Nat) : List PReg → List Word → Warp
  | r :: rs, v :: vs => writeRegs (setX w t r v p) t p rs vs
  | _, _ => w

/-- One thread's work where no port is named. -/
def threadFun (cx : Cx) (f : TFun) (w : Warp) (t : Nat) : Warp :=
  writeRegs w t 0 f.writes (f.fn (envOf cx t) (f.reads.map (getX w t)))

/-- Read the registers of a thread in field order, each port named popping one entry (R91); the error is the port of an
empty queue. -/
def readPorts (u t : Nat) : List PReg → State → Except Nat (State × List Word × Bool)
  | [], s => .ok (s, [], false)
  | .q p :: rs, s =>
    match popPort s u p.val with
    | none => .error p.val
    | some (s, v, q) =>
      match readPorts u t rs s with
      | .error e => .error e
      | .ok (s, vs, q') => .ok (s, v :: vs, q || q')
  | r :: rs, s =>
    match readPorts u t rs s with
    | .error e => .error e
    | .ok (s, vs, q) => .ok (s, getX (unitOf s u) t r :: vs, q)

/-- Take the credits that the pushes of a thread need; the error is the port that has none. -/
def credits (u : Nat) : List PReg → State → Except Nat State
  | [], s => .ok s
  | .q p :: rs, s =>
    match takeCredit s u p.val with
    | none => .error p.val
    | some s => credits u rs s
  | _ :: rs, s => credits u rs s

/-- Write values to registers and ports of a thread: a push is an entry whose first 4 bytes are the value (R207). -/
def writePorts (u t : Nat) (q : Bool) : List PReg → List Word → State → State
  | .q p :: rs, v :: vs, s => writePorts u t q rs vs (pushPort s u p.val ((toBytes 4 v.toNat).map fun b => (b, q)))
  | r :: rs, v :: vs, s => writePorts u t q rs vs (modUnit s u fun w => setX w t r v q.toNat)
  | _, _, s => s

/-- Serve the threads in order, each whole or not at all: pops, then the push (R91, R208). (Log 39 DEDUCED.) -/
def serve (cx : Cx) (f : TFun) : List Nat → State → Res
  | [], s => .ok s
  | t :: ts, s =>
    match readPorts cx.u t f.reads s with
    | .error p => queueStall cx s 3 p (t :: ts)
    | .ok (s', vs, q) =>
      match credits cx.u f.writes s' with
      | .error p => queueStall cx s 4 p (t :: ts)
      | .ok s' => serve cx f ts (writePorts cx.u t q f.writes (f.fn (envOf cx t) vs) s')

/-- The work of a per-thread function on every active thread. -/
def runFun (cx : Cx) (f : TFun) (s : State) : Res :=
  if (f.reads ++ f.writes).all (·.noQ) then .ok (modUnit s cx.u fun w => cx.act.foldl (threadFun cx f) w)
  else serve cx f cx.act s

/-- The body of a per-thread function. -/
def bodyFun (f : TFun) (tagged : Bool) (cx : Cx) (s : State) : Res :=
  withOperands cx (f.uses tagged) (commit cx (f.uses tagged) (runFun cx f)) s

/-- A per-thread instruction of 4 bytes, or 8 with a literal. -/
def perThread (len : Nat) (f : TFun) (s : State) : Host.Outcome State Fault Refusal := issue len false (bodyFun f false) s

/-- The length of an instruction whose B may be a literal. -/
def srcLen : Src → Nat
  | .reg _ => 4
  | .lit _ => 8

/-- The length of a uniform instruction whose B may be a literal. -/
def usrcLen : USrc → Nat
  | .reg _ => 4
  | .lit _ => 8

/-- The length of an instruction with an s register or a literal. -/
def ssrcLen : SSrc → Nat
  | .reg _ => 4
  | .lit _ => 8

/-- The length of an instruction with an optional literal. -/
def optLen {n : Nat} (l : Option (BitVec n)) : Nat := if l.isSome then 8 else 4

/-- D := g(A, B). -/
def fun2 (d a : PReg) (b : Src) (g : FEnv → Word → Word → Word) : TFun :=
  { reads := a :: srcRegs b, writes := [d], data := [], fn := fun e l => [g e (l.getD 0 0) (srcVal b (l.getD 1 0))] }

/-- D := g(A). -/
def fun1 (d a : PReg) (g : FEnv → Word → Word) : TFun :=
  { reads := [a], writes := [d], data := [], fn := fun e l => [g e (l.getD 0 0)] }

/-- D := g(D, A, B): D is read after A and B (R91). -/
def fun3 (d a : PReg) (b : Src) (g : FEnv → Word → Word → Word → Word) : TFun :=
  { reads := a :: srcRegs b ++ [d], writes := [d], data := []
    fn := fun e l => [g e (l.getLastD 0) (l.getD 0 0) (srcVal b (l.getD 1 0))] }

/-- D := B. A register moved to a port is data of the push (R185). -/
def funMov (d : PReg) (b : Src) : TFun :=
  { reads := srcRegs b, writes := [d], data := if d.noQ then [] else srcRegs b, fn := fun _ l => [srcVal b (l.getD 0 0)] }

/-! ### Uniform functions -/

/-- The body of a uniform instruction: what it names, and its effect on the warp. -/
def bodyUni (reads writes : List RName) (f : Cx → Warp → Warp) (cx : Cx) (s : State) : Res :=
  let x : Uses := { reads := reads, writes := writes, data := [], tagged := false }
  withOperands cx x (commit cx x fun s => .ok (modUnit s cx.u (f cx))) s

/-- A uniform instruction D := g(A, B). On an offset core it traps even where D is z (R121). -/
def uniform (d a : SReg) (b : USrc) (g : DWord → DWord → DWord) (s : State) : Host.Outcome State Fault Refusal :=
  issue (usrcLen b) true (fun cx s =>
    if onOffset (unitOf s cx.u) then trapAll cx s cOffsetIllegal
    else bodyUni (uname a ++ usrcName b) (uname d) (fun _ w => setU w d (g (getU w a) (getUSrc w b))) cx s) s

/-- A uniform instruction D := g(A). -/
def uniform1 (d a : SReg) (g : DWord → DWord) (s : State) : Host.Outcome State Fault Refusal :=
  uniform d a (.reg .z) (fun x _ => g x) s

end Sys2Proof.Machine
end

