-- ==== Sys2Proof/Machine/Flags.lean ====
section
/-! DEFINITION. Conditions into mask bits and uniform registers (R55, R119, R124, R137). -/

namespace Sys2Proof.Machine

/-- A mask with the bit of each active thread set to its condition (R55). -/
def maskBits (m : QWord) (act : List Nat) (f : Nat → Bool) : QWord := act.foldl (fun m t => setBit m t (f t)) m

/-- Write a mask register, and evaluate the JOINs on it (R124, R167). (Log 99 DESIGN CHOICE.) -/
def writeMask (w : Warp) (m : Nat) (v : QWord) : Warp := evalJoins (setM w m v) m

/-- The body of a per-thread compare: bit t of the mask is the condition on the values of A and B in thread t. -/
def bodyCmp (m : Fin 16) (a : PReg) (b : Src) (g : Word → Word → Bool) (cx : Cx) (s : State) : Res :=
  let x : Uses := { reads := .x a :: srcName b, writes := [mname m], data := [], tagged := false }
  withOperands cx x (commit cx x fun s =>
    .ok (modUnit s cx.u fun w =>
      writeMask w m.val (maskBits (getM w m.val) cx.act fun t => g (getX w t a) (getSrc w t b)))) s

/-- A per-thread compare. -/
def compare (m : Fin 16) (a : PReg) (b : Src) (g : Word → Word → Bool) (s : State) : Host.Outcome State Fault Refusal :=
  issue (srcLen b) false (bodyCmp m a b g) s

/-- A uniform compare: 1 or 0 into an s register (R119). -/
def compareU (d a : SReg) (b : USrc) (g : DWord → DWord → Bool) (s : State) : Host.Outcome State Fault Refusal :=
  uniform d a b (fun x y => BitVec.ofNat 64 (g x y).toNat) s

end Sys2Proof.Machine
end

