-- ==== Sys2Proof/Machine/Loads.lean ====
section
/-! DEFINITION. What the memory instructions share: addresses, local checks over all threads, the accesses of threads in
order, and pending results (R180 to R187, R251). -/

namespace Sys2Proof.Machine

/-- disp of a literal (R180). -/
def dispOf (l : Option (BitVec 32)) : Int :=
  match l with
  | some v => v.toInt
  | none => 0

/-- The effective address of thread `t` (R180). -/
def eaOf (w : Warp) (c : Fin 16) (a : PReg) (disp : Int) (t : Nat) : Int :=
  ((getC w t c.val).cursor : Int) + (getX w t a).toInt + disp

/-- The scratchpad offset of thread `t` (R180). -/
def soOf (w : Warp) (a : PReg) (disp : Int) (t : Nat) : Int := (getX w t a).toInt + disp

/-- Stop with the first cause that a check gives for any active thread (R181). -/
def guardEach (cx : Cx) (chk : Nat → Option Nat) (k : State → Res) (s : State) : Res :=
  match firstCause (cx.act.map fun t => (t, chk t)) with
  | some (c, ts) => trapFor ts s c
  | none => k s

/-- What an instruction's access requires: rights, kinds as a bit mask, and alignment (R181). -/
structure Need where
  rights : Nat
  kinds : Nat
  align : Nat
  deriving DecidableEq, Repr

/-- The local checks of every active thread (R181). -/
def guardAccess (cx : Cx) (c : Fin 16) (a : PReg) (disp : Int) (n : Nat) (need : Need) (k : State → Res) (s : State) : Res :=
  let w := unitOf s cx.u
  guardEach cx (fun t => localCheck s w (getC w t c.val) (eaOf w c a disp t) n need.rights need.kinds need.align) k s

/-- The local scratchpad's checks of every active thread (R182). -/
def guardSpm (cx : Cx) (a : PReg) (disp : Int) (n align : Nat) (k : State → Res) (s : State) : Res :=
  let w := unitOf s cx.u
  let size := match allocAt (groupOf s w.grp) (homeCore s w) with
    | some x => x.size
    | none => 0
  guardEach cx (fun t =>
    let o := soOf w a disp t
    if o < 0 || (size : Int) < o + n then some cCapBounds else if o % align ≠ 0 then some cMisalign else none) k s

/-- The accesses of threads in the order of R184, each with its own outcome: faulting threads are collected, a context fault
or a trap stops the instruction. -/
def eachThread (f : Nat → State → State × Except Bad Unit) : List Nat → State → Except (Stop × State) (State × List (Nat × AccFault))
  | [], s => .ok (s, [])
  | t :: ts, s =>
    match f t s with
    | (s, .ok _) => eachThread f ts s
    | (s, .error (.trap c)) => .error (.trap c (2 ^ t) 0 false, s)
    | (s, .error (.ctx c)) => .error (.ctx c, s)
    | (s, .error (.fault a)) =>
      match eachThread f ts s with
      | .error e => .error e
      | .ok (s, fs) => .ok (s, (t, a) :: fs)

/-- The accesses of an instruction whose faulting threads issue it again (R183). (Log 5 DESIGN CHOICE, log 89 DEDUCED.) -/
def accessAll (cx : Cx) (f : Nat → State → State × Except Bad Unit) (s : State) : Res :=
  match eachThread f cx.act s with
  | .error e => .error e
  | .ok (s, []) => .ok s
  | .ok (s, fs) => .error (.page fs false, s)

/-- A store through c7 raises the highest offset written (R162). -/
def noteHigh (u : Nat) (c : Cap) (e : Nat) (s : State) : State :=
  if c.kind = 3 then
    modUnit s u fun w => { w with routine := w.routine.map fun r => { r with high := max r.high e } }
  else s

/-- A memory instruction waits for the atomics and acquires of its threads (R186). -/
def afterAtomics (cx : Cx) (s : State) : State := modUnit s cx.u fun w => settleAtomics w cx.act

/-! ### Pending loads -/

/-- The destination registers of a load of `n` bytes; z takes none. -/
def loadRegs (d : PReg) (n : Nat) : List PReg :=
  (if n = 16 then [d, pnext d 1, pnext d 2, pnext d 3] else if n = 8 then [d, pnext d 1] else [d]).filter (· != .z)

/-- The words of a loaded value: an LDX value is sign-extended (R189). -/
def loadWords (n : Nat) (sx : Bool) (bs : List Byte) : List Word :=
  let v := ofBytes bs
  if n = 16 then [BitVec.ofNat 32 v, BitVec.ofNat 32 (v / 2 ^ 32), BitVec.ofNat 32 (v / 2 ^ 64), BitVec.ofNat 32 (v / 2 ^ 96)]
  else if n = 8 then [BitVec.ofNat 32 v, BitVec.ofNat 32 (v / 2 ^ 32)]
  else if sx then [BitVec.signExtend 32 (BitVec.ofNat (8 * n) v)]
  else [BitVec.ofNat 32 v]

/-- The instruction word of an instruction. -/
def insnOf (i : Instr) : Nat := ofBytes (((encode i).getD []).take 4)

/-- The literal word of an instruction; 0 without one. -/
def litOf (i : Instr) : Nat := ofBytes (((encode i).getD []).drop 4)

/-- The pending record of a thread's load or atomic. -/
def pendOf (cx : Cx) (i : Instr) (la : Nat) (t obj off : Nat) (dests : List Dest) (arrived faulted atomic load : Bool) : Pend :=
  { id := cx.id, thread := t, pc := cx.pc, insn := insnOf i, lit := litOf i, left := la, dests := dests, arrived := arrived, performed := false,
    faulted := faulted, atomic := atomic, load := load, obj := obj, off := off, tokens := [] }

/-- Add a pending record. -/
def addPend (u : Nat) (p : Pend) (s : State) : State := modUnit s u fun w => { w with pends := w.pends ++ [p] }

/-- Destinations with their values. -/
def destsOf (rs : List PReg) (vs : List Word) (p : Bool) : List Dest := (rs.zip vs).map fun q => ⟨pnum q.1, q.2, p⟩

/-- What a load does: its destination, bytes, sign, and whether it is an acquire. -/
structure Load where
  d : PReg
  n : Nat
  sx : Bool
  acquire : Bool
  deriving DecidableEq, Repr

/-- The load that an instruction is. (Log 34 DEDUCED.) -/
def loadOf : Instr → Option Load
  | .ld _ sz _ _ d _ => some ⟨d, sizeBytes sz, false, false⟩
  | .ldx _ sz _ _ d _ => some ⟨d, sizeBytes sz, true, false⟩
  | .ldq _ _ _ d _ => some ⟨d, 16, false, false⟩
  | .lda _ sz _ _ d _ _ => some ⟨d, sizeBytes sz, false, true⟩
  | .lds _ sz _ d _ => some ⟨d, sizeBytes sz, false, false⟩
  | _ => none

/-- A load whose data can be outstanding: one from memory. Scratchpad, frame and window data are there at once.
(Log 81 DESIGN CHOICE.) -/
def remote (c : Cap) : Bool := (c.kind = 0 || c.kind = 2) && !c.rights.testBit 7

/-- One thread's load through a capability: its result waits for its window. On a SIMT core a faulting load outside
routines is left pending for a replay packet (R183, R251). -/
def loadThread (cx : Cx) (i : Instr) (la : Nat) (x : Load) (c : Fin 16) (a : PReg) (disp : Int) (t : Nat) (s : State) :
    State × Except Bad Unit :=
  let w := unitOf s cx.u
  let cp := getC w t c.val
  let ea := (eaOf w c a disp t).toNat
  match capRead s w cp ea x.n with
  | (s, .ok (bs, p)) =>
    (addPend cx.u (pendOf cx i la t cp.object ea (destsOf (loadRegs x.d x.n) (loadWords x.n x.sx bs) p) (!remote cp) false
      x.acquire true) s, .ok ())
  | (s, .error (.fault f)) =>
    if onOffset w || w.routine.isSome then (s, .error (.fault f))
    else
      (addPend cx.u (pendOf cx i la t cp.object ea (destsOf (loadRegs x.d x.n) (List.replicate 4 0) false) false true x.acquire
        true) s, .error (.fault f))
  | (s, .error b) => (s, .error b)

/-- The data of `n` bytes of an object must come across a Stolybin link: a byte of them lies in a fabric frame (R348). -/
def fabricData (s : State) (asid obj off n : Nat) : Bool :=
  (pieces off n).any fun p =>
    match lookup s asid obj p.1 p.2 with
    | .error _ => false
    | .ok k =>
      match trOf s k p.1 false false with
      | .ok t => t.tier == 3 && !t.hv
      | .error _ => false

/-- A load whose data must come across a Stolybin link is a blocking point outside routines: the active threads block after
it until the data has come (R270, R333). (Log 81 DESIGN CHOICE.) -/
def blockRemote (cx : Cx) (n : Nat) (s : State) : State :=
  let w := unitOf s cx.u
  if w.routine.isNone && (w.pends.any fun p => p.id == cx.id && p.load && !p.arrived && fabricData s w.asid p.obj p.off n) then
    modUnit s cx.u fun w => blockAt w (cx.pc + cx.len) cx.act
      { kind := 11, arg := 0, flags := 0, value := cx.id, mask := 0, obj := 0, off := 0, threads := maskOf cx.act
        pc := cx.pc + cx.len, len := 0, dest := none }
  else s

/-- The loads of every active thread. On a SIMT core the instruction has issued for every thread, and the warp is vectored
where one faulted. -/
def loadAll (cx : Cx) (i : Instr) (la : Nat) (x : Load) (c : Fin 16) (a : PReg) (disp : Int) (s : State) : Res :=
  match eachThread (loadThread cx i la x c a disp) cx.act s with
  | .error e => .error e
  | .ok (s, []) => .ok (blockRemote cx x.n s)
  | .ok (s, fs) =>
    let w := unitOf s cx.u
    if onOffset w || w.routine.isSome then .error (.page fs false, s) else .ok (pageStop s cx.u fs false)

/-- The body of a load through a capability: R181, then ELASTIC_WRITE of R188, then R189. -/
def bodyLoad (i : Instr) (la : Nat) (x : Load) (c : Fin 16) (a : PReg) (disp : Int) (need : Need) (tagged : Bool) (cx : Cx)
    (s : State) : Res :=
  let u : Uses := { reads := [.c c.val, .x a], writes := (loadRegs x.d x.n).map .x, data := [], tagged := tagged, late := true }
  withOperands cx u (fun s => guardAccess cx c a disp x.n need (guardElastic cx u (commit cx u (loadAll cx i la x c a disp))) s)
    (afterAtomics cx s)

/-- One thread's scratchpad load. (Log 44 DESIGN CHOICE.) -/
def spmLoadThread (cx : Cx) (i : Instr) (la : Nat) (x : Load) (a : PReg) (disp : Int) (t : Nat) (s : State) : State :=
  let w := unitOf s cx.u
  match spmRead s w.grp (homeCore s w) (soOf w a disp t) x.n with
  | some (bs, p) =>
    addPend cx.u (pendOf cx i la t 0 0 (destsOf (loadRegs x.d x.n) (loadWords x.n x.sx bs) p) true false false true) s
  | none => s

/-! ### Stores -/

/-- The data registers of a store of `n` bytes. -/
def storeRegs (d : PReg) (n : Nat) : List PReg :=
  if n = 16 then [d, pnext d 1, pnext d 2, pnext d 3] else if n = 8 then [d, pnext d 1] else [d]

/-- The bytes that a thread stores (R191). -/
def storeBytes (w : Warp) (t : Nat) (d : PReg) (n : Nat) : List Byte :=
  ((storeRegs d n).flatMap fun r => toBytes 4 (getX w t r).toNat).take n

/-- What a store names: its address operands are checked before its data (R181, R185). -/
def storeUses (c : List RName) (a : PReg) (rs : List RName) : Uses × Uses :=
  ({ reads := c ++ [.x a] ++ rs, writes := [], data := rs, tagged := false },
   { reads := rs, writes := [], data := rs, tagged := false })

/-- A store's operands: every condition on names, replay, poison of the address; `chk` are the access checks; then poison of
the data. -/
def withStore (cx : Cx) (c : List RName) (a : PReg) (rs : List RName) (chk : (State → Res) → State → Res) (k : State → Res)
    (s : State) : Res :=
  let u := storeUses c a rs
  guardNames cx u.1 (fun s =>
    match replaySrcs cx (xregs u.1.reads) s with
    | .error e => .error e
    | .ok s =>
      guardPoison cx { u.1 with reads := c ++ [.x a], data := [] } (chk (guardPoison cx u.2 k)) s) s

/-- In an exit routine a store is forbidden unless it goes through c7 (R187): that comes before MASK_PARTIAL, and before RESERVED_FIELD
of a register beyond v(B + E − 1). (Log 49 DEDUCED.) -/
def guardForbid (cx : Cx) (ok : Bool) (k : State → Res) (s : State) : Res :=
  if inExit (unitOf s cx.u) && !ok then .error (.forbid, s) else k s

/-- One thread's store. -/
def storeThread (cx : Cx) (d : PReg) (n : Nat) (c : Fin 16) (a : PReg) (disp : Int) (t : Nat) (s : State) :
    State × Except Bad Unit :=
  let w := unitOf s cx.u
  let cp := getC w t c.val
  let ea := (eaOf w c a disp t).toNat
  match capWrite s w cp ea (storeBytes w t d n) false with
  | (s, .ok _) => (noteHigh cx.u cp (ea + n) s, .ok ())
  | r => r

/-- The body of a store: R181, R185, R191. -/
def bodyStore (d : PReg) (n : Nat) (c : Fin 16) (a : PReg) (disp : Int) (need : Need) (cx : Cx) (s : State) : Res :=
  guardForbid cx (c.val == 7)
    (withStore cx [.c c.val] a ((storeRegs d n).map .x) (guardAccess cx c a disp n need)
      (accessAll cx (storeThread cx d n c a disp))) (afterAtomics cx s)

/-- One thread's scratchpad store. -/
def spmStoreThread (cx : Cx) (d : PReg) (n : Nat) (a : PReg) (disp : Int) (s : State) (t : Nat) : State :=
  let w := unitOf s cx.u
  (spmWrite s w.grp (homeCore s w) (soOf w a disp t) (storeBytes w t d n) false).getD s

end Sys2Proof.Machine
end

