-- ==== Sys2Proof/Machine/Atomics.lean ====
section
/-! DEFINITION. ATOM and ATOMS: atomic read-modify-write (R195 to R198). -/

namespace Sys2Proof.Machine

/-- new from old and x, on values of `n` bytes; none where nothing is written (R195). (Log 88 DEDUCED.) -/
def atomNew (op : AtomOp) (n : Nat) (e : FEnv) (old cmp x : Nat) : Option Nat :=
  let w := 8 * n
  let bo := BitVec.ofNat w old
  let bx := BitVec.ofNat w x
  match op with
  | .swap => some x
  | .cas => if old = cmp then some x else none
  | .add => some ((old + x) % 2 ^ w)
  | .and => some (bo &&& bx).toNat
  | .or => some (bo ||| bx).toNat
  | .xor => some (bo ^^^ bx).toNat
  | .minI => some (aluMinI bo bx).toNat
  | .maxI => some (aluMaxI bo bx).toNat
  | .minN => some (min old x)
  | .maxN => some (max old x)
  | .fadd => some (fAdd e (BitVec.ofNat 32 old) (BitVec.ofNat 32 x)).toNat
  | .fmin => some (fMin (BitVec.ofNat 32 old) (BitVec.ofNat 32 x)).toNat
  | .fmax => some (fMax (BitVec.ofNat 32 old) (BitVec.ofNat 32 x)).toNat

/-- The registers that supply the operand: cmp then x for CAS (R196). -/
def atomRegs (op : AtomOp) (d : PReg) (n : Nat) : List PReg :=
  match op with
  | .cas => if n = 8 then [d, pnext d 1, pnext d 2, pnext d 3] else [d, pnext d 1]
  | _ => if n = 8 then [d, pnext d 1] else [d]

/-- The registers that receive the old value. -/
def atomDst (d : PReg) (n : Nat) : List PReg := if n = 8 then [d, pnext d 1] else [d]

/-- cmp and x of a thread. -/
def atomOperand (w : Warp) (t : Nat) (op : AtomOp) (d : PReg) (n : Nat) : Nat × Nat :=
  let v := fun i => (getX w t (if i = 0 then d else pnext d i)).toNat
  match op with
  | .cas => if n = 8 then (v 0 + v 1 * 2 ^ 32, v 2 + v 3 * 2 ^ 32) else (v 0, v 1)
  | _ => if n = 8 then (0, v 0 + v 1 * 2 ^ 32) else (0, v 0)

/-- What an atomic makes of the old bytes of a thread. -/
def atomBytes (cx : Cx) (w : Warp) (t : Nat) (op : AtomOp) (d : PReg) (n : Nat) (old : List Byte) : Option (List Byte) :=
  let o := atomOperand w t op d n
  (atomNew op n ⟨cx.pc, t, cx.rmode⟩ (ofBytes old) o.1 o.2).map (toBytes n)

/-- One thread's atomic through a capability: the old value is pending (R198). -/
def atomThread (cx : Cx) (i : Instr) (la : Nat) (op : AtomOp) (d : PReg) (n : Nat) (c : Fin 16) (a : PReg) (disp : Int) (t : Nat)
    (s : State) : State × Except Bad Unit :=
  let w := unitOf s cx.u
  let cp := getC w t c.val
  let ea := (eaOf w c a disp t).toNat
  match capUpdate s w cp ea n (atomBytes cx w t op d n) with
  | (s, .ok (old, p)) =>
    (addPend cx.u (pendOf cx i la t cp.object ea
      (destsOf ((atomDst d n).filter (· != .z)) (loadWords n false old) p) true false true false) s, .ok ())
  | (s, .error b) => (s, .error b)

/-- What an atomic names: its operand registers are data, checked after the access checks (R198). -/
def atomUses (c : List RName) (a : PReg) (op : AtomOp) (d : PReg) (n : Nat) : Uses :=
  { reads := c ++ [.x a] ++ (atomRegs op d n).map .x, writes := (atomDst d n).map .x,
    data := (atomRegs op d n).map .x, tagged := false }

/-- The operands of an atomic, in the order of R198's traps. An elastic register of D's quad traps too (R196). -/
def withAtom (cx : Cx) (c : List RName) (a : PReg) (op : AtomOp) (d : PReg) (n : Nat) (chk : (State → Res) → State → Res)
    (k : State → Res) (s : State) : Res :=
  let u := atomUses c a op d n
  guardNames cx { u with writes := (atomRegs op d n).map .x } (fun s =>
    match replaySrcs cx (xregs u.reads) s with
    | .error e => .error e
    | .ok s =>
      guardPoison cx { u with reads := c ++ [.x a], data := [] }
        (chk (guardPoison cx { u with reads := (atomRegs op d n).map .x } (commit cx u k))) s) s

/-- The body of an atomic through a capability. (Log 88 DEDUCED.) -/
def bodyAtom (i : Instr) (la : Nat) (op : AtomOp) (d : PReg) (n : Nat) (c : Fin 16) (a : PReg) (disp : Int) (kinds : Nat) (cx : Cx)
    (s : State) : Res :=
  guardForbid cx (c.val == 7)
    (withAtom cx [.c c.val] a op d n (guardAccess cx c a disp n ⟨rR + rW + rAT, kinds, n⟩)
      (accessAll cx (atomThread cx i la op d n c a disp))) (afterAtomics cx s)

/-- One thread's atomic on the local scratchpad. -/
def spmAtomThread (cx : Cx) (i : Instr) (la : Nat) (op : AtomOp) (d : PReg) (n : Nat) (a : PReg) (disp : Int) (s : State)
    (t : Nat) : State :=
  let w := unitOf s cx.u
  let c := homeCore s w
  let o := soOf w a disp t
  match spmRead s w.grp c o n with
  | none => s
  | some (old, p) =>
    let s := match atomBytes cx w t op d n old with
      | some new => (spmWrite s w.grp c o new p).getD s
      | none => s
    addPend cx.u (pendOf cx i la t 0 0
      (destsOf ((atomDst d n).filter (· != .z)) (loadWords n false old) p) true false true false) s

/-- The body of ATOMS with C = 0: the local scratchpad (R182, R197). -/
def bodyAtomSpm (i : Instr) (la : Nat) (op : AtomOp) (d : PReg) (n : Nat) (a : PReg) (disp : Int) (cx : Cx) (s : State) : Res :=
  guardForbid cx false (withAtom cx [] a op d n (guardSpm cx a disp n n) fun s =>
    .ok (cx.act.foldl (spmAtomThread cx i la op d n a disp) s)) (afterAtomics cx s)

/-- ATOM (R198). -/
def execAtom (la : Fin 16) (sz : Size) (c : Fin 16) (a d : PReg) (disp : BitVec 24) (op : AtomOp) (sc : Scope) (s : State) :
    Host.Outcome State Fault Refusal :=
  issue 8 false (bodyAtom (.atom la sz c a d disp op sc) la.val op d (sizeBytes sz) c a disp.toInt 0b0001) s

/-- ATOMS (R198): C = 0 names the local scratchpad. -/
def execAtoms (la : Fin 16) (sz : Size) (c : Fin 16) (a d : PReg) (disp : BitVec 24) (op : AtomOp) (sc : Scope) (s : State) :
    Host.Outcome State Fault Refusal :=
  let i := Instr.atoms la sz c a d disp op sc
  issue 8 false (if c.val = 0 then bodyAtomSpm i la.val op d (sizeBytes sz) a disp.toInt
    else bodyAtom i la.val op d (sizeBytes sz) c a disp.toInt 0b0010) s

end Sys2Proof.Machine
end

