-- ==== Sys2Proof/Machine/Barrier.lean ====
section
/-! DEFINITION. BAR: the barriers of a work group (R177 to R179, R326 to R328). -/

namespace Sys2Proof.Machine

/-- The level codes of R177. -/
def barCode : BarLevel → Nat
  | .file => 0
  | .core => 1
  | .slice => 2
  | .cluster => 3

/-- The instance of the tier that a place lies in; a tier above the group's level holds the whole group (R177). Tier `lv` is
level `lv + 2` of R58. -/
def barInst (level lv : Nat) (l : Loc) : Nat :=
  if level < lv + 2 then 0
  else
    match lv with
    | 0 => coreKey l * 4 + l.part
    | 1 => coreKey l
    | 2 => sliceKey l
    | _ => l.cluster

/-- The barrier is the one of a level and an instance. -/
def Bar.is (b : Bar) (lv i : Nat) : Bool := b.level == lv && b.inst == i

/-- The barrier of a level in which a warp takes part. -/
def barOf (s : State) (w : Warp) (lv : Nat) : Bar :=
  ((groupOf s w.grp).bars.find? fun b => b.is lv (barInst (launchOfUnit s w).level lv w.loc)).getD ⟨lv, 0, 1, 0, 0, []⟩

/-- Change the barrier of a level in which a warp takes part. -/
def modBar (s : State) (w : Warp) (lv : Nat) (f : Bar → Bar) : State :=
  let i := barInst (launchOfUnit s w).level lv w.loc
  modGroup s w.grp fun g => { g with bars := g.bars.map fun b => if b.is lv i then f b else b }

/-- The generation completes (R326). -/
def Bar.complete (b : Bar) : Bar := { b with gen := (b.gen + 1) % 2 ^ 32, count := 0, arrived := [] }

/-- An arrival (R178, R326). -/
def Bar.arrive (b : Bar) (u : Nat) : Bar :=
  if b.count + 1 = b.n then b.complete else { b with count := b.count + 1, arrived := u :: b.arrived }

/-- A participant exits (R169, R178, R326): an arrival of its own is withdrawn; else it may complete the generation. -/
def Bar.leave (b : Bar) (u : Nat) : Bar :=
  if b.arrived.contains u then { b with n := b.n - 1, count := b.count - 1, arrived := b.arrived.filter (· != u) }
  else if 0 < b.count && b.count = b.n - 1 then { b.complete with n := b.n - 1 }
  else { b with n := b.n - 1 }

/-- A warp exits: every barrier in which it takes part loses a participant. -/
def leaveBars (s : State) (u : Nat) : State :=
  let w := unitOf s u
  (List.range 4).foldl (fun s lv => modBar s w lv fun b => b.leave u) s

/-- The conditions of the BAR functions, their operands, and closewin of every thread (R154, R177, R178). -/
def bodyBar (reads writes : List RName) (k : State → Res) (cx : Cx) (s : State) : Res :=
  let w := unitOf s cx.u
  let x : Uses := { reads := reads, writes := writes, data := [], tagged := false }
  if onOffset w then trapAll cx s cOffsetIllegal
  else if (liveThreads w).any fun t => !cx.act.contains t then trapAll cx s cMaskPartial
  else if w.routine.isSome then trapAll cx s cRoutine
  else withOperands cx x (commit cx x fun s => k (modUnit s cx.u fun w => closeWin w (liveThreads w))) s

/-- The wait of a BAR function: KIND 1 or 2 (R334). -/
def barStall (cx : Cx) (s : State) (kind lv pre gen : Nat) (dest : Option Nat) : Res :=
  .error (.stall { kind := kind, arg := lv, flags := pre, value := gen, mask := 0, obj := 0, off := 0,
                   threads := maskOf cx.act, pc := cx.pc, len := cx.len, dest := dest }, s)

/-- arrive, then the wait of a BAR function where `dest` is none, or BARARR's write (R178). -/
def barArrive (lv : Nat) (dest : Option (Fin 64)) (cx : Cx) (s : State) : Res :=
  let w := unitOf s cx.u
  let b := barOf s w lv
  let d := dest.map fun d => d.val
  if b.arrived.contains cx.u then barStall cx s 1 lv 1 b.gen d
  else
    let s := modBar s w lv fun b => b.arrive cx.u
    match dest with
    | some d => .ok (modUnit s cx.u fun w => setS w d.val (BitVec.ofNat 64 b.gen))
    | none => if (barOf s w lv).gen = b.gen then barStall cx s 1 lv 0 b.gen d else .ok s

/-- BAR.FILE. -/
def execBarFile (s : State) : Host.Outcome State Fault Refusal :=
  issue 4 true (fun cx => bodyBar [] [] (barArrive 0 none cx) cx) s

/-- BAR.CORE. -/
def execBarCore (s : State) : Host.Outcome State Fault Refusal :=
  issue 4 true (fun cx => bodyBar [] [] (barArrive 1 none cx) cx) s

/-- BAR.SLICE. -/
def execBarSlice (s : State) : Host.Outcome State Fault Refusal :=
  issue 4 true (fun cx => bodyBar [] [] (barArrive 2 none cx) cx) s

/-- BAR.CLUSTER. -/
def execBarCluster (s : State) : Host.Outcome State Fault Refusal :=
  issue 4 true (fun cx => bodyBar [] [] (barArrive 3 none cx) cx) s

/-- BARARR sD, level. -/
def execBararr (d : Fin 64) (lv : BarLevel) (s : State) : Host.Outcome State Fault Refusal :=
  issue 4 true (fun cx => bodyBar [] [.u d.val] (barArrive (barCode lv) (some d) cx) cx) s

/-- BARWAIT level, sA. -/
def execBarwait (lv : BarLevel) (a : Fin 64) (s : State) : Host.Outcome State Fault Refusal :=
  issue 4 true (fun cx => bodyBar [.u a.val] [] (fun s =>
    let w := unitOf s cx.u
    let g := (getS w a.val).toNat % 2 ^ 32
    if (barOf s w (barCode lv)).gen = g then barStall cx s 2 (barCode lv) 0 g none else .ok s) cx) s

/-- BARQRY sD, level. -/
def execBarqry (d : Fin 64) (lv : BarLevel) (s : State) : Host.Outcome State Fault Refusal :=
  issue 4 true (fun cx => bodyBar [] [.u d.val] (fun s =>
    let b := barOf s (unitOf s cx.u) (barCode lv)
    .ok (modUnit s cx.u fun w => setS w d.val (BitVec.ofNat 64 (b.gen * 2 ^ 32 + b.count)))) cx) s

end Sys2Proof.Machine
end

