-- ==== Sys2Proof/Machine/QueueOps.lean ====
section
/-! DEFINITION. QPORT: binding, credits, inspection and datum words (R205 to R211, R329 to R331). -/

namespace Sys2Proof.Machine

/-- The outcomes of R187 for QPORT: OFFSET_ILLEGAL, forbidden in an exit routine, ROUTINE in an entry routine. -/
def guardPort (cx : Cx) (k : State → Res) (s : State) : Res :=
  let w := unitOf s cx.u
  if onOffset w then trapAll cx s cOffsetIllegal
  else if inExit w then .error (.forbid, s)
  else if inEntry w then trapAll cx s cRoutine
  else k s

/-- The operands of a uniform function that writes no register; then `k`. -/
def withReads (cx : Cx) (reads : List RName) (k : State → Res) (s : State) : Res :=
  withOperands cx { reads := reads, writes := [], data := [], tagged := false } k s

/-- Bind a port for sending: credits := min(n, FREE) (R206). -/
def bindSend (s : State) (u p mode place o n : Nat) : State :=
  let s := unbind s u p
  let w := unitOf s u
  let x : Port := { mode := mode, place := place, offset := o, request := n, credits := 0 }
  match portDesc s w x with
  | none => s
  | some d =>
    let k := min n d.free
    modUnit (putDesc s w.grp (portCore s w x) o { d with free := d.free - k }) u fun w =>
      setPort w p { x with credits := k }

/-- The body of QBIND: every check before the unbind (R206). -/
def bodyQbind (d : Fin 8) (a : Fin 64) (mode : QMode) (cx : Cx) (s : State) : Res :=
  guardPort cx (withReads cx [.u a.val] fun s =>
    let w := unitOf s cx.u
    let v := (getS w a.val).toNat
    let o := bitsOf v 0 19
    match mode with
    | .rng =>
      if d.val = 4 && slotOk s (v % 4096) w.asid then
        .ok (modUnit (unbind s cx.u 4) cx.u fun w =>
          setPort w 4 { mode := 4, place := 0, offset := v % 4096, request := 0, credits := 0 })
      else trapAll cx s cQueueUnbound
    | .recv =>
      match descAt s w.grp (homeCore s w) o with
      | none => trapAll cx s cQueueUnbound
      | some _ =>
        .ok (modUnit (unbind s cx.u d.val) cx.u fun w =>
          setPort w d.val { mode := 1, place := 0, offset := o, request := 0, credits := 0 })
    | .send =>
      let n := bitsOf v 32 11
      match descAt s w.grp (homeCore s w) o with
      | none => trapAll cx s cQueueUnbound
      | some q => if n = 0 || q.count < n then trapAll cx s cQueueUnbound else .ok (bindSend s cx.u d.val 2 0 o n)) s

/-- QBIND qD, sA, mode. -/
def execQbind (d : Fin 8) (a : Fin 64) (mode : QMode) (s : State) : Host.Outcome State Fault Refusal :=
  issue 4 true (bodyQbind d a mode) s

/-- QUNBIND qD: no effect on an unbound port. -/
def qunbind (d : Fin 8) (s : State) : Host.Outcome State Fault Refusal :=
  issue 4 true (fun cx => guardPort cx fun s => .ok (unbind s cx.u d.val)) s

/-- The body of QFREE. -/
def bodyQfree (d : Fin 8) (n : SSrc) (cx : Cx) (s : State) : Res :=
  guardPort cx (withReads cx (ssrcName n) fun s =>
    let w := unitOf s cx.u
    let x := getPort w d.val
    if x.mode ≠ 1 then trapAll cx s cQueueUnbound
    else
      let c := portCore s w x
      let used := match spmWord s w.grp c (x.offset + 16) with
        | some v => bitsOf v 16 11
        | none => 0
      .ok (addFree s w.grp c x.offset (min (bitsOf (getSSrc w n).toNat 0 11) used) true)) s

/-- QFREE qD, B. -/
def execQfree (d : Fin 8) (n : SSrc) (s : State) : Host.Outcome State Fault Refusal := issue (ssrcLen n) true (bodyQfree d n) s

/-- The checks of R181 on QREMOTE's capability: kind 01 with W, over the descriptor's 32 bytes; an OBJECT, a place that the group
does not hold, or bytes outside its allocation are out of bounds (R337). (Log 42 DEDUCED.) -/
def remoteCheck (s : State) (w : Warp) (c : Cap) : Option Nat := localCheck s w c c.cursor 32 rW 0b0010 1

/-- The body of QREMOTE: the lowest active thread's capability names the descriptor. -/
def bodyQremote (d : Fin 8) (a : Fin 16) (n : SSrc) (cx : Cx) (s : State) : Res :=
  let t := lowest cx.act
  guardPort cx (withReads { cx with act := [t] } (.c a.val :: ssrcName n) fun s =>
    let w := unitOf s cx.u
    let c := getC w t a.val
    match remoteCheck s w c with
    | some e => trapAll cx s e
    | none =>
      let place := c.cursor / 2 ^ 19
      let o := c.cursor % 2 ^ 19
      let k := bitsOf (getSSrc w n).toNat 0 11
      match descAt s w.grp (((placesOf (groupOf s w.grp) w.loc.cluster)[place]?).getD (0, 0, 0)) o with
      | none => trapAll cx s cQueueUnbound
      | some q => if k = 0 || q.count < k then trapAll cx s cQueueUnbound else .ok (bindSend s cx.u d.val 3 place o k)) s

/-- QREMOTE qD, cA, B. -/
def execQremote (d : Fin 8) (a : Fin 16) (n : SSrc) (s : State) : Host.Outcome State Fault Refusal :=
  issue (ssrcLen n) true (bodyQremote d a n) s

/-- What QPEEK writes for the thread of rank `i` (R209); none where it traps. -/
def peekPort (s : State) (w : Warp) (p i : Nat) : Option Word :=
  let x := getPort w p
  match x.mode with
  | 4 =>
    if slotOk s x.offset w.asid then (sfind s.slots x.offset).map fun r => BitVec.ofNat 32 r.ring.length else none
  | 1 => (portDesc s w x).map fun d =>
    if i < (d.tail + 2 ^ 32 - d.head) % 2 ^ 32 then BitVec.ofNat 32 (d.base + (d.head + i) % d.count * d.size) else 0xFFFFFFFF
  | 2 => (portDesc s w x).map fun _ => BitVec.ofNat 32 x.credits
  | 3 => (portDesc s w x).map fun _ => BitVec.ofNat 32 x.credits
  | _ => none

/-- The body of QPEEK, its traps in the order of R211. -/
def bodyQpeek (d : PReg) (a : Fin 8) (cx : Cx) (s : State) : Res :=
  let x : Uses := { reads := [], writes := [.x d], data := [], tagged := false }
  if (RName.x d).beyond (unitOf s cx.u) then trapAll cx s cReservedField
  else guardPort cx (withOperands cx x fun s =>
    let w := unitOf s cx.u
    if (peekPort s w a.val 0).isNone then trapAll cx s cQueueUnbound
    else
      commit cx x (fun s => .ok (modUnit s cx.u fun w' =>
        cx.act.zipIdx.foldl (fun v q => setX v q.1 d ((peekPort s w a.val q.2).getD 0) 0) w')) s) s

/-- QPEEK D, qA. -/
def execQpeek (d : PReg) (a : Fin 8) (s : State) : Host.Outcome State Fault Refusal := issue 4 false (bodyQpeek d a) s

/-! ### Datum words -/

/-- An update adds bytes to a datum word and applies the loop of R210; TARGET 0 adds mod 2^24 (R330). -/
def datumAdd (v n : Nat) : Nat :=
  let t := bitsOf v 24 24
  let c := bitsOf v 0 24 + n
  if t = 0 then v / 2 ^ 24 * 2 ^ 24 + c % 2 ^ 24
  else c % t + t * 2 ^ 24 + (bitsOf v 48 16 + c / t) % 2 ^ 16 * 2 ^ 48

/-- Add bytes to the datum word at an offset of a core's allocation. -/
def datumAt (s : State) (g : Nat) (c : Nat × Nat × Nat) (o n : Nat) : State :=
  match spmWord s g c o with
  | some v => spmPut s g c o (toBytes 8 (datumAdd v n)) false
  | none => s

/-- Wait `y` of unit `u` is the one that a note on an allocation stands for: its unit, threads, word and generation. -/
def Watch.isOf (x : Watch) (u : Nat) (y : Wait) : Bool :=
  x.unit == u && y.kind == 5 && x.threads == y.threads && y.value == x.off + x.gen * 2 ^ 32

/-- From now on threads `ts` of unit `u` wait for a generation of the datum word at an offset (R330); what is noted of waits that are
over goes. -/
def watchDatum (s : State) (u ts : Nat) (c : Nat × Nat × Nat) (o g : Nat) : State :=
  let w := unitOf s u
  let waits := fun (x : Watch) => x.unit != u || w.waits.any fun y => x.isOf u y
  match allocAt (groupOf s w.grp) c with
  | none => s
  | some a => modGroup s w.grp fun x => setAlloc x { a with watch := ⟨u, ts, o, g, false⟩ :: a.watch.filter waits }

/-- Since the unit began this wait, an update or a store has left a datum word for which it is over (R330). -/
def watchMet (s : State) (u : Nat) (y : Wait) : Bool :=
  (groupOf s (unitOf s u).grp).allocs.any fun a => a.watch.any fun x => x.isOf u y && x.met

/-- The operands and checks of a datum-word function: `k` is given the offset and srcB. (Log 42 DEDUCED.) -/
def withDatum (cx : Cx) (a : Fin 64) (n : SSrc) (zero : Bool) (k : Nat → Nat → State → Res) (s : State) : Res :=
  guardPort cx (withReads cx (.u a.val :: ssrcName n) fun s =>
    let w := unitOf s cx.u
    let o := bitsOf (getS w a.val).toNat 0 19
    let v := (getSSrc w n).toNat
    if zero && v % 2 ^ 24 = 0 then trapAll cx s cReservedField
    else if o % 8 ≠ 0 then trapAll cx s cMisalign
    else if (spmWord s w.grp (homeCore s w) o).isNone then trapAll cx s cCapBounds
    else k o v s) s

/-- DWINIT sA, B (R210). -/
def execDwinit (a : Fin 64) (n : SSrc) (s : State) : Host.Outcome State Fault Refusal :=
  issue (ssrcLen n) true (fun cx => withDatum cx a n true fun o v s =>
    let w := unitOf s cx.u
    .ok (spmPut s w.grp (homeCore s w) o (toBytes 8 (v % 2 ^ 24 * 2 ^ 24)) false)) s

/-- DWADD sA, B (R210). -/
def execDwadd (a : Fin 64) (n : SSrc) (s : State) : Host.Outcome State Fault Refusal :=
  issue (ssrcLen n) true (fun cx => withDatum cx a n false fun o v s =>
    let w := unitOf s cx.u
    .ok (datumAt s w.grp (homeCore s w) o (v % 2 ^ 24))) s

/-- DWWAIT sA, B: a blocking point (R210, R334). -/
def execDwwait (a : Fin 64) (n : SSrc) (s : State) : Host.Outcome State Fault Refusal :=
  issue (ssrcLen n) true (fun cx => withDatum cx a n false fun o v s =>
    let w := unitOf s cx.u
    let g := v % 2 ^ 16
    if datumDone ((spmWord s w.grp (homeCore s w) o).getD 0) g then .ok s
    else
      .error (.stall { kind := 5, arg := 0, flags := 0, value := o + g * 2 ^ 32, mask := 0, obj := 0, off := 0,
                       threads := maskOf cx.act, pc := cx.pc, len := cx.len, dest := none },
              watchDatum s cx.u (maskOf cx.act) (homeCore s w) o g)) s

/-- QUNBIND q0. -/
def execQunbind0 (s : State) : Host.Outcome State Fault Refusal := qunbind 0 s

/-- QUNBIND q1. -/
def execQunbind1 (s : State) : Host.Outcome State Fault Refusal := qunbind 1 s

/-- QUNBIND q2. -/
def execQunbind2 (s : State) : Host.Outcome State Fault Refusal := qunbind 2 s

/-- QUNBIND q3. -/
def execQunbind3 (s : State) : Host.Outcome State Fault Refusal := qunbind 3 s

/-- QUNBIND q4. -/
def execQunbind4 (s : State) : Host.Outcome State Fault Refusal := qunbind 4 s

/-- QUNBIND q5. -/
def execQunbind5 (s : State) : Host.Outcome State Fault Refusal := qunbind 5 s

/-- QUNBIND q6. -/
def execQunbind6 (s : State) : Host.Outcome State Fault Refusal := qunbind 6 s

/-- QUNBIND q7. -/
def execQunbind7 (s : State) : Host.Outcome State Fault Refusal := qunbind 7 s

end Sys2Proof.Machine
end

