-- ==== Sys2Proof/Machine/MatMath.lean ====
section
/-! DEFINITION. The matrix arithmetic as pure values: elements of tiles, MMA and SCACC (R46 to R49, R131). -/

namespace Sys2Proof.Machine

/-- elem(row i, c, w): element `c` of row `i` of a tile, whose rows are 64 bytes; 4-bit elements low nibble first. -/
def tileElem (b : Nat → Byte) (i c w : Nat) : Nat :=
  let k := c * w
  if w = 16 then (b (i * 64 + k / 8)).toNat + 256 * (b (i * 64 + k / 8 + 1)).toNat
  else (b (i * 64 + k / 8)).toNat / 2 ^ (k % 8) % 2 ^ w

/-- The format of an MMA code (R223). -/
def mmaFmt : Nat → Fmt
  | 0 => .bf16
  | 1 => .f16
  | 2 => .e4m3
  | 3 => .e5m2
  | 4 => .dm8
  | _ => .e2m1

/-- G: the products of a group (R46). -/
def mmaGroup : Nat → Nat
  | 0 => 8
  | 1 => 8
  | 5 => 32
  | _ => 16

end Sys2Proof.Machine
end

