-- ==== Sys2Proof/Machine/Eject.lean ====
section
/-! DEFINITION. Transfers of control, and the ejection of minority threads to offset cores (R164, R165, R271 to R273). -/

namespace Sys2Proof.Machine

/-- An address plus a signed number, as a 57-bit PC. (Log 17 DEDUCED.) -/
def pcPlus (p : Nat) (n : Int) : Nat := (((p : Int) + n) % 2 ^ 57).toNat

/-- The target groups of a split: distinct targets with their threads (R271). -/
def targetGroups (l : List (Nat × Nat)) : List (Nat × List Nat) :=
  ((l.map (·.2)).dedup).map fun p => (p, (l.filter fun q => q.2 == p).map (·.1))

/-- The majority: the group of most threads, and among equal ones that of the lowest target. -/
def majority (gs : List (Nat × List Nat)) : Nat :=
  (gs.foldl (fun (m : Nat × Nat) g =>
    if m.2 < g.2.length || (m.2 = g.2.length && g.1 < m.1) then (g.1, g.2.length) else m) (0, 0)).1

/-- The context of an offset core is taken: a thread runs there, or it is kept for one that its warp's resume recalls. -/
def takesContext (w : Warp) : Bool := onOffset w && (w.stat == .resident || (w.off.map (·.held)).getD false)

/-- The free offset-core contexts of the cluster of a place, on the offset cores that the part has and in slices of the hard
partition of context `asid`, in the order of R272 step 3 (R2, R402). -/
def freeContexts (s : State) (asid : Nat) (l : Loc) : List Loc :=
  let used := (s.units.filter fun p => takesContext p.2).map fun p => p.2.loc
  ((List.range 12).flatMap fun d => (List.range 4).flatMap fun c => (List.range 4).map fun x =>
    (⟨l.cluster, (l.slice + d) % 12, c, 0, x⟩ : Loc)).filter fun x =>
      x.cluster < 4 && !used.contains x && !s.absentOff.contains (offKey x) && portIn s (ctxOf s asid).hpart (sliceKey x)

/-- Threads in rising index. -/
def byIndex (ts : List Nat) : List Nat := (List.range 128).filter ts.contains

/-- The entries of a keyed file for the registers and the thread that are handed over. -/
def handOver {α : Type} (l : Store α) (nums : List Nat) (t : Nat) : Store α :=
  l.filter fun p => p.1 % 128 == t && nums.contains (p.1 / 128)

/-- Free values for the o and y registers that are not handed over: the spec gives an offset-core context none.
(Log 29 DESIGN CHOICE.) -/
def freeRegs (f t o y : Nat) (x : Store Word) : Store Word :=
  ((bitList (255 - o % 256) 8).map (96 + ·) ++ (bitList (3 - y % 4) 2).map (104 + ·)).foldl
    (fun x n => sset 0 x (xkey n t) (Config.freeWord (f + n))) x

/-- The registers that an ejected thread takes: its eject list, c0 to c6, and the snapshot of s, m and k (R272).
(Log 29 DESIGN CHOICE.) -/
def ejectRegs (w : Warp) (r : Region) (t f : Nat) : Regs :=
  let nums := ejectNums r.ejV r.ejO r.ejY
  { x := freeRegs f t r.ejO r.ejY (handOver w.regs.x nums t), xp := handOver w.regs.xp nums t
    s := w.regs.s, sp := w.regs.sp, m := w.regs.m, mp := w.regs.mp
    c := handOver w.regs.c (List.range 7) t, cp := handOver w.regs.cp (List.range 7) t
    k := w.regs.k, t := [], tp := [], a := [], ap := [] }

/-- The unit of an ejected thread. -/
def ejectedUnit (u : Nat) (w : Warp) (r : Region) (t f : Nat) (l : Loc) : Warp :=
  { Warp.blank with
    grp := w.grp, idx := w.idx, asid := w.asid, loc := l, stat := .resident, base := w.base, elastic := w.elastic
    ntiles := w.ntiles, naccs := w.naccs, live := 2 ^ t, pcs := sset 0 [] t (getPc w t)
    regs := ejectRegs w r t f, latch := w.latch.filter fun p => p.1 % 128 == t, ras := sset ⟨[], 0⟩ [] t (getRas w t), rmode := w.rmode
    off := some { parent := some u, thread := t, rejoin := some r.rejoin, ejV := r.ejV, ejO := r.ejO, ejY := r.ejY, held := false } }

/-- Eject one thread whose PC is already its target. -/
def ejectOne (u : Nat) (r : Region) (s : State) (p : Nat × Loc) : State :=
  let w := unitOf s u
  let (n, s) := newId s
  let s := { s with units := sput s.units n (ejectedUnit u w r p.1 s.fresh p.2), fresh := s.fresh + 128 }
  modUnit s u fun w => setMark w p.1 (.ejected r.rejoin)

/-- Eject the minority threads, in rising thread index, into free contexts in slice order (R272). -/
def ejectThreads (s : State) (u : Nat) (r : Region) (ts : List Nat) : State :=
  ((byIndex ts).zip (freeContexts s (unitOf s u).asid (unitOf s u).loc)).foldl (ejectOne u r) s

/-- The threads that a split ejects, by the conditions of R271; none where it ejects none. -/
def minority (s : State) (w : Warp) (r : Region) (tgts : List (Nat × Nat)) : List Nat :=
  let gs := targetGroups tgts
  let rest := gs.filter fun g => g.1 != majority gs
  let ts := rest.flatMap (·.2)
  if 2 ≤ gs.length && (rest.all fun g => g.2.length ≤ r.ejt) && ts.length ≤ (freeContexts s w.asid w.loc).length
      && !w.inh && w.routine.isNone && (ctxOf s w.asid).migration.isNone && !onOffset w then ts else []

/-- The threads that an offsetting point ejects: the region's EJT must be above 0 (R153). A call that a spill fault has stopped
ejects none (R272). -/
def ejectSet (s : State) (u pc : Nat) (tgts : List (Nat × Nat)) : Option (Region × List Nat) :=
  let w := unitOf s u
  if onOffset w || tgts.any fun p => sget 0 w.noEject p.1 == pc + 1 then none
  else
    match regionAt s w pc with
    | none => none
    | some r =>
      if r.ejt = 0 then none
      else match minority s w r tgts with
        | [] => none
        | ts => some (r, ts)

/-! ### Return-address stacks of several threads -/

/-- Refill the stacks of threads whose refill is in flight (R286). A fault stops the instruction before any thread moves. Where c6
serves the refills of several threads no longer, the spec does not say which of them the trap names: it is the first.
(Log 25 DEDUCED, log 105 DESIGN CHOICE.) -/
def refillAll (cx : Cx) : List Nat → State → Res
  | [], s => .ok s
  | t :: ts, s =>
    match rasRefill s cx.u t with
    | (s, .ok _) => refillAll cx ts s
    | (s, .error (.trap c)) => trapFor [t] s c
    | (s, .error (.ctx c)) => .error (.ctx c, s)
    | (s, .error (.fault f)) =>
      .error (.page [(t, f)] false, modUnit s cx.u fun w => setPcs w cx.act cx.pc)

/-- The refills of threads, and what their faults do to the unit. (Log 25 DEDUCED.) -/
def refillNow (u : Nat) (ts : List Nat) (s : State) : State :=
  match startRefills u ts s with
  | (s, []) => s
  | (s, fs) => pageStop s u fs false

/-- Push a return address for each thread: the state, and the threads whose spill faulted. -/
def pushAll (u x : Nat) : List Nat → State → Except (Stop × State) (State × List (Nat × AccFault))
  | [], s => .ok (s, [])
  | t :: ts, s =>
    match rasPush s u t x with
    | (s, .ok _) => pushAll u x ts s
    | (s, .error (.fault f)) =>
      match pushAll u x ts s with
      | .error e => .error e
      | .ok (s, fs) => .ok (s, (t, f) :: fs)
    | (s, .error (.ctx c)) => .error (.ctx c, s)
    | (s, .error (.trap c)) => .error (.trap c (2 ^ t) 0 false, s)

/-- The causes for which threads may not push: STACK_LIMIT before those of the store (R75, R164). No thread calls then. -/
def guardPush (cx : Cx) (ts : List Nat) (k : State → Res) (s : State) : Res :=
  let w := unitOf s cx.u
  let bad := ts.filter fun t => pushCause s w t == some cStackLimit
  if !bad.isEmpty then trapFor bad s cStackLimit
  else
    match firstCause (ts.map fun t => (t, pushCause s w t)) with
    | some (c, ts) => trapFor ts s c
    | none => k s

/-! ### The transfer -/

/-- Move threads to their targets, their windows closed (R99). -/
def moveTo (w : Warp) (l : List (Nat × Nat)) : Warp :=
  l.foldl (fun w p => setPc w p.1 p.2) (closeWin w (l.map (·.1)))

/-- The end of a transfer: every taken thread moves, and at an offsetting point the minorities leave (R271, R272). -/
def finishTransfer (cx : Cx) (eject : Option (Region × List Nat)) (taken : List (Nat × Nat)) (s : State) : State :=
  let s := modUnit s cx.u fun w => moveTo w taken
  match eject with
  | none => s
  | some (r, ts) =>
    ejectThreads (modUnit s cx.u fun w => closeWin w (liveThreads w)) cx.u r ts

/-- The call at `pc` by the threads whose spill has faulted comes again, and completes without offsetting (R272). -/
def markCalls (pc : Nat) (fs : List Nat) (w : Warp) : Warp :=
  { w with noEject := fs.foldl (fun l t => sset 0 l t (pc + 1)) w.noEject }

/-- The pushes of a call, in the order of R272: with an ejection to come every window of the warp closes first, and a spill fault
cancels the ejection. A push that traps leaves every stack as it was (R151). -/
def pushCalls (cx : Cx) (eject : Option (Region × List Nat)) (taken : List (Nat × Nat)) (s : State) : Res :=
  let ts := taken.map (·.1)
  let s := if eject.isSome then modUnit s cx.u fun w => closeWin w (liveThreads w) else s
  match pushAll cx.u (cx.pc + cx.len) ts s with
  | .error (x, s') => .error (x, { s' with units := s.units })
  | .ok (s, []) => .ok (finishTransfer cx eject taken s)
  | .ok (s, fs) =>
    let bad := fs.map (·.1)
    let s := finishTransfer cx none (taken.filter fun p => !bad.contains p.1) s
    .error (.page fs false, modUnit s cx.u (markCalls cx.pc bad))

/-- The threads that an offsetting point ejects, once the refills of their stacks are done (R286): then `k`. -/
def withEject (cx : Cx) (offset : Bool) (tgts : List (Nat × Nat)) (k : Option (Region × List Nat) → State → Res) (s : State) : Res :=
  match (if offset then ejectSet s cx.u cx.pc tgts else none) with
  | none => k none s
  | some (r, ts) =>
    match refillAll cx ts s with
    | .error e => .error e
    | .ok s => k (some (r, ts)) s

/-- A transfer of the taken threads to their targets. `call` pushes the return address; `offset` is an offsetting point. -/
def transfer (cx : Cx) (call offset : Bool) (taken : List (Nat × Nat)) (s : State) : Res :=
  let tgts := cx.act.map fun t => (t, ((taken.find? fun p => p.1 == t).map (·.2)).getD (cx.pc + cx.len))
  if call then
    match refillAll cx (taken.map (·.1)) s with
    | .error e => .error e
    | .ok s =>
      guardPush cx (taken.map (·.1)) (withEject cx offset tgts fun e s => pushCalls cx e taken s) s
  else withEject cx offset tgts (fun e s => .ok (finishTransfer cx e taken s)) s

end Sys2Proof.Machine
end

