-- ==== Sys2Proof/Machine/Control.lean ====
section
/-! DEFINITION. BRA, BRV, BRU, CALL and FLOW: transfers, returns, JOIN, MDROP, EXIT and ELECT (R164 to R170, R273 to R277). -/

namespace Sys2Proof.Machine

/-- The target of a relative transfer (R164). -/
def targetPc (pc : Nat) : Target → Nat
  | .off n => pcPlus pc (2 * n.toInt)
  | .lit w => pcPlus pc w.toInt

/-- The length of a relative transfer. -/
def targetLen : Target → Nat
  | .off _ => 4
  | .lit _ => 8

/-- The operands of a transfer; then `k`. -/
def withFlow (cx : Cx) (reads : List RName) (k : State → Res) (s : State) : Res :=
  withOperands cx { reads := reads, writes := [], data := [], tagged := false } k s

/-- The threads of a mask that take a transfer; z takes all. -/
def takenBy (w : Warp) (act : List Nat) : Option (Fin 16) → List Nat
  | none => act
  | some m => act.filter fun t => (getM w m.val).getLsbD t

/-- A transfer of the threads of a mask to one target. -/
def maskTransfer (call : Bool) (a : Option (Fin 16)) (t : Target) (cx : Cx) (s : State) : Res :=
  withFlow cx (a.toList.map mname) (fun s =>
    let ts := takenBy (unitOf s cx.u) cx.act a
    transfer cx call a.isSome (ts.map fun i => (i, targetPc cx.pc t)) s) s

/-- BRA mA|z, label. -/
def execBra (a : Option (Fin 16)) (t : Target) (s : State) : Host.Outcome State Fault Refusal :=
  issue (targetLen t) false (maskTransfer false a t) s

/-- BRV A, label: taken where X[A] ≠ 0, and by every thread where A is z. -/
def execBrv (a : PReg) (t : Target) (s : State) : Host.Outcome State Fault Refusal :=
  issue (targetLen t) false (fun cx => withFlow cx [.x a] fun s =>
    let w := unitOf s cx.u
    let ts := if a = .z then cx.act else cx.act.filter fun i => getX w i a != 0
    transfer cx false (a != .z) (ts.map fun i => (i, targetPc cx.pc t)) s) s

/-- BRU sA|z, label: all active threads move together or not at all. -/
def execBru (a : SReg) (t : Target) (s : State) : Host.Outcome State Fault Refusal :=
  issue (targetLen t) true (fun cx => withFlow cx (uname a) fun s =>
    let ts := if a = .z || getU (unitOf s cx.u) a != 0 then cx.act else []
    transfer cx false false (ts.map fun i => (i, targetPc cx.pc t)) s) s

/-- CALL mA|z, label. -/
def execCall (a : Option (Fin 16)) (t : Target) (s : State) : Host.Outcome State Fault Refusal :=
  issue (targetLen t) false (maskTransfer true a t) s

/-- The exact target of an indirect transfer (R165). -/
def indirect (base : Nat) (x : Word) (lit : Option (BitVec 32)) : Int :=
  (base : Int) + x.toNat + (match lit with
    | some v => v.toInt
    | none => 0)

/-- CALLI and BRI: MISALIGN is checked over all active threads before any moves. -/
def bodyIndirect (call : Bool) (a : PReg) (lit : Option (BitVec 32)) (cx : Cx) (s : State) : Res :=
  withFlow cx [.x a] (fun s =>
    let w := unitOf s cx.u
    let b := codeBase s w
    let tgt := fun t => indirect b (getX w t a) lit
    let odd := cx.act.filter fun t => tgt t % 2 = 1
    if !odd.isEmpty then trapFor odd s cMisalign
    else transfer cx call true (cx.act.map fun t => (t, pcPlus 0 (tgt t))) s) s

/-- CALLI A[, lit]. -/
def execCalli (a : PReg) (lit : Option (BitVec 32)) (s : State) : Host.Outcome State Fault Refusal :=
  issue (optLen lit) false (bodyIndirect true a lit) s

/-- BRI A[, lit]. -/
def execBri (a : PReg) (lit : Option (BitVec 32)) (s : State) : Host.Outcome State Fault Refusal :=
  issue (optLen lit) false (bodyIndirect false a lit) s

/-- The address that a thread's RET pops. (Log 25 DEDUCED.) -/
def rasTop (w : Warp) (t : Nat) : Nat := ((getRas w t).chip.getLastD 0).toNat

/-- The body of RET: the pops, and then the refills that they start (R166, R286). (Log 25 DEDUCED.) -/
def bodyRet (cx : Cx) (s : State) : Res :=
  match refillAll cx cx.act s with
  | .error e => .error e
  | .ok s =>
    let w := unitOf s cx.u
    let empty := cx.act.filter fun t => (getRas w t).chip.isEmpty
    let odd := cx.act.filter fun t => rasTop w t % 2 = 1
    if !empty.isEmpty then trapFor empty s cStackLimit
    else if !odd.isEmpty then trapFor odd s cMisalign
    else
      .ok (refillNow cx.u cx.act (modUnit s cx.u fun w => moveTo
        (cx.act.foldl (fun w t => setRas w t (rasDrop (getRas w t))) w)
        (cx.act.map fun t => (t, rasTop w t))))

/-- RET. -/
def execRet (s : State) : Host.Outcome State Fault Refusal := issue 4 false bodyRet s

/-! ### JOIN, MDROP and ELECT -/

/-- The active threads park at the JOIN, which is then evaluated (R167). -/
def park (pc m : Nat) (act : List Nat) (w : Warp) : Warp :=
  evalJoin (setMarks (setPcs (closeWin w act) act pc) act (.parked m)) (pc % 2 ^ 57) m

/-- The rejoin of an ejected thread: it is handed back parked, and the JOIN is evaluated where its warp is there (R275). -/
def rejoin (s : State) (u pc m : Nat) (o : Off) : State :=
  let s := modUnit s u fun w => closeWin w [o.thread]
  match o.parent with
  | none => s
  | some p =>
    let away := isAway (unitOf s p)
    let s := handBack s u pc (.parked m)
    if away then s else stubVector (modUnit s p fun w => evalJoin w (pc % 2 ^ 57) m) p

/-- The body of JOIN. On an offset core a JOIN on another mask than the rejoin mask releases at once; a thread that runs
alone on an offset core has no rejoin mask (R273, R320). (Log 54 DEDUCED.) -/
def bodyJoin (a : Fin 16) (cx : Cx) (s : State) : Res :=
  let w := unitOf s cx.u
  match w.off with
  | none => withFlow cx [mname a] (fun s => .ok (modUnit s cx.u (park cx.pc a.val cx.act))) s
  | some o =>
    if o.parent.isNone then trapAll cx s cOffsetIllegal
    else if o.rejoin = some a.val then
      match rasRefill s cx.u o.thread with
      | (s, .error (.fault f)) => .error (.page [(o.thread, f)] false, s)
      | (s, .error (.ctx c)) => .error (.ctx c, s)
      | (s, .error (.trap c)) => trapAll cx s c
      | (s, .ok _) => .ok (rejoin s cx.u cx.pc a.val o)
    else .ok (modUnit s cx.u fun w => closeWin w cx.act)

/-- JOIN mA. -/
def execJoin (a : Fin 16) (s : State) : Host.Outcome State Fault Refusal := issue 4 true (bodyJoin a) s

/-- MDROP mA clears the active threads' bits. An ejected thread clears its bit in its warp's mask and in its snapshot; while
its warp is away the bit is kept for the resume (R168, R273). (Log 47 DEDUCED.) -/
def mdrop (m : Nat) (s : State) : Host.Outcome State Fault Refusal :=
  issue 4 false (fun cx s =>
    let w := unitOf s cx.u
    let drop := fun (w : Warp) => writeMask w m (maskBits (getM w m) cx.act fun _ => false)
    match w.off with
    | none => .ok (modUnit s cx.u drop)
    | some o =>
      let s := modUnit s cx.u fun w => setM w m (maskBits (getM w m) cx.act fun _ => false)
      match o.parent with
      | none => .ok s
      | some p =>
        .ok (modUnit s p fun w =>
          if isAway w then { w with drops := sset 0 w.drops m (maskBits (sget 0 w.drops m) cx.act fun _ => true) }
          else drop w)) s

/-- The instructions of R154 that trap with OFFSET_ILLEGAL on an offset core and with ROUTINE in a routine; MASK_PARTIAL
stands between them where `whole`. -/
def guardWarp (cx : Cx) (whole : Bool) (k : State → Res) (s : State) : Res :=
  let w := unitOf s cx.u
  if onOffset w then trapAll cx s cOffsetIllegal
  else if whole && (liveThreads w).any fun t => !cx.act.contains t then trapAll cx s cMaskPartial
  else if w.routine.isSome then trapAll cx s cRoutine
  else k s

/-- ELECT sD, mA|z (R170). -/
def execElect (d : Fin 64) (a : Option (Fin 16)) (s : State) : Host.Outcome State Fault Refusal :=
  issue 4 true (fun cx =>
    let x : Uses := { reads := [], writes := .u d.val :: a.toList.map mname, data := [], tagged := false }
    let t := lowest cx.act
    guardWarp cx false (withOperands cx x (commit cx x fun s =>
      .ok (modUnit s cx.u fun w =>
        let w := setS w d.val (BitVec.ofNat 64 t)
        match a with
        | none => w
        | some m => writeMask w m.val (BitVec.ofNat 128 (2 ^ t)))))) s

/-! ### EXIT (R169, R268) -/

/-- The allocations of the cores on which a member of the group is left (R14). -/
def keptAllocs (s : State) (g : Group) (ms : List Nat) : List Alloc :=
  g.allocs.filter fun a => ms.any fun m =>
    let l := (unitOf s m).loc
    l.cluster == a.cluster && l.slice == a.slice && l.core == a.core

/-- A warp, or a thread of a class 1 group, ends: its ports are unbound, its barriers lowered, its slot freed, and the group
is Done with its last member. -/
def exitUnit (s : State) (u : Nat) : State :=
  let g := (unitOf s u).grp
  let s := leaveBars ((List.range 8).foldl (fun s q => unbind s u q) s) u
  let s := delUnit s u
  let ms := (groupOf s g).members.filter (· != u)
  if ms.isEmpty then
    groupFinished (modGroup s g fun x => { x with members := [], stat := .done, allocs := [], bars := [] }) g
  else
    let s' := s
    modGroup s g fun x => { x with members := ms, allocs := keptAllocs s' x ms }

/-- The body of EXIT: it waits for the warp's copies. (Log 49 DEDUCED.) -/
def bodyExit (cx : Cx) (s : State) : Res :=
  let w := unitOf s cx.u
  let alone := match w.off with
    | some o => o.parent.isNone
    | none => false
  if onOffset w && !alone then trapAll cx s cOffsetIllegal
  else if w.routine.isSome then trapAll cx s cRoutine
  else if (liveThreads w).any fun t => !cx.act.contains t then trapAll cx s cExitDiverged
  else if !w.copies.isEmpty then .error (.hold, s)
  else .ok (exitUnit (modUnit s cx.u fun w => closeWin w cx.act) cx.u)

/-- EXIT. -/
def execExit (s : State) : Host.Outcome State Fault Refusal := issue 4 true bodyExit s

/-- MDROP m0. -/
def execMdrop0 (s : State) : Host.Outcome State Fault Refusal := mdrop 0 s

/-- MDROP m1. -/
def execMdrop1 (s : State) : Host.Outcome State Fault Refusal := mdrop 1 s

/-- MDROP m2. -/
def execMdrop2 (s : State) : Host.Outcome State Fault Refusal := mdrop 2 s

/-- MDROP m3. -/
def execMdrop3 (s : State) : Host.Outcome State Fault Refusal := mdrop 3 s

/-- MDROP m4. -/
def execMdrop4 (s : State) : Host.Outcome State Fault Refusal := mdrop 4 s

/-- MDROP m5. -/
def execMdrop5 (s : State) : Host.Outcome State Fault Refusal := mdrop 5 s

/-- MDROP m6. -/
def execMdrop6 (s : State) : Host.Outcome State Fault Refusal := mdrop 6 s

/-- MDROP m7. -/
def execMdrop7 (s : State) : Host.Outcome State Fault Refusal := mdrop 7 s

/-- MDROP m8. -/
def execMdrop8 (s : State) : Host.Outcome State Fault Refusal := mdrop 8 s

/-- MDROP m9. -/
def execMdrop9 (s : State) : Host.Outcome State Fault Refusal := mdrop 9 s

/-- MDROP m10. -/
def execMdrop10 (s : State) : Host.Outcome State Fault Refusal := mdrop 10 s

/-- MDROP m11. -/
def execMdrop11 (s : State) : Host.Outcome State Fault Refusal := mdrop 11 s

/-- MDROP m12. -/
def execMdrop12 (s : State) : Host.Outcome State Fault Refusal := mdrop 12 s

/-- MDROP m13. -/
def execMdrop13 (s : State) : Host.Outcome State Fault Refusal := mdrop 13 s

/-- MDROP m14. -/
def execMdrop14 (s : State) : Host.Outcome State Fault Refusal := mdrop 14 s

/-- MDROP m15. -/
def execMdrop15 (s : State) : Host.Outcome State Fault Refusal := mdrop 15 s

end Sys2Proof.Machine
end

