-- ==== Sys2Proof/Machine/System.lean ====
section
/-! DEFINITION. SYS but EDONE, and CTRL but MONUMENT: waiting, traps, the end of an exit routine, control registers and
timers (R154 to R162, R171 to R176). -/

namespace Sys2Proof.Machine

/-! ### SYS -/

/-- NOP. -/
def execNop (s : State) : Host.Outcome State Fault Refusal := issue 4 true (fun _ s => .ok s) s

/-- YIELD: the unit is passed over until every ready unit beside it has issued (R156). (Log 87 DEDUCED.) -/
def execYield (s : State) : Host.Outcome State Fault Refusal :=
  issue 4 true (fun cx s => .ok (modUnit s cx.u fun w => { w with yield := rivals s cx.u w })) s

/-- WAITLA. -/
def execWaitla (s : State) : Host.Outcome State Fault Refusal :=
  issue 4 false (fun cx s => .ok (modUnit s cx.u fun w => closeWin w cx.act)) s

/-- The active threads of an instruction are blocked until TIME reaches a deadline, and the warp sleeps until then (R156, R270,
R334). -/
def sleepWait (cx : Cx) (deadline : Nat) : Wait :=
  { kind := 10, arg := 0, flags := 0, value := deadline % 2 ^ 64, mask := 0, obj := 0, off := 0, threads := maskOf cx.act, pc := cx.pc
    len := cx.len, dest := none }

/-- The warp begins to sleep. Its PCs stand after the instruction. -/
def sleepUntil (cx : Cx) (deadline : Nat) (w : Warp) : Warp :=
  setMarks { w with waits := w.waits ++ [sleepWait cx deadline] } cx.act (.blocked false)

/-- SLEEP n. -/
def execSleep (n : SSrc) (s : State) : Host.Outcome State Fault Refusal :=
  issue (ssrcLen n) true (fun cx => guardWarp cx false (withFlow cx (ssrcName n) fun s =>
    let v := match n with
      | .lit w => w.toNat
      | .reg r => (getS (unitOf s cx.u) r.val).toNat % 2 ^ 32
    .ok (if v = 0 then s
      else modUnit s cx.u (sleepUntil cx (s.time + v))))) s

/-- TRAP [n]: a SOFT trap condition for every active thread, with INFO (R158, R159). -/
def execTrap (lit : Option (BitVec 32)) (s : State) : Host.Outcome State Fault Refusal :=
  issue (optLen lit) false (fun cx s =>
    if (unitOf s cx.u).routine.isSome then trapAll cx s cRoutine
    else .error (.trap cSoft (maskOf cx.act) ((lit.getD 0).toNat) false, s)) s

/-- TRET's conditions of R154; then the return (R161). (Log 26 DEDUCED.) -/
def bodyTret (skip : Bool) (cx : Cx) (s : State) : Res := guardWarp cx false (trapReturn cx skip) s

/-- TRET. -/
def execTret (s : State) : Host.Outcome State Fault Refusal := issue 4 true (bodyTret false) s

/-- TRET.skip. -/
def execTretSkip (s : State) : Host.Outcome State Fault Refusal := issue 4 true (bodyTret true) s

/-- Some routine thread is not active. -/
def routineSplit (cx : Cx) (r : Routine) : Bool := (threadsOf r.threads).any fun t => !cx.act.contains t

/-- The body of XDONE: the save ends without raw registers, and the warp leaves its slot (R162). (Log 55 DEDUCED.) -/
def bodyXdone (cx : Cx) (s : State) : Res :=
  let w := unitOf s cx.u
  if onOffset w then trapAll cx s cOffsetIllegal
  else
    match w.routine with
    | none => trapAll cx s cRoutine
    | some r =>
      if !r.exit || routineSplit cx r then trapAll cx s cRoutine
      else
        .ok (saveEnd (modUnit s cx.u fun w => closeWin w cx.act) cx.u
          { region := r.region, reason := r.reason, npkt := r.npkt, blocked := r.blocked, eject := r.eject, direct := false,
            raw := false, rfault := false, ovrn := false, cause := 0, high := r.high })

/-- XDONE. -/
def execXdone (s : State) : Host.Outcome State Fault Refusal := issue 4 true bodyXdone s

/-! ### CTRL -/

/-- RGNENT D (R171). -/
def execRgnent (d : PReg) (s : State) : Host.Outcome State Fault Refusal :=
  issue 4 false (fun cx s =>
    let x : Uses := { reads := [], writes := [.x d], data := [], tagged := false }
    if (RName.x d).beyond (unitOf s cx.u) then trapAll cx s cReservedField
    else
      guardWarp cx true (withOperands cx x (commit cx x fun s =>
        let v := BitVec.ofNat 32 (regionId s (unitOf s cx.u) (cx.pc + 4))
        .ok (modUnit s cx.u fun w =>
          cx.act.foldl (fun w t => setX w t d v 0) (closeWin w (liveThreads w))))) s) s

/-- TMASK writes TRAPCTL.TM inside the trap handler (R173). -/
def tmask (b : Bool) (cx : Cx) (s : State) : Res :=
  guardWarp cx false (fun s =>
    if (unitOf s cx.u).inh then .ok (modUnit s cx.u fun w => { w with tm := b }) else trapAll cx s cRoutine) s

/-- TMASK 0. -/
def execTmaskOff (s : State) : Host.Outcome State Fault Refusal := issue 4 true (tmask false) s

/-- TMASK 1. -/
def execTmaskOn (s : State) : Host.Outcome State Fault Refusal := issue 4 true (tmask true) s

/-- The warp whose per-warp registers a unit reads: an ejected thread reads its warp's (R63, R273). -/
def ownerOf (s : State) (w : Warp) : Warp :=
  match w.off with
  | some o =>
    match o.parent with
    | some p => unitOf s p
    | none => w
  | none => w

/-- The 64-bit counters: 0 CYC of the die where the thread runs, 1 TIME, 2 WTIME of the warp (R77, R175). -/
def counterOf (s : State) (w : Warp) (k : Nat) : Nat :=
  (match k with
    | 0 => sget 0 s.cyc (dieOf w.loc)
    | 1 => s.time
    | _ => (ownerOf s w).wtime) % 2 ^ 64

/-- The counter and half of a control register: WTIME, CYC or TIME, and whether it is the high half. -/
def counterHalf (n : Nat) : Option (Nat × Bool) :=
  if n = 0x50 then some (2, false) else if n = 0x51 then some (2, true)
  else if n = 0x60 then some (0, false) else if n = 0x61 then some (0, true)
  else if n = 0x62 then some (1, false) else if n = 0x63 then some (1, true)
  else none

/-- REGALLOC (R65). -/
def regAlloc (w : Warp) : Nat := w.naccs * 2 ^ 20 + w.ntiles * 2 ^ 16 + w.elastic * 2 ^ 8 + w.base

/-- STKDEPTH (R65). -/
def stkDepth (w : Warp) (t : Nat) : Nat := (getRas w t).chip.length + (getRas w t).spilled % 2 ^ 24 * 2 ^ 8

/-- The value of a control register that is no half of a counter (R64, R65). `p` is the warp whose per-warp registers are
read. (Log 51 DEDUCED.) -/
def ctlValue (s : State) (w p : Warp) (t n : Nat) : Nat :=
  let c := ctxOf s w.asid
  if n = 0x000 then Config.cfgRev.toNat
  else if n = 0x001 then cfgCores s
  else if n = 0x002 then cfgOffcores s
  else if 0x009 ≤ n && n ≤ 0x00F then cfgLevel s (n - 8)
  else if n = 0x010 then cfgSelf w
  else if n = 0x020 then w.rmode
  else if n = 0x021 then regAlloc w
  else if n = 0x022 then p.tm.toNat + 2 * p.inh.toNat
  else if n = 0x023 then regionId s p (lowPc p (liveThreads p))
  else if 0x030 ≤ n && n ≤ 0x037 then getTshp p (n - 0x030)
  else if 0x038 ≤ n && n ≤ 0x03B then getAshp p (n - 0x038)
  else if n = 0x040 then stkDepth w t
  else if n = 0x052 then p.wtcmp % 2 ^ 32
  else if n = 0x053 then p.wtcmp / 2 ^ 32
  else if n = 0x070 then c.exitBudget
  else if n = 0x071 then c.rejoinLimit
  else if n = 0x072 then c.tmaskBound
  else 0

/-- One thread's RDCTL, with the latch rule of R63. -/
def readCtl (s : State) (pc : Nat) (act : List Nat) (d : PReg) (n : Nat) (w : Warp) (t : Nat) : Warp :=
  match counterHalf n with
  | some (k, high) =>
    let v := counterOf s w k
    let key := k * 128 + t
    if high then
      setX w t d (match sget none w.latch key with
        | some l => l
        | none => BitVec.ofNat 32 (v / 2 ^ 32)) 0
    else
      setX { w with latch := sset none w.latch key (some (BitVec.ofNat 32 (v / 2 ^ 32))) } t d (BitVec.ofNat 32 v) 0
  | none =>
    let p := if onOffset w then ownerOf s w else setPcs w act pc
    setX w t d (BitVec.ofNat 32 (ctlValue s w p t n)) 0

/-- The body of RDCTL. STKDEPTH waits for a refill in flight (R286). -/
def bodyRdctl (d : PReg) (n : Nat) (cx : Cx) (s : State) : Res :=
  let x : Uses := { reads := [], writes := [.x d], data := [], tagged := false }
  withOperands cx x (fun s =>
    match if n = 0x040 then refillAll cx cx.act s else .ok s with
    | .error e => .error e
    | .ok s => commit cx x (fun s => .ok (modUnit s cx.u fun w => cx.act.foldl (readCtl s cx.pc cx.act d n) w)) s) s

/-- RDCTL D, CTLNAME (R174). -/
def execRdctl (d : PReg) (c : BitVec 12) (s : State) : Host.Outcome State Fault Refusal := issue 4 false (bodyRdctl d c.toNat) s

/-- The value is no tile shape (R60, R62). -/
def tshpBad (v : Nat) : Bool :=
  let ew := bitsOf v 13 2
  2 ^ 15 ≤ v || ew == 3 || (if ew = 0 then 127 else if ew = 1 then 63 else 31) < bitsOf v 6 7

/-- The value is no accumulator shape (R61, R62). -/
def ashpBad (v : Nat) : Bool := 2 ^ 12 ≤ v

/-- The trap of a value that a control register does not take (R35, R62). -/
def ctlBad (n v : Nat) : Option Nat :=
  if n = 0x020 then
    if 16 ≤ v then some cReservedField else if 6 ≤ v % 8 then some cFormat else none
  else if 0x030 ≤ n && n ≤ 0x037 then if tshpBad v then some cTileShape else none
  else if 0x038 ≤ n && n ≤ 0x03B then if ashpBad v then some cTileShape else none
  else none

/-- Write a control register (R63). -/
def writeCtl (w : Warp) (n v : Nat) : Warp :=
  if n = 0x020 then { w with rmode := v }
  else if 0x030 ≤ n && n ≤ 0x037 then { w with tshp := sset 0x2FFF w.tshp (n - 0x030) v }
  else if 0x038 ≤ n && n ≤ 0x03B then { w with ashp := sset 0xFFF w.ashp (n - 0x038) v }
  else if n = 0x052 then { w with wtstage := some (BitVec.ofNat 32 v) }
  else if n = 0x053 then { w with wtcmp := v % 2 ^ 32 * 2 ^ 32 + (w.wtstage.getD 0).toNat, wtstage := none }
  else w

/-- A source that only the lowest active thread reads (R174, R176); then `k` is given its value. -/
def withLowest (cx : Cx) (a : Src) (k : Word → State → Res) (s : State) : Res :=
  let x : Uses := { reads := srcName a, writes := [], data := [], tagged := false }
  let t := lowest cx.act
  guardNames cx x (fun s =>
    match replaySrcs cx (srcRegs a) s with
    | .error e => .error e
    | .ok s => guardPoison { cx with act := [t] } x (fun s => k (getSrc (unitOf s cx.u) t a) s) s) s

/-- The body of WRCTL: a literal that the register does not take is refused first (R95). (Log 51 DEDUCED.) -/
def bodyWrctl (n : Nat) (a : Src) (cx : Cx) (s : State) : Res :=
  let bad := match a with
    | .lit v => ctlBad n v.toNat
    | .reg _ => none
  guardAll cx s bad fun s =>
    if onOffset (unitOf s cx.u) then
      guardNames cx { reads := srcName a, writes := [], data := [], tagged := false } (fun s =>
        guardAll cx s (ctlBad n (getSrc (unitOf s cx.u) (lowest cx.act) a).toNat) fun s => trapAll cx s cOffsetIllegal) s
    else
      withLowest cx a (fun v s => guardAll cx s (ctlBad n v.toNat) fun s =>
        .ok (modUnit s cx.u fun w => writeCtl w n v.toNat)) s

/-- WRCTL CTLNAME, A|imm (R174). -/
def execWrctl (c : BitVec 12) (a : Src) (s : State) : Host.Outcome State Fault Refusal :=
  issue (srcLen a) true (bodyWrctl c.toNat a) s

/-- A 64-bit counter into a register pair, in one step (R175). -/
def bodyCounter (d : PReg) (k : Nat) (cx : Cx) (s : State) : Res :=
  let x : Uses := { reads := [], writes := [.x d, .x (pnext d 1)], data := [], tagged := false }
  withOperands cx x (commit cx x fun s =>
    let v := counterOf s (unitOf s cx.u) k
    .ok (modUnit s cx.u fun w => cx.act.foldl (fun w t =>
      setX (setX w t d (BitVec.ofNat 32 v) 0) t (pnext d 1) (BitVec.ofNat 32 (v / 2 ^ 32)) 0) w)) s

/-- RDCYC D. -/
def execRdcyc (d : PReg) (s : State) : Host.Outcome State Fault Refusal := issue 4 false (bodyCounter d 0) s

/-- RDCYC.time D. -/
def execRdcycTime (d : PReg) (s : State) : Host.Outcome State Fault Refusal := issue 4 false (bodyCounter d 1) s

/-- RDWT D. -/
def execRdwt (d : PReg) (s : State) : Host.Outcome State Fault Refusal := issue 4 false (bodyCounter d 2) s

/-- WTARM A|imm (R176). -/
def execWtarm (a : Src) (s : State) : Host.Outcome State Fault Refusal :=
  issue (srcLen a) true (fun cx s =>
    if (srcName a).any fun n => n.beyond (unitOf s cx.u) then trapAll cx s cReservedField
    else
      guardWarp cx false (withLowest cx a fun v s =>
        .ok (modUnit s cx.u fun w => { w with wtcmp := if v = 0 then 0 else (w.wtime + v.toNat) % 2 ^ 64 })) s) s

end Sys2Proof.Machine
end

