-- ==== Sys2Proof/Machine/Tile.lean ====
section
/-! DEFINITION. TCFG, TLD, TLDT, TST, TZERO, MMA, SCACC, ACST and ACLD (R215 to R228). -/

namespace Sys2Proof.Machine

/-! ### Shapes and contents -/

/-- ROWS + 1, COLS + 1 and the element width of a tile shape (R60). -/
structure TShape where
  rows : Nat
  cols : Nat
  w : Nat
  deriving DecidableEq, Repr

/-- The shape that a TSHP value holds. -/
def shapeOf (v : Nat) : TShape := ⟨bitsOf v 0 6 + 1, bitsOf v 6 7 + 1, 4 * 2 ^ bitsOf v 13 2⟩

/-- rb: the bytes of a tile row in use (R220). -/
def TShape.rb (x : TShape) : Nat := (x.cols * x.w + 7) / 8

/-- Rows and columns of an accumulator shape (R61). -/
def accShape (v : Nat) : Nat × Nat := (bitsOf v 0 6 + 1, bitsOf v 6 6 + 1)

/-- Entry `n` of a table of 4,096 entries per number. -/
def slot4k {α : Type} (l : Store α) (n : Nat) : Store α :=
  (sbelow (sfrom l (n * 4096)) (n * 4096 + 4096)).map fun p => (p.1 - n * 4096, p.2)

/-- Poison of byte `i` of tile `n`. -/
def tilePoison (w : Warp) (n i : Nat) : Bool := sget false w.regs.tp (n * 4096 + i)

/-- Poison of an accumulator element. -/
def accPoison (w : Warp) (n r c : Nat) : Bool := sget false w.regs.ap (n * 4096 + r * 64 + c)

/-- A parity error of a tile byte or an accumulator element counts as poison when it is read, until the byte or element is written
(R225). (Log 80 DESIGN CHOICE.) -/
def parityError (s : State) (p : Nat × Bool × Nat) : State :=
  modUnit s p.1 fun w =>
    if p.2.1 then { w with regs := { w.regs with ap := sset false w.regs.ap p.2.2 true } }
    else { w with regs := { w.regs with tp := sset false w.regs.tp p.2.2 true } }

/-- The bytes that element `c` of row `i` lies in are poisoned. -/
def elemPoison (p : Nat → Bool) (i c w : Nat) : Bool := p (i * 64 + c * w / 8) || p (i * 64 + (c * w + w - 1) / 8)

/-- A tile or accumulator code beyond the warp's allocation, or of the wrong kind (R59). -/
def tileBad (w : Warp) (c : Nat) : Bool := w.ntiles ≤ c || 8 ≤ c

/-- The same of an accumulator code. -/
def accBad (w : Warp) (c : Nat) : Bool := c < 8 || w.naccs ≤ c - 8

/-! ### Conditions -/

/-- What R217 gives an instruction in a routine. -/
inductive InRoutine where
  /-- As usual in both. -/
  | usual
  /-- A forbidden act in an exit routine; as usual in an entry routine. -/
  | forbidExit
  /-- A forbidden act in an exit routine; ROUTINE in an entry routine. -/
  | never
  deriving DecidableEq, Repr

/-- The outcomes of R215 and R217 before the instruction's own conditions. -/
def guardEngine (cx : Cx) (x : InRoutine) (k : State → Res) (s : State) : Res :=
  let w := unitOf s cx.u
  if onOffset w then trapAll cx s cOffsetIllegal
  else if inExit w && x ≠ .usual then .error (.forbid, s)
  else if (liveThreads w).any fun t => !cx.act.contains t then trapAll cx s cMaskPartial
  else if inEntry w && x = .never then trapAll cx s cRoutine
  else k s

/-- The lowest live thread, whose c registers an engine reads (R215). -/
def lowLive (w : Warp) : Nat := lowest (liveThreads w)

/-- The uniform and capability operands of an engine: c registers are read from the lowest live thread. -/
def withEngine (cx : Cx) (reads writes : List RName) (k : State → Res) (s : State) : Res :=
  let x : Uses := { reads := reads, writes := writes, data := [], tagged := false }
  guardNames cx x (guardPoison { cx with act := [lowLive (unitOf s cx.u)] } x (commit cx x k)) s

/-! ### The scoreboard (R98, R216, R372) -/

/-- The tile and accumulator codes that a follow-on word reads and writes. -/
def followNames (word : Nat) : List Nat × List Nat :=
  let td := bitsOf word 8 4
  let ta := bitsOf word 12 4
  let tb := bitsOf word 16 4
  if word = 0 then ([], []) else ([ta, tb, td], [td])

/-- The codes that a copy in flight reads and writes. -/
def copyNames (c : Copy) : List Nat × List Nat :=
  let tile := bitsOf (c.desc.getD 2 0).toNat 32 4
  let f := followNames (bitsOf (c.desc.getD 3 0).toNat 32 32)
  if c.g = 1 && c.f = 1 then ([tile], [])
  else if c.g = 1 && (c.f = 0 || c.f = 3) then (f.1, (if c.rows.isEmpty then [] else [tile]) ++ f.2)
  else ([], [])

/-- Copies in flight make what reads and writes these names wait. -/
def copiesBlock (l : List Copy) (reads writes : List Nat) : Bool :=
  l.any fun c =>
    (copyNames c).2.any (fun n => reads.contains n || writes.contains n) || (copyNames c).1.any writes.contains

/-- Copies in flight make an instruction with these names wait; those that a save has cancelled or captured do not. -/
def copyBlocks (w : Warp) (reads writes : List Nat) : Bool :=
  copiesBlock (w.copies.filter fun c => !c.cancelled && !c.held) reads writes

/-- The instruction waits for copies that name its operands; operations in flight complete (R216, R372). (Log 49 DEDUCED.) -/
def awaitTiles (cx : Cx) (reads writes : List Nat) (k : State → Res) (s : State) : Res :=
  if copyBlocks (unitOf s cx.u) reads writes then .error (.hold, s)
  else k (modUnit s cx.u fun w => scoreboard w reads writes)

/-- Start a tile operation whose result is known (R216). -/
def startTop (cx : Cx) (la : Fin 16) (reads writes : List Nat) (x : TileWrite) (s : State) : State :=
  modUnit s cx.u fun w => { w with tops := w.tops ++ [⟨cx.id, reads, writes, la.val, [x]⟩] }

/-! ### TCFG and TZERO -/

/-- A value that TCFG may not write. -/
def shapeBad (d v : Nat) : Bool := if d < 8 then tshpBad v else ashpBad v

/-- TILE_SHAPE of TCFG, in the place that R95 gives it: a code beyond the allocation, or a bad shape; the value of a poisoned
register is none yet. -/
def tcfgBad (w : Warp) (d : Nat) (b : SSrc) : Bool :=
  (if d < 8 then tileBad w d else accBad w d)
    || (!((ssrcName b).any fun n => 0 < n.mark w 0) && shapeBad d ((getSSrc w b).toNat % 2 ^ 32))

/-- TCFG tD|aD, sB|imm (R218). -/
def bodyTcfg (d : Fin 16) (b : SSrc) (cx : Cx) (s : State) : Res :=
  let w := unitOf s cx.u
  if tcfgBad w d.val b then trapAll cx s cTileShape
  else if onOffset w then trapAll cx s cOffsetIllegal
  else
    withOperands cx { reads := ssrcName b, writes := [], data := [], tagged := false } (fun s =>
      .ok (modUnit s cx.u fun w => writeCtl w (0x030 + d.val) ((getSSrc w b).toNat % 2 ^ 32))) s

/-- TCFG. -/
def execTcfg (d : Fin 16) (b : SSrc) (s : State) : Host.Outcome State Fault Refusal := issue (ssrcLen b) true (bodyTcfg d b) s

/-- The body of TZERO (R222). (Log 49 DEDUCED.) -/
def bodyTzero (la td : Fin 16) (acc : Bool) (cx : Cx) (s : State) : Res :=
  let w := unitOf s cx.u
  if (if acc then accBad w td else tileBad w td) then trapAll cx s cTileShape
  else
    guardEngine cx .forbidExit (awaitTiles cx [] [td.val] fun s =>
      .ok (startTop cx la [] [td.val] ⟨acc, if acc then td.val - 8 else td.val, [], [], [], []⟩ s)) s

/-- TZERO tD. -/
def execTzeroTile (la td : Fin 16) (s : State) : Host.Outcome State Fault Refusal := issue 4 true (bodyTzero la td false) s

/-- TZERO aD. -/
def execTzeroAcc (la td : Fin 16) (s : State) : Host.Outcome State Fault Refusal := issue 4 true (bodyTzero la td true) s

/-! ### Rows of storage (R220, R221) -/

/-- Where the rows of a tile access lie: a capability and its first byte, or a scratchpad offset. -/
structure Rows where
  spm : Bool
  cap : Cap
  base : Int
  str : Nat
  rows : Nat
  len : Nat

/-- The extent from the base. -/
def Rows.extent (x : Rows) : Nat := (x.rows - 1) * x.str + x.len

/-- The checks of R220, steps 2 and 3. -/
def rowsCheck (s : State) (w : Warp) (x : Rows) (need kinds : Nat) : Option Nat :=
  if x.spm then
    let size := match allocAt (groupOf s w.grp) (homeCore s w) with
      | some a => a.size
      | none => 0
    if x.base < 0 || (size : Int) < x.base + x.extent then some cCapBounds
    else if x.base % 16 ≠ 0 then some cMisalign else none
  else localCheck s w x.cap x.base x.extent need kinds 16

/-- Read one row: its bytes, each with its poison mark. (Log 53 DEDUCED.) -/
def readRow (u : Nat) (x : Rows) (i : Nat) (s : State) : State × Except Bad (List PByte) :=
  let w := unitOf s u
  let a := (x.base + i * x.str).toNat
  if x.spm then
    match spmReadM s w.grp (homeCore s w) a x.len with
    | some l => (s, .ok l)
    | none => (s, .error (.trap cCapBounds))
  else capReadM s w x.cap a x.len

/-- Read the rows from `i` on, `n` of them. -/
def readRows (u : Nat) (x : Rows) : Nat → Nat → State → State × Except Bad (List (List PByte))
  | 0, _, s => (s, .ok [])
  | n + 1, i, s =>
    match readRow u x i s with
    | (s, .error b) => (s, .error b)
    | (s, .ok r) =>
      match readRows u x n (i + 1) s with
      | (s, .error b) => (s, .error b)
      | (s, .ok l) => (s, .ok (r :: l))

/-- Write one row. -/
def writeRow (u : Nat) (x : Rows) (i : Nat) (bs : List Byte) (s : State) : State × Except Bad Unit :=
  let w := unitOf s u
  let a := (x.base + i * x.str).toNat
  if x.spm then
    match spmWrite s w.grp (homeCore s w) a bs false with
    | some s => (s, .ok ())
    | none => (s, .error (.trap cCapBounds))
  else
    match capWrite s w x.cap a bs false with
    | (s, .ok _) => (noteHigh u x.cap (a + bs.length) s, .ok ())
    | r => r

/-- Write rows in rising order. -/
def writeRows (u : Nat) (x : Rows) : Nat → List (List Byte) → State → State × Except Bad Unit
  | _, [], s => (s, .ok ())
  | i, bs :: r, s =>
    match writeRow u x i bs s with
    | (s, .ok _) => writeRows u x (i + 1) r s
    | e => e

/-- An access of the instruction that did not complete: a page fault vectors the warp, and the instruction issues again
(R221). -/
def engineStop (cx : Cx) (s : State) : Bad → Res
  | .trap c => trapAll cx s c
  | .ctx c => .error (.ctx c, s)
  | .fault f => .error (.page (cx.act.map fun t => (t, f)) false, s)

/-- The operand of a tile access: the capability of the lowest live thread, or the local scratchpad (R219). -/
def rowsOf (w : Warp) (spm : Bool) (ta : Fin 16) (stride : BitVec 13) (disp : BitVec 19) (rows len : Nat) : Rows :=
  let c := if spm then Cap.null else getC w (lowLive w) ta.val
  { spm := spm, cap := c, base := (c.cursor : Int) + disp.toNat, str := 16 * stride.toNat, rows := rows, len := len }

/-- The capability that a tile access names. -/
def rowsName (spm : Bool) (ta : Fin 16) : List RName := if spm then [] else [.c ta.val]

/-! ### TLD, TLDT and TST -/

/-- The TLDT rule (R220). -/
def tldtBad (x : TShape) : Bool := x.rows % 16 ≠ 0 || x.cols % 4 ≠ 0

/-- A tile from rows that are its own rows. -/
def tileOfRows (n : Nat) (x : TShape) (rs : List (List PByte)) : TileWrite :=
  let mask := fun (bs : List Byte) => if x.cols * x.w % 8 = 4 then bs.dropLast ++ [bs.getLastD 0 &&& 0x0F] else bs
  { acc := false, num := n
    bytes := rs.zipIdx.foldl (fun l p => ssetMany 0 l (p.2 * 64) (mask (p.1.map (·.1)))) []
    bpoison := rs.zipIdx.foldl (fun l p => ssetMany false l (p.2 * 64) (p.1.map (·.2))) []
    words := [], wpoison := [] }

/-- Byte `k` of row `i` of the transposed tile: elements of column-major source rows (R221). -/
def tldtByte (x : TShape) (rs : List (List PByte)) (i k : Nat) : Byte × Bool :=
  let src := fun (j : Nat) =>
    let at_ := fun k => (rs.getD j []).getD k (0, false)
    let o := i * x.w / 8
    let v := if x.w = 4 then (at_ o).1.toNat / 2 ^ (4 * (i % 2)) % 16
      else (at_ o).1.toNat + 256 * (if x.w = 16 then (at_ (o + 1)).1.toNat else 0)
    (v, (at_ o).2 || (x.w = 16 && (at_ (o + 1)).2))
  if x.w = 4 then
    let a := src (2 * k)
    let b := if 2 * k + 1 < x.cols then src (2 * k + 1) else (0, false)
    (BitVec.ofNat 8 (a.1 + 16 * b.1), a.2 || b.2)
  else if x.w = 8 then let a := src k; (BitVec.ofNat 8 a.1, a.2)
  else let a := src (k / 2); (BitVec.ofNat 8 (a.1 / 256 ^ (k % 2)), a.2)

/-- The tile that TLDT writes. -/
def tileTransposed (n : Nat) (x : TShape) (rs : List (List PByte)) : TileWrite :=
  { acc := false, num := n
    bytes := (List.range x.rows).foldl (fun l i =>
      ssetMany 0 l (i * 64) ((List.range x.rb).map fun k => (tldtByte x rs i k).1)) []
    bpoison := (List.range x.rows).foldl (fun l i =>
      ssetMany false l (i * 64) ((List.range x.rb).map fun k => (tldtByte x rs i k).2)) []
    words := [], wpoison := [] }

/-- The body of TLD and TLDT. The TLDT rule is a TILE_SHAPE condition in the place that R95 gives it. -/
def bodyTld (t : Bool) (la : Fin 16) (spm : Bool) (ta td : Fin 16) (stride : BitVec 13) (disp : BitVec 19) (cx : Cx) (s : State) : Res :=
  let w := unitOf s cx.u
  if tileBad w td || (t && tldtBad (shapeOf (getTshp (ownerOf s w) td.val))) then trapAll cx s cTileShape
  else
    guardEngine cx .forbidExit (withEngine cx (rowsName spm ta) [] fun s =>
      let w := unitOf s cx.u
      let x := shapeOf (getTshp w td.val)
      let r := rowsOf w spm ta stride disp (if t then x.cols else x.rows) (if t then (x.rows * x.w + 7) / 8 else x.rb)
      guardAll cx s (rowsCheck s w r rR 0b1111) (awaitTiles cx [] [td.val] fun s =>
        match readRows cx.u r r.rows 0 s with
        | (s, .error b) => engineStop cx s b
        | (s, .ok rs) =>
          .ok (startTop cx la [] [td.val] (if t then tileTransposed td.val x rs else tileOfRows td.val x rs) s))) s

/-- TLD. -/
def execTld (la : Fin 16) (spm : Bool) (ta td : Fin 16) (stride : BitVec 13) (disp : BitVec 19) (s : State) :
    Host.Outcome State Fault Refusal :=
  issue 8 true (bodyTld false la spm ta td stride disp) s

/-- TLDT. -/
def execTldt (la : Fin 16) (spm : Bool) (ta td : Fin 16) (stride : BitVec 13) (disp : BitVec 19) (s : State) :
    Host.Outcome State Fault Refusal :=
  issue 8 true (bodyTld true la spm ta td stride disp) s

/-- The bytes of row `i` that TST stores: an unused high nibble is 0 (R221). -/
def tstRow (w : Warp) (n : Nat) (x : TShape) (i : Nat) : List Byte :=
  (List.range x.rb).map fun k =>
    let b := getTile w n (i * 64 + k)
    if x.w = 4 && x.cols ≤ 2 * k + 1 then b &&& 0x0F else b

/-- TST and ACST in an exit routine are allowed only to c7 (R217). -/
def storeRoutine (spm : Bool) (ta : Fin 16) : InRoutine := if !spm && ta.val = 7 then .usual else .forbidExit

/-- A store of poisoned tile bytes or accumulator elements is a consumed uncorrectable error (R221). -/
def guardConsumed (bad : Bool) (k : State → Res) (s : State) : Res := if bad then .error (.ctx 3, s) else k s

/-- The body of TST. (Log 44 DESIGN CHOICE.) -/
def bodyTst (spm : Bool) (ta td : Fin 16) (stride : BitVec 13) (disp : BitVec 19) (cx : Cx) (s : State) : Res :=
  if tileBad (unitOf s cx.u) td then trapAll cx s cTileShape
  else
    guardEngine cx (storeRoutine spm ta) (withEngine cx (rowsName spm ta) [] fun s =>
      let x := shapeOf (getTshp (unitOf s cx.u) td.val)
      let r := rowsOf (unitOf s cx.u) spm ta stride disp x.rows x.rb
      guardAll cx s (rowsCheck s (unitOf s cx.u) r rW 0b1011) (awaitTiles cx [td.val] [] fun s =>
        let w := unitOf s cx.u
        guardConsumed ((List.range x.rows).any fun i => (List.range x.rb).any fun k => tilePoison w td.val (i * 64 + k)) (fun s =>
          match writeRows cx.u r 0 ((List.range x.rows).map (tstRow w td.val x)) s with
          | (s, .ok _) => .ok s
          | (s, .error b) => engineStop cx s b) s)) s

/-- TST. -/
def execTst (la : Fin 16) (spm : Bool) (ta td : Fin 16) (stride : BitVec 13) (disp : BitVec 19) (s : State) :
    Host.Outcome State Fault Refusal :=
  let _ := la
  issue 8 true (bodyTst spm ta td stride disp) s

/-! ### MMA and SCACC -/

/-- What a matrix command acts with: PC, RMODE and the shapes captured at issue (R36, R216, R233). -/
structure MatEnv where
  pc : Nat
  rmode : Nat
  tshp : List Nat
  ashp : List Nat
  deriving DecidableEq, Repr

/-- The shapes of a warp as they stand. -/
def matEnv (w : Warp) (pc rmode : Nat) : MatEnv :=
  { pc := pc, rmode := rmode, tshp := (List.range 8).map (getTshp w), ashp := (List.range 4).map (getAshp w) }

/-- The shape of a tile in an environment. -/
def MatEnv.tile (e : MatEnv) (n : Nat) : TShape := shapeOf (e.tshp.getD n 0x2FFF)

/-- The shape of an accumulator in an environment. -/
def MatEnv.acc (e : MatEnv) (n : Nat) : Nat × Nat := accShape (e.ashp.getD n 0xFFF)

/-- The shape condition of MMA (R223). -/
def mmaBad (e : MatEnv) (fmt ta tb d : Nat) : Bool :=
  let a := e.tile ta
  let b := e.tile tb
  a.w ≠ (mmaFmt fmt).width || b.w ≠ (mmaFmt fmt).width || a.cols ≠ b.cols || e.acc d ≠ (a.rows, b.rows)

/-- A new accumulator: elements inside the shape are `f`'s, the others as they were. -/
def accFrom (w : Warp) (d m n : Nat) (f : Nat → Nat → Word) (p : Nat → Nat → Bool) : TileWrite :=
  { acc := true, num := d, bytes := [], bpoison := []
    words := (List.range m).foldl (fun l i => ssetMany 0 l (i * 64) ((List.range n).map (f i))) (slot4k w.regs.a d)
    wpoison := (List.range m).foldl (fun l i => ssetMany false l (i * 64) ((List.range n).map (p i))) (slot4k w.regs.ap d) }

/-- A row of a tile has a poisoned element among its first `k`. -/
def rowPoison (w : Warp) (n i k ew : Nat) : Bool := (List.range k).any fun c => elemPoison (tilePoison w n) i c ew

/-- The accumulator that MMA writes. The MX partial ignores RMODE (R48). -/
def mmaWrite (w : Warp) (e : MatEnv) (fmt : Nat) (acc : Bool) (tb ta d : Nat) : TileWrite :=
  let x := e.tile ta
  let k := x.cols
  let f := mmaFmt fmt
  let rmode := if fmt = 5 && k = 32 then 0 else e.rmode
  let row := fun n i => (List.range k).map fun c => fdec f (tileElem (getTile w n) i c x.w)
  accFrom w d (e.acc d).1 (e.acc d).2
    (fun i j =>
      let x : FEnv := ⟨e.pc, i, rmode⟩
      BitVec.ofNat 32 (mmaElem x.mode x.origin (mmaGroup fmt) (row ta i) (row tb j)
        (if acc then some (getAcc w d i j).toNat else none)))
    (fun i j => rowPoison w ta i k x.w || rowPoison w tb j k x.w || (acc && accPoison w d i j))

/-- The body of MMA. -/
def bodyMma (la fmt : Fin 16) (acc : Bool) (tb ta td : Fin 16) (cx : Cx) (s : State) : Res :=
  let w := unitOf s cx.u
  if 6 ≤ fmt.val || (fmt.val = 5 && acc) then trapAll cx s cFormat
  else if accBad w td || tileBad w ta || tileBad w tb then trapAll cx s cTileShape
  else
    guardEngine cx .never (fun s =>
      let e := matEnv (unitOf s cx.u) cx.pc cx.rmode
      if mmaBad e fmt.val ta.val tb.val (td.val - 8) then trapAll cx s cTileShape
      else
        let reads := ta.val :: tb.val :: (if acc then [td.val] else [])
        awaitTiles cx reads [td.val] (fun s =>
          .ok (startTop cx la reads [td.val] (mmaWrite (unitOf s cx.u) e fmt.val acc tb.val ta.val (td.val - 8)) s)) s) s

/-- MMA.fmt[.acc] aD, tA, tB. -/
def execMma (la fmt : Fin 16) (acc : Bool) (tb ta td : Fin 16) (s : State) : Host.Outcome State Fault Refusal :=
  issue 4 true (bodyMma la fmt acc tb ta td) s

/-- The shape conditions of SCACC (R226). -/
def scaccBad (e : MatEnv) (pair ts p d : Nat) : Bool :=
  let t := e.tile ts
  let (m, n) := e.acc d
  p = d || e.acc d ≠ e.acc p || t.w ≠ 8 || t.rows < 2 * pair + 2 || t.cols < max m n

/-- The accumulator that SCACC writes. -/
def scaccWrite (w : Warp) (e : MatEnv) (pair : Nat) (acc : Bool) (ts p d : Nat) : TileWrite :=
  let sc := fun r c => tileElem (getTile w ts) r c 8
  let sp := fun r c => elemPoison (tilePoison w ts) r c 8
  accFrom w d (e.acc d).1 (e.acc d).2
    (fun i j =>
      let x : FEnv := ⟨e.pc, i, e.rmode⟩
      BitVec.ofNat 32 (scaccElem x.mode x.origin (sc (2 * pair) i) (sc (2 * pair + 1) j) (getAcc w p i j).toNat
        (if acc then some (getAcc w d i j).toNat else none)))
    (fun i j => accPoison w p i j || sp (2 * pair) i || sp (2 * pair + 1) j || (acc && accPoison w d i j))

/-- The body of SCACC. Its shapes are a TILE_SHAPE condition in the place that R95 gives it. -/
def bodyScacc (la : Fin 16) (pair : Fin 8) (acc : Bool) (tb ta td : Fin 16) (cx : Cx) (s : State) : Res :=
  let w := unitOf s cx.u
  if accBad w td || accBad w ta || tileBad w tb
      || scaccBad (matEnv (ownerOf s w) cx.pc cx.rmode) pair.val tb.val (ta.val - 8) (td.val - 8) then
    trapAll cx s cTileShape
  else
    guardEngine cx .never (fun s =>
      let e := matEnv (unitOf s cx.u) cx.pc cx.rmode
      let reads := ta.val :: tb.val :: (if acc then [td.val] else [])
      awaitTiles cx reads [td.val] (fun s =>
        .ok (startTop cx la reads [td.val]
          (scaccWrite (unitOf s cx.u) e pair.val acc tb.val (ta.val - 8) (td.val - 8)) s)) s) s

/-- SCACC[.acc] aD, aP, tS, pair. -/
def execScacc (la : Fin 16) (pair : Fin 8) (acc : Bool) (tb ta td : Fin 16) (s : State) : Host.Outcome State Fault Refusal :=
  issue 4 true (bodyScacc la pair acc tb ta td) s

/-! ### ACST and ACLD -/

/-- The float codes that ACCIO allows (R227). -/
def accFmtOk (n : Nat) : Bool := n ≤ 4 || n = 6

/-- The bytes of row `i` that ACST stores. -/
def acstRow (w : Warp) (e : MatEnv) (f : Fmt) (d n i : Nat) : List Byte :=
  (List.range n).flatMap fun j =>
    let x : FEnv := ⟨e.pc, i, e.rmode⟩
    toBytes (f.width / 8)
      (if f = .f32 then (getAcc w d i j).toNat else fenc f x.mode x.sat x.origin (decW (getAcc w d i j)))

/-- The body of ACST. (Log 44 DESIGN CHOICE.) -/
def bodyAcst (fmt : Fin 16) (spm : Bool) (ta td : Fin 16) (stride : BitVec 13) (disp : BitVec 19) (cx : Cx) (s : State) : Res :=
  let w := unitOf s cx.u
  if !accFmtOk fmt.val then trapAll cx s cFormat
  else if accBad w td then trapAll cx s cTileShape
  else
    guardEngine cx (storeRoutine spm ta) (withEngine cx (rowsName spm ta) [] fun s =>
      let e := matEnv (unitOf s cx.u) cx.pc cx.rmode
      let f := fmtOf fmt.val
      let d := td.val - 8
      let (m, n) := e.acc d
      let r := rowsOf (unitOf s cx.u) spm ta stride disp m (n * (f.width / 8))
      guardAll cx s (rowsCheck s (unitOf s cx.u) r rW 0b1011) (awaitTiles cx [td.val] [] fun s =>
        let w := unitOf s cx.u
        guardConsumed ((List.range m).any fun i => (List.range n).any fun j => accPoison w d i j) (fun s =>
          match writeRows cx.u r 0 ((List.range m).map (acstRow w e f d n)) s with
          | (s, .ok _) => .ok s
          | (s, .error b) => engineStop cx s b) s)) s

/-- ACST.fmt. -/
def execAcst (la fmt : Fin 16) (spm : Bool) (ta td : Fin 16) (stride : BitVec 13) (disp : BitVec 19) (s : State) :
    Host.Outcome State Fault Refusal :=
  let _ := la
  issue 8 true (bodyAcst fmt spm ta td stride disp) s

/-- An element of a loaded row, widened exactly: a NaN is carried quieted, one of f32 too (R44, R228). -/
def acldElem (e : MatEnv) (f : Fmt) (r : List PByte) (i j : Nat) : Word × Bool :=
  let n := f.width / 8
  let (bs, p) := unmarked ((r.drop (j * n)).take n)
  (encW ⟨e.pc, i, e.rmode⟩ (fdec f (ofBytes bs)), p)

/-- The body of ACLD. -/
def bodyAcld (la fmt : Fin 16) (spm : Bool) (ta td : Fin 16) (stride : BitVec 13) (disp : BitVec 19) (cx : Cx) (s : State) : Res :=
  let w := unitOf s cx.u
  if !accFmtOk fmt.val then trapAll cx s cFormat
  else if accBad w td then trapAll cx s cTileShape
  else
    guardEngine cx .forbidExit (withEngine cx (rowsName spm ta) [] fun s =>
      let e := matEnv (unitOf s cx.u) cx.pc cx.rmode
      let f := fmtOf fmt.val
      let d := td.val - 8
      let (m, n) := e.acc d
      let r := rowsOf (unitOf s cx.u) spm ta stride disp m (n * (f.width / 8))
      guardAll cx s (rowsCheck s (unitOf s cx.u) r rR 0b1111) (awaitTiles cx [] [td.val] fun s =>
        match readRows cx.u r m 0 s with
        | (s, .error b) => engineStop cx s b
        | (s, .ok rs) =>
          .ok (startTop cx la [] [td.val] (accFrom (unitOf s cx.u) d m n
            (fun i j => (acldElem e f (rs.getD i []) i j).1) (fun i j => (acldElem e f (rs.getD i []) i j).2)) s))) s

/-- ACLD.fmt. -/
def execAcld (la fmt : Fin 16) (spm : Bool) (ta td : Fin 16) (stride : BitVec 13) (disp : BitVec 19) (s : State) :
    Host.Outcome State Fault Refusal :=
  issue 8 true (bodyAcld la fmt spm ta td stride disp) s

end Sys2Proof.Machine
end

