-- ==== Sys2Proof/Machine/Copy.lean ====
section
/-! DEFINITION. CPY, CPYOUT, CPYR and CPYG, and the copy engine's transfers and follow-on commands (R229 to R234, R372,
R413). -/

namespace Sys2Proof.Machine

/-! ### The copy descriptor (R229) -/

/-- Word `i` of a descriptor. -/
def dWord (l : List DWord) (i : Nat) : Nat := (l.getD i 0).toNat

/-- The fields of a descriptor. -/
def dRows (l : List DWord) : Nat := bitsOf (dWord l 0) 32 16
def dBytes (l : List DWord) : Nat := bitsOf (dWord l 0) 0 24
def dDst (l : List DWord) : Nat := bitsOf (dWord l 1) 32 32
def dSst (l : List DWord) : Nat := bitsOf (dWord l 1) 0 32
def dRcap (l : List DWord) : Nat := bitsOf (dWord l 2) 40 4
def dPort (l : List DWord) : Nat := bitsOf (dWord l 2) 36 3
def dTile (l : List DWord) : Nat := bitsOf (dWord l 2) 32 4
def dSpoff (l : List DWord) : Nat := bitsOf (dWord l 2) 0 19
def dFollow (l : List DWord) : Nat := bitsOf (dWord l 3) 32 32
def dDwoff (l : List DWord) : Nat := bitsOf (dWord l 3) 13 19
def dDwen (l : List DWord) : Bool := (l.getD 3 0).getLsbD 12
def dCvt (l : List DWord) : Bool := (l.getD 3 0).getLsbD 11
def dDfmt (l : List DWord) : Nat := bitsOf (dWord l 3) 3 3
def dSfmt (l : List DWord) : Nat := bitsOf (dWord l 3) 0 3

/-- rbd × 8: the bits of a destination row (R231). -/
def dstBits (l : List DWord) : Nat :=
  if dCvt l then dBytes l * 8 / (fmtOf (dSfmt l)).width * (fmtOf (dDfmt l)).width else dBytes l * 8

/-- rbd. -/
def dstBytes (l : List DWord) : Nat := dstBits l / 8

/-- The fields that the table of R230 gives as 0. -/
def descZero (f g : Nat) (l : List DWord) : List Nat :=
  let q := dPort l
  let t := dTile l
  let c := dRcap l
  let o := dFollow l
  let w := (dDwen l).toNat
  match f, g with
  | 0, 0 => [c, q, t, o]
  | 0, _ => [c, q, dSpoff l, dDst l, w]
  | 1, 0 => [c, q, t, o, w]
  | 1, _ => [c, q, dSpoff l, dSst l, o, w]
  | 2, 0 => [q, t, dSpoff l, o]
  | 2, _ => [c, t, dSpoff l, dDst l, o, w]
  | _, 0 => [dRows l, dSst l, c, q, t, o]
  | _, _ => [dRows l, dSst l, c, q, dSpoff l, dDst l, w, o]

/-- Condition 1 of R231 but for the entry size of a port's queue. -/
def descBad (f g : Nat) (l : List DWord) : Bool :=
  bitsOf (dWord l 0) 48 16 != 0 || bitsOf (dWord l 0) 24 8 != 0 || bitsOf (dWord l 2) 44 20 != 0
    || bitsOf (dWord l 2) 39 1 != 0 || bitsOf (dWord l 2) 19 13 != 0 || bitsOf (dWord l 3) 6 5 != 0
    || (descZero f g l).any (· != 0) || dBytes l == 0 || (f != 3 && dRows l == 0)
    || (dFollow l != 0 && !((dFollow l % 256 == 0xE5 || dFollow l % 256 == 0xE9) && bitsOf (dFollow l) 28 4 == 0))

/-- Condition 2 of R231: the follow-on word's own checks (R223, R226). -/
def followBad (w : Warp) (e : MatEnv) (word : Nat) : Option Nat :=
  let td := bitsOf word 8 4
  let ta := bitsOf word 12 4
  let tb := bitsOf word 16 4
  let f4 := bitsOf word 24 4
  if word = 0 then none
  else if word % 256 = 0xE5 then
    if bitsOf word 21 3 ≠ 0 then some cReservedField
    else if 6 ≤ f4 || (f4 = 5 && bitsOf word 20 1 = 1) then some cFormat
    else if accBad w td || tileBad w ta || tileBad w tb || mmaBad e f4 ta tb (td - 8) then some cTileShape
    else none
  else if f4 ≠ 0 then some cReservedField
  else if accBad w td || accBad w ta || tileBad w tb || scaccBad e (bitsOf word 21 3) tb (ta - 8) (td - 8) then some cTileShape
  else none

/-- Condition 3 of R231. -/
def convertBad (l : List DWord) : Bool :=
  dCvt l && (dBytes l * 8 % (fmtOf (dSfmt l)).width != 0 || dstBits l % 8 != 0)

/-- Condition 4 of R231, for a copy of `n` rows that names a tile. -/
def copyTileBad (w : Warp) (e : MatEnv) (f g n : Nat) (l : List DWord) : Bool :=
  let x := e.tile (dTile l)
  g == 1 && f != 2
    && (tileBad w (dTile l) || n != x.rows || (if f = 1 then dBytes l != x.rb || dstBytes l * 8 != dstBits l else dstBytes l != x.rb))

/-- The element bytes that a capability's access must be aligned to where the copy converts; 1 elsewhere (R231). -/
def copyAlign (l : List DWord) (fmt : Nat) : Nat := if dCvt l then max 1 ((fmtOf fmt).width / 8) else 1

/-- The bytes from a row's start to the end of the last of `n` rows. -/
def copyExtent (n stride len : Nat) : Nat := (n - 1) * stride + len

/-! ### What a copy names -/

/-- What a copy needs at acceptance: its kind, descriptor, rows, source and destination capabilities. -/
structure CopyReq where
  f : Nat
  g : Nat
  desc : List DWord
  n : Nat
  src : List Cap
  dst : Cap

/-- Condition 5 of R231: the sources, in each live thread for CPYG. -/
def copySrcCheck (s : State) (w : Warp) (x : CopyReq) (c : Cap) : Option Nat :=
  let len := dBytes x.desc
  localCheck s w c c.cursor (if x.f = 3 then len else copyExtent x.n (dSst x.desc) len) rR 0b1111 (copyAlign x.desc (dSfmt x.desc))

/-- Condition 5 of R231: the destination. -/
def copyDstCheck (s : State) (w : Warp) (x : CopyReq) : Option Nat :=
  if x.f = 1 || (x.f = 2 && x.g = 0) then
    localCheck s w x.dst x.dst.cursor (copyExtent x.n (dDst x.desc) (dstBytes x.desc)) rW (if x.f = 1 then 0b0011 else 0b0010)
      (copyAlign x.desc (dDfmt x.desc))
  else none

/-- The core whose scratchpad a copy's datum word and scratchpad destination lie in. -/
def copyCore (s : State) (w : Warp) (f : Nat) (dst : Cap) : Nat × Nat × Nat :=
  if f = 2 then placeCore s w dst.cursor else homeCore s w

/-- The size of the group's allocation on a core; 0 without one. -/
def allocSize (s : State) (g : Nat) (c : Nat × Nat × Nat) : Nat :=
  match allocAt (groupOf s g) c with
  | some a => a.size
  | none => 0

/-- Condition 6 of R231. -/
def copySpmBad (s : State) (w : Warp) (x : CopyReq) : Bool :=
  let size := allocSize s w.grp (homeCore s w)
  let l := x.desc
  (x.g == 0 && (x.f == 0 || x.f == 3) && size < dSpoff l + copyExtent x.n (dDst l) (dstBytes l))
    || (x.g == 0 && x.f == 1 && size < dSpoff l + copyExtent x.n (dSst l) (dBytes l))
    || (dDwen l && allocSize s w.grp (copyCore s w x.f x.dst) < dDwoff l + 8)

/-- The entry size of a sending port's queue. (Log 31 DEDUCED.) -/
def portEntry (s : State) (w : Warp) (p : Nat) : Option Nat := (portDesc s w (getPort w p)).map (·.size)

/-! ### Acceptance -/

/-- The conditions of R231 in order; then `k`. -/
def copyChecks (cx : Cx) (x : CopyReq) (k : State → Res) (s : State) : Res :=
  let w := unitOf s cx.u
  let e := matEnv w cx.pc cx.rmode
  let l := x.desc
  let big := x.f = 2 && x.g = 1 && (match portEntry s w (dPort l) with
    | some z => z < dBytes l
    | none => false)
  let threads := if x.f = 3 then byIndex (liveThreads w) else cx.act
  let srcs : List (Nat × Option Nat) :=
    if x.f = 1 then []
    else if x.f = 3 then threads.zip (x.src.map (copySrcCheck s w x))
    else cx.act.map fun t => (t, copySrcCheck s w x (x.src.headD Cap.null))
  if descBad x.f x.g l || big then trapAll cx s cReservedField
  else
    guardAll cx s (followBad w e (dFollow l)) fun s =>
      if convertBad l then trapAll cx s cFormat
      else if copyTileBad w e x.f x.g x.n l then trapAll cx s cTileShape
      else
        match firstCause srcs with
        | some (c, ts) => trapFor ts s c
        | none =>
          guardAll cx s (copyDstCheck s w x) fun s =>
            if dDwen l && dDwoff l % 8 ≠ 0 then trapAll cx s cMisalign
            else if copySpmBad s w x then trapAll cx s cCapBounds
            else if x.f = 2 && x.g = 1 && !portOk s w (dPort l) true then trapAll cx s cQueueUnbound
            else k s

/-- An accepted copy (R232): what it captured at issue, with every row still to move. (Log 31 DEDUCED.) -/
def copyOf (cx : Cx) (w : Warp) (x : CopyReq) (areg : Nat) (batch : Option Nat) : Copy :=
  let e := matEnv w cx.pc cx.rmode
  { id := cx.id, f := x.f, g := x.g, desc := x.desc, src := x.src, dst := x.dst, areg := areg, rmode := cx.rmode
    tshp := e.tshp, ashp := e.ashp, pc := cx.pc, rows := List.range x.n, nrows := x.n, batch := batch, poison := false, parts := []
    image := [], imagePoison := [], follow := dFollow x.desc != 0, token := none, denied := [], cancelled := false, held := false }

/-- The request of a copy instruction: its descriptor and capabilities as they stand. -/
def copyReq (w : Warp) (f g : Nat) (d : Fin 64) (a : Fin 16) : CopyReq :=
  let l := (List.range 4).map fun i => getS w (d.val + i)
  let low := lowLive w
  let live := byIndex (liveThreads w)
  { f := f, g := g, desc := l, n := if f = 3 then live.length else dRows l
    src := if f = 3 then live.map fun t => getC w t a.val else if f = 1 then [] else [getC w low a.val]
    dst := if f = 1 then getC w low a.val else if f = 2 then getC w low (dRcap l) else Cap.null }

/-- The tile that a copy reads, and the tile that it writes. -/
def copyTiles (c : Copy) : List Nat × List Nat :=
  if c.held then ([], [])
  else if c.g = 1 && c.f = 1 then ([dTile c.desc], [])
  else if c.g = 1 && c.f ≠ 2 then ([], [dTile c.desc])
  else ([], [])

/-- The body of a copy. What depends on the descriptor's contents comes after OFFSET_ILLEGAL and MASK_PARTIAL (R95, R231). It waits for the
tile that it reads or writes (R372). CPYG reads its capability in every live thread, the others in the lowest.
(Log 31 DEDUCED, log 106 DESIGN CHOICE.) -/
def bodyCopy (f g : Nat) (d : Fin 64) (a : Fin 16) (cx : Cx) (s : State) : Res :=
  let sregs : List RName := (List.range 4).map fun i => .u (d.val + i)
  guardEngine cx .never (fun s =>
    let low := { cx with act := [lowLive (unitOf s cx.u)] }
    guardPoison low { reads := sregs, writes := [], data := [], tagged := false } (fun s =>
      let x := copyReq (unitOf s cx.u) f g d a
      let caps : List RName := .c a.val :: (if f = 2 && g = 0 then [.c (dRcap x.desc)] else [])
      guardPoison (if f = 3 then cx else low) { reads := caps, writes := [], data := [], tagged := false }
        (copyChecks cx x fun s =>
          let c := copyOf cx (unitOf s cx.u) x (if f = 3 then a.val else 0) none
          awaitTiles cx (copyTiles c).1 (copyTiles c).2
            (fun s => .ok (modUnit s cx.u fun w => { w with copies := w.copies ++ [c] })) s) s) s) s

/-- CPY sD, cA. -/
def execCpy (la : Fin 16) (d : Fin 64) (a : Fin 16) (s : State) : Host.Outcome State Fault Refusal :=
  let _ := la
  issue 4 true (bodyCopy 0 0 d a) s

/-- CPY.tile sD, cA. -/
def execCpyTile (la : Fin 16) (d : Fin 64) (a : Fin 16) (s : State) : Host.Outcome State Fault Refusal :=
  let _ := la
  issue 4 true (bodyCopy 0 1 d a) s

/-- CPYOUT sD, cA. -/
def execCpyout (la : Fin 16) (d : Fin 64) (a : Fin 16) (s : State) : Host.Outcome State Fault Refusal :=
  let _ := la
  issue 4 true (bodyCopy 1 0 d a) s

/-- CPYOUT.tile sD, cA. -/
def execCpyoutTile (la : Fin 16) (d : Fin 64) (a : Fin 16) (s : State) : Host.Outcome State Fault Refusal :=
  let _ := la
  issue 4 true (bodyCopy 1 1 d a) s

/-- CPYR sD, cA. -/
def execCpyr (la : Fin 16) (d : Fin 64) (a : Fin 16) (s : State) : Host.Outcome State Fault Refusal :=
  let _ := la
  issue 4 true (bodyCopy 2 0 d a) s

/-- CPYR.q sD, cA. -/
def execCpyrQ (la : Fin 16) (d : Fin 64) (a : Fin 16) (s : State) : Host.Outcome State Fault Refusal :=
  let _ := la
  issue 4 true (bodyCopy 2 1 d a) s

/-- CPYG sD, cA. -/
def execCpyg (la : Fin 16) (d : Fin 64) (a : Fin 16) (s : State) : Host.Outcome State Fault Refusal :=
  let _ := la
  issue 4 true (bodyCopy 3 0 d a) s

/-- CPYG.tile sD, cA. -/
def execCpygTile (la : Fin 16) (d : Fin 64) (a : Fin 16) (s : State) : Host.Outcome State Fault Refusal :=
  let _ := la
  issue 4 true (bodyCopy 3 1 d a) s

/-! ### Moving a row (R232, R234, R413) -/

/-- How a row's move stops: a fault or a context fault, or it waits for a credit. -/
inductive MoveStop where
  | bad (b : Bad)
  | wait
  deriving DecidableEq, Repr

/-- A page of a copy's fault as a number: of the source, or of the destination. -/
def pageKey (dst : Bool) (f : AccFault) : Nat := 2 * (f.obj * 2 ^ 24 + f.off / 65536) + dst.toNat

/-- Read the pieces of a source row through a capability: the bytes read, and the fault that stops the row. Bytes that cannot be
read are lost (R356, R413). -/
def copyRead (w : Warp) (c : Copy) (cap : Cap) : List (Nat × Nat) → State → State × List PByte × Option Bad
  | [], s => (s, [], none)
  | (o, n) :: r, s =>
    let res : State × Except Bad (List PByte) :=
      if (localCheck s w cap o n rR 0b1111 1).isSome then let (s, l) := lostBytes s n; (s, .ok l)
      else
        match capReadM s w cap o n with
        | (s, .ok l) => (s, .ok l)
        | (s, .error (.trap _)) => let (s, l) := lostBytes s n; (s, .ok l)
        | (s, .error (.ctx k)) => (s, .error (.ctx k))
        | (s, .error (.fault f)) =>
          if c.denied.contains (pageKey false f) then let (s, l) := lostBytes s n; (s, .ok l) else (s, .error (.fault f))
    match res with
    | (s, .error b) => (s, [], some b)
    | (s, .ok l) =>
      let (s, m, b) := copyRead w c cap r s
      (s, l ++ m, b)

/-- Source row `r` of a copy, whose first bytes `l` have been read. A reissued gather may find a capability that is not aligned
(R258): none of that row can be read. (Log 31 DEDUCED.) -/
def copyRow (w : Warp) (c : Copy) (r : Nat) (l : List PByte) (s : State) : State × List PByte × Option Bad :=
  let n := dBytes c.desc
  if c.held then (s, (sgetMany 0 c.image (r * 64) n).zip (sgetMany false c.imagePoison (r * 64) n), none)
  else if c.f = 1 && c.g = 1 then
    (s, (List.range n).map fun i => (getTile w (dTile c.desc) (r * 64 + i), tilePoison w (dTile c.desc) (r * 64 + i)), none)
  else if c.f = 1 then
    match spmReadM s w.grp (homeCore s w) (dSpoff c.desc + r * dSst c.desc) n with
    | some l => (s, l, none)
    | none => let (s, l) := lostBytes s n; (s, l, none)
  else
    let cap := if c.f = 3 then c.src.getD r Cap.null else c.src.headD Cap.null
    if cap.cursor % copyAlign c.desc (dSfmt c.desc) ≠ 0 then
      let (s, m) := lostBytes s (n - l.length)
      (s, l ++ m, none)
    else
    let (s, m, b) := copyRead w c cap (pieces (cap.cursor + (if c.f = 3 then 0 else r * dSst c.desc) + l.length) (n - l.length)) s
    (s, l ++ m, b)

/-- Element `i` of a row of elements of `w` bits, and its poison mark. -/
def rowElem (l : List PByte) (i w : Nat) : Nat × Bool :=
  let k := i * w
  let part := (l.drop (k / 8)).take (max 1 (w / 8))
  (ofBytes (part.map (·.1)) / 2 ^ (k % 8) % 2 ^ w, part.any (·.2))

/-- The destination row: the source, or each element converted under the captured MODE and SAT (R232). -/
def copyConvert (c : Copy) (l : List PByte) : List PByte :=
  if !dCvt c.desc then l
  else
    let sf := fmtOf (dSfmt c.desc)
    let df := fmtOf (dDfmt c.desc)
    let e : FEnv := ⟨c.pc, 0, c.rmode⟩
    let el := fun i =>
      let x := rowElem l i sf.width
      (fenc df e.mode e.sat e.origin (fdec sf x.1), x.2)
    (List.range (dstBytes c.desc)).flatMap fun k =>
      if df.width = 4 then
        let a := el (2 * k)
        let b := el (2 * k + 1)
        [(BitVec.ofNat 8 (a.1 + 16 * b.1), a.2 || b.2)]
      else
        let m := df.width / 8
        let x := el (k / m)
        [(BitVec.ofNat 8 (x.1 / 256 ^ (k % m)), x.2)]

/-- Write the pieces of a destination row through a capability, from what `p` has done on; the fault that stops the row. In
memory a piece is what the row writes of one 2 KiB block: where that is all of a compressed block, the write replaces it (R351). -/
def copyWrite (w : Warp) (c : Copy) : List (Nat × Nat) → List PByte → RowPart → State → State × RowPart × Option Bad
  | [], _, p, s => (s, p, none)
  | (o, n) :: r, l, p, s =>
    let now := l.take n
    let res : State × Except Bad Bool :=
      if (localCheck s w c.dst o n rW 0b0011 1).isSome then (s, .ok false)
      else
        match capWriteM s w c.dst o now with
        | (s, .ok _) => (s, .ok true)
        | (s, .error (.trap _)) => (s, .ok false)
        | (s, .error (.ctx k)) => (s, .error (.ctx k))
        | (s, .error (.fault f)) => if c.denied.contains (pageKey true f) then (s, .ok false) else (s, .error (.fault { f with write := true }))
    match res with
    | (s, .error b) => (s, p, some b)
    | (s, .ok done) =>
      copyWrite w c r (l.drop n)
        { p with put := p.put + n, landed := p.landed + (if done then n else 0), lost := p.lost || !done } s

/-- A tile row: the unused high nibble of an odd row of 4-bit elements is 0 (R221). -/
def tileRow (c : Copy) (l : List PByte) : List PByte :=
  let x := shapeOf (c.tshp.getD (dTile c.desc) 0x2FFF)
  if x.cols * x.w % 8 = 4 then l.dropLast ++ (l.getLast?.map fun b => (b.1 &&& 0x0F, b.2)).toList else l

/-- Change a copy of a unit. -/
def modCopy (s : State) (u id : Nat) (f : Copy → Copy) : State :=
  modUnit s u fun w => { w with copies := w.copies.map fun c => if c.id == id then f c else c }

/-- A row done with: `n` bytes have landed. -/
def RowPart.whole (p : RowPart) (n : Nat) (lost : Bool) : RowPart := { p with landed := n, lost := lost }

/-- Write destination row `l`, from what `p` has done on: what is done then, and why the row stops. A row that its conversion has made
longer than the queue's entry is cut to it (R232). (Log 108 DESIGN CHOICE.) -/
def copyPut (u : Nat) (c : Copy) (p : RowPart) (l : List PByte) (s : State) : State × RowPart × Option MoveStop :=
  let w := unitOf s u
  let r := p.row
  if c.g = 1 && (c.f = 0 || c.f = 3) then
    let l := tileRow c l
    (modCopy s u c.id fun c =>
      { c with image := ssetMany 0 c.image (r * 64) (l.map (·.1)), imagePoison := ssetMany false c.imagePoison (r * 64) (l.map (·.2)) },
      p.whole l.length false, none)
  else if c.f = 0 || c.f = 3 then
    match spmWriteM s w.grp (homeCore s w) (dSpoff c.desc + r * dDst c.desc : Nat) l with
    | some s => (s, p.whole l.length false, none)
    | none => (s, p.whole 0 true, none)
  else if c.f = 2 && c.g = 1 then
    if portOk s w (dPort c.desc) true && !((portEntry s w (dPort c.desc)).any (· < dBytes c.desc)) then
      match takeCredit s u (dPort c.desc) with
      | none => (s, p, some .wait)
      | some s => (pushPort s u (dPort c.desc) l, p.whole l.length false, none)
    else (s, p.whole 0 true, none)
  else
    let cut := if c.dst.kind = 0 && !c.dst.rights.testBit 7 then blockPieces else pieces
    let (s, p, b) := copyWrite w c (cut (c.dst.cursor + r * dDst c.desc + p.put) (l.length - p.put)) (l.drop p.put) p s
    (s, p, b.map .bad)

/-- A copy leaves the engine: its batch learns of its poison. -/
def finishCopy (c : Copy) (w : Warp) : Warp :=
  let w := { w with copies := w.copies.filter fun x => x.id != c.id }
  match c.batch with
  | none => { w with openPoison := w.openPoison || c.poison }
  | some n => { w with batches := w.batches.map fun b =>
      if b.num == n && b.copies.contains c.id then
        { b with copies := b.copies.filter (· != c.id), poison := b.poison || c.poison }
      else b }

/-- The tile that a copy has built is written once its last row has moved; the rest of the tile is 0. -/
def landCopy (c : Copy) (w : Warp) : Warp :=
  if c.g = 1 && (c.f = 0 || c.f = 3) then
    landTile w { acc := false, num := dTile c.desc, bytes := c.image, bpoison := c.imagePoison, words := [], wpoison := [] }
  else w

/-- After a row has moved: with the last one the tile is written, and the copy ends unless its follow-on command is to run. -/
def copyStep (id : Nat) (w : Warp) : Warp :=
  match w.copies.find? fun c => c.id == id with
  | none => w
  | some c => if c.rows.isEmpty then (if c.follow then landCopy c w else finishCopy c (landCopy c w)) else w

/-- Poisoned data has landed, or a byte was not written: the copy notes it, and a sealed batch shows it at once (R332, R413). -/
def notePoison (id : Nat) (w : Warp) : Warp :=
  { w with
    copies := w.copies.map fun c => if c.id == id then { c with poison := true } else c
    batches := w.batches.map fun b => if b.copies.contains id then { b with poison := true } else b }

/-- The row of `p` has moved: its count goes to the datum word and its poison to the copy. -/
def copyDone (u : Nat) (c : Copy) (p : RowPart) (bad : Bool) (s : State) : State :=
  let w := unitOf s u
  let s := if dDwen c.desc && 0 < p.landed then datumAt s w.grp (copyCore s w c.f c.dst) (dDwoff c.desc) p.landed else s
  let s := modCopy s u c.id fun c =>
    { c with rows := c.rows.filter (· != p.row), parts := c.parts.filter fun q => q.row != p.row }
  modUnit s u fun w => copyStep c.id (if bad then notePoison c.id w else w)

/-- The row stops midway: what it has done is kept. -/
def keepPart (u id : Nat) (p : RowPart) (s : State) : State :=
  modCopy s u id fun c => { c with parts := p :: c.parts.filter fun q => q.row != p.row }

/-- A copy's fault: a record with a token; the copy is suspended and the warp is not vectored (R234). -/
def copySuspend (u : Nat) (c : Copy) (f : AccFault) (s : State) : State :=
  let w := unitOf s u
  let (n, s) := raiseFault s w.asid 2 (cfgSelf w / 4) false false f (.copy u c.id)
  modCopy s u c.id fun c => { c with token := some (n, pageKey f.write f) }

/-- A row stops at byte granularity: on a fault the copy is suspended (R234). (Log 31 DEDUCED.) -/
def rowStop (u : Nat) (c : Copy) (p : RowPart) (s : State) : MoveStop → State
  | .wait => keepPart u c.id p s
  | .bad (.fault f) => copySuspend u c f (keepPart u c.id p s)
  | .bad (.ctx k) => ctxFault s (unitOf s u).asid k 0
  | .bad (.trap _) => s

/-- What row `r` of a copy has done. -/
def partOf (c : Copy) (r : Nat) : RowPart := (c.parts.find? fun p => p.row == r).getD ⟨r, [], 0, 0, false⟩

/-- Move row `r` of a copy, from where it stopped before. -/
def moveRow (u : Nat) (c : Copy) (r : Nat) (s : State) : State :=
  let p := partOf c r
  match copyRow (unitOf s u) c r p.src s with
  | (s, l, some b) => rowStop u c { p with src := l } s (.bad b)
  | (s, l, none) =>
    let d := copyConvert c l
    match copyPut u c { p with src := l } d s with
    | (s, p, some b) =>
      let bad := p.lost || (d.take p.put).any (·.2)
      rowStop u c p (if bad then modUnit s u (notePoison c.id) else s) b
    | (s, p, none) => copyDone u c p (p.lost || d.any (·.2)) s

/-- Copies of the warp issued before. -/
def earlierCopies (w : Warp) (id : Nat) : List Copy := w.copies.takeWhile fun c => c.id != id

/-- A copy that names a tile waits for the copies and follow-on commands issued before that name it too (R372). -/
def copyWaits (w : Warp) (c : Copy) : Bool := copiesBlock (earlierCopies w c.id) (copyTiles c).1 (copyTiles c).2

/-- The engine serves the copy: a context that switches out finishes only its copies into scratchpads (R246, R259). -/
def engineRuns (s : State) (w : Warp) (c : Copy) : Bool :=
  ctxRuns s w.asid && !s.governed.contains w.asid && !c.cancelled
    && ((ctxOf s w.asid).state != .switchingOut || c.f == 2 || (c.g == 0 && (c.f == 0 || c.f == 3)))

/-- The tile operations that a copy's tile waits for complete (R372). -/
def copyBegin (w : Warp) (c : Copy) : Warp :=
  scoreboard w (copyTiles c).1 (copyTiles c).2

/-- The row `r` of a copy may move now. -/
def copyReady (s : State) (w : Warp) (c : Copy) (r : Nat) : Bool :=
  c.rows.contains r && c.token.isNone && engineRuns s w c && !copyWaits w c

/-- The next entry of a copy into a port waits for the queue to take it (R229). -/
def creditWaits (s : State) (u : Nat) (c : Copy) : Bool :=
  c.f == 2 && c.g == 1 && portOk s (unitOf s u) (dPort c.desc) true
    && !((portEntry s (unitOf s u) (dPort c.desc)).any (· < dBytes c.desc)) && (takeCredit s u (dPort c.desc)).isNone

/-- An ended warp whose last copy has completed is gone. -/
def reap (u : Nat) (s : State) : State :=
  let w := unitOf s u
  if w.stat = .ended && w.copies.isEmpty then delUnit s u else s

/-- COPY_TRANSFER: row `row` of copy `id` of unit `unit` moves (R232). -/
def execCopyTransfer (s : State) : Host.Outcome State Fault Refusal :=
  let w := unitOf s s.ev.unit
  match w.copies.find? fun c => c.id == s.ev.id with
  | some c =>
    if copyReady s w c s.ev.row then
      .next (reap s.ev.unit (moveRow s.ev.unit c s.ev.row (modUnit (advanced s w.asid) s.ev.unit fun w => copyBegin w c)))
    else .next s
  | none => .next s

/-! ### Follow-on commands (R233) -/

/-- The follow-on command of a copy may start: its last tile byte is written, and no earlier copy or command holds a tile or
accumulator that it names. -/
def followReady (s : State) (w : Warp) (c : Copy) : Bool :=
  let n := followNames (dFollow c.desc)
  c.follow && c.rows.isEmpty && engineRuns s w c && !copiesBlock (earlierCopies w c.id) n.1 n.2

/-- What the command writes, with the shapes and MODE captured at the copy's issue and the copy's PC. -/
def followWrite (w : Warp) (c : Copy) : TileWrite :=
  let word := dFollow c.desc
  let e : MatEnv := ⟨c.pc, c.rmode, c.tshp, c.ashp⟩
  let td := bitsOf word 8 4 - 8
  let ta := bitsOf word 12 4
  let tb := bitsOf word 16 4
  let acc := bitsOf word 20 1 = 1
  if word % 256 = 0xE5 then mmaWrite w e (bitsOf word 24 4) acc tb ta td
  else scaccWrite w e (bitsOf word 21 3) acc tb (ta - 8) td

/-- FOLLOW_ON_COMMAND: the command of copy `id` of unit `unit` runs, and the copy ends. -/
def execFollowOnCommand (s : State) : Host.Outcome State Fault Refusal :=
  let w := unitOf s s.ev.unit
  match w.copies.find? fun c => c.id == s.ev.id with
  | some c =>
    if followReady s w c then
      let n := followNames (dFollow c.desc)
      .next (reap s.ev.unit (modUnit (advanced s w.asid) s.ev.unit fun w =>
        let w := scoreboard w n.1 n.2
        finishCopy c (landTile w (followWrite w c))))
    else .next s
  | none => .next s

end Sys2Proof.Machine
end

