-- ==== Sys2Proof/Machine/Batch.lean ====
section
/-! DEFINITION. BSEAL, BWAIT and BTEST, and the completion of batches (R235, R236, R332). -/

namespace Sys2Proof.Machine

/-- The wait of an engine instruction at a blocking point (R334). -/
def engineWait (cx : Cx) (s : State) (kind value obj off : Nat) (dest : Option Nat) : Res :=
  .error (.stall { kind := kind, arg := 0, flags := 0, value := value, mask := 0, obj := obj, off := off,
                   threads := maskOf cx.act, pc := cx.pc, len := cx.len, dest := dest }, s)

/-- BSEAL stalls: 16 sealed batches are incomplete, or one that was sealed 16 seals before is (R236). (Log 56 DEDUCED.) -/
def sealFull (w : Warp) : Bool :=
  16 ≤ (w.batches.filter fun b => !b.complete).length
    || w.batches.any fun b => !b.complete && 16 ≤ (w.sealCtr + 2 ^ 16 - b.num - 1) % 2 ^ 16

/-- The open set becomes batch c; c + 1 (R236). Complete batches that met no poison are not kept. (Log 56 DEDUCED.) -/
def sealBatch (w : Warp) : Warp :=
  let c := w.sealCtr
  let l := w.copies.filter fun x => x.batch.isNone
  let b : Batch := { num := c, copies := l.map (·.id), poison := w.openPoison || l.any (·.poison), complete := l.isEmpty }
  { w with
    sealCtr := (c + 1) % 2 ^ 16, openPoison := false
    copies := w.copies.map fun x => if x.batch.isNone then { x with batch := some c } else x
    batches := (w.batches.filter fun x => x.num != c && (!x.complete || x.poison)) ++ [b] }

/-- The body of BSEAL. -/
def bodyBseal (d : Fin 64) (cx : Cx) (s : State) : Res :=
  guardEngine cx .never (withEngine cx [] [.u d.val] fun s =>
    let w := unitOf s cx.u
    if sealFull w then engineWait cx s 7 0 0 0 none
    else .ok (modUnit s cx.u fun w => setS (sealBatch w) d.val (BitVec.ofNat 64 w.sealCtr))) s

/-- BSEAL sD. -/
def execBseal (d : Fin 64) (s : State) : Host.Outcome State Fault Refusal := issue 4 true (bodyBseal d) s

/-- No batch `n` has been sealed (R236). -/
def notSealed (w : Warp) (n : Nat) : Bool := 2 ^ 15 ≤ (w.sealCtr + 2 ^ 17 - 1 - n) % 2 ^ 16

/-- The record of batch `n`, where one is kept. -/
def batchOf (w : Warp) (n : Nat) : Option Batch := w.batches.find? fun b => b.num == n

/-- Batch `n` is complete. (Log 56 DEDUCED.) -/
def batchDone (w : Warp) (n : Nat) : Bool :=
  match batchOf w n with
  | some b => b.complete
  | none => true

/-- The operands of BWAIT and BTEST: `k` is given the batch number. -/
def withBatch (cx : Cx) (n : SSrc) (writes : List RName) (k : Nat → State → Res) (s : State) : Res :=
  guardEngine cx .never (fun s =>
    let x : Uses := { reads := ssrcName n, writes := writes, data := [], tagged := false }
    withOperands cx x (fun s =>
      let w := unitOf s cx.u
      let v := (getSSrc w n).toNat % 2 ^ 16
      if notSealed w v then trapAll cx s cChain else commit cx x (k v) s) s) s

/-- BWAIT sA|imm: a blocking point. -/
def execBwait (n : SSrc) (s : State) : Host.Outcome State Fault Refusal :=
  issue (ssrcLen n) true (fun cx => withBatch cx n [] fun v s =>
    if batchDone (unitOf s cx.u) v then .ok s else engineWait cx s 6 v 0 0 none) s

/-- BTEST sD, sA|imm. -/
def execBtest (d : Fin 64) (n : SSrc) (s : State) : Host.Outcome State Fault Refusal :=
  issue (ssrcLen n) true (fun cx => withBatch cx n [.u d.val] fun v s =>
    let w := unitOf s cx.u
    let p := match batchOf w v with
      | some b => b.poison
      | none => false
    .ok (modUnit s cx.u fun w => setS w d.val (BitVec.ofNat 64 ((batchDone w v).toNat + 2 * p.toNat)))) s

/-- BATCH_COMPLETE: batch `value` of unit `unit` whose copies have all ended is complete (R332). -/
def execBatchComplete (s : State) : Host.Outcome State Fault Refusal :=
  .next (modUnit s s.ev.unit fun w =>
    { w with batches := w.batches.map fun b => if b.num == s.ev.value && b.copies.isEmpty then { b with complete := true } else b })

end Sys2Proof.Machine
end

