-- ==== Sys2Proof/Machine/CapOps.lean ====
section
/-! DEFINITION. CAP: capability arithmetic and inspection (R112, R125 to R130). -/

namespace Sys2Proof.Machine

/-- Stop with a trap for the threads that fail a condition. -/
def guardThreads (cx : Cx) (cause : Nat) (bad : Nat → Bool) (k : State → Res) (s : State) : Res :=
  let ts := cx.act.filter bad
  if ts.isEmpty then k s else trapFor ts s cause

/-- The body of a CAP function that writes a capability: `needTag` where A may not be untagged; `g` answers none where it
traps with CAP_BOUNDS. -/
def bodyCap (d a : Fin 16) (b : Src) (needTag : Bool) (g : Cap → Word → Option Cap) (cx : Cx) (s : State) : Res :=
  let x : Uses := { reads := .c a.val :: srcName b, writes := [.c d.val], data := [], tagged := false }
  guardCapDst cx x d.val (a.val == 7) (withOperands cx x fun s =>
    let w := unitOf s cx.u
    let val := fun t => g (getC w t a.val) (getSrc w t b)
    guardThreads cx cCapTag (fun t => needTag && !(getC w t a.val).tag) (fun s =>
      guardThreads cx cCapBounds (fun t => (val t).isNone) (commit cx x fun s =>
        .ok (modUnit s cx.u fun w => cx.act.foldl (fun w t =>
          match val t with
          | some c => setC w t d.val c
          | none => w) w)) s) s) s

/-- The body of a CAP function that writes a per-thread register. The spec does not order ELASTIC_WRITE of its destination and CAP_TAG:
ELASTIC_WRITE comes first here. (Log 101 DESIGN CHOICE.) -/
def bodyCapX (d : PReg) (a : Fin 16) (b : Src) (needTag : Bool) (g : Cap → Word → Word) (cx : Cx) (s : State) : Res :=
  let x : Uses := { reads := .c a.val :: srcName b, writes := [.x d], data := [], tagged := false }
  withOperands cx x (fun s =>
    let w := unitOf s cx.u
    guardThreads cx cCapTag (fun t => needTag && !(getC w t a.val).tag) (commit cx x fun s =>
      .ok (modUnit s cx.u fun w => cx.act.foldl (fun w t => setX w t d (g (getC w t a.val) (getSrc w t b)) 0) w)) s) s

/-- CAPADD cD, cA, B (R125). -/
def execCapadd (d a : Fin 16) (b : Src) (s : State) : Host.Outcome State Fault Refusal :=
  issue (srcLen b) false (bodyCap d a b true fun c v => some (capAdd c v)) s

/-- CAPSET cD, cA, B (R125). -/
def execCapset (d a : Fin 16) (b : Src) (s : State) : Host.Outcome State Fault Refusal :=
  issue (srcLen b) false (bodyCap d a b true fun c v => some (capSet c v)) s

/-- CAPNAR cD, cA, B (R126). -/
def execCapnar (d a : Fin 16) (b : Src) (s : State) : Host.Outcome State Fault Refusal :=
  issue (srcLen b) false (bodyCap d a b true fun c v => narrowed c v.toNat) s

/-- CAPRM cD, cA, B (R125). -/
def execCaprm (d a : Fin 16) (b : Src) (s : State) : Host.Outcome State Fault Refusal :=
  issue (srcLen b) false (bodyCap d a b true fun c v => some (capRm c v)) s

/-- CAPGET D, cA, B (R127). -/
def execCapget (d : PReg) (a : Fin 16) (b : Src) (s : State) : Host.Outcome State Fault Refusal :=
  issue (srcLen b) false (bodyCapX d a b false capGet) s

/-- CAPCHK D, cA, B (R128). -/
def execCapchk (d : PReg) (a : Fin 16) (b : Src) (s : State) : Host.Outcome State Fault Refusal :=
  issue (srcLen b) false (bodyCapX d a b false capChk) s

/-- CAPMOV cD, cA (R129). -/
def execCapmov (d a : Fin 16) (s : State) : Host.Outcome State Fault Refusal :=
  issue 4 false (bodyCap d a (.lit 0) false fun c _ => some c) s

/-- CAPLEN D, cA (R125). -/
def execCaplen (d : PReg) (a : Fin 16) (s : State) : Host.Outcome State Fault Refusal :=
  issue 4 false (bodyCapX d a (.lit 0) true fun c _ => capLen c) s

end Sys2Proof.Machine
end

