-- ==== Sys2Proof/Machine/LoadStore.lean ====
section
/-! DEFINITION. LD, LDX, LDQ, ST, STQ, CLD, CST, LDA, STL, FENCE, LDS, STS and PREF (R188 to R194, R199 to R204). -/

namespace Sys2Proof.Machine

/-- The access requirements of the table of R181. -/
def needLoad : Need := ⟨rR, 0b1111, 1⟩
def needStore : Need := ⟨rW, 0b1011, 1⟩
def needLda (n : Nat) : Need := ⟨rR, 0b0011, n⟩
def needStl (n : Nat) : Need := ⟨rW, 0b0011, n⟩
def needCld : Need := ⟨rR + rLC, 0b1011, 16⟩
def needCst : Need := ⟨rW + rSC, 0b1011, 16⟩

/-- LD (R189). -/
def execLd (la : Fin 16) (sz : Size) (c : Fin 16) (a d : PReg) (disp : Option (BitVec 32)) (s : State) :
    Host.Outcome State Fault Refusal :=
  issue (optLen disp) false
    (bodyLoad (.ld la sz c a d disp) la.val ⟨d, sizeBytes sz, false, false⟩ c a (dispOf disp) needLoad false) s

/-- LDX (R189). -/
def execLdx (la : Fin 16) (sz : Size) (c : Fin 16) (a d : PReg) (disp : Option (BitVec 32)) (s : State) :
    Host.Outcome State Fault Refusal :=
  issue (optLen disp) false
    (bodyLoad (.ldx la sz c a d disp) la.val ⟨d, sizeBytes sz, true, false⟩ c a (dispOf disp) needLoad false) s

/-- LDQ (R189). -/
def execLdq (la : Fin 16) (c : Fin 16) (a d : PReg) (disp : Option (BitVec 32)) (s : State) : Host.Outcome State Fault Refusal :=
  issue (optLen disp) false (bodyLoad (.ldq la c a d disp) la.val ⟨d, 16, false, false⟩ c a (dispOf disp) needLoad false) s

/-- LDA: an acquire; memory instructions inside its window wait for it (R186, R194). -/
def execLda (la : Fin 16) (sz : Size) (c : Fin 16) (a d : PReg) (disp : BitVec 24) (sc : Scope) (s : State) :
    Host.Outcome State Fault Refusal :=
  issue 8 false
    (bodyLoad (.lda la sz c a d disp sc) la.val ⟨d, sizeBytes sz, false, true⟩ c a disp.toInt (needLda (sizeBytes sz)) false) s

/-! ### Stores -/

/-- The entry size of a port's queue. -/
def portSize (s : State) (w : Warp) (p : Nat) : Nat :=
  match portDesc s w (getPort w p) with
  | some d => d.size
  | none => 0

/-- Serve the pushes of entries read from memory, thread by thread (R207, R208): `rd` reads a thread's entry. A faulting
thread issues the instruction again. Where a thread finds no credit after another has faulted, the spec says neither that the
instruction stalls nor that it faults: the threads not yet served issue it again with the faulting ones, as if they had met the first
fault. (Log 95 DESIGN CHOICE.) -/
def pushThreads (cx : Cx) (p : Nat) (rd : Nat → State → State × Except Bad (List PByte)) :
    List Nat → List (Nat × AccFault) → State → Res
  | [], fs, s => if fs.isEmpty then .ok s else .error (.page fs false, s)
  | t :: ts, fs, s =>
    match takeCredit s cx.u p with
    | none => if fs.isEmpty then queueStall cx s 4 p (t :: ts) else
      .error (.page (fs ++ (t :: ts).filterMap fun t => (fs.head?).map fun f => (t, f.2)) false, s)
    | some s' =>
      match rd t s' with
      | (s'', .ok l) => pushThreads cx p rd ts fs (pushPort s'' cx.u p l)
      | (_, .error (.trap c)) => .error (.trap c (2 ^ t) 0 false, s)
      | (_, .error (.ctx c)) => .error (.ctx c, s)
      | (_, .error (.fault f)) => pushThreads cx p rd ts (fs ++ [(t, f)]) s

/-- The body of ST qN: an entry read through the capability (R190, R207). -/
def bodyStPort (p : Fin 8) (c : Fin 16) (a : PReg) (disp : Int) (cx : Cx) (s : State) : Res :=
  let x : Uses := { reads := [.c c.val, .x a], writes := [.x (.q p)], data := [], tagged := false }
  withOperands cx x (fun s =>
    let n := portSize s (unitOf s cx.u) p.val
    guardAccess cx c a disp n needLoad (pushThreads cx p.val (fun t s =>
      let w := unitOf s cx.u
      capReadM s w (getC w t c.val) (eaOf w c a disp t).toNat n) cx.act []) s) (afterAtomics cx s)

/-- ST; with a queue port as D a push (R191, R207). -/
def execSt (sz : Size) (c : Fin 16) (a d : PReg) (disp : Option (BitVec 32)) (s : State) : Host.Outcome State Fault Refusal :=
  issue (optLen disp) false (match d with
    | .q p => bodyStPort p c a (dispOf disp)
    | d => bodyStore d (sizeBytes sz) c a (dispOf disp) needStore) s

/-- STQ (R191). -/
def execStq (c : Fin 16) (a d : PReg) (disp : Option (BitVec 32)) (s : State) : Host.Outcome State Fault Refusal :=
  issue (optLen disp) false (bodyStore d 16 c a (dispOf disp) needStore) s

/-- STL: a release (R194). -/
def execStl (sz : Size) (c : Fin 16) (a d : PReg) (disp : BitVec 24) (sc : Scope) (s : State) : Host.Outcome State Fault Refusal :=
  let _ := sc
  issue 8 false (bodyStore d (sizeBytes sz) c a disp.toInt (needStl (sizeBytes sz))) s

/-! ### Capabilities in memory -/

/-- The capability that CLD writes: a tag counts only where the bits are of the context's tenant and the top bits are 0
(R193). -/
def cldCap (asid : Nat) (v : Cap) : Cap := { v with tag := v.tag && v.top == 0 && v.tenant == asid }

/-- Write a loaded capability, with its poison mark. -/
def landCap (w : Warp) (t d : Nat) (v : Cap) (p : Bool) : Warp :=
  let w := setC w t d v
  { w with regs := { w.regs with cp := sset 0 w.regs.cp (xkey d t) p.toNat } }

/-- One thread's CLD. -/
def cldThread (cx : Cx) (d c : Fin 16) (a : PReg) (disp : Int) (t : Nat) (s : State) : State × Except Bad Unit :=
  let w := unitOf s cx.u
  match capReadCap s w (getC w t c.val) (eaOf w c a disp t).toNat with
  | (s, .ok (v, p)) => (modUnit s cx.u fun w => landCap w t d.val (cldCap w.asid v) p, .ok ())
  | (s, .error b) => (s, .error b)

/-- The body of CLD: R192, R181, R193. -/
def bodyCld (d c : Fin 16) (a : PReg) (disp : Int) (cx : Cx) (s : State) : Res :=
  let x : Uses := { reads := [.c c.val, .x a], writes := [.c d.val], data := [], tagged := false }
  guardCapDst cx x d.val false (fun s =>
    withOperands cx x (fun s =>
      guardAccess cx c a disp 16 needCld (commit cx x (accessAll cx (cldThread cx d c a disp))) s) (afterAtomics cx s)) s

/-- CLD (R193). -/
def execCld (d c : Fin 16) (a : PReg) (disp : Option (BitVec 32)) (s : State) : Host.Outcome State Fault Refusal :=
  issue (optLen disp) false (bodyCld d c a (dispOf disp)) s

/-- One thread's CST. -/
def cstThread (cx : Cx) (d c : Fin 16) (a : PReg) (disp : Int) (t : Nat) (s : State) : State × Except Bad Unit :=
  let w := unitOf s cx.u
  let cp := getC w t c.val
  let ea := (eaOf w c a disp t).toNat
  match capWriteCap s w cp ea (getC w t d.val) false with
  | (s, .ok _) => (noteHigh cx.u cp (ea + 16) s, .ok ())
  | r => r

/-- The body of CST: R192, R181, R185, R193. -/
def bodyCst (d c : Fin 16) (a : PReg) (disp : Int) (cx : Cx) (s : State) : Res :=
  guardForbid cx (c.val == 7)
    (withStore cx [.c c.val] a [.c d.val] (guardAccess cx c a disp 16 needCst) (accessAll cx (cstThread cx d c a disp)))
    (afterAtomics cx s)

/-- CST (R193). -/
def execCst (d c : Fin 16) (a : PReg) (disp : Option (BitVec 32)) (s : State) : Host.Outcome State Fault Refusal :=
  issue (optLen disp) false (bodyCst d c a (dispOf disp)) s

/-! ### Fences -/

/-- FENCE: the active threads' loads and atomics complete (R200). Accesses take place in the order of issue, so that a fence
of any kind and scope has nothing else to wait for. (Log 5 DESIGN CHOICE.) -/
def execFence (k : FenceKind) (sc : Scope) (s : State) : Host.Outcome State Fault Refusal :=
  let _ := (k, sc)
  issue 4 false (fun cx s => .ok (modUnit s cx.u fun w => landWhere w fun p => cx.act.contains p.thread)) s

/-! ### The local scratchpad -/

/-- The body of LDS: R182, R189. -/
def bodyLds (la : Fin 16) (sz : Size) (a d : PReg) (disp : Option (BitVec 32)) (cx : Cx) (s : State) : Res :=
  let x : Load := ⟨d, sizeBytes sz, false, false⟩
  let u : Uses := { reads := [.x a], writes := (loadRegs d x.n).map .x, data := [], tagged := false }
  withOperands cx u (fun s =>
    guardSpm cx a (dispOf disp) x.n 1 (commit cx u fun s =>
      .ok (cx.act.foldl (fun s t => spmLoadThread cx (.lds la sz a d disp) la.val x a (dispOf disp) t s) s)) s) (afterAtomics cx s)

/-- LDS (R202). -/
def execLds (la : Fin 16) (sz : Size) (a d : PReg) (disp : Option (BitVec 32)) (s : State) : Host.Outcome State Fault Refusal :=
  issue (optLen disp) false (bodyLds la sz a d disp) s

/-- The body of STS: R182, R185, R191. Forbidden in an exit routine (R187). -/
def bodySts (d : PReg) (n : Nat) (a : PReg) (disp : Int) (cx : Cx) (s : State) : Res :=
  guardForbid cx false (withStore cx [] a ((storeRegs d n).map .x) (guardSpm cx a disp n 1) fun s =>
    .ok (cx.act.foldl (spmStoreThread cx d n a disp) s)) (afterAtomics cx s)

/-- The body of STS qN: an entry read from the scratchpad (R207). -/
def bodyStsPort (p : Fin 8) (a : PReg) (disp : Int) (cx : Cx) (s : State) : Res :=
  let x : Uses := { reads := [.x a], writes := [.x (.q p)], data := [], tagged := false }
  withOperands cx x (fun s =>
    let n := portSize s (unitOf s cx.u) p.val
    guardSpm cx a disp n 1 (pushThreads cx p.val (fun t s =>
      let w := unitOf s cx.u
      match spmReadM s w.grp (homeCore s w) (soOf w a disp t) n with
      | some r => (s, .ok r)
      | none => (s, .error (.trap cCapBounds))) cx.act []) s) (afterAtomics cx s)

/-- STS; with a queue port as D a push (R202, R207). -/
def execSts (sz : Size) (a d : PReg) (disp : Option (BitVec 32)) (s : State) : Host.Outcome State Fault Refusal :=
  issue (optLen disp) false (match d with
    | .q p => bodyStsPort p a (dispOf disp)
    | d => bodySts d (sizeBytes sz) a (dispOf disp)) s

/-! ### Prefetch -/

/-- The extent of PREF (R203). -/
def prefExtent : Size → Nat
  | .byte => 64
  | .half => 256
  | .word => 1024
  | .dword => 4096

/-- One thread's prefetch: .l2 makes the read's requests, .xlat fills the TLBs; nothing where a check fails, the page does not
translate, or its frame is claimed under another key, nor where an address operand is poisoned (R204). R181's table has no row for
PREF: it is checked as a read, for the right R and the kinds 00 and 10, over the whole extent of R203; through a window's capability it
prefetches nothing. (Log 43 DESIGN CHOICE.) -/
def prefThread (cx : Cx) (xlat : Bool) (n : Nat) (c : Fin 16) (a : PReg) (disp : Int) (s : State) (t : Nat) : State :=
  let w := unitOf s cx.u
  let cp := getC w t c.val
  let ea := eaOf w c a disp t
  if poisonC w t c.val ≠ 0 || poisonX w t a ≠ 0 then s
  else if (localCheck s w cp ea n rR 0b0101 1).isSome || cp.tenant ≠ w.asid || cp.rights.testBit 7 then s
  else
    match if xlat then objTouch s (reqOf w) cp.object ea.toNat n
        else (fun r => (r.1, r.2.map fun _ => ())) (objRead s (reqOf w) cp.object ea.toNat n false) with
    | (t, .ok _) => t
    | (_, .error _) => s

/-- The body of PREF. Its only traps are those of its encoding and of the registers it names: where a dropped source cannot be
replayed nothing is prefetched (R204). -/
def bodyPref (xlat : Bool) (sz : Size) (c : Fin 16) (a : PReg) (disp : Int) (cx : Cx) (s : State) : Res :=
  let x : Uses := { reads := [.c c.val, .x a], writes := [], data := [], tagged := false }
  guardNames cx x (fun s =>
    match replaySrcs cx [a] s with
    | .error (_, s) => .ok s
    | .ok s => .ok (cx.act.foldl (prefThread cx xlat (prefExtent sz) c a disp) s)) (afterAtomics cx s)

/-- PREF (R204). -/
def execPref (xlat : Bool) (sz : Size) (c : Fin 16) (a : PReg) (disp : Option (BitVec 32)) (s : State) :
    Host.Outcome State Fault Refusal :=
  issue (optLen disp) false (bodyPref xlat sz c a (dispOf disp)) s

end Sys2Proof.Machine
end

