-- ==== Sys2Proof/Machine/Chain.lean ====
section
/-! DEFINITION. CHAPP, CHTAIL, CHWAIT, CHSEQ and SMPL on chains in memory (R237, R238, R244, R313 to R316). -/

namespace Sys2Proof.Machine

/-- A chain header (R313). -/
structure Header where
  ctl : Nat
  resv : Nat
  tail : Nat
  done : Nat
  owner : Nat
  rest : Nat
  deriving DecidableEq, Repr

/-- The header that 64 bytes hold. (Log 57 DEDUCED.) -/
def headerOf (b : List Byte) : Header :=
  { ctl := fieldAt b 0 4, resv := fieldAt b 8 4, tail := fieldAt b 0xC 4, done := fieldAt b 0x10 4, owner := fieldAt b 0x18 8,
    rest := fieldAt b 0x20 32 }

/-- ENGINE. -/
def Header.engine (h : Header) : Nat := bitsOf h.ctl 0 2

/-- The sampler's cluster. -/
def Header.cluster (h : Header) : Nat := bitsOf h.ctl 2 2

/-- LOG2N. -/
def Header.log2n (h : Header) : Nat := bitsOf h.ctl 4 5

/-- REG. -/
def Header.reg (h : Header) : Bool := h.ctl / 2 ^ 31 % 2 == 1

/-- The fields but REG and OWNER are in range (R313). -/
def Header.formOk (h : Header) : Bool :=
  1 ≤ h.log2n && h.log2n ≤ 16 && bitsOf h.ctl 9 22 == 0 && h.rest == 0

/-- The header is valid for a context's instructions: a control chain's is not (R313). -/
def Header.ok (h : Header) (asid : Nat) : Bool := h.reg && h.formOk && h.owner == asid && h.engine != 0

/-- The chain is full (R316). -/
def Header.full (h : Header) : Bool := (h.resv + 2 ^ 33 - h.done - 1) % 2 ^ 32 == 2 ^ h.log2n

/-- The byte of entry `q` from the header's first byte. -/
def slotAt (h : Header) (q : Nat) : Nat := 64 + 64 * (q % 2 ^ h.log2n)

/-- A wait for sequence number `n` is over (R238). -/
def seqDone (done n : Nat) : Bool := (done + 2 ^ 32 - n % 2 ^ 32) % 2 ^ 32 < 2 ^ 31

/-! ### What the chain instructions share -/

/-- The chain capability's checks, then the header; `k` is given the capability and the header (R237). (Log 57 DEDUCED.) -/
def withChain (cx : Cx) (a : Fin 16) (more : List RName) (writes : List RName) (k : Cap → Header → State → Res) (s : State) : Res :=
  guardEngine cx .never (fun s =>
    let x : Uses := { reads := .c a.val :: more, writes := writes, data := [], tagged := false }
    guardNames cx x (guardPoison { cx with act := [lowLive (unitOf s cx.u)] } x fun s =>
      let w := unitOf s cx.u
      let c := getC w (lowLive w) a.val
      guardAll cx s (localCheck s w c c.cursor 64 (rR + rW) 0b0001 64) fun s =>
        match capRead s w c c.cursor 64 with
        | (s, .error b) => engineStop cx s b
        | (s, .ok (bs, _)) =>
          let h := headerOf bs
          if h.ok w.asid then k c h s else trapAll cx s cChain) s) s

/-- Read capability granules as CLD loads them, `n` of them (R193, R238). -/
def readGranules (w : Warp) (c : Cap) : Nat → Nat → State → State × Except Bad (List (Cap × Bool))
  | 0, _, s => (s, .ok [])
  | n + 1, a, s =>
    match capReadCap s w c a with
    | (s, .error b) => (s, .error b)
    | (s, .ok (v, p)) =>
      match readGranules w c n (a + 16) s with
      | (s, .error b) => (s, .error b)
      | (s, .ok l) => (s, .ok ((cldCap w.asid v, p) :: l))

/-- Write capability granules. -/
def writeGranules (w : Warp) (c : Cap) : List (Cap × Bool) → Nat → State → State × Except Bad Unit
  | [], _, s => (s, .ok ())
  | (v, p) :: r, a, s =>
    match capWriteCap s w c a v p with
    | (s, .error b) => (s, .error b)
    | (s, .ok _) => writeGranules w c r (a + 16) s

/-- The staged granules of an entry: on a sampler chain granule 2 takes the sampled MODE as SMODE (R374). -/
def withSmode (h : Header) (rmode : Nat) (l : List (Cap × Bool)) : List (Cap × Bool) :=
  if h.engine = 3 then
    l.zipIdx.map fun p => if p.2 = 2 then (p.1.1.setField 8 3 (rmode % 8), p.1.2) else p.1
  else l

/-- Read the staging bytes, write the slot and advance RESV; with `tail` TAIL follows (R238, R244). -/
def appendEntry (w : Warp) (rmode : Nat) (c st : Cap) (h : Header) (tail : Bool) (s : State) : State × Except Bad Unit :=
  match readGranules w st 4 st.cursor s with
  | (s, .error b) => (s, .error b)
  | (s, .ok l) =>
    match writeGranules w c (withSmode h rmode l) (c.cursor + slotAt h h.resv) s with
    | (s, .error b) => (s, .error b)
    | (s, .ok _) =>
      let q := toBytes 4 (h.resv + 1)
      match capWrite s w c (c.cursor + 8) q false with
      | (s, .error b) => (s, .error b)
      | (s, .ok _) => if tail then capWrite s w c (c.cursor + 12) q false else (s, .ok ())

/-- The body of CHAPP, and of SMPL (R238, R244). A fault leaves nothing behind. (Log 57 DEDUCED.) -/
def bodyAppend (smpl : Bool) (d : Fin 64) (a st : Fin 16) (cx : Cx) (s : State) : Res :=
  withChain cx a [.c st.val] [.u d.val] (fun c h s =>
    let w := unitOf s cx.u
    let g := getC w (lowLive w) st.val
    if smpl && !(h.engine == 3 && h.cluster == w.loc.cluster) then trapAll cx s cChain
    else
      guardAll cx s (localCheck s w g g.cursor 64 rR 0b1111 16) fun s =>
        if h.full then engineWait cx s 9 0 c.object c.cursor none
        else
          let o := c.cursor + slotAt h h.resv
          guardAll cx s (localCheck s w c o 64 (rR + rW) 0b0001 64) fun s =>
            match appendEntry w cx.rmode c g h smpl s with
            | (t, .error b) => engineStop cx (keepCounts s t) b
            | (s, .ok _) =>
              commit cx { reads := [], writes := [.u d.val], data := [], tagged := false } (fun s =>
                .ok (modUnit s cx.u fun w => setS w d.val (BitVec.ofNat 64 h.resv))) s) s

/-- CHAPP sD, cA, cS: a full chain is a blocking point. -/
def execChapp (d : Fin 64) (a st : Fin 16) (s : State) : Host.Outcome State Fault Refusal := issue 8 true (bodyAppend false d a st) s

/-- SMPL sD, cA, cS. -/
def execSmpl (d : Fin 64) (a st : Fin 16) (s : State) : Host.Outcome State Fault Refusal := issue 8 true (bodyAppend true d a st) s

/-- CHTAIL cA: every reserved entry is written, so TAIL becomes RESV. -/
def execChtail (la a : Fin 16) (s : State) : Host.Outcome State Fault Refusal :=
  let _ := la
  issue 4 true (fun cx => withChain cx a [] [] fun c h s =>
    match capWrite s (unitOf s cx.u) c (c.cursor + 12) (toBytes 4 h.resv) false with
    | (s, .ok _) => .ok s
    | (t, .error b) => engineStop cx (keepCounts s t) b) s

/-- CHWAIT cA, sD|imm: a blocking point. -/
def execChwait (a : Fin 16) (n : SSrc) (s : State) : Host.Outcome State Fault Refusal :=
  issue (ssrcLen n) true (fun cx => withChain cx a (ssrcName n) [] fun c h s =>
    let v := (getSSrc (unitOf s cx.u) n).toNat % 2 ^ 32
    if seqDone h.done v then .ok s else engineWait cx s 8 v c.object c.cursor none) s

/-- CHSEQ sD, cA. -/
def execChseq (d : Fin 64) (a : Fin 16) (s : State) : Host.Outcome State Fault Refusal :=
  issue 4 true (fun cx => withChain cx a [] [.u d.val] fun _ h s =>
    commit cx { reads := [], writes := [.u d.val], data := [], tagged := false } (fun s =>
      .ok (modUnit s cx.u fun w => setS w d.val (BitVec.ofNat 64 h.done))) s) s

end Sys2Proof.Machine
end

