-- ==== Sys2Proof/Machine/Compact.lean ====
section
/-! DEFINITION. The compact forms (R81, R82). -/

namespace Sys2Proof.Machine

/-- Compact IADD: DA := DA op B (R82). -/
def execCompactIadd (d b : PReg) (s : State) : Host.Outcome State Fault Refusal :=
  perThread 2 (fun2 d d (.reg b) (fun _ => aluAdd)) s

/-- Compact ISUB: DA := DA op B (R82). -/
def execCompactIsub (d b : PReg) (s : State) : Host.Outcome State Fault Refusal :=
  perThread 2 (fun2 d d (.reg b) (fun _ => aluSub)) s

/-- Compact AND: DA := DA op B (R82). -/
def execCompactAnd (d b : PReg) (s : State) : Host.Outcome State Fault Refusal :=
  perThread 2 (fun2 d d (.reg b) (fun _ => aluAnd)) s

/-- Compact OR: DA := DA op B (R82). -/
def execCompactOr (d b : PReg) (s : State) : Host.Outcome State Fault Refusal :=
  perThread 2 (fun2 d d (.reg b) (fun _ => aluOr)) s

/-- Compact XOR: DA := DA op B (R82). -/
def execCompactXor (d b : PReg) (s : State) : Host.Outcome State Fault Refusal :=
  perThread 2 (fun2 d d (.reg b) (fun _ => aluXor)) s

/-- Compact SHL: DA := DA op B (R82). -/
def execCompactShl (d b : PReg) (s : State) : Host.Outcome State Fault Refusal :=
  perThread 2 (fun2 d d (.reg b) (fun _ => aluShl)) s

/-- Compact SHR: DA := DA op B (R82). -/
def execCompactShr (d b : PReg) (s : State) : Host.Outcome State Fault Refusal :=
  perThread 2 (fun2 d d (.reg b) (fun _ => aluShr)) s

/-- Compact MOV: DA := B (R82). -/
def execCompactMov (d b : PReg) (s : State) : Host.Outcome State Fault Refusal :=
  perThread 2 (funMov d (.reg b)) s

/-- Compact FADD: DA := DA op B (R82). -/
def execCompactFadd (d b : PReg) (s : State) : Host.Outcome State Fault Refusal :=
  perThread 2 (fun2 d d (.reg b) fAdd) s

/-- Compact FFMA: DA := y0 × B + DA (R82). -/
def execCompactFfma (d b : PReg) (s : State) : Host.Outcome State Fault Refusal :=
  perThread 2 (fun3 d (.y 0) (.reg b) fun e d a b => fFma e a b d) s

/-- Compact FMUL: DA := DA op B (R82). -/
def execCompactFmul (d b : PReg) (s : State) : Host.Outcome State Fault Refusal :=
  perThread 2 (fun2 d d (.reg b) fMul) s

/-- Compact FMAX: DA := DA op B (R82). -/
def execCompactFmax (d b : PReg) (s : State) : Host.Outcome State Fault Refusal :=
  perThread 2 (fun2 d d (.reg b) (fun _ => fMax)) s

/-- Compact FMIN: DA := DA op B (R82). -/
def execCompactFmin (d b : PReg) (s : State) : Host.Outcome State Fault Refusal :=
  perThread 2 (fun2 d d (.reg b) (fun _ => fMin)) s

/-- Compact IMUL: DA := DA op B (R82). -/
def execCompactImul (d b : PReg) (s : State) : Host.Outcome State Fault Refusal :=
  perThread 2 (fun2 d d (.reg b) (fun _ => aluMul)) s

/-- Compact HADD2: DA := DA op B (R82). -/
def execCompactHadd2 (d b : PReg) (s : State) : Host.Outcome State Fault Refusal :=
  perThread 2 (fun2 d d (.reg b) (pAdd .f16)) s

/-- Compact MOVI: DA := a number from −16 to 15 (R82). -/
def execCompactMovi (d : PReg) (n : BitVec 5) (s : State) : Host.Outcome State Fault Refusal :=
  perThread 2 (funMov d (.lit (n.signExtend 32))) s

end Sys2Proof.Machine
end

