-- ==== Sys2Proof/Machine/Place.lean ====
section
/-! DEFINITION. Placing warps: room on a partition and a core, rows, scratchpad runs, launch values, and
PLACE_WORK_GROUP (R14, R21 to R24, R51, R52, R58, R267, R268, R290, R291, R307, R320, R371, R402). -/

namespace Sys2Proof.Machine

/-! ### Room (R14, R21) -/

/-- A core, as a place with partition and slot 0. -/
def coreLoc (c : Nat × Nat × Nat) : Loc := ⟨c.1, c.2.1, c.2.2, 0, 0⟩

/-- The core of a place. -/
def coreOf (l : Loc) : Nat × Nat × Nat := (l.cluster, l.slice, l.core)

/-- The lowest free warp slot of a partition. -/
def freeSlot (s : State) (l : Loc) : Option Nat :=
  (List.range 8).find? fun k => !((partUnits s l).any fun p => p.2.loc.slot == k)

/-- The rows that base allocations claim on a partition. -/
def baseRows (s : State) (l : Loc) : List Nat := (partUnits s l).flatMap fun p => p.2.rows

/-- A sum over the warps of a partition. -/
def partSum (s : State) (l : Loc) (f : Warp → Nat) : Nat := (partUnits s l).foldl (fun n p => n + f p.2) 0

/-- How many more warps with an allocation fit in a partition (R21). -/
def partRoom (s : State) (l : Loc) (base ntiles naccs : Nat) : Nat :=
  let slots := 8 - (partUnits s l).length
  let rows := (192 - (baseRows s l).length) / base
  let tiles := if ntiles = 0 then slots else (8 - partSum s l (·.ntiles)) / ntiles
  let accs := if naccs = 0 then slots else (4 - partSum s l (·.naccs)) / naccs
  min (min slots rows) (min tiles accs)

/-- The partitions of a core. -/
def partsOf (c : Nat × Nat × Nat) : List Loc := (List.range 4).map fun p => { coreLoc c with part := p }

/-- How many more warps fit on a core. -/
def coreRoom (s : State) (c : Nat × Nat × Nat) (base ntiles naccs : Nat) : Nat :=
  (partsOf c).foldl (fun n l => n + partRoom s l base ntiles naccs) 0

/-- The allocations on a core's scratchpad: those of groups that are not out, and those that gang parts keep. -/
def coreAllocs (s : State) (c : Nat × Nat × Nat) : List Alloc :=
  ((s.groups ++ s.gangParts.flatMap fun p => p.2.groups).filter fun p => p.2.stat == .running).filterMap fun p => allocAt p.2 c

/-- A run of `size` bytes at `b` is free (R13, R14). -/
def runFree (l : List Alloc) (size b : Nat) : Bool :=
  b + size ≤ 0x60000 && l.all fun a => b + size ≤ a.base || a.base + a.size ≤ b

/-- The lowest free run of a core's scratchpad: it starts at 0 or at the end of an allocation. -/
def spmRun (s : State) (c : Nat × Nat × Nat) (size : Nat) : Option Nat :=
  let l := coreAllocs s c
  match (0 :: l.map fun a => a.base + a.size).filter (runFree l size) with
  | [] => none
  | b :: r => some (r.foldl min b)

/-! ### Rows (R307) -/

/-- An elastic value in the given rows: unit, register, row. -/
def elasticIn (s : State) (l : Loc) (rows : List Nat) : List (Nat × Nat × Nat) :=
  (partUnits s l).flatMap fun p => p.2.recipes.filterMap fun r =>
    match r.row with
    | some k => if rows.contains k then some (p.1, r.reg, k) else none
    | none => none

/-- Clear one elastic value out of rows that a placement claims: dropped where it may be, else moved to a free row. -/
def vacate (l : Loc) (rows : List Nat) (s : State) (e : Nat × Nat × Nat) : Option State :=
  let w := unitOf s e.1
  let pending := w.pends.any fun p => p.dests.any fun d => d.reg == e.2.1
  let pinned := match recipeOf w e.2.1 with
    | some r => r.st == .pinned
    | none => false
  if !pending && !pinned then
    some (modUnit s e.1 fun w => modRecipe w e.2.1 fun r => { r with st := .dropped, row := none })
  else
    let used := usedRows s l
    match (List.range 192).find? fun k => !used.contains k && !rows.contains k with
    | none => none
    | some k => some (modUnit s e.1 fun w => modRecipe w e.2.1 fun r => { r with row := some k })

/-- The B lowest rows that no base allocation claims, cleared of elastic values; none holds the placement. -/
def claimRows (s : State) (l : Loc) (base : Nat) : Option (State × List Nat) :=
  let used := baseRows s l
  let rows := ((List.range 192).filter fun k => !used.contains k).take base
  if rows.length < base then none
  else ((elasticIn s l rows).foldlM (vacate l rows) s).map fun s => (s, rows)

/-- A slot on the first of the partitions `ps` that has room for an allocation, with its rows; none where none has (R21). -/
def claimSlot (s : State) (ps : List Loc) (base ntiles naccs : Nat) : Option (State × Loc × List Nat) :=
  match ps.find? fun p => 0 < partRoom s p base ntiles naccs with
  | none => none
  | some p =>
    match freeSlot s p, claimRows s p base with
    | some k, some (s, rows) => some (s, { p with slot := k }, rows)
    | _, _ => none

/-! ### Launch values (R57, R58, R267, R290, R291) -/

/-- The live threads of the warp with global index `w` (R267). -/
def liveMask (threads w : Nat) : Nat :=
  let n := threads - w * 128
  if 128 ≤ n then 2 ^ 128 - 1 else 2 ^ n - 1

/-- k0: K0 narrowed to ARGS bytes, without W, X, SC and AT (R291). -/
def argsCap (l : Launch) : Cap :=
  let c := l.k.getD 0 Cap.null
  let d := (narrowed c l.args).getD c
  d.setField 74 8 (d.rights &&& (255 - rW - rX - rSC - rAT))

/-- The k registers of a launch. -/
def launchK (l : Launch) : Store Cap :=
  storeOf Cap.null 0 (argsCap l :: (List.range 7).map fun i => l.k.getD (i + 1) Cap.null)

/-- c6 of the thread with launch index `i` (R290). -/
def stackCap (l : Launch) (i : Nat) : Cap :=
  let r := narrowRange 0 l.stack
  { mkCap l.stackT.kind l.stackT.tenant (l.stackT.object + i) l.stackT.rights r.2.2 r.2.1 r.1 0 l.stackT.tag with tag := l.stackT.tag }

/-- s0 to s3 of a warp (R58). (Log 82 DEDUCED.) -/
def launchS (l : Launch) (g idx : Nat) : Store DWord :=
  storeOf 0 0 [BitVec.ofNat 64 (l.groups * 2 ^ 32 + g), BitVec.ofNat 64 (l.warps * 2 ^ 32 + idx),
               BitVec.ofNat 64 (l.member * 2 ^ 32 + l.level), BitVec.ofNat 64 l.threads]

/-- The register files of a warp at placement (R51, R52). -/
def launchRegs (l : Launch) (g idx first : Nat) (ts : List Nat) : Regs :=
  { Regs.zero with
    s := launchS l g idx, k := launchK l
    c := ts.foldl (fun c t => sset Cap.null c (xkey 6 t) (stackCap l (first + t))) [] }

/-- A warp at placement. Execution starts at base. (Log 83 DEDUCED.) -/
def newWarp (l : Launch) (gid g idx : Nat) (loc : Loc) (rows : List Nat) : Warp :=
  let first := (g * l.warps + idx) * 128
  let live := liveMask l.threads (g * l.warps + idx)
  { Warp.blank with
    grp := gid, idx := idx, asid := l.asid, loc := loc, stat := .resident, base := l.base, elastic := l.elastic
    ntiles := l.ntiles, naccs := l.naccs, live := live, regs := launchRegs l g idx first (threadsOf live), rows := rows }

/-- The warp's PCs stand at base (R152). (Log 83 DEDUCED.) -/
def startAtBase (s : State) (w : Warp) : Warp := setPcs w (liveThreads w) (codeBase s w)

/-- Place one warp on the lowest partition of `ps` that has room; none where none has. -/
def placeWarp (l : Launch) (gid g idx : Nat) (ps : List Loc) (s : State) : Option State :=
  match claimSlot s ps l.base l.ntiles l.naccs with
  | none => none
  | some (s, p, rows) =>
    let (n, s) := newId s
    let w := newWarp l gid g idx p rows
    let s := { s with units := sput s.units n w }
    some (modGroup (modUnit s n (startAtBase s)) gid fun x => { x with members := x.members ++ [n] })

/-- Place warps in order, each on the partitions its index names. -/
def placeWarps (l : Launch) (gid g : Nat) : List (Nat × List Loc) → State → Option State
  | [], s => some s
  | (i, ps) :: r, s =>
    match placeWarp l gid g i ps s with
    | none => none
    | some s => placeWarps l gid g r s

/-! ### Tiers (R22, R23, R371) -/

/-- The cores of the instance of a level that holds a place. (Log 59 DESIGN CHOICE.) -/
def tierCores (level : Nat) (l : Loc) : List (Nat × Nat × Nat) :=
  if level ≤ 3 then [coreOf l]
  else if level = 4 then (List.range 16).map fun c => (l.cluster, l.slice, c)
  else if level = 5 then (List.range 12).flatMap fun s => (List.range 16).map fun c => (l.cluster, s, c)
  else (List.range 4).flatMap fun k => (List.range 12).flatMap fun s => (List.range 16).map fun c => (k, s, c)

/-- The part has the core (R2). -/
def corePresent (s : State) (c : Nat × Nat × Nat) : Bool := !s.absentCores.contains (coreKey (coreLoc c))

/-- The part has the core, and its slice lies in the hard partition (R402). -/
def coreUsable (s : State) (h : Nat) (c : Nat × Nat × Nat) : Bool := corePresent s c && portIn s h (sliceKey (coreLoc c))

/-- A core has room for `n` warps of a launch and its group's scratchpad allocation. -/
def coreFits (s : State) (l : Launch) (c : Nat × Nat × Nat) (n : Nat) : Bool :=
  n ≤ coreRoom s c l.base l.ntiles l.naccs && (l.scratch = 0 || (spmRun s c l.scratch).isSome)

/-- The first `p` cores in rising order that have room for their warps, `cnt i` on the `i`-th. (Log 59 DESIGN CHOICE.) -/
def chooseCores (s : State) (l : Launch) (p : Nat) (cnt : Nat → Nat) (cs : List (Nat × Nat × Nat)) : List (Nat × Nat × Nat) :=
  cs.foldl (fun got c => if got.length < p && coreFits s l c (cnt got.length) then got ++ [c] else got) []

/-- The place lies in the full configuration's machine (R7, R10, R11). -/
def locOk (l : Loc) : Bool := l.cluster < 4 && l.slice < 12 && l.core < 16 && l.part < 4

/-- The cores of the instance at `loc` that a launch may use. -/
def usableCores (s : State) (l : Launch) (loc : Loc) : List (Nat × Nat × Nat) :=
  (tierCores l.level loc).filter (coreUsable s (ctxOf s l.asid).hpart)

/-- The `p` cores that warps with the indexes `ws` take at `loc`, and for each the partitions it may take; none without room.
(Log 59 DESIGN CHOICE.) -/
def planFor (s : State) (l : Launch) (loc : Loc) (p : Nat) (ws : List Nat) :
    Option (List (Nat × Nat × Nat) × List (Nat × List Loc)) :=
  let cs := chooseCores s l p (fun i => ws.countP fun w => w % p == i) (usableCores s l loc)
  if !locOk loc || cs.length < p || p = 0 then none
  else
    some (cs, ws.map fun w =>
      let c := cs.getD (w % p) (0, 0, 0)
      (w, if l.level ≤ 2 then [{ coreLoc c with part := loc.part }] else partsOf c))

/-- The plan of a whole group at `loc`, on P = min(W, cores of the instance) cores (R371), all in the hard partition (R402).
(Log 59 DESIGN CHOICE.) -/
def planGroup (s : State) (l : Launch) (loc : Loc) : Option (List (Nat × Nat × Nat) × List (Nat × List Loc)) :=
  planFor s l loc (min l.warps ((tierCores l.level loc).countP (corePresent s))) (List.range l.warps)

/-- The group's scratchpad allocations, one for each core. -/
def allocCores (s : State) (l : Launch) (cs : List (Nat × Nat × Nat)) : List Alloc :=
  if l.scratch = 0 then []
  else cs.map fun c =>
    { cluster := c.1, slice := c.2.1, core := c.2.2, base := (spmRun s c l.scratch).getD 0, size := l.scratch, bytes := []
      poison := [], watch := [] }

/-- The barriers of a group: for each level and each instance of it, the warps that lie there (R177). -/
def groupBars (level : Nat) (ls : List Loc) : List Bar :=
  (List.range 4).flatMap fun lv =>
    ((ls.map (barInst level lv)).dedup).map fun i =>
      { level := lv, inst := i, n := ls.countP fun l => barInst level lv l == i, gen := 0, count := 0, arrived := [] }

/-- The places of a group's warps. -/
def groupLocs (s : State) (gid : Nat) : List Loc := (groupOf s gid).members.map fun m => (unitOf s m).loc

/-- A context becomes Resident with its first placed warp or started engine work; the virtual device becomes Running
(R246, R398). -/
def makeResident (s : State) (asid : Nat) : State :=
  let c := ctxOf s asid
  if c.state = .ready then
    let s := modCtx (setCtxState s asid .resident) asid fun c => { c with sliceStart := s.time, idle := 0 }
    modVd s c.vd fun v => if v.state = 1 then { v with state := 2 } else v
  else s

/-- Fill the TLBs of a placed core for the declared tile operand's bounds, up to 2 MiB, as PREF.xlat does (R320). -/
def fillOperand (s : State) (l : Launch) (c : Nat × Nat × Nat) : State :=
  let k := l.operand
  if !k.tag || k.kind = 1 || k.tenant ≠ l.asid then s
  else
    let n := min (k.high - k.low) (2 ^ 21)
    let first := k.low / 65536
    let rq : Req := ⟨l.asid, coreKey (coreLoc c), sliceKey (coreLoc c), sliceKey (coreLoc c)⟩
    if n = 0 then s
    else (List.range ((k.low + n - 1) / 65536 + 1 - first)).foldl (fun s i => (objTouch s rq k.object (max k.low ((first + i) * 65536)) 1).1) s

/-- Seat a whole group of launch `ln` in one step: its cores, and the state with its warps in their places; none while the instance
that holds `loc` has no room (R23). -/
def seatGroup (s : State) (ln : Nat) (loc : Loc) : Option (List (Nat × Nat × Nat) × State) :=
  let l := launchOf s ln
  match planGroup s l loc with
  | none => none
  | some (cs, plan) =>
    let (gid, s) := newId s
    let g : Group :=
      { launch := ln, idx := l.placed, asid := l.asid, stat := .running, members := [], cores := cs, bars := []
        allocs := allocCores s l cs, status := 0, cause := 0, pc := 0 }
    match placeWarps l gid l.placed plan { s with groups := sput s.groups gid g } with
    | none => none
    | some s =>
      let s := modGroup s gid fun g => { g with bars := groupBars l.level (groupLocs s gid) }
      some (cs, modLaunch s ln fun l => { l with placed := l.placed + 1 })

/-- Place a whole group of launch `ln`, with the TLBs of its cores filled; none where it cannot be seated. -/
def placeGroup (s : State) (ln : Nat) (loc : Loc) : Option State :=
  (seatGroup s ln loc).map fun p => p.1.foldl (fun s c => fillOperand s (launchOf s ln) c) p.2

/-! ### Class 1 (R320) -/

/-- The thread with launch index `i` as a warp of one thread in an offset-core context: it may use every base register.
(Log 19 DESIGN CHOICE, log 82 DEDUCED.) -/
def newThread (l : Launch) (gid i : Nat) (loc : Loc) : Warp :=
  let t := i % 128
  { Warp.blank with
    grp := gid, idx := i / 128, asid := l.asid, loc := loc, stat := .resident, base := l.base, elastic := l.elastic
    ntiles := l.ntiles, naccs := l.naccs, live := 2 ^ t
    regs := { Regs.zero with
      s := launchS l i i, k := launchK l, c := sset Cap.null [] (xkey 6 t) (stackCap l i) }
    off := some { parent := none, thread := t, rejoin := none, ejV := 2 ^ l.base - 1, ejO := 255, ejY := 3, held := false } }

/-- Place one thread of a class 1 launch in the free offset-core context `loc` of the context's partition. -/
def placeThread (s : State) (ln : Nat) (loc : Loc) : Option State :=
  let l := launchOf s ln
  if !(freeContexts s l.asid loc).contains { loc with part := 0 } then none
  else
    let (gid, s) := newId s
    let (n, s) := newId s
    let g : Group :=
      { launch := ln, idx := l.placed, asid := l.asid, stat := .running, members := [n], cores := [], bars := [], allocs := []
        status := 0, cause := 0, pc := 0 }
    let s := { s with
      groups := sput s.groups gid g, units := sput s.units n (newThread l gid l.placed { loc with part := 0 }) }
    some (modLaunch (modUnit s n (startAtBase s)) ln fun l => { l with placed := l.placed + 1 })

/-! ### The event -/

/-- A context's work may be placed: it is Ready or Resident and its virtual device is not Held (R246, R398). -/
def mayPlace (s : State) (asid : Nat) : Bool :=
  let c := ctxOf s asid
  (c.state == .ready || c.state == .resident) && (vdOf s c.vd).state != 3

/-! ### Gang parts (R324) -/

/-- The gang part that keeps the places of launch `ln`. -/
def gangPartOf (s : State) (ln : Nat) : Option (Nat × GangPart) := s.gangParts.find? fun p => p.2.launch == ln

/-- The groups of a gang part take the places kept for them, as the launch values and the code object stand now (R58, R324).
(Log 69 DESIGN CHOICE.) -/
def placePart (s : State) (gang : Nat) (p : GangPart) : State :=
  let s : State := { s with
    groups := p.groups.foldl (fun l g => sput l g.1 g.2) s.groups
    units := p.units.foldl (fun l u => sput l u.1 u.2) s.units
    gangParts := smod s.gangParts gang fun p => { p with units := [], groups := [] } }
  let s := p.units.foldl (fun s u => modUnit s u.1 (startAtBase s)) s
  let s := p.groups.foldl (fun s g => g.2.cores.foldl (fun s c => fillOperand s (launchOf s p.launch) c) s) s
  makeResident (modLaunch s p.launch fun l => { l with placed := p.groups.length }) p.asid

/-- PLACE_WORK_GROUP: launch `id` places its next group on the instance that holds `loc`, or its next thread in the offset-core
context `loc`; the launch of a gang part places its groups where their places are kept, once GO has come (R324). Without room nothing
is placed. -/
def execPlaceWorkGroup (s : State) : Host.Outcome State Fault Refusal :=
  match sfind s.launches s.ev.id with
  | none => .next s
  | some l =>
    if mayPlace s l.asid && l.placed < l.groups then
      match gangPartOf s s.ev.id with
      | some p => .next (if p.2.started then placePart s p.1 p.2 else s)
      | none =>
        match if l.offThreads then placeThread s s.ev.id s.ev.loc else placeGroup s s.ev.id s.ev.loc with
        | some s => .next (makeResident s l.asid)
        | none => .next s
    else .next s

end Sys2Proof.Machine
end

