-- ==== Sys2Proof/Machine/Engine.lean ====
section
/-! DEFINITION. The engines' side of chains in device memory: reading and checking entries, readiness, and completion (R313,
R316 to R319, R322, R289, R290). -/

namespace Sys2Proof.Machine

/-- A chain of zeros. -/
def Chain.blank : Chain :=
  { asid := 0, vd := 0, cap := Cap.null, engine := 0, cluster := 0, log2n := 1, next := 1, done := 0, entries := [], oldFailed := false }

/-- An entry of zeros. -/
def Entry.blank : Entry :=
  { seq := 0, state := .waiting, granules := [], length := 0, prio := 0, readyAt := 0, agedAt := 0, launch := 0, moved := 0
    token := none, denied := false, status := 0, fixed := none, posted := false, got := [], gotCaps := [], out := [], put := 0 }

/-- Chain `ch`. -/
def chainOf (s : State) (ch : Nat) : Chain := sget Chain.blank s.chains ch

/-- Change chain `ch`. -/
def modChain (s : State) (ch : Nat) (f : Chain → Chain) : State := { s with chains := smod s.chains ch f }

/-- Entry `q` of a chain, where its engine has read it. -/
def entryOf (c : Chain) (q : Nat) : Option Entry := c.entries.find? fun e => e.seq == q

/-- Change entry `q` of chain `ch`. -/
def modEntry (s : State) (ch q : Nat) (f : Entry → Entry) : State :=
  modChain s ch fun c => { c with entries := c.entries.map fun e => if e.seq == q then f e else e }

/-- The requester of an engine: a sampler engine uses port 12c + 11, the others port 48 (R8, R9). -/
def chainReq (c : Chain) : Req :=
  if c.engine = 3 then ⟨c.asid, 1000000, 1000000, 12 * c.cluster + 11⟩ else reqEngine c.asid

/-- The arbiter's source number of a chain's engine (R27). (Log 36 DEDUCED.) -/
def chainSrc (c : Chain) : Nat := if c.engine = 3 then 3 + c.cluster else c.engine

/-- SOURCE of a fault record of a chain's engine (R355). -/
def chainSource (c : Chain) : Nat := c.engine + 2

/-! ### Granule 0 (R317) -/

/-- Granule `i` of an entry. (Log 28 DEDUCED.) -/
def granule (e : Entry) (i : Nat) : Cap := e.granules.getD i Cap.null

/-- A field of granule 0. -/
def g0 (e : Entry) (lo n : Nat) : Nat := bitsOf (granule e 0).bits.toNat lo n

/-- The fields of granule 0. -/
def eKind (e : Entry) : Nat := g0 e 0 8
def eClass (e : Entry) : Nat := g0 e 8 2
def ePrio (e : Entry) : Nat := g0 e 10 3
def eNotify (e : Entry) : Bool := g0 e 13 1 == 1
def eOrdered (e : Entry) : Bool := g0 e 14 1 == 1
def eHold (e : Entry) : Bool := g0 e 15 1 == 1
def eBin (e : Entry) : Nat := g0 e 16 16
def eLength (e : Entry) : Nat := g0 e 32 32

/-- PRED0 and PRED1, where they name an entry. -/
def ePreds (e : Entry) : List Nat := [g0 e 64 32, g0 e 96 32].filter (· != 0)

/-! ### Faults of an engine -/

/-- An engine's access for an entry faults: the entry waits on a token; a key mismatch resets the context (R347, R356). -/
def engineFault (s : State) (ch q obj : Nat) (wr : Bool) : Flt → State
  | .key => ctxFault s (chainOf s ch).asid 1 (chainSrc (chainOf s ch))
  | .page f _ =>
    let c := chainOf s ch
    let (n, s) := raiseFault s c.asid (chainSource c) (c.cluster * 2 ^ 13) false false ⟨f.cause, f.sub, f.ua, obj, f.off, wr, false, []⟩
      (.entry ch q)
    modEntry s ch q fun e => { e with token := some n }

/-- Write bytes of a chain's header. -/
def chainPut (s : State) (ch off : Nat) (bs : List Byte) : State × Except Flt Unit :=
  let c := chainOf s ch
  objWrite s (chainReq c) c.cap.object (c.cap.cursor + off) bs false

/-! ### Completion (R316, R322) -/

/-- DONE after the longest run of completed entries. -/
def advanceDone (c : Chain) : Nat → Nat → Nat
  | 0, d => d
  | n + 1, d =>
    match entryOf c ((d + 1) % 2 ^ 32) with
    | some e => if e.state = .complete then advanceDone c n ((d + 1) % 2 ^ 32) else d
    | none => d

/-- The NODE_STATUS event of an entry (R399). -/
def nodeEvent (s : State) (c : Chain) (q status cause pc : Nat) : State :=
  present s (chainSrc c) c.vd 1 c.asid c.cap.object (q + pc % 2 ^ 32 * 2 ^ 32) (status + cause * 2 ^ 8)

/-- Write a list of header fields in order; `force` goes on past a fault (R388, R356). -/
def putFields (ch : Nat) (force : Bool) : List (Nat × Nat) → State → Except (Flt × State) State
  | [], s => .ok s
  | (off, v) :: r, s =>
    match chainPut s ch off (toBytes 4 v) with
    | (s, .ok _) => putFields ch force r s
    | (s, .error f) => if force then putFields ch force r s else .error (f, s)

/-- A completion that meets a fault of the chain's header waits on its token, its status fixed. -/
def waitComplete (s : State) (ch q status cause pc : Nat) (f : Flt) : State :=
  let c := (chainOf s ch).cap
  engineFault (modEntry s ch q fun e => { e with fixed := some (status, cause, pc) }) ch q c.object true f

/-- The completion of an entry, without what it does to other entries: ERRCODE and ERRSEQ, the event, then DONE (R322). A fault of the
chain's own memory leaves the entry waiting on its token; what had been done by then is not done again. -/
def completeOnly (force : Bool) (s : State) (ch q status cause pc : Nat) : State :=
  let c := chainOf s ch
  match entryOf c q with
  | none => s
  | some e =>
    let s1 := modEntry s ch q fun e => { e with state := .complete, status := status, token := none }
    let c1 := chainOf s1 ch
    let d := advanceDone c1 (2 ^ c.log2n) c.done
    let errs := if status = 0 || e.posted then [] else [(4, status), (0x14, q)]
    match putFields ch (force || e.denied) errs s with
    | .error (f, s) => waitComplete s ch q status cause pc f
    | .ok s2 =>
      let s2 := if (status ≠ 0 || eNotify e) && !e.posted then nodeEvent s2 c q status cause pc else s2
      match if d = c.done then .ok s2 else putFields ch (force || e.denied) [(0x10, d)] s2 with
      | .error (f, s) => waitComplete (modEntry s ch q fun e => { e with posted := true }) ch q status cause pc f
      | .ok s3 => modChain { s3 with chains := s1.chains } ch fun c => { c with done := d }

/-! ### Readiness (R317 to R319) -/

/-- Sequence number `p` lies in (q − N, q). -/
def inRing (c : Chain) (q p : Nat) : Bool :=
  let k := (q + 2 ^ 32 - p) % 2 ^ 32
  0 < k && k < 2 ^ c.log2n

/-- Sequence number `p` comes before `q`. -/
def earlierSeq (q p : Nat) : Bool := let k := (q + 2 ^ 32 - p) % 2 ^ 32; 0 < k && k < 2 ^ 31

/-- The predecessors of an entry, of those that are kept: the named ones, and with ORDERED every earlier entry (R317).
(Log 68 DEDUCED.) -/
def predsOf (c : Chain) (e : Entry) : List Entry :=
  c.entries.filter fun p => (inRing c e.seq p.seq && (ePreds e).contains p.seq) || (eOrdered e && earlierSeq e.seq p.seq)

/-- A predecessor completed with a nonzero status. -/
def predFailed (c : Chain) (e : Entry) : Bool :=
  (eOrdered e && c.oldFailed) || (predsOf c e).any fun p => p.state == .complete && p.status != 0

/-- Every predecessor has completed. -/
def predsDone (c : Chain) (e : Entry) : Bool := (predsOf c e).all fun p => p.state == .complete

/-- The first waiting entry whose wait is over. -/
def nextSettled (c : Chain) : Option Entry :=
  c.entries.find? fun e => e.state == .waiting && e.token.isNone && e.fixed.isNone && !e.granules.isEmpty && (predFailed c e || predsDone c e)

/-- An entry becomes Ready, its ready time stamped, or Held. -/
def makeReady (s : State) (ch q p : Nat) : State :=
  let t := s.time
  modEntry s ch q fun e =>
    if eHold e then { e with state := .held } else { e with state := .ready, readyAt := p, agedAt := t, prio := ePrio e }

/-- Settle the waiting entries of a chain after the event at position `p`. -/
def settleAt (p : Nat) : Nat → State → Nat → State
  | 0, s, _ => s
  | n + 1, s, ch =>
    let c := chainOf s ch
    match nextSettled c with
    | none => s
    | some e =>
      settleAt p n (if predFailed c e then completeOnly false s ch e.seq 8 0 0 else makeReady s ch e.seq p) ch

/-- Settle the waiting entries of a chain: those that one event makes ready share its position (R319). -/
def settleChain (n : Nat) (s : State) (ch : Nat) : State := settleAt s.arbPos n { s with arbPos := s.arbPos + 1 } ch

/-- A resident context with no warp, node, copy or chain work left is Ready (R246). -/
def settleCtx (s : State) (asid : Nat) : State :=
  if (ctxOf s asid).state = .resident && !(s.units.any fun p => p.2.asid == asid)
      && !(s.chains.any fun p => p.2.asid == asid && p.2.entries.any fun e => e.state != .complete)
      && !(s.launches.any fun p => p.2.asid == asid && p.2.placed < p.2.groups) then
    setCtxState s asid .ready
  else s

/-- An entry completes: its status and event, DONE, and the entries that waited on it. -/
def finishEntry (s : State) (ch q status cause pc : Nat) : State :=
  let c := chainOf s ch
  settleCtx (settleChain (c.entries.length + 1) (completeOnly false (advanced s c.asid) ch q status cause pc) ch) c.asid

/-! ### Launch records (R289, R290) -/

/-- A capability of an engine's own use passes the checks of R181: kind 00 and no window. -/
def capCovers (c : Cap) (n need align : Nat) : Bool :=
  c.tag && c.low ≤ c.cursor && c.cursor + n ≤ c.high && rightsOk c need && c.kind == 0 && c.cursor % align == 0
    && !c.rights.testBit 7

/-- A capability as an engine takes it from memory: the tag as CLD keeps it (R193). -/
def engineCap (s : State) (rq : Req) (obj off : Nat) : State × Except Flt Cap :=
  match objReadCap s rq obj off with
  | (s, .ok (c, _)) => (s, .ok (cldCap rq.asid c))
  | (s, .error f) => (s, .error f)

/-- `n` capabilities from `off` on. (Log 68 DEDUCED.) -/
def engineCaps (rq : Req) (obj : Nat) : Nat → Nat → State → State × Except Flt (List Cap)
  | 0, _, s => (s, .ok [])
  | n + 1, off, s =>
    match engineCap s rq obj off with
    | (s, .error f) => (s, .error f)
    | (s, .ok c) =>
      match engineCaps rq obj n (off + 16) s with
      | (s, .error f) => (s, .error f)
      | (s, .ok l) => (s, .ok (c :: l))

/-- A launch record: its bytes, and the capabilities from K0 to STACKT. -/
structure Record where
  bytes : List Byte
  caps : List Cap
  deriving DecidableEq, Repr

/-- Read a launch record through its capability. -/
def readRecord (s : State) (rq : Req) (c : Cap) : State × Except Flt Record :=
  match objRead s rq c.object c.cursor 384 false with
  | (s, .error f) => (s, .error f)
  | (s, .ok (bs, _)) =>
    match engineCaps rq c.object 8 (c.cursor + 0x80) s with
    | (s, .error f) => (s, .error f)
    | (s, .ok ks) =>
      match engineCaps rq c.object 3 (c.cursor + 0x100) s with
      | (s, .error f) => (s, .error f)
      | (s, .ok l) => (s, .ok ⟨bs, ks ++ l⟩)

/-- The launch that a record describes. -/
def launchFrom (asid : Nat) (r : Record) : Launch :=
  let b := r.bytes
  let sh := fieldAt b 8 8
  let h := fieldAt b 0x20 8
  let f := fieldAt b 0x28 8
  let m := fieldAt b 0x38 8
  { Launch.blank with
    asid := asid, kernel := (r.caps.getD 1 Cap.null).object, base := bitsOf sh 0 7, elastic := bitsOf sh 8 6
    ntiles := bitsOf sh 16 4, naccs := bitsOf sh 20 3, level := bitsOf sh 24 3, args := bitsOf sh 32 16
    groups := fieldAt b 0x10 4, warps := fieldAt b 0x14 4, threads := fieldAt b 0x18 8
    handler := if h.testBit 32 then some (h % 2 ^ 32) else none, frameSize := f % 2 ^ 32, nregions := bitsOf f 32 16
    regtab := fieldAt b 0x30 8, montab := m % 2 ^ 32, nmon := bitsOf m 32 16, cheori := fieldAt b 0x50 4, scratch := fieldAt b 0x58 8 % 2 ^ 19
    stack := fieldAt b 0x60 4, k := r.caps.take 8, frames := r.caps.getD 8 Cap.null, save := r.caps.getD 9 Cap.null
    stackT := r.caps.getD 10 Cap.null }

/-- The checks of R290 for a launch of `groups` groups. A zero granule among K2 to K7 is no capability (R51).
(Log 68 DEDUCED.) -/
def launchOk (l : Launch) (groups : Nat) : Bool :=
  capCovers l.frames (groups * l.warps * l.frameSize) (rR + rW) 1
    && capCovers l.save (groups * l.scratch) (rR + rW) 1
    && l.stackT.tag && (l.k.getD 0 Cap.null).tag && (l.k.getD 1 Cap.null).tag
    && (l.k.all fun c => c.tag || c.bits == 0)
    && (l.k.getD 0 Cap.null).rights.testBit 0 && (narrowed (l.k.getD 0 Cap.null) l.args).isSome
    && l.stackT.object + l.threads - 1 ≤ 2 ^ 24 - 1

/-! ### Checks of an entry (R318, R373) -/

/-- The status of an entry that completes without running, but for a failed predecessor and a launch record; `level` is the
level of a node's launch record, where it has been read. (Log 68 DEDUCED.) -/
def entryCheck (c : Chain) (e : Entry) (level : Nat) : Option Nat :=
  let k := eKind e
  let n := eLength e
  let g2 := (granule e 2).bits.toNat
  let cls := eClass e
  let kindBad := match c.engine with
    | 1 => k != 1 && k != 2
    | 2 => k != 0x10
    | _ => k != 0x30
  let bitsBad :=
    if c.engine = 1 && k = 1 then
      (if level = 7 && cls = 0 then bitsOf g2 0 32 != 0 || bitsOf g2 44 52 != 0 else g2 != 0)
    else if c.engine = 1 then g2 != 0
    else if c.engine = 2 then bitsOf g2 64 64 != 0 || bitsOf g2 0 16 == 0 || 4096 < bitsOf g2 0 16
    else cls != 0 || eBin e != 0 || eHold e || ePrio e != 0 || g2 - bitsOf g2 0 3 - bitsOf g2 8 3 * 2 ^ 8 != 0
      || bitsOf g2 0 3 == 7 || (granule e 3).bits != 0 || n < 2 || 9 < n
  let predBad := (ePreds e).any fun p => !inRing c e.seq p
  let capBad :=
    if c.engine = 1 && k = 1 then
      (if cls ≤ 1 then !capCovers (granule e 1) 384 rR 64 else !capCovers (granule e 1) 64 rR 16 || !capCovers (granule e 3) 64 (rR + rW) 64)
        || (cls == 0 && level == 7 && !capCovers (granule e 3) (4 * bitsOf g2 32 12) rR 4)
        || (cls == 0 && level != 7 && (granule e 3).bits != 0 && !(granule e 3).tag)
    else if c.engine = 1 then !capCovers (granule e 1) n rR 1 || !capCovers (granule e 3) n rW 1
    else if c.engine = 2 then !capCovers (granule e 1) (4 * n) rR 4 || !capCovers (granule e 3) (4 * bitsOf g2 0 16) rW 4
    else !capCovers (granule e 1) (64 * n) rR 64
  if kindBad || bitsBad || predBad then some 7
  else if capBad then some 11
  else if predFailed c e then some 8
  else none

/-- The launch record of a node of class 0 or 1, where its capability is good. -/
def entryRecord (s : State) (c : Chain) (e : Entry) : State × Except Flt (Option Record) :=
  if c.engine = 1 && eKind e = 1 && eClass e ≤ 1 && capCovers (granule e 1) 384 rR 64 then
    match readRecord s (chainReq c) (granule e 1) with
    | (s, .ok r) => (s, .ok (some r))
    | (s, .error f) => (s, .error f)
  else (s, .ok none)

/-- The groups that a node asks for: LENGTH, and where that is 0 those of GRID (R317). -/
def nodeGroups (e : Entry) (r : Record) : Nat := if e.length = 0 then (launchFrom 0 r).groups else e.length

/-- A node's launch; in class 1 each thread is placed by itself (R320). -/
def nodeLaunch (c : Chain) (ch : Nat) (e : Entry) (r : Record) : Launch :=
  let l := launchFrom c.asid r
  { l with
    groups := if eClass e = 1 then l.threads else nodeGroups e r
    offThreads := eClass e == 1, chain := ch, seq := e.seq
    operand := if eClass e = 0 && l.level ≠ 7 then granule e 3 else Cap.null }

/-- No level of a launch record makes the entry anything but BAD_ENTRY (R318). (Log 68 DEDUCED.) -/
def surelyBad (c : Chain) (e : Entry) : Bool := entryCheck c e 0 == some 7 && entryCheck c e 7 == some 7

/-- The status of an entry at its reading: what its own granules decide comes before its launch record is read, and a node whose
record no good capability names completes with POINTER. (Log 68 DEDUCED.) -/
def readCheck (s : State) (c : Chain) (ch : Nat) (e : Entry) : State × Except Flt (Option Nat) :=
  if surelyBad c e then (s, .ok (some 7))
  else
    match entryRecord s c e with
    | (s, .error f) => (s, .error f)
    | (s, .ok none) => (s, .ok (if c.engine = 1 && eKind e = 1 && eClass e ≤ 1 then some 11 else entryCheck c e 0))
    | (s, .ok (some r)) =>
      match entryCheck c e (launchFrom c.asid r).level with
      | some st => (s, .ok (some st))
      | none => (s, .ok (if launchOk (nodeLaunch c ch e r) (nodeGroups e r) then none else some 6))

/-- Keep the entries that a later one may name; that one of the others failed is kept too. -/
def pruneEntries (c : Chain) : Chain :=
  let old := fun (e : Entry) => e.state == .complete && !inRing c c.next e.seq
  { c with entries := c.entries.filter fun e => !old e, oldFailed := c.oldFailed || c.entries.any fun e => old e && e.status != 0 }

/-- The engine reads entry `next` of a chain, whose granules are `gs`. -/
def takeEntry (s : State) (ch : Nat) (gs : List Cap) : State :=
  let c := chainOf s ch
  let q := c.next
  let e := { Entry.blank with seq := q, granules := gs }
  let e := { e with length := eLength e, prio := ePrio e }
  let put := fun (s : State) => modChain s ch fun c =>
    pruneEntries { c with next := (q + 1) % 2 ^ 32, entries := c.entries.filter (fun x => x.seq != q) ++ [e] }
  match readCheck s c ch e with
  | (s, .error f) =>
    engineFault (modChain s ch fun c => { c with entries := c.entries.filter (fun x => x.seq != q) ++ [{ e with granules := [] }] })
      ch q (granule e 1).object false f
  | (s, .ok (some st)) => finishEntry (put s) ch q st 0 0
  | (s, .ok none) => settleChain (c.entries.length + 1) (put s) ch

/-- The chain's engine works: its context is Ready or Resident (R246). -/
def engineOn (s : State) (c : Chain) : Bool :=
  match (ctxOf s c.asid).state with
  | .ready | .resident => true
  | _ => false

/-- The next published entry of a chain is read, unless it waits on a fault; a denied read completes it with POINTER. -/
def readNext (s : State) (ch : Nat) : State :=
  let c := chainOf s ch
  let rq := chainReq c
  let q := c.next
  let e := (entryOf c q).getD Entry.blank
  if e.token.isSome || e.fixed.isSome then s
  else if e.denied then
    finishEntry (modChain s ch fun c => { c with next := (q + 1) % 2 ^ 32 }) ch q 11 0 0
  else
    let fail := fun (s : State) (f : Flt) =>
      engineFault (modChain s ch fun c => { c with entries := c.entries.filter (fun x => x.seq != q) ++ [{ Entry.blank with seq := q }] })
        ch q c.cap.object false f
    match objRead s rq c.cap.object (c.cap.cursor + 0xC) 4 false with
    | (s, .error f) => fail s f
    | (s, .ok (tb, _)) =>
      if ofBytes tb = q then s
      else
        let o := c.cap.cursor + 64 + 64 * (q % 2 ^ c.log2n)
        match engineCaps rq c.cap.object 4 o s with
        | (s, .error f) => fail s f
        | (s, .ok gs) => takeEntry s ch gs

/-- A context's engine work starts (R246). -/
def startWork (s : State) (asid : Nat) : State := makeResident s asid

end Sys2Proof.Machine
end

