-- ==== Sys2Proof/Machine/Convert.lean ====
section
/-! DEFINITION. CVT: conversions by control word (R142 to R145). -/

namespace Sys2Proof.Machine

/-- What a conversion reads as B: a port, which every active thread pops; a register that holds the word is read in the lowest
active thread alone, before (R142). -/
def portSrc : Src → List PReg
  | .reg (.q p) => [.q p]
  | _ => []

/-- A conversion under a known control word, as a per-thread function: A (and A + 1 of a 64-bit source), B where it is a
port, and D where the function keeps some of its bits. -/
def funCvt (f : CvtFn) (d a : PReg) (b : Src) (c : Word) : TFun :=
  let wide := cvtWideSrc f c
  let keep := f == .pack
  { reads := a :: (if wide then [pnext a 1] else []) ++ portSrc b ++ (if keep then [d] else [])
    writes := if cvtWideDst f c then [d, pnext d 1] else [d]
    data := []
    fn := fun e l =>
      let v := (l.getD 0 0).toNat + (if wide then (l.getD 1 0).toNat * 2 ^ 32 else 0)
      let r := cvtValue f e c v (if keep then l.getLastD 0 else 0)
      [BitVec.truncate 32 r, BitVec.truncate 32 (r >>> 32)] }

/-- The threads that a condition of the control word reports: the lowest active one where a register holds the word.
(Log 41 DEDUCED.) -/
def cwThreads (cx : Cx) : Src → List Nat
  | .lit _ => cx.act
  | .reg _ => [lowest cx.act]

/-- The cause that R145 gives for a control word in a unit: RESERVED_FIELD, of the word or of a pair beyond the allocation, before
FORMAT. (Log 41 DEDUCED.) -/
def cwCause (w : Warp) (f : CvtFn) (d a : PReg) (b : Src) (c : Word) : Option Nat :=
  let g := funCvt f d a b c
  if cvtReserved f c d a || (g.reads ++ g.writes).any fun r => (RName.x r).beyond w then some cReservedField
  else if cvtFormat f c then some cFormat
  else none

/-- The conditions of R145: those on a control word, and last ELASTIC_WRITE of a 64-bit destination, after OFFSET_ILLEGAL; then
`k`. (Log 41 DEDUCED.) -/
def guardCw (cx : Cx) (f : CvtFn) (d a : PReg) (b : Src) (c : Word) (k : State → Res) (s : State) : Res :=
  let w := unitOf s cx.u
  match cwCause w f d a b c with
  | some e => trapFor (cwThreads cx b) s e
  | none =>
    if !onOffset w && cvtWideDst f c && (isElastic w (pnum d) || isElastic w (pnum (pnext d 1))) then
      trapFor (cwThreads cx b) s cElasticWrite
    else k s

/-- A stall keeps the control word for the threads still unserved. -/
def keepCw (c : Word) : Res → Res
  | .error (.stall x, s) => .error (.stall { x with obj := c.toNat + 1 }, s)
  | r => r

/-- A conversion under its control word. -/
def bodyCw (f : CvtFn) (d a : PReg) (b : Src) (c : Word) (cx : Cx) (s : State) : Res :=
  let g := funCvt f d a b c
  guardCw cx f d a b c (withOperands cx (g.uses false) (commit cx (g.uses false) fun s => keepCw c (runFun cx g s))) s

/-- The control word that a woken stall of this instruction kept. -/
def keptCw (w : Warp) (pc : Nat) : Option Word :=
  match w.waits.find? fun x => x.flags == 2 && x.pc == pc && x.obj != 0 with
  | some x => some (BitVec.ofNat 32 (x.obj - 1))
  | none => none

/-- The entry that the lowest active thread will pop from B's port, every thread popping A's ports first; none where it is
not there yet. (Log 41 DEDUCED.) -/
def portCw (s : State) (w : Warp) (act : List Nat) (a : PReg) (p : Fin 8) : Option Word :=
  let mine := if a = .q p then 1 else 0
  let i := (act.takeWhile fun t => t != lowest act).length * (1 + mine) + mine
  let x := getPort w p.val
  if x.mode = 4 then
    match sfind s.slots x.offset with
    | some r => (r.ring[i]?).map (BitVec.truncate 32)
    | none => none
  else
    match portDesc s w x with
    | none => none
    | some d =>
      if (d.tail + 2 ^ 32 - d.head) % 2 ^ 32 ≤ i then none
      else (spmRead s w.grp (portCore s w x) (d.base + (d.head + i) % d.count * d.size : Nat) 4).map fun r =>
        BitVec.ofNat 32 (ofBytes r.1)

/-- The body of a CVT function: the control word is found, then the conversion runs (R142). -/
def bodyCvt (f : CvtFn) (d a : PReg) (b : Src) (cx : Cx) (s : State) : Res :=
  match b with
  | .lit c => bodyCw f d a b c cx s
  | .reg (.q p) =>
    let x : Uses := { reads := [.x a, .x (.q p)], writes := [.x d], data := [], tagged := false, late := true }
    guardNames cx x (fun s =>
      match (keptCw (unitOf s cx.u) cx.pc).or (portCw s (unitOf s cx.u) cx.act a p) with
      | some c => bodyCw f d a b c cx s
      | none => queueStall cx s 3 p.val cx.act) s
  | .reg r =>
    let x : Uses := { reads := [.x r], writes := [], data := [], tagged := false }
    let w := unitOf s cx.u
    if [a, d].any fun n => (RName.x n).beyond w then trapAll cx s cReservedField
    else if let some c := keptCw w cx.pc then bodyCw f d a b c cx s
    else
      guardNames cx x (fun s =>
        match replaySrcs cx [r] s with
        | .error e => .error e
        | .ok s =>
          guardPoison { cx with act := [lowest cx.act] } x
            (fun s => bodyCw f d a b (getX (unitOf s cx.u) (lowest cx.act) r) cx s) s) s

/-- CVT D, A, B (R144). -/
def execCvt (d a : PReg) (b : Src) (s : State) : Host.Outcome State Fault Refusal := issue (srcLen b) false (bodyCvt .cvt d a b) s

/-- CVPACK D, A, B (R144). -/
def execCvpack (d a : PReg) (b : Src) (s : State) : Host.Outcome State Fault Refusal := issue (srcLen b) false (bodyCvt .pack d a b) s

/-- CVUNPK D, A, B (R144). -/
def execCvunpk (d a : PReg) (b : Src) (s : State) : Host.Outcome State Fault Refusal := issue (srcLen b) false (bodyCvt .unpk d a b) s

/-- CVI D, A, B (R144). -/
def execCvi (d a : PReg) (b : Src) (s : State) : Host.Outcome State Fault Refusal := issue (srcLen b) false (bodyCvt .cvi d a b) s

/-- CVSAT D, A, B (R144). -/
def execCvsat (d a : PReg) (b : Src) (s : State) : Host.Outcome State Fault Refusal := issue (srcLen b) false (bodyCvt .sat d a b) s

end Sys2Proof.Machine
end

