-- ==== Sys2Proof/Machine/RecipeOps.lean ====
section
/-! DEFINITION. RTAG and the RECIPE functions (R66 to R73, R92, R212 to R214). -/

namespace Sys2Proof.Machine

/-! ### RTAG -/

/-- A RECIPE operand as a register. -/
def optReg : Option (Fin 96) → List PReg
  | some n => [.v n]
  | none => []

/-- The per-thread registers that an instruction's fields name. -/
def regNames : Instr → List PReg
  | .compactIadd d b => [d, b]
  | .compactIsub d b => [d, b]
  | .compactAnd d b => [d, b]
  | .compactOr d b => [d, b]
  | .compactXor d b => [d, b]
  | .compactShl d b => [d, b]
  | .compactShr d b => [d, b]
  | .compactMov d b => [d, b]
  | .compactFadd d b => [d, b]
  | .compactFfma d b => [d, b]
  | .compactFmul d b => [d, b]
  | .compactFmax d b => [d, b]
  | .compactFmin d b => [d, b]
  | .compactImul d b => [d, b]
  | .compactHadd2 d b => [d, b]
  | .compactMovi d _ => [d]
  | .iadd d a b => [d, a] ++ srcRegs b
  | .isub d a b => [d, a] ++ srcRegs b
  | .imul d a b => [d, a] ++ srcRegs b
  | .imulhI d a b => [d, a] ++ srcRegs b
  | .imulhN d a b => [d, a] ++ srcRegs b
  | .iaddsI d a b => [d, a] ++ srcRegs b
  | .iaddsN d a b => [d, a] ++ srcRegs b
  | .iabsd d a b => [d, a] ++ srcRegs b
  | .iminI d a b => [d, a] ++ srcRegs b
  | .iminN d a b => [d, a] ++ srcRegs b
  | .imaxI d a b => [d, a] ++ srcRegs b
  | .imaxN d a b => [d, a] ++ srcRegs b
  | .idivI d a b => [d, a] ++ srcRegs b
  | .idivN d a b => [d, a] ++ srcRegs b
  | .iremI d a b => [d, a] ++ srcRegs b
  | .iremN d a b => [d, a] ++ srcRegs b
  | .and d a b => [d, a] ++ srcRegs b
  | .or d a b => [d, a] ++ srcRegs b
  | .xor d a b => [d, a] ++ srcRegs b
  | .andn d a b => [d, a] ++ srcRegs b
  | .shl d a b => [d, a] ++ srcRegs b
  | .shr d a b => [d, a] ++ srcRegs b
  | .sar d a b => [d, a] ++ srcRegs b
  | .rol d a b => [d, a] ++ srcRegs b
  | .popc d a => [d, a]
  | .clz d a => [d, a]
  | .brev d a => [d, a]
  | .bfxI d a b => [d, a] ++ srcRegs b
  | .bfxN d a b => [d, a] ++ srcRegs b
  | .bfi d a b => [d, a] ++ srcRegs b
  | .permb d a b => [d, a] ++ srcRegs b
  | .mov d b => [d] ++ srcRegs b
  | .imad d a b => [d, a] ++ srcRegs b
  | .imadw d a b => [d, pnext d 1, a] ++ srcRegs b
  | .isel d a b => [d, a] ++ srcRegs b
  | .lea d a b => [d, a] ++ srcRegs b
  | .icmpEq _ a b => [a] ++ srcRegs b
  | .icmpNe _ a b => [a] ++ srcRegs b
  | .icmpLtI _ a b => [a] ++ srcRegs b
  | .icmpLeI _ a b => [a] ++ srcRegs b
  | .icmpLtN _ a b => [a] ++ srcRegs b
  | .icmpLeN _ a b => [a] ++ srcRegs b
  | .icmpTest _ a b => [a] ++ srcRegs b
  | .icmpNtest _ a b => [a] ++ srcRegs b
  | .capadd _ _ b => srcRegs b
  | .capset _ _ b => srcRegs b
  | .capnar _ _ b => srcRegs b
  | .caprm _ _ b => srcRegs b
  | .capget d _ b => [d] ++ srcRegs b
  | .capchk d _ b => [d] ++ srcRegs b
  | .caplen d _ => [d]
  | .movs d _ => [d]
  | .ureadf _ a => [a]
  | .fadd d a b => [d, a] ++ srcRegs b
  | .fsub d a b => [d, a] ++ srcRegs b
  | .fmul d a b => [d, a] ++ srcRegs b
  | .ffma d a b => [d, a] ++ srcRegs b
  | .fmin d a b => [d, a] ++ srcRegs b
  | .fmax d a b => [d, a] ++ srcRegs b
  | .fscale d a b => [d, a] ++ srcRegs b
  | .fcopys d a b => [d, a] ++ srcRegs b
  | .fcmpEq _ a b => [a] ++ srcRegs b
  | .fcmpNe _ a b => [a] ++ srcRegs b
  | .fcmpLt _ a b => [a] ++ srcRegs b
  | .fcmpLe _ a b => [a] ++ srcRegs b
  | .fcmpUnord _ a b => [a] ++ srcRegs b
  | .fcmpOrd _ a b => [a] ++ srcRegs b
  | .fcmpIsnan _ a => [a]
  | .fcmpIsinf _ a => [a]
  | .frcp d a => [d, a]
  | .frsq d a => [d, a]
  | .fsqrt d a => [d, a]
  | .fexp2 d a => [d, a]
  | .flog2 d a => [d, a]
  | .ftanh d a => [d, a]
  | .fdiv d a b => [d, a] ++ srcRegs b
  | .frint d a => [d, a]
  | .hadd2 d a b => [d, a] ++ srcRegs b
  | .hsub2 d a b => [d, a] ++ srcRegs b
  | .hmul2 d a b => [d, a] ++ srcRegs b
  | .hfma2 d a b => [d, a] ++ srcRegs b
  | .hmin2 d a b => [d, a] ++ srcRegs b
  | .hmax2 d a b => [d, a] ++ srcRegs b
  | .dot2 d a b => [d, a] ++ srcRegs b
  | .badd2 d a b => [d, a] ++ srcRegs b
  | .bsub2 d a b => [d, a] ++ srcRegs b
  | .bmul2 d a b => [d, a] ++ srcRegs b
  | .bfma2 d a b => [d, a] ++ srcRegs b
  | .bmin2 d a b => [d, a] ++ srcRegs b
  | .bmax2 d a b => [d, a] ++ srcRegs b
  | .bdot2 d a b => [d, a] ++ srcRegs b
  | .cvt d a b => [d, a] ++ srcRegs b
  | .cvpack d a b => [d, a] ++ srcRegs b
  | .cvunpk d a b => [d, a] ++ srcRegs b
  | .cvi d a b => [d, a] ++ srcRegs b
  | .cvsat d a b => [d, a] ++ srcRegs b
  | .shfl d a b => [d, a] ++ srcRegs b
  | .shflx d a b => [d, a] ++ srcRegs b
  | .wredf _ d a => [d, a]
  | .wredi _ d a => [d, a]
  | .wscanf _ _ d a => [d, a]
  | .wscani _ _ d a => [d, a]
  | .vote _ d a => [d, a]
  | .matchT _ d a => [d, a]
  | .brv a _ => [a]
  | .calli a _ => [a]
  | .bri a _ => [a]
  | .rgnent d => [d]
  | .rdctl d _ => [d]
  | .wrctl _ a => srcRegs a
  | .rdcyc d => [d, pnext d 1]
  | .rdcycTime d => [d, pnext d 1]
  | .rdwt d => [d, pnext d 1]
  | .wtarm a => srcRegs a
  | .ld _ sz _ a d _ => a :: loadRegs d (sizeBytes sz)
  | .ldx _ sz _ a d _ => a :: loadRegs d (sizeBytes sz)
  | .ldq _ _ a d _ => a :: storeRegs d 16
  | .st sz _ a d _ => a :: storeRegs d (sizeBytes sz)
  | .stq _ a d _ => a :: storeRegs d 16
  | .cld _ _ a _ => [a]
  | .cst _ _ a _ => [a]
  | .lda _ sz _ a d _ _ => a :: loadRegs d (sizeBytes sz)
  | .stl sz _ a d _ _ => a :: storeRegs d (sizeBytes sz)
  | .atom _ sz _ a d _ op _ => a :: atomRegs op d (sizeBytes sz)
  | .atoms _ sz _ a d _ op _ => a :: atomRegs op d (sizeBytes sz)
  | .lds _ sz a d _ => a :: loadRegs d (sizeBytes sz)
  | .sts sz a d _ => a :: storeRegs d (sizeBytes sz)
  | .pref _ _ _ a _ => [a]
  | .qpeek d _ => [d]
  | .rdrop d => optReg d
  | .rpin d => optReg d
  | .runpin d => optReg d
  | .rqry d a => [d] ++ optReg a
  | .rclr d => optReg d
  | _ => []

/-- The trap cause of a rejection (R94). (Log 33 DEDUCED.) -/
def rejectCause : Reject → Nat
  | .illegalOp => cIllegalOp
  | _ => cReservedField

/-- A conversion: its function and fields. -/
def convOf : Instr → Option (CvtFn × PReg × PReg × Src)
  | .cvt d a b => some (.cvt, d, a, b)
  | .cvpack d a b => some (.pack, d, a, b)
  | .cvunpk d a b => some (.unpk, d, a, b)
  | .cvi d a b => some (.cvi, d, a, b)
  | .cvsat d a b => some (.sat, d, a, b)
  | _ => none

/-- The conditions of R145 on the control word of a conversion that RTAG prefixes; then `k`. A register that holds the word is
replayed where dropped, and its poison traps, before the word is read (R70, R142). -/
def guardTagCw (cx : Cx) (i : Instr) (k : State → Res) (s : State) : Res :=
  let chk := fun (f : CvtFn) (d a : PReg) (b : Src) (c : Word) (s : State) =>
    match cwCause (unitOf s cx.u) f d a b c with
    | some e => trapFor (cwThreads cx b) s e
    | none => k s
  match convOf i with
  | none => k s
  | some (_, _, _, .reg (.q _)) => k s
  | some (f, d, a, .lit c) => chk f d a (.lit c) c s
  | some (f, d, a, .reg r) =>
    match replaySrcs cx [r] s with
    | .error e => .error e
    | .ok s =>
      guardPoison { cx with act := [lowest cx.act] } { reads := [.x r], writes := [], data := [], tagged := true }
        (fun s => chk f d a (.reg r) (getX (unitOf s cx.u) (lowest cx.act) r) s) s

/-- The capability register that an instruction writes. -/
def capDst : Instr → Option Nat
  | .capadd d _ _ => some d.val
  | .capset d _ _ => some d.val
  | .capnar d _ _ => some d.val
  | .caprm d _ _ => some d.val
  | .capmov d _ => some d.val
  | .cld d _ _ _ => some d.val
  | _ => none

/-- RESERVED_FIELD of the instruction that RTAG prefixes: a register beyond the allocation (R53), or c7 as a destination outside a
routine (R112, R192). -/
def tagReserved (w : Warp) (i : Instr) : Bool :=
  (regNames i).any (fun r => (RName.x r).beyond w) || (w.routine.isNone && capDst i == some 7)

/-- A source that R68 allows for a recipe of register `d`. -/
def tagSrc (w : Warp) (d : PReg) (r : PReg) : Bool :=
  r != d &&
  match r with
  | .z => true
  | .tid => true
  | .v n => n.val < w.base || (recipeOf w n.val).isSome
  | _ => false

/-- The depth that an elastic source counts for, and whether it replays (R67). -/
def tagDepth (w : Warp) (n : Nat) : Option Nat :=
  match recipeOf w n with
  | none => none
  | some r => if r.st = .pinned && r.stale then none else some r.depth

/-- The depth of a recipe with these sources (R67). -/
def newDepth (w : Warp) (srcs : List PReg) : Nat :=
  match (elasticSrcs w srcs).filterMap (tagDepth w) with
  | [] => 0
  | l => 1 + l.foldl max 0

/-- The capability of a tagged load holds IM in every live thread (R68). -/
def tagCap (w : Warp) (f : RForm) : Bool :=
  match f.cap with
  | none => true
  | some c => (liveThreads w).all fun t => (getC w t c.val).rights.testBit 6

/-- The RECIPE conditions of R67. (Log 33 DEDUCED.) -/
def tagOk (w : Warp) (f : RForm) : Bool :=
  (match f.dst with
    | .v n => isElastic w n.val
    | _ => false)
  && f.regs.all (tagSrc w f.dst) && tagCap w f && newDepth w f.regs ≤ 2

/-- The entry that RTAG records for the instruction at `pc`, its bytes `bs` (R66). -/
def tagEntry (w : Warp) (f : RForm) (pc : Nat) (bs : List Byte) (row : Option Nat) : Recipe :=
  { reg := pnum f.dst, insn := ofBytes (bs.take 4), lit := ofBytes (bs.drop 4), pc := pc, rmode := w.rmode
    depth := newDepth w f.regs, st := .valid, stale := false, lost := false, row := row }

/-- Record the entry: a register that held no recipe read as 0 and unpoisoned. Pending results of the register are dropped
(R97). (Log 33 DEDUCED.) -/
def recordTag (w : Warp) (r : Recipe) : Warp :=
  let old := (recipeOf w r.reg).isSome
  let w := putRecipe w r
  (liveThreads w).foldl (fun w t =>
    let w := dropPend w t r.reg
    if old then markX w t r.reg 0 else putX w t r.reg 0 0) w

/-- A load that RTAG prefixes. -/
def tagLoad (cx : Cx) (i : Instr) (s : State) : Res :=
  match i with
  | .ld la sz c a d disp => loadAll cx i la.val ⟨d, sizeBytes sz, false, false⟩ c a (dispOf disp) s
  | .ldx la sz c a d disp => loadAll cx i la.val ⟨d, sizeBytes sz, true, false⟩ c a (dispOf disp) s
  | _ => .ok s

/-- The local checks of a tagged load (R181). -/
def tagAccess (cx : Cx) (i : Instr) (k : State → Res) (s : State) : Res :=
  match i with
  | .ld _ sz c a _ disp => guardAccess cx c a (dispOf disp) (sizeBytes sz) ⟨rR, 0b1111, 1⟩ k s
  | .ldx _ sz c a _ disp => guardAccess cx c a (dispOf disp) (sizeBytes sz) ⟨rR, 0b1111, 1⟩ k s
  | _ => k s

/-- The tagged instruction executes for every live thread, and its entry is recorded (R67). -/
def tagRun (cx : Cx) (i : Instr) (f : RForm) (bs : List Byte) (s : State) : Res :=
  let (s, row) := takeRow s cx.u
  let r := tagEntry (unitOf s cx.u) f (cx.pc + 4) bs row
  let s := modUnit s cx.u fun w => note (recordTag w r) r.reg
  if f.load.isSome then tagLoad cx i s else .ok (modUnit s cx.u fun w => formWrite r f (liveThreads w) w)

/-- What the prefixed instruction names as a recipe. -/
def tagUses (f : RForm) : Uses :=
  { reads := (match f.cap with
      | some c => [.c c.val]
      | none => []) ++ f.srcs.map .x ++ (match f.u with
      | some a => uname a
      | none => [])
    writes := [.x f.dst], data := [], tagged := true }

/-- What RTAG makes of the instruction that follows it (R67). -/
def tagBody (cx : Cx) (i : Instr) (bs : List Byte) (s : State) : Res :=
  if tagReserved (unitOf s cx.u) i then trapAll cx s cReservedField
  else
    guardTagCw cx i (fun s =>
      let w := unitOf s cx.u
      if onOffset w then trapAll cx s cOffsetIllegal
      else if (liveThreads w).any fun t => !cx.act.contains t then trapAll cx s cMaskPartial
      else
        match recipeForm (lowReg w) i with
        | none => trapAll cx s cRecipe
        | some f =>
          if !tagOk w f then trapAll cx s cRecipe
          else
            withOperands cx (tagUses f) (tagAccess cx i (commit cx (tagUses f) (tagRun cx i f bs)))
              (if f.load.isSome then afterAtomics cx s else s)) s

/-- The body of RTAG: the pair issues as one instruction, and counts as one when it completes (R92, R96). (Log 33 DEDUCED.) -/
def bodyRtag (cx : Cx) (s : State) : Res :=
  match fetchInsn s (unitOf s cx.u) (cx.pc + 4) with
  | (s, .error b) => .error (.fetch b, s)
  | (s, .ok bs) =>
    match decode bs with
    | .error r => trapAll cx s (rejectCause r)
    | .ok (i, _) => tagBody cx i bs s

/-- RTAG (R67, R92). -/
def execRtag (s : State) : Host.Outcome State Fault Refusal :=
  let w := unitOf s s.turn
  let pc := lowPc w (activeThreads w)
  issue (4 + lengthOf (peekHalf s w (pc + 4))) false bodyRtag s

/-! ### RDROP, RPIN, RUNPIN, RQRY and RCLR (R212 to R214) -/

/-- The conditions of R212 and R187 on the named register, in the order of R95; `zOk` where z names all. -/
def recipeName (w : Warp) (n : Option (Fin 96)) (zOk routineOk : Bool) : Option Nat :=
  if (optReg n).any fun r => (RName.x r).beyond w then some cReservedField
  else if onOffset w then some cOffsetIllegal
  else if (match n with
    | some n => decide (n.val < w.base)
    | none => !zOk) then some cRecipe
  else if w.routine.isSome && !routineOk then some cRoutine
  else none

/-- The registers of the entries named: one, or all of the warp's. -/
def namedRegs (w : Warp) : Option (Fin 96) → List Nat
  | some n => if (recipeOf w n.val).isSome then [n.val] else []
  | none => (w.recipes.filter fun r => !r.lost).map (·.reg)

/-- RDROP vD|z. -/
def execRdrop (d : Option (Fin 96)) (s : State) : Host.Outcome State Fault Refusal :=
  issue 4 true (fun cx s =>
    guardAll cx s (recipeName (unitOf s cx.u) d true false) fun s =>
      .ok (modUnit s cx.u fun w => (namedRegs w d).foldl (fun w n => modRecipe w n (dropRecipe w)) w)) s

/-- RPIN vD: a dropped value is replayed first. -/
def execRpin (d : Option (Fin 96)) (s : State) : Host.Outcome State Fault Refusal :=
  issue 4 true (fun cx s =>
    guardAll cx s (recipeName (unitOf s cx.u) d false false) fun s =>
      let ns := namedRegs (unitOf s cx.u) d
      match ns.foldlM (fun s n => replayReg cx 3 n s) s with
      | .error e => .error e
      | .ok s => .ok (modUnit s cx.u fun w => ns.foldl (fun w n => modRecipe w n fun r => { r with st := .pinned }) w)) s

/-- RUNPIN vD: no effect on a STALE entry. -/
def execRunpin (d : Option (Fin 96)) (s : State) : Host.Outcome State Fault Refusal :=
  issue 4 true (fun cx s =>
    guardAll cx s (recipeName (unitOf s cx.u) d false false) fun s =>
      .ok (modUnit s cx.u fun w => (namedRegs w d).foldl (fun w n => modRecipe w n fun r =>
        if r.st = .pinned && !r.stale then { r with st := .valid } else r) w)) s

/-- The code of R214. -/
def recipeCode (w : Warp) (n : Option (Fin 96)) : Word :=
  match n.bind fun n => recipeOf w n.val with
  | none => 0
  | some r =>
    BitVec.ofNat 32 ((match r.st with
      | .valid => 1
      | .dropped => 2
      | .pinned => 3) + 4 * r.stale.toNat + 8 * r.depth)

/-- RQRY D, vA. -/
def execRqry (d : PReg) (a : Option (Fin 96)) (s : State) : Host.Outcome State Fault Refusal :=
  issue 4 false (fun cx s =>
    let x : Uses := { reads := [], writes := [.x d], data := [], tagged := false }
    let w := unitOf s cx.u
    if (RName.x d).beyond w then trapAll cx s cReservedField
    else
      guardAll cx s (recipeName w a false true) (withOperands cx x fun s =>
        let v := recipeCode (unitOf s cx.u) a
        commit cx x (fun s => .ok (modUnit s cx.u fun w => cx.act.foldl (fun w t => setX w t d v 0) w)) s)) s

/-- Remove the entry of a register, which then reads 0 (R53). -/
def clearRecipe (w : Warp) (n : Nat) : Warp :=
  (liveThreads w).foldl (fun w t => putX (dropPend w t n) t n 0 0)
    { w with recipes := w.recipes.filter fun r => !(r.reg == n && !r.lost) }

/-- RCLR vD|z. -/
def execRclr (d : Option (Fin 96)) (s : State) : Host.Outcome State Fault Refusal :=
  issue 4 true (fun cx s =>
    guardAll cx s (recipeName (unitOf s cx.u) d true false) fun s =>
      let ns := namedRegs (unitOf s cx.u) d
      match pinDeps cx ns s with
      | .error e => .error e
      | .ok s => .ok (modUnit s cx.u fun w => ns.foldl clearRecipe w)) s

end Sys2Proof.Machine
end

