-- ==== Sys2Proof/Machine/Saving.lean ====
section
/-! DEFINITION. The save area of a switched-out group: its scratchpad allocations and its barriers (R259, R300, R327, R328).
(Log 60 DESIGN CHOICE.) -/

namespace Sys2Proof.Machine

/-! ### Places in the save area -/

/-- Where allocation `i` of a group stands in the SAVE object: the allocations of a launch's core groups, in order.
(Log 60 DESIGN CHOICE.) -/
def scratchAt (l : Launch) (g : Group) (i : Nat) : Nat := l.save.cursor + (g.idx * g.cores.length + i) * l.scratch

/-- Where barrier `i` of a group stands: after the allocations of every group. (Log 60 DESIGN CHOICE.) -/
def barAt (l : Launch) (g : Group) (i : Nat) : Nat :=
  l.save.cursor + l.groups * g.cores.length * l.scratch + g.idx * l.warps * 32 + 8 * i

/-- SAVE covers `n` bytes at `o`; what it does not cover stays with the hardware. (Log 60 DESIGN CHOICE.) -/
def saveCovers (l : Launch) (o n : Nat) : Bool := l.save.low ≤ o && o + n ≤ l.save.high

/-- The saved form of a barrier (R328). -/
def Bar.word (b : Bar) : List Byte := toBytes 8 (b.gen * 2 ^ 32 + b.count)

/-- What a save writes: offsets in the SAVE object with their bytes. -/
def savePieces (s : State) (g : Group) : List (Nat × List Byte) :=
  let l := launchOf s g.launch
  ((g.allocs.zipIdx.map fun p => (scratchAt l g p.2, sgetMany 0 p.1.bytes 0 p.1.size))
    ++ (g.bars.zipIdx.map fun p => (barAt l g p.2, p.1.word))).filter fun p => saveCovers l p.1 p.2.length

/-! ### Saving -/

/-- An access to the save area failed: a context fault. (Log 60 DESIGN CHOICE.) -/
def saveFault (s : State) (asid : Nat) : Flt → State
  | .key => ctxFault s asid 1 0
  | .page .. => ctxFault s asid 2 0

/-- Write pieces into the SAVE object, through requester port 48. (Log 60 DESIGN CHOICE.) -/
def writePiecesTo (asid obj : Nat) : List (Nat × List Byte) → State → State
  | [], s => s
  | (o, bs) :: r, s =>
    match objWrite s (reqEngine asid) obj o bs false with
    | (s, .ok _) => writePiecesTo asid obj r s
    | (s, .error e) => saveFault s asid e

/-- Copy a group's scratchpad allocations and barriers to its save area (R259). (Log 60 DESIGN CHOICE.) -/
def saveScratch (s : State) (gid : Nat) : State :=
  let g := groupOf s gid
  writePiecesTo g.asid (launchOf s g.launch).save.object (savePieces s g) s

/-! ### Restoring -/

/-- Restore allocation `a`, number `i`. Its poison marks are kept by the hardware. (Log 60 DESIGN CHOICE.) -/
def loadAlloc (gid : Nat) (s : State) (p : Alloc × Nat) : State :=
  let g := groupOf s gid
  let l := launchOf s g.launch
  let o := scratchAt l g p.2
  if !saveCovers l o p.1.size then s
  else
    match objRead s (reqEngine g.asid) l.save.object o p.1.size false with
    | (s, .ok (bs, q)) =>
      modGroup s gid fun g => setAlloc g { p.1 with
        bytes := storeOf 0 0 bs, poison := if q then storeOf false 0 (List.replicate p.1.size true) else p.1.poison }
    | (s, .error e) => saveFault s g.asid e

/-- A barrier of a group takes a generation and a count. -/
def setBar (g : Group) (lv i gen count : Nat) : Group :=
  { g with bars := g.bars.map fun b => if Bar.is b lv i then { b with gen := gen, count := count } else b }

/-- Restore barrier `b`, number `i`: its generation and its count (R328). (Log 60 DESIGN CHOICE.) -/
def loadBar (gid : Nat) (s : State) (p : Bar × Nat) : State :=
  let g := groupOf s gid
  let l := launchOf s g.launch
  let o := barAt l g p.2
  if !saveCovers l o 8 then s
  else
    match objRead s (reqEngine g.asid) l.save.object o 8 false with
    | (s, .ok (bs, _)) =>
      modGroup s gid fun g => setBar g p.1.level p.1.inst (fieldAt bs 4 4) (fieldAt bs 0 4)
    | (s, .error e) => saveFault s g.asid e

/-- Restore a group's allocations from its save area (R259). -/
def loadAllocs (s : State) (gid : Nat) : State := (groupOf s gid).allocs.zipIdx.foldl (loadAlloc gid) s

/-- Restore a group's allocations and barriers from its save area (R259). (Log 60 DESIGN CHOICE.) -/
def loadScratch (s : State) (gid : Nat) : State := (groupOf s gid).bars.zipIdx.foldl (loadBar gid) (loadAllocs s gid)

/-! ### A group that resumes on other cores (R14, R23) -/

/-- The barriers of a group whose members stood at the places `old`: each is that of the members that lie in it now, with the state
it had, and N is derived again from the warps that have not exited (R328). -/
def moveBars (s : State) (level : Nat) (bars : List Bar) (old : List (Nat × Loc)) : List Bar :=
  (List.range 4).flatMap fun lv =>
    ((old.map fun p => barInst level lv (unitOf s p.1).loc).dedup).map fun i =>
      let ms := old.filter fun p => barInst level lv (unitOf s p.1).loc == i
      let b := (bars.find? fun b => b.is lv (barInst level lv ((ms.headD (0, Loc.zero)).2))).getD ⟨lv, 0, 0, 0, 0, []⟩
      { b with level := lv, inst := i, n := ms.length, arrived := b.arrived.filter fun u => ms.any fun p => p.1 == u }

/-- The group's core groups lie on the cores `cs` from now on, in the same order; none without free runs. -/
def moveAllocs (s : State) (gid : Nat) (cs : List (Nat × Nat × Nat)) : Option State :=
  let g := groupOf s gid
  let al := g.allocs.mapM fun a =>
    let c := cs.getD (g.cores.idxOf (a.cluster, a.slice, a.core)) (a.cluster, a.slice, a.core)
    (spmRun s c a.size).map fun b => ({ a with cluster := c.1, slice := c.2.1, core := c.2.2, base := b } : Alloc)
  al.map fun al => modGroup s gid fun g => { g with cores := cs, allocs := al }

end Sys2Proof.Machine
end

