-- ==== Sys2Proof/Machine/Wakes.lean ====
section
/-! DEFINITION. The wake conditions of the blocking points, and what a warp does whose wait is over (R178, R333 to R335). -/

namespace Sys2Proof.Machine

/-! ### Wake conditions (R334, R335) -/

/-- A 4-byte word of the chain header that a wait names. -/
def waitWord (s : State) (w : Warp) (x : Wait) (o : Nat) : Nat :=
  match peek s w.asid x.obj (x.off + o) 4 with
  | some b => ofBytes b
  | none => 0

/-- What a unit's DWWAIT has seen while the warp was out is forgotten: a resume looks at the live state (R335). -/
def forgetWatch (s : State) (u : Nat) : State :=
  modGroup s (unitOf s u).grp fun g => { g with allocs := g.allocs.map fun a =>
    { a with watch := a.watch.map fun x => if x.unit == u then { x with met := false } else x } }

/-- The wait's condition holds. -/
def waitOver (s : State) (u : Nat) (x : Wait) : Bool :=
  let w := unitOf s u
  match x.kind with
  | 1 => (barOf s w x.arg).gen != x.value
  | 2 => (barOf s w x.arg).gen != x.value
  | 3 =>
    !portOk s w x.arg false ||
      (let p := getPort w x.arg
       if p.mode = 4 then ((sfind s.slots p.offset).map fun r => !r.ring.isEmpty).getD true
       else ((portDesc s w p).map fun d => d.head != d.tail).getD true)
  | 4 =>
    !portOk s w x.arg true || 0 < (getPort w x.arg).credits ||
      ((portDesc s w (getPort w x.arg)).map fun d => d.free != 0).getD true
  | 5 => watchMet s u x || datumDone ((spmWord s w.grp (homeCore s w) (x.value % 2 ^ 19)).getD 0) (x.value / 2 ^ 32)
  | 6 => batchDone w x.value
  | 7 => !sealFull w
  | 8 => seqDone (waitWord s w x 0x10) x.value
  | 9 =>
    match peek s w.asid x.obj x.off 64 with
    | some b => !(headerOf b).full
    | none => true
  | 10 => x.value ≤ s.time
  | 11 => !w.pends.any fun p => p.id == x.value && !p.arrived
  | _ => false

/-- The threads of a wait go on at `pc`. -/
def goOn (w : Warp) (x : Wait) (pc : Nat) : Warp :=
  let ts := (threadsOf x.threads).filter (isLive w)
  setPcs (setMarks { w with waits := w.waits.filter (· != x) } ts .ready) ts pc

/-- The arrival that a wait with PRE = 1 makes once its wait is over: BARARR completes, a BAR function waits for the new
generation (R178, R335). -/
def lateArrive (s : State) (u : Nat) (x : Wait) : State :=
  let w := unitOf s u
  let b := barOf s w x.arg
  let s := modBar s w x.arg fun b => b.arrive u
  match x.dest with
  | some d => modUnit s u fun w => goOn (setS w d (BitVec.ofNat 64 b.gen)) x (x.pc + x.len)
  | none =>
    if (barOf s w x.arg).gen = b.gen then
      modUnit s u fun w => { w with waits := w.waits.map fun y => if y == x then { x with flags := 0, value := b.gen } else y }
    else modUnit s u fun w => goOn w x (x.pc + x.len)

/-- A wait that is over: the instruction goes on from where it stood. KIND 3 and 4 serve only the threads in MASK. -/
def wake (s : State) (u : Nat) (x : Wait) : State :=
  if x.kind = 1 && x.flags = 1 then lateArrive s u x
  else if x.kind = 3 || x.kind = 4 then
    modUnit s u fun w =>
      let ts := (threadsOf x.mask).filter (isLive w)
      setMarks { w with waits := w.waits.map fun y => if y == x then { x with flags := 2 } else y } ts .ready
  else if x.kind = 7 || x.kind = 9 then modUnit s u fun w => goOn w x x.pc
  else modUnit s u fun w => goOn w x (x.pc + x.len)

/-- The warp may take a wake-up: it is on its slot and nothing of vectoring is going on. (Log 81 DESIGN CHOICE.) -/
def mayWake (w : Warp) : Bool := w.stat == .resident && w.routine.isNone && w.vec.isNone

/-- The first wait of a unit that is over. -/
def wokenWait (s : State) (u : Nat) : Option Wait := (unitOf s u).waits.find? fun x => x.flags != 2 && waitOver s u x

/-- Step 5 of a resume: a warp evaluates each of its wake conditions again against the live state, and goes on where it holds
(R255, R335). -/
def rewake (s : State) (u : Nat) : State :=
  (unitOf s u).waits.foldl (fun s x => if x.flags != 2 && waitOver s u x then wake s u x else s) (forgetWatch s u)

end Sys2Proof.Machine
end

