-- ==== Sys2Proof/Machine/Resuming.lean ====
section
/-! DEFINITION. The resume of a warp (R255 to R260, R73, R335): RESUME_WARP and EDONE. -/

namespace Sys2Proof.Machine

/-! ### Whether a warp may resume -/

/-- A switched-out context may be selected: its virtual device is not Held, and after a suspend HOLD and PAUSE read 0 (R246,
R398). (Log 70 DEDUCED.) -/
def selectable (s : State) (asid : Nat) : Bool :=
  let c := ctxOf s asid
  c.state == .switchedOut && (vdOf s c.vd).state != 3
    && (c.reason != 5 || bitsOf (sget 0 s.vdPart c.vd) 8 2 == 0)

/-- The offset threads of a warp that its eject area holds as still ejected. -/
def stoppedUnits (s : State) (u : Nat) : Store Warp := (offUnits s u).filter fun p => p.2.stat == .outCtx

/-- The warp has stopped at a monument, and its migration has not failed (R300, R301). -/
def moved (s : State) (u : Nat) : Bool := s.portables.any fun p => p.unit == u

/-- Nothing that the warp itself waits for is outstanding: its pages have arrived, and after a rejoin timeout alone every
ejected thread has returned (R256, R269). -/
def warpReady (s : State) (u : Nat) : Bool :=
  let w := unitOf s u
  w.tokens.isEmpty && !moved s u && (!(w.stat == .outAlone && w.reason == 4) || allReturned s u)

/-- The warp takes a slot and rows on one of the partitions `ps`. (Log 52 DEDUCED.) -/
def takeSlot (u : Nat) (ps : List Loc) (s : State) : Option State :=
  let w := unitOf s u
  (claimSlot s ps w.base w.ntiles w.naccs).map fun (s, l, rows) =>
    modUnit s u fun w => { w with stat := .resident, rows := rows, loc := l }

/-- A free offset-core context of the warp's cluster is kept for each thread that its eject area holds as still ejected; none
where the cluster has not as many (R255). -/
def keepContexts (u : Nat) (s : State) : Option State :=
  (stoppedUnits s u).foldlM (fun s p =>
    match freeContexts s (unitOf s u).asid (unitOf s u).loc with
    | [] => none
    | l :: _ => some (modUnit s p.1 fun w => { w with loc := l, off := w.off.map fun o => { o with held := true } })) s

/-! ### Step 1: the header (R249, R255) -/

/-- The mask register of the JOIN at a PC. (Log 10 DEDUCED.) -/
def joinMask (s : State) (w : Warp) (pc : Nat) : Nat :=
  match peek s w.asid (getC w 0 9).object (pc - codeObjBase s w) 4 with
  | none => 0
  | some bs =>
    match decode bs with
    | .ok (.join m, _) => m.val
    | _ => 0

/-- The thread record of thread `t` in the first 0x4000 bytes of a frame. -/
def recordOf (b : List Byte) (t : Nat) : List Byte := (b.drop (0x800 + 112 * t)).take 112

/-- The mark that a thread record holds. A blocked thread that no wait names fetches again (R333). -/
def headerMark (s : State) (w : Warp) (off : Store Warp) (b : List Byte) (t : Nat) : Mark :=
  let v := fieldAt (recordOf b t) 0 8
  match v / 2 ^ 62 with
  | 0 => .ready
  | 1 => .parked (joinMask s w (v % 2 ^ 57))
  | 2 => if w.waits.any fun x => x.threads.testBit t then .blocked false else .ready
  | _ =>
    .ejected ((off.find? fun p =>
      match p.2.off with
      | some o => o.thread == t
      | none => false).bind (fun p => p.2.off.bind fun o => o.rejoin) |>.getD 0)

/-- The stack that a thread record holds (R76). -/
def headerRas (b : List Byte) (t : Nat) : Ras :=
  let r := recordOf b t
  let v := fieldAt r 8 8
  ⟨(wordsOf 8 (min (v % 8) 4) (r.drop 16)).map (BitVec.ofNat 64), bitsOf v 8 24⟩

/-- The PC of a restored recipe: its own where the entry is unchanged, else free. (Log 30 DESIGN CHOICE.) -/
def recipePc (s : State) (w : Warp) (r : Recipe) : Nat :=
  match w.recipes.find? fun q => q.reg == r.reg && q.insn == r.insn && q.lit == r.lit with
  | some q => q.pc
  | none => Config.freeNat (s.fresh + r.reg) % 2 ^ 57

/-- The recipe entries that a header holds. -/
def headerEntries (b : List Byte) : List Recipe :=
  (List.range 32).filterMap fun i => recipeFrom ((b.drop (0x200 + 16 * i)).take 16)

/-- The recipe entries of a header, in their order, each dropped; a STALE one, or one that R67 and R68 would refuse, is lost
(R73, R249). (Log 30 DESIGN CHOICE.) -/
def headerRecipes (s : State) (w : Warp) (b : List Byte) : List Recipe :=
  let l := headerEntries b
  let v := { w with recipes := l.map fun r => { r with lost := false } }
  let ok := fun (r : Recipe) =>
    isElastic w r.reg && r.depth ≤ 2 &&
    match (recipeInstr r).bind (recipeForm fun _ => 0) with
    | some f => pnum f.dst == r.reg && f.regs.all (tagSrc v f.dst)
    | none => false
  (l.filter fun r => isElastic w r.reg).map fun r =>
    { r with pc := recipePc s w r, st := .dropped, lost := r.stale || !ok r, row := none }

/-- The header's fields, but for the PC table, which the warp takes at step 5. -/
def restoreHeader (s : State) (w : Warp) (b : List Byte) : Warp :=
  let c := fieldAt b 0x30 8
  let g := fieldAt b 0x38 8
  { w with
    wtime := fieldAt b 0x10 8, wtcmp := fieldAt b 0x18 8
    rmode := c % 16, tm := c.testBit 32, inh := c.testBit 33, sealCtr := bitsOf c 48 16
    wtstage := if g.testBit 32 then some (BitVec.ofNat 32 g) else none
    shadow61 := BitVec.ofNat 64 (fieldAt b 0x50 8), shadow62 := BitVec.ofNat 64 (fieldAt b 0x58 8)
    shadow15 := BitVec.ofNat 128 (fieldAt b 0x60 16)
    ports := storeOf Port.unbound 0 ((wordsOf 8 8 (b.drop 0x90)).map portFrom)
    tshp := storeOf 0x2FFF 0 (wordsOf 4 8 (b.drop 0x400)), ashp := storeOf 0xFFF 0 (wordsOf 4 4 (b.drop 0x420))
    recipes := headerRecipes s w b, latch := []
    ras := (threadsOf w.live).foldl (fun l t => sset ⟨[], 0⟩ l t (headerRas b t)) [] }

/-- The waits of the warp: WAKE gives the first, where BLOCKED is set (R334). -/
def headerWaits (w : Warp) (b : List Byte) : List Wait :=
  match w.waits with
  | [] => []
  | x :: r => if (fieldAt b 0 1).testBit 6 then wakeFrom ((b.drop 0x70).take 32) x :: r else x :: r

/-- The registers that the entries of header `b` lose: those of lost entries, and a register of the warp that is not elastic, in
whose entry R67 would refuse it. -/
def lostRegs (w : Warp) (b : List Byte) : List Nat :=
  (w.recipes.filter (·.lost)).map (·.reg)
    ++ ((headerEntries b).map (·.reg)).filter fun r => r < w.base || (96 ≤ r && r < 106)

/-- Registers lost with their recipe entries are poisoned (R73, R249). -/
def poisonLost (b : List Byte) (w : Warp) : Warp :=
  (lostRegs w b).foldl (fun w r => (liveThreads w).foldl (fun w t => markX w t r 2) w) w

/-! ### Step 3: the eject area (R256) -/

/-- The record of an offset thread in its warp's eject area. (Log 24 DEDUCED.) -/
def readEject (s : State) (w : Warp) (t : Nat) : State × List Byte :=
  match frameRead s w (ejectArea s w + 512 * t) 512 with
  | (s, some b) => (s, b)
  | (s, none) => (s, zeros 512)

/-- A thread that returned while the warp was out is written into its rows and parked at its rejoin JOIN, which is evaluated;
one that carries a trap cause is ready there. -/
def recallReturned (s : State) (u : Nat) (p : Nat × Warp) (o : Off) (b : List Byte) : State :=
  let pc := fieldAt b 8 8 % 2 ^ 57
  let m := bitsOf (fieldAt b 0 8) 16 4
  let carried := sget 0 (unitOf s u).carried o.thread != 0
  let s := modUnit s u fun w =>
    let w := setPc (ejectLoad w o.thread o.ejV o.ejO o.ejY b) o.thread pc
    if carried then setMark w o.thread .ready else evalJoins (setMark w o.thread (.parked m)) m
  delUnit s p.1

/-- A thread still ejected is loaded into the offset-core context that is kept for it and runs on, or sleeps on; a refill of its
stack that has still to be made is made (R286). (Log 45 DEDUCED.) -/
def recallEjected (s : State) (p : Nat × Warp) (o : Off) (b : List Byte) : State :=
  refillNow p.1 [o.thread] (modUnit s p.1 fun w =>
    { setPc (ejectLoad w o.thread o.ejV o.ejO o.ejY b) o.thread (fieldAt b 8 8 % 2 ^ 57) with
      stat := .resident, off := some { o with held := false }, tokens := [], marks := if w.waits.isEmpty then [] else w.marks })

/-- Recall every offset thread of a warp. -/
def recallAll (s : State) (u : Nat) : State :=
  (offUnits s u).foldl (fun s p =>
    match p.2.off with
    | none => s
    | some o =>
      let (s, b) := readEject s (unitOf s u) o.thread
      if p.2.stat = .outAlone then recallReturned s u p o b
      else if p.2.stat = .outCtx then recallEjected s p o b
      else s) s

/-! ### Step 4: replay packets and tile reissue records (R251, R258) -/

/-- The load of a packet. (Log 46 DEDUCED.) -/
def packetLoad (b : List Byte) (i : Nat) : Option Load :=
  match decode (insnBytes (fieldAt b (0x100 + 32 * i) 4) (fieldAt b (0x104 + 32 * i) 4)) with
  | .ok (i, _) => loadOf i
  | .error _ => none

/-- The data of a packet's thread comes: its destinations are written, and it is no longer pending. (Log 46 DEDUCED.) -/
def landPacket (w : Warp) (p : Pend) (x : Load) (bs : List Byte) (q : Bool) : Warp :=
  let ds := (destsOf (loadRegs x.d x.n) (loadWords x.n x.sx bs) q).filter fun d => p.dests.any fun e => e.reg == d.reg
  landPend w { p with dests := ds }

/-- Reissue a packet for one thread; a fault leaves it pending and is collected. An access that stands before a later instruction
of its thread gives the data that it read at first (R361 to R369). (Log 94 DEDUCED.) -/
def reissueThread (u : Nat) (b : List Byte) (i : Nat) (x : Load) (s : State) (p : Pend) : State × List (Nat × AccFault) :=
  if p.performed then (modUnit s u fun w => landPend w p, [])
  else
  let slot := fieldAt b (0x118 + 32 * i) 8 % 8
  let a := fieldAt (recordOf b p.thread) (48 + 8 * slot) 8
  let obj := bitsOf a 40 24
  let off := a % 2 ^ 40
  match objRead s (reqOf (unitOf s u)) obj off x.n false with
  | (s, .ok (bs, q)) => (modUnit s u fun w => landPacket w p x bs q, [])
  | (s, .error .key) => (ctxFault s (unitOf s u).asid 1 0, [])
  | (s, .error (.page f more)) => (s, [(p.thread, ⟨f.cause, f.sub, f.ua, obj, f.off, false, false, more⟩)])

/-- Reissue packet `i`, whose load is instruction `id`. -/
def reissuePacket (u : Nat) (b : List Byte) (s : State) (q : Nat × Nat) : State × List (Nat × AccFault) :=
  match packetLoad b q.2 with
  | none => (modUnit s u fun w => { w with pends := w.pends.filter fun p => p.id != q.1 }, [])
  | some x =>
    ((unitOf s u).pends.filter fun p => p.id == q.1).foldl (fun (r : State × List (Nat × AccFault)) p =>
      let (s, fs) := reissueThread u b q.2 x r.1 p
      (s, r.2 ++ fs)) (s, [])

/-- The fault of this pending load was denied (R356). (Log 91 DEDUCED.) -/
def deniedPend (w : Warp) (p : Pend) : Bool :=
  p.tokens.any w.denied.contains

/-- Loads whose fault was denied are not reissued: each such thread stands again at its first denied load, where it traps
(R356). (Log 46 DEDUCED.) -/
def dropDenied (w : Warp) : Warp :=
  let w' := (w.pends.reverse.filter (deniedPend w)).foldl (fun v p => setMark (setPc v p.thread p.pc) p.thread .ready) w
  { w' with pends := (w.pends.filter fun p => !deniedPend w p).map fun p => { p with tokens := [] }, denied := [] }

/-- A denied load writes nothing (R183): after a raw restore its destinations carry the poison marks that they had before the
load became a packet. (Log 46 DEDUCED.) -/
def unmarkDenied (w : Warp) : Warp :=
  (w.pends.reverse.filter (deniedPend w)).foldl (fun v p =>
    p.dests.foldl (fun v d => markX v p.thread d.reg (if d.poison then 2 else 0)) v) w

/-- Reissue every packet in order: the faults met. -/
def reissuePackets (s : State) (u : Nat) (b : List Byte) (ids : List Nat) : State × List (Nat × AccFault) :=
  ids.zipIdx.foldl (fun (r : State × List (Nat × AccFault)) q =>
    let (s, fs) := reissuePacket u b r.1 q
    (s, r.2 ++ fs)) (s, [])

/-- A wait on a load across a Stolybin link is over once its packet has been reissued (R335). -/
def settleRemote (ids : List Nat) (w : Warp) : Warp :=
  let x := w.waits.map fun x => if x.kind == 11 then { x with value := ids.getD x.value 0 } else x
  let done := fun (x : Wait) => x.kind == 11 && !w.pends.any fun p => p.id == x.value
  (x.filter done).foldl (fun w x => setMarks w (threadsOf x.threads) .ready) { w with waits := x.filter fun y => !done y }

/-- A cancelled copy as its record gives it: it starts again. -/
def copyFrom (w : Warp) (c : Copy) (r : List Byte) : Copy :=
  let ctl := fieldAt r 0x30 1
  let gather := ctl.testBit 2
  let desc := (wordsOf 8 4 r).map (BitVec.ofNat 64)
  let areg := fieldAt r 0x32 1 % 16
  let live := byIndex (liveThreads w)
  let n := if gather then live.length else dRows desc
  let srcs := if gather then live.map fun t => getC w t areg else [⟨BitVec.ofNat 128 (fieldAt r 0x20 16), ctl.testBit 1⟩]
  { c with
    f := if gather then 3 else 0, desc := desc, areg := areg, rmode := fieldAt r 0x31 1 % 16
    src := srcs
    pc := fieldAt r 0x38 8 % 2 ^ 57, rows := List.range n, nrows := n
    batch := if ctl.testBit 3 then some (fieldAt r 0x34 2) else none
    parts := [], image := [], imagePoison := [], follow := dFollow desc != 0, token := none, cancelled := false }

/-- A copy that starts again checks its tile, with the shapes that it captured; where it does not fit no tile byte is written
(R231, R258, R413). (Log 32 DEDUCED.) -/
def restartCopy (w : Warp) (c : Copy) : Warp :=
  let w := { w with copies := w.copies.map fun x => if x.id == c.id then c else x }
  if copyTileBad w ⟨c.pc, c.rmode, c.tshp, c.ashp⟩ c.f c.g c.nrows c.desc then finishCopy { c with poison := true } w else w

/-- Reissue the cancelled copies, the first from the first record; one whose record is not VALID is gone. (Log 32 DEDUCED.) -/
def reissueCopies (w : Warp) (b : List Byte) : Warp :=
  ((w.copies.filter (·.cancelled)).zipIdx).foldl (fun w q =>
    let r := (b.drop (0x440 + 64 * q.2)).take 64
    if (fieldAt r 0x30 1).testBit 0 then
      restartCopy w (copyFrom w q.1 r)
    else finishCopy q.1 w) w

/-! ### Steps 3 to 5 -/

/-- Bits that MDROP of ejected threads cleared while the warp was away leave its masks (R168). (Log 47 DEDUCED.) -/
def applyDrops (w : Warp) : Warp :=
  w.drops.foldl (fun w d => evalJoins (setM w d.1 (getM w d.1 &&& ~~~d.2)) d.1) { w with drops := [] }

/-- The PC table, its marks and the waits that the header held. -/
def takeTable (w : Warp) (pcs : Store Nat) (marks : Store Mark) (waits : List Wait) : Warp :=
  { w with pcs := pcs, marks := marks, waits := waits, routine := none, saved := none }

/-- Step 5 of a resume clears VALID in the frame header `b`; its other bytes stay (R266). -/
def clearValid (s : State) (u : Nat) (b : List Byte) : State :=
  frameWrite s (unitOf s u) 0 ((b.take 1).map fun x => x &&& 0x7F)

/-- The resume's steps 3 to 5 (R255): the eject area, the packets, the copies; then each thread continues at its PC. -/
def finishResume (s : State) (u : Nat) : State :=
  let w := unitOf s u
  match frameRead s w 0 0x4000 with
  | (s, none) => s
  | (s, some b) =>
    let s := recallAll s u
    let ids := packetIds (unitOf s u)
    let (s, fs) := reissuePackets (modUnit s u dropDenied) u b ids
    let s := modUnit s u fun w => { applyDrops (settleRemote ids (reissueCopies w b)) with resumeGuard := true }
    if fs.isEmpty then refillNow u (heldThreads (unitOf s u)) (rewake (clearValid s u b) u)
    else vectorUnit (postFaults s u 0 false false true (faultPages fs)) u 3

/-! ### Steps 1 and 2 -/

/-- The registers of a warp as at placement, with its saved s63 (R255 step 2). -/
def resumeRegs (s : State) (w : Warp) (s63 : DWord) : Regs :=
  let l := launchOfUnit s w
  let g := groupOf s w.grp
  let r := launchRegs l g.idx w.idx (globalIndex s w * 128) (liveThreads w)
  { r with s := sset 0 r.s 63 s63 }

/-- The PC table and marks of a header. -/
def headerTable (s : State) (w : Warp) (off : Store Warp) (b : List Byte) : Store Nat × Store Mark :=
  ((liveThreads w).foldl (fun l t => sset 0 l t (fieldAt (recordOf b t) 0 8 % 2 ^ 57)) [],
   (liveThreads w).foldl (fun l t => sset .ready l t (headerMark s w off b t)) [])

/-- The threads enter the entry routine (R255 step 2). -/
def enterEntry (w : Warp) (r : Region) (high base : Nat) (pcs : Store Nat) (marks : Store Mark) (waits : List Wait) : Warp :=
  let held := (liveThreads w).filter fun t =>
    match sget .ready marks t with
    | .ejected _ => false
    | _ => true
  let w := { w with
    routine := some { exit := false, threads := maskOf held, region := r.id, reason := w.reason, size := 0, high := high
                      count := 0, written := [], npkt := 0, blocked := false, eject := false, pcs := pcs, marks := marks
                      waits := waits }
    waits := [], pcs := pcs, marks := marks }
  setPcs (setMarks (setFrameCap w held (frameCap w.asid high rR)) held .ready) held (base + r.entry)

/-- Steps 1 and 2 for a warp that has its slot; where it is raw, the rest of the resume follows at once. -/
def startResume (s : State) (u : Nat) : State :=
  let w0 := unitOf s u
  match frameRead s w0 0 0x4000 with
  | (s, none) => s
  | (s, some b) =>
    let high := fieldAt b 0x24 4
    let f := routineSize s { w0 with regs := { w0.regs with k := launchK (launchOfUnit s w0) } }
    if f < high then ctxFault s w0.asid 2 0
    else
      let (s, body) := if high = 0 then (s, some []) else frameRead s w0 0x4000 high
      match body with
      | none => s
      | some bs =>
        if crc32c bs ≠ fieldAt b 0x20 4 then ctxFault s w0.asid 2 0
        else
          let w := { w0 with regs := resumeRegs s w0 (BitVec.ofNat 64 (fieldAt b 0x28 8)) }
          let (pcs, marks) := headerTable s w (offUnits s u) b
          let waits := headerWaits w b
          let w := restoreHeader s w b
          let s := { s with fresh := s.fresh + 128 }
          if (fieldAt b 0 1).testBit 0 then
            match frameRead s w (0x4000 + f) (rawSize w) with
            | (s, none) => s
            | (s, some rb) =>
              let w := poisonLost b (unmarkDenied { w with regs := rawFrom w w.regs.k rb })
              finishResume (setUnit s u (takeTable w pcs marks waits)) u
          else
            match (regionsOf s w).find? fun r => r.id == fieldAt b 6 2 with
            | none => ctxFault s w.asid 2 0
            | some r =>
              if r.entry = 0xFFFFFFFF then ctxFault s w.asid 2 0
              else setUnit s u (enterEntry (poisonLost b w) r high (codeBase s w) pcs marks waits)

/-! ### The event -/

/-- A warp alone resumes on its own partition (R255, R269). (Log 52 DEDUCED.) -/
def resumeAlone (s : State) (u : Nat) : State :=
  if warpReady s u then
    match (takeSlot u [(unitOf s u).loc] s).bind (keepContexts u) with
    | some s => startResume s u
    | none => s
  else s

/-- Where a group's warps `ms` resume: its cores, and for each warp the partitions it may take. The group goes back to its own
places, or with `flag` to an instance that holds `loc`, where a warp takes the partition of its number before others.
(Log 52 DEDUCED.) -/
def resumePlan (s : State) (gid : Nat) (ms : List Nat) : Option (List (Nat × Nat × Nat) × List (Nat × List Loc)) :=
  let g := groupOf s gid
  let l := launchOf s g.launch
  if s.ev.flag then
    (planFor s l s.ev.loc g.cores.length (ms.map fun m => (unitOf s m).idx)).map fun (cs, ps) =>
      (cs, (ms.zip ps).map fun (m, _, ls) => (m, (ls.map fun x => { x with part := (unitOf s m).loc.part }).take 1 ++ ls))
  else if g.cores.all (coreUsable s (ctxOf s g.asid).hpart) then some (g.cores, ms.map fun m => (m, [(unitOf s m).loc]))
  else none

/-- The group takes its scratchpad runs and its warps their slots and offset-core contexts. -/
def resumeSlots (s : State) (gid : Nat) (ms : List Nat) : Option State :=
  (resumePlan s gid ms).bind fun (cs, ps) =>
    ((moveAllocs s gid cs).bind fun s => ps.foldlM (fun s p => takeSlot p.1 p.2 s) s).bind fun s =>
      ms.foldlM (fun s u => keepContexts u s) s

/-- A switched-out context becomes Ready when it is selected again (R246). (Log 70 DEDUCED.) -/
def selectAgain (s : State) (asid : Nat) : State :=
  if (ctxOf s asid).state = .switchedOut then setCtxState s asid .ready else s

/-- A group's warps resume together (R23, R255, R259, R268). -/
def resumeGroup (s : State) (gid : Nat) : State :=
  let g := groupOf s gid
  let ms := g.members.filter fun m => (unitOf s m).stat == .outCtx && !onOffset (unitOf s m)
  let old := ms.map fun m => (m, (unitOf s m).loc)
  if ms.isEmpty || !ms.all (warpReady s) then s
  else
    match resumeSlots s gid ms with
    | none => s
    | some s =>
      let s := modGroup s gid fun g => { g with stat := .running }
      let s := loadScratch (makeResident (selectAgain s g.asid) g.asid) gid
      let s := modGroup s gid fun g => { g with bars := moveBars s (launchOf s g.launch).level g.bars old }
      ms.foldl startResume s

/-- A class 1 thread of a switched-out context takes a free context of its cluster. (Log 45 DEDUCED.) -/
def resumeThread (s : State) (u : Nat) : State :=
  let w := unitOf s u
  match freeContexts s w.asid w.loc with
  | [] => s
  | l :: _ =>
    let s := modUnit s u fun w => { w with loc := l, stat := .resident }
    let s := modGroup s w.grp fun g => { g with stat := .running }
    makeResident (selectAgain s w.asid) w.asid

/-- A context no unit of which is out. -/
def noUnitOut (s : State) (asid : Nat) : Bool := s.units.all fun p => p.2.asid != asid || p.2.stat == .resident || p.2.stat == .ended

/-- RESUME_WARP: unit `unit` resumes, with its group where its context was switched out. Where `unit` names none, context `asid`,
switched out with engine work alone, is selected again (R246). -/
def execResumeWarp (s : State) : Host.Outcome State Fault Refusal :=
  match sfind s.units s.ev.unit with
  | none => .next (if selectable s s.ev.asid && noUnitOut s s.ev.asid then selectAgain s s.ev.asid else s)
  | some w =>
    let c := ctxOf s w.asid
    match w.stat, w.off with
    | .outAlone, none => if c.state = .resident then .next (resumeAlone s s.ev.unit) else .next s
    | .outCtx, none => if c.state = .resident || selectable s w.asid then .next (resumeGroup s w.grp) else .next s
    | .outCtx, some o =>
      if o.parent.isNone && (c.state = .resident || selectable s w.asid) then .next (resumeThread s s.ev.unit) else .next s
    | _, _ => .next s

/-! ### EDONE (R163, R260) -/

/-- The live-out registers of a region by EDONE's numbers. -/
def liveOut (r : Region) : List Nat :=
  bitList r.liveV 96 ++ (bitList r.liveO 8).map (96 + ·) ++ (bitList r.liveY 2).map (104 + ·)
    ++ (bitList r.liveS 64).map (65536 + ·) ++ (bitList r.liveM 16).map (65600 + ·) ++ (bitList r.liveC 7).map (131072 + ·)

/-- Poison a register by EDONE's number in the routine threads. -/
def poisonNum (ts : List Nat) (w : Warp) (n : Nat) : Warp :=
  if n < 65536 then ts.foldl (fun w t => markX w t n 2) w
  else if n < 65600 then { w with regs := { w.regs with sp := sset 0 w.regs.sp (n - 65536) 2 } }
  else if n < 131072 then { w with regs := { w.regs with mp := sset 0 w.regs.mp (n - 65600) 2 } }
  else ts.foldl (fun w t => { w with regs := { w.regs with cp := sset 0 w.regs.cp (xkey (n - 131072) t) 2 } }) w

/-- The end of the entry routine: unwritten live-outs are poisoned, c7 is taken away, and the warp takes its PC table. -/
def endEntry (lo : List Nat) (r : Routine) (w : Warp) : Warp :=
  let ts := threadsOf r.threads
  let w := closeWin w ts
  let now := (w.routine.map (·.written)).getD []
  let w := (lo.filter fun n => !now.contains n).foldl (poisonNum ts) w
  takeTable (setFrameCap w ts Cap.null) r.pcs r.marks r.waits

/-- The body of EDONE. -/
def bodyEdone (cx : Cx) (s : State) : Res :=
  let w := unitOf s cx.u
  if onOffset w then trapAll cx s cOffsetIllegal
  else
    match w.routine with
    | none => trapAll cx s cRoutine
    | some r =>
      if r.exit || routineSplit cx r then trapAll cx s cRoutine
      else
        let lo := match (regionsOf s w).find? fun q => q.id == r.region with
          | some q => liveOut q
          | none => []
        .ok (finishResume (modUnit s cx.u (endEntry lo r)) cx.u)

/-- EDONE: the resume continues with its next step. -/
def execEdone (s : State) : Host.Outcome State Fault Refusal := issue 4 true bodyEdone s

end Sys2Proof.Machine
end

