-- ==== Sys2Proof/Machine/Window.lean ====
section
/-! DEFINITION. KVWIN, KVCOMMIT, KVABORT and KVLEN (R239 to R243, R388 to R395). -/

namespace Sys2Proof.Machine

/-- The entry of a slot on which no window was ever opened. -/
def Window.none : Window :=
  { asid := 0, last := 0, isOpen := false, pos := 0, len := 0, kv := Cap.null, rs := Cap.null, pool := Cap.null, kvb := 0, sb := 0,
    pages := [], snaps := [], snap0 := [], snap0Poison := [], snapSet := [] }

/-- The window-table entry of a slot. -/
def windowOf (s : State) (slot : Nat) : Window := (sfind s.windows slot).getD Window.none

/-- Bits of a value outside the given fields, each a first bit and a width. -/
def strayBits (v : Nat) (fields : List (Nat × Nat)) : Bool :=
  v - fields.foldl (fun m f => m + bitsOf v f.1 f.2 * 2 ^ f.1) 0 != 0

/-- Drop the cached translations of a tenant and an object (none: every object) whose unified page lies in [first, first +
count), or all of them where count is 0 (R344). -/
def dropTlb (s : State) (asid : Nat) (obj : Option Nat) (first count : Nat) : State :=
  let keep := fun (e : TlbEntry) =>
    !(e.asid == asid && (match obj with
      | some o => e.obj == o
      | none => true) && (count == 0 || (first ≤ e.upage && e.upage < first + count)))
  { s with tlb1 := s.tlb1.map fun p => (p.1, p.2.filter keep), tlb2 := s.tlb2.map fun p => (p.1, p.2.filter keep) }

/-- The operand of a window instruction, its reserved bits, and the slot's owner (R239, R388, R393). Stray bits of s[A] trap after
OFFSET_ILLEGAL and MASK_PARTIAL (R95). (Log 107 DESIGN CHOICE.) -/
def withSlot (cx : Cx) (reads writes : List RName) (a : Fin 64) (fields : List (Nat × Nat)) (chk : Nat → State → Option Nat)
    (k : Nat → State → Res) (s : State) : Res :=
  guardEngine cx .never (fun s =>
    let x : Uses := { reads := reads ++ [.u a.val], writes := writes, data := [], tagged := false }
    guardNames cx x (guardPoison { cx with act := [lowLive (unitOf s cx.u)] } x fun s =>
      let v := (getS (unitOf s cx.u) a.val).toNat
      if strayBits v fields then trapAll cx s cReservedField
      else
        guardAll cx s (chk v s) fun s =>
          if slotOk s (v % 4096) (unitOf s cx.u).asid then k v s else trapAll cx s cWindow) s) s

/-! ### KVWIN -/

/-- KVB is a multiple of 16 that divides 65,536 (R389). -/
def kvbOk (n : Nat) : Bool := n % 16 == 0 && n != 0 && 65536 % n == 0

/-- The window capability (R240, R389). -/
def windowCap (asid : Nat) (kv : Cap) (cursor : Nat) : Cap :=
  let r := narrowRange 0 (2 ^ 40)
  mkCap kv.kind asid kv.object (rR + rW + 128) r.2.2 r.2.1 r.1 cursor true

/-- Open a window whose request granules are given: snapshot 0, the entry and the capability. (Log 97 DESIGN CHOICE.) -/
def openWindow (cx : Cx) (v : Nat) (g : List (Cap × Bool)) (s : State) : Res :=
  let w := unitOf s cx.u
  let slot := v % 4096
  let x := windowOf s slot
  let win := bitsOf v 16 12
  let t := bitsOf v 40 7
  let dest := bitsOf v 48 3
  let kv := (g.getD 0 (Cap.null, false)).1
  let rs := (g.getD 1 (Cap.null, false)).1
  let pool := (g.getD 2 (Cap.null, false)).1
  let g3 := (g.getD 3 (Cap.null, false)).1.bits.toNat
  let kvb := g3 % 2 ^ 32
  let sb := bitsOf g3 32 32
  if !kv.tag || !pool.tag || bitsOf g3 64 64 ≠ 0 || x.isOpen || win ≠ (x.last + 1) % 4096 || !isLive w t || !kvbOk kvb
      || kv.rights &&& 3 ≠ 3 then
    trapAll cx s cWindow
  else
    let (s', snap) : State × Except Bad (List PByte) :=
      if rs.tag then
        match objReadM s (reqOf w) rs.object 0 sb false with
        | (s, .ok r) => (s, .ok r)
        | (s, .error f) => (s, .error (badOf rs.object false false f))
      else (s, .ok [])
    match snap with
    | .error b => engineStop cx s' b
    | .ok l =>
      let y : Window :=
        { asid := w.asid, last := win, isOpen := true, pos := bitsOf v 32 4, len := x.len, kv := kv, rs := rs, pool := pool
          kvb := kvb, sb := sb, pages := [], snaps := [], snap0 := ssetMany 0 [] 0 (l.map (·.1))
          snap0Poison := ssetMany false [] 0 (l.map (·.2)), snapSet := [] }
      let s := { s' with windows := sput s'.windows slot y }
      commit cx { reads := [], writes := [.c dest], data := [], tagged := false } (fun s =>
        .ok (modUnit s cx.u fun w => setC w t dest (windowCap w.asid kv (x.len * kvb)))) s

/-- The body of KVWIN. (Log 58 DEDUCED.) -/
def bodyKvwin (d : Fin 16) (a : Fin 64) (cx : Cx) (s : State) : Res :=
  withSlot cx [.c d.val] [] a [(0, 12), (16, 12), (32, 4), (40, 7), (48, 3)]
    (fun v s =>
      let w := unitOf s cx.u
      let c := getC w (lowLive w) d.val
      if bitsOf v 48 3 = 7 then some cReservedField else localCheck s w c c.cursor 64 rR 0b0001 16)
    (fun v s =>
      let w := unitOf s cx.u
      let c := getC w (lowLive w) d.val
      match readGranules w c 4 c.cursor s with
      | (s, .error b) => engineStop cx s b
      | (s, .ok g) => openWindow cx v g s) s

/-- KVWIN cR, sA. -/
def execKvwin (d : Fin 16) (a : Fin 64) (s : State) : Host.Outcome State Fault Refusal := issue 4 true (bodyKvwin d a) s

/-! ### Closing -/

/-- The window is open on the slot under number WIN (R241). -/
def isOpenAs (s : State) (v : Nat) : Bool :=
  let x := windowOf s (v % 4096)
  x.isOpen && x.last == bitsOf v 16 12

/-- The window closes. -/
def closeWindow (s : State) (slot len : Nat) : State :=
  { s with windows := smod s.windows slot fun x =>
      { x with isOpen := false, len := len, pages := [], snaps := [], snap0 := [], snap0Poison := [], snapSet := [] } }

/-- Pages in rising number. -/
def pageInsert (p : WPage) : List WPage → List WPage
  | [] => [p]
  | q :: l => if p.page < q.page then p :: q :: l else q :: pageInsert p l

/-- A page list in rising page. -/
def pageSort (l : List WPage) : List WPage := l.foldr pageInsert []

/-- Return frames to the pool in order, up to the first that the pool object does not take. -/
def pushFrames (s : State) (rq : Req) (pool : Cap) : List Nat → State × Except Bad Unit
  | [] => (s, .ok ())
  | f :: r =>
    match giveFrame s rq pool f with
    | (s, .error b) => (s, .error b)
    | (s, .ok _) => pushFrames s rq pool r

/-- Return frames to the pool: all of them, or where the pool object cannot be written none, and COUNT and FRAMES keep their
values (R388). -/
def giveFrames (s : State) (rq : Req) (pool : Cap) (l : List Nat) : State × Except Bad Unit :=
  match pushFrames s rq pool l with
  | (t, .error b) => (keepCounts s t, .error b)
  | r => r

/-- The frames that an abort returns, in order. -/
def windowFrames (x : Window) : List Nat := (pageSort x.pages ++ pageSort x.snaps).map (·.frame)

/-- KVABORT's effect: every page goes back to the pool, or the fault of the pool object stops it (R183). -/
def abortWindow (s : State) (rq : Req) (slot : Nat) : State × Except Bad Unit :=
  let x := windowOf s slot
  match giveFrames s rq x.pool (windowFrames x) with
  | (s, .error b) => (s, .error b)
  | (s, .ok _) => (closeWindow s slot x.len, .ok ())

/-- What a reset does to a window: as KVABORT, but where the pool object cannot be written no frame is returned (R388). -/
def resetWindow (s : State) (rq : Req) (slot : Nat) : State :=
  let x := windowOf s slot
  closeWindow (giveFrames s rq x.pool (windowFrames x)).1 slot x.len

/-- A copy of the warp reaches the object through a capability with the SP right. (Log 58 DEDUCED.) -/
def copyThrough (obj : Nat) (c : Copy) : Bool := (c.dst :: c.src).any fun k => k.rights.testBit 7 && k.object == obj

/-- A copy has read some but not all of its source, and reads the object: a commit that came between would be seen in part (R368). -/
def partlyReads (x : Window) (c : Copy) : Bool :=
  !c.cancelled && !c.rows.isEmpty && (c.rows.length < c.nrows || !c.parts.isEmpty)
    && c.src.any fun k => k.object == x.kv.object || (x.rs.tag && k.object == x.rs.object)

/-- A commit waits for the tenant's copies that have read part of what it changes (R368). -/
def afterReads (cx : Cx) (v : Nat) (k : State → Res) (s : State) : Res :=
  let w := unitOf s cx.u
  if s.units.any fun p => p.2.asid == w.asid && p.2.copies.any (partlyReads (windowOf s (v % 4096))) then .error (.hold, s) else k s

/-- The instruction waits for the warp's accesses through the window (R241). -/
def afterWindow (cx : Cx) (v : Nat) (k : State → Res) (s : State) : Res :=
  let w := unitOf s cx.u
  if w.copies.any (copyThrough (windowOf s (v % 4096)).kv.object) then .error (.hold, s)
  else k (modUnit s cx.u fun w => closeWin w (liveThreads w))

/-- KVABORT sA. -/
def execKvabort (a : Fin 64) (s : State) : Host.Outcome State Fault Refusal :=
  issue 4 true (fun cx => withSlot cx [] [] a [(0, 12), (16, 12)] (fun _ _ => none) fun v s =>
    if !isOpenAs s v then trapAll cx s cWindow
    else
      afterWindow cx v (fun s =>
        match abortWindow s (reqOf (unitOf s cx.u)) (v % 4096) with
        | (s, .ok _) => .ok s
        | (s, .error b) => engineStop cx s b) s) s

/-! ### Commit (R391, R394, R395) -/

/-- The address of the level-0 leaf of a unified address. -/
def leafAddr (s : State) : Nat → Nat → Nat → Except Nat Nat
  | 0, tab, ua => if hbmSize ≤ tab + 8 * bitsOf ua 16 5 then .error 1 else .ok (tab + 8 * bitsOf ua 16 5)
  | l + 1, tab, ua =>
    let a := tab + 8 * bitsOf ua (21 + 9 * l) 9
    if hbmSize ≤ a then .error 1
    else
      let e := hbm64 s a
      if l = 0 && bitsOf e 9 1 = 1 then .error 1
      else if bitsOf e 0 1 = 0 then .error 0
      else if bitsOf e 52 12 ≠ 0 || bitsOf e 1 9 ≠ 0 || (l ≠ 0 && bitsOf e 10 2 ≠ 0) then .error 1
      else leafAddr s l (bitsOf e 10 42 * 1024) ua

/-- The window pages whose first byte lies in [L0, L1). -/
def linkPages (l0 l1 : Nat) : List Nat :=
  let first := (l0 + 65535) / 65536
  (List.range ((l1 + 65535) / 65536 - first)).map (· + first)

/-- Zero the bytes of a frame from `o` on, where they are inside it (R395). -/
def zeroFrom (s : State) (f o : Nat) : State :=
  let a := f * 65536 + min o 65536
  { s with mem := sclear s.mem a (f * 65536 + 65536), memPoison := sclear s.memPoison a (f * 65536 + 65536) }

/-- The leaf of a linked page: V, W, TIER 00, the frame, and KEYID and HEAT of ATTR (R391). (Log 58 DEDUCED.) -/
def linkLeaf (frame attr : Nat) : Nat := 3 + bitsOf attr 12 1 * 2 ^ 8 + bitsOf attr 0 12 * 2 ^ 12 + frame * 2 ^ 24

/-- Link window pages as the KV object's pages: the frames that the leaves held before. -/
def linkAll (asid : Nat) (x : Window) (l1 attr : Nat) : List Nat → State → Except (Nat × Nat) (State × List Nat)
  | [], s => .ok (s, [])
  | p :: r, s =>
    let ua := (cadBase (cadEntry s asid x.kv.object) + p * 65536) % 2 ^ 57
    match leafAddr s 4 (sget 0 s.xlatPt asid).toNat ua with
    | .error sub => .error (sub, p * 65536)
    | .ok a =>
      let f := ((pageOf x.pages p).map (·.frame)).getD 0
      let old := hbm64 s a
      let s := zeroFrom s f (l1 - p * 65536)
      let s := { s with mem := ssetMany 0 s.mem a (toBytes 8 (linkLeaf f attr)) }
      let s := dropTlb s asid (some x.kv.object) (ua / 65536) 1
      match linkAll asid x l1 attr r s with
      | .error e => .error e
      | .ok (s, l) => .ok (s, if bitsOf old 0 1 = 1 then bitsOf old 24 28 :: l else l)

/-- Copy `n` bytes from byte `off` of a window to byte `o` of an object, each with its poison mark (R391). -/
def windowCopy (s : State) (rq : Req) (x : Window) (off n obj o : Nat) : State × Except Bad Unit :=
  match windowData s rq x off n with
  | (s, .error b) => (s, .error b)
  | (s, .ok l) =>
    match objWriteM s rq obj o l with
    | (s, .error f) => (s, .error (badOf obj true false f))
    | (s, .ok _) => (s, .ok ())

/-- The links of the commit step: the frames that go back to the pool, and the window closes. -/
def commitLinks (w : Warp) (slot k attr : Nat) (s : State) : State × Except Bad Unit :=
  let x := windowOf s slot
  let l0 := x.len * x.kvb
  let l1 := (x.len + k) * x.kvb
  let link := linkPages l0 l1
  match linkAll w.asid x l1 attr link s with
  | .error (sub, o) =>
    (s, .error (.fault ⟨0x80, sub, (cadBase (cadEntry s w.asid x.kv.object) + o) % 2 ^ 57, x.kv.object, o, true, false, []⟩))
  | .ok (s, old) =>
    let mine := fun (p : WPage) => l0 % 65536 ≠ 0 && l0 < l1 && p.page == l0 / 65536
    let rest := (pageSort x.pages).filter fun p => !link.contains p.page
    let frames := old ++ (rest.filter mine ++ (rest.filter fun p => !mine p) ++ pageSort x.snaps).map (·.frame)
    match giveFrames s (reqOf w) x.pool frames with
    | (s, .error b) => (s, .error b)
    | (s, .ok _) => (closeWindow s slot (x.len + k), .ok ())

/-- The accesses of the commit step: the frames of pages that it links, the bytes of the page that it does not link, ATTR of the
pool, and snapshot `k`. -/
def commitReads (w : Warp) (slot k : Nat) (s : State) : State × Except Bad Unit :=
  let rq := reqOf w
  let x := windowOf s slot
  let l0 := x.len * x.kvb
  let l1 := (x.len + k) * x.kvb
  let e := min l1 (65536 * (l0 / 65536 + 1))
  match takePages s rq slot ((linkPages l0 l1).map fun p => (false, p)) with
  | (s, .error b) => (s, .error b)
  | (s, .ok _) =>
    let x := windowOf s slot
    match (if l0 % 65536 ≠ 0 && l0 < e then windowCopy s rq x l0 (e - l0) x.kv.object l0 else (s, .ok ())) with
    | (s, .error b) => (s, .error b)
    | (s, .ok _) => if x.rs.tag && 0 < x.sb then windowCopy s rq x (snapBase + k * x.sb) x.sb x.rs.object 0 else (s, .ok ())

/-- The commit step with KEEP = `k`: all of it, or the fault that stops it. (Log 58 DEDUCED.) -/
def commitWindow (w : Warp) (slot k : Nat) (s : State) : State × Except Bad Unit :=
  let pool := (windowOf s slot).pool.object
  let all : State × Except Bad Unit :=
    match commitReads w slot k s with
    | (s, .error b) => (s, .error b)
    | (s, .ok _) =>
      match objRead s (reqOf w) pool 8 4 false with
      | (s, .error f) => (s, .error (badOf pool false false f))
      | (s, .ok (ab, _)) => commitLinks w slot k (ofBytes ab) s
  match all with
  | (t, .error b) => (keepCounts s t, .error b)
  | r => r

/-- KVCOMMIT sA. -/
def execKvcommit (a : Fin 64) (s : State) : Host.Outcome State Fault Refusal :=
  issue 4 true (fun cx => withSlot cx [] [] a [(0, 12), (16, 12), (32, 5)]
    (fun _ _ => none) fun v s =>
    let k := bitsOf v 32 5
    if !isOpenAs s v || (windowOf s (v % 4096)).pos + 1 < k then trapAll cx s cWindow
    else
      afterReads cx v (afterWindow cx v fun s =>
        match commitWindow (unitOf s cx.u) (v % 4096) k s with
        | (s, .ok _) => .ok s
        | (s, .error b) => engineStop cx s b) s) s

/-- KVLEN sD, sA (R243). -/
def execKvlen (d a : Fin 64) (s : State) : Host.Outcome State Fault Refusal :=
  issue 4 true (fun cx => withSlot cx [] [.u d.val] a [(0, 12)] (fun _ _ => none) fun v s =>
    let x := windowOf s (v % 4096)
    let r := x.len % 2 ^ 32 + x.last * 2 ^ 32 + x.isOpen.toNat * 2 ^ 48 + (if x.isOpen then x.pos * 2 ^ 52 else 0)
    commit cx { reads := [], writes := [.u d.val], data := [], tagged := false } (fun s =>
      .ok (modUnit s cx.u fun w => setS w d.val (BitVec.ofNat 64 r))) s) s

end Sys2Proof.Machine
end

