-- ==== Sys2Proof/Machine/Retire.lean ====
section
/-! DEFINITION. The table of kernels and the retirement of a kernel (R287, R412). -/

namespace Sys2Proof.Machine

/-- A kernel of zeros. -/
def Kernel.blank : Kernel := { asid := 0, record := Cap.null, state := 0, status := 0, dataCap := Cap.null }

/-- The key of a kernel: tenant and code object. -/
def kernelKey (asid obj : Nat) : Nat := asid * 2 ^ 24 + obj

/-- Kernel states (R287): 0 Submitted, 1 Checking, 2 Failed, 3 Translating, 4 Loaded, 5 Retiring, 6 Retired. -/
def kernelState (s : State) (asid obj : Nat) : Nat := (sget Kernel.blank s.kernels (kernelKey asid obj)).state

/-- A gang that this device leads has its node still running. -/
def Gang.runs (g : Gang) : Bool := g.state == .arming || g.state == .running

/-- A node still uses the kernel. -/
def kernelUsed (s : State) (asid obj : Nat) : Bool :=
  (s.launches.any fun p => p.2.asid == asid && p.2.kernel == obj)
    || s.gangs.any fun p => p.2.asid == asid && p.2.kernel == obj && Gang.runs p.2

/-- An object leaves the Cadastre. (Log 66 DEDUCED.) -/
def freeObject (s : State) (asid obj : Nat) : State :=
  dropTlb (putBytes s ((sget 0 s.xlatCad asid).toNat + 16 * obj) (zeros 16) false) asid (some obj) 0 0

/-- A retiring kernel that no node uses any more is Retired: its code object and its data object are freed. (Log 66 DEDUCED.) -/
def retireKernel (s : State) (asid obj : Nat) : State :=
  let k := sget Kernel.blank s.kernels (kernelKey asid obj)
  if k.state = 5 && !kernelUsed s asid obj then
    let s := freeObject s asid obj
    let s := if k.dataCap.tag then freeObject s asid k.dataCap.object else s
    { s with kernels := smod s.kernels (kernelKey asid obj) fun k => { k with state := 6, dataCap := Cap.null } }
  else s

/-- A gang whose node has ended with context `asid`. -/
def Gang.ended (asid : Nat) (g : Gang) : Gang := if g.asid = asid && Gang.runs g then { g with state := .aborted } else g

/-- The launches and gangs of a context whose nodes have ended; kernels that only they used retire. -/
def dropNodes (s : State) (asid : Nat) : State :=
  let s : State := { s with
    launches := s.launches.filter fun p => p.2.asid != asid
    gangs := s.gangs.map fun p => (p.1, Gang.ended asid p.2) }
  (s.kernels.filter fun p => p.2.asid == asid).foldl (fun s p => retireKernel s asid (p.1 % 2 ^ 24)) s

end Sys2Proof.Machine
end

