-- ==== Sys2Proof/Machine/Contexts.lean ====
section
/-! DEFINITION. The life of a context: pre-emption, the bounds of routines and waits, switching out, faults, reset alone, time
slices and the watchdog (R246 to R263, R279, R388). -/

namespace Sys2Proof.Machine

/-! ### Pre-emption (R246, R251) -/

/-- The units of a context. -/
def ctxUnits (s : State) (asid : Nat) : Store Warp := s.units.filter fun p => p.2.asid == asid

/-- Pre-empt one unit: a warp is vectored; one that is already out stops its ejected threads; a class 1 thread leaves its
context at its instruction boundary. -/
def preemptUnit (reason : Nat) (s : State) (p : Nat × Warp) : State :=
  match p.2.off with
  | none =>
    if p.2.stat = .outAlone then modUnit (stopEjected s p.1) p.1 fun w => { w with stat := .outCtx }
    else vectorUnit s p.1 reason
  | some o =>
    if o.parent.isNone then
      modUnit s p.1 fun w => { closeWin w [o.thread] with stat := .outCtx, tokens := [], latch := [] }
    else s

/-- Pre-empt a resident context; any other is left as it is (R246). -/
def preemptCtx (s : State) (asid reason : Nat) : State :=
  if (ctxOf s asid).state = .resident then
    let s := setCtxState (modCtx s asid fun c => { c with reason := reason }) asid .switchingOut
    (ctxUnits s asid).foldl (preemptUnit reason) s
  else s

/-- PREEMPTION_REQUEST: context `asid` is pre-empted with REASON `value`, 1 PREEMPT or 5 SUSPEND. -/
def execPreemptionRequest (s : State) : Host.Outcome State Fault Refusal :=
  if s.ev.value = 1 || s.ev.value = 5 then .next (preemptCtx s s.ev.asid s.ev.value) else .next s

/-! ### Bounds -/

/-- VECTOR_WAIT_EXPIRY: 256 clk have passed since unit `unit` stopped issuing (R251 step 2). -/
def execVectorWaitExpiry (s : State) : Host.Outcome State Fault Refusal :=
  let u := s.ev.unit
  match (unitOf s u).vec with
  | some v =>
    if v.expired then .next s
    else .next (tryVector (modUnit s u fun w => { w with vec := some { v with expired := true } }) u)
  | none => .next s

/-- The clk that an exit routine has counted (R252). (Log 55 DEDUCED.) -/
def routineClk (w : Warp) : Nat := (w.routine.map (·.count)).getD 0

/-- EXIT_BUDGET_OVERRUN: the exit routine of unit `unit`, idle for `value` clk more than its instructions took, has counted
EXIT_BUDGET clk (R252). -/
def execExitBudgetOverrun (s : State) : Host.Outcome State Fault Refusal :=
  let w := unitOf s s.ev.unit
  if inExit w && (ctxOf s w.asid).exitBudget ≤ routineClk w + s.ev.value then .next (rawSave s s.ev.unit false true 0)
  else .next s

/-- TMASK_BOUND_EXPIRY: a request held by TM = 1 has waited TMASK_BOUND clk, `value` of them idle (R254). -/
def execTmaskBoundExpiry (s : State) : Host.Outcome State Fault Refusal :=
  let u := s.ev.unit
  let w := unitOf s u
  match w.heldPre with
  | none => .next s
  | some r =>
    if w.tm && w.routine.isNone && w.stat = .resident && !w.resumeGuard && w.vec.isNone
        && (ctxOf s w.asid).tmaskBound ≤ w.tmaskClk + s.ev.value then
      .next (startVector (modUnit s u fun w => { w with heldPre := none }) u r)
    else .next s

/-- REJOIN_TIMEOUT: unit `unit` has waited REJOIN_LIMIT clk for its ejected threads, `value` of them after the last count
(R279). -/
def execRejoinTimeout (s : State) : Host.Outcome State Fault Refusal :=
  let w := unitOf s s.ev.unit
  if waitsRejoin w && (ctxOf s w.asid).rejoinLimit ≤ w.rejoinWait + s.ev.value then .next (vectorUnit s s.ev.unit 4)
  else .next s

/-! ### Switching out (R246, R259) -/

/-- A copy into a scratchpad is still to complete. (Log 32 DEDUCED.) -/
def scratchCopies (w : Warp) : Bool :=
  w.copies.any fun c => !c.cancelled && !c.rows.isEmpty && (c.f == 2 || (c.g == 0 && (c.f == 0 || c.f == 3)))

/-- Every warp of a context has ended its save, and its copies into scratchpads have completed. -/
def allOut (s : State) (asid : Nat) : Bool :=
  (ctxUnits s asid).all fun p =>
    match p.2.off with
    | none => p.2.stat == .ended || (p.2.stat == .outCtx && !scratchCopies p.2)
    | some o => o.parent.isSome || p.2.stat == .outCtx

/-- The running groups of a context. -/
def runningGroups (s : State) (asid : Nat) : List Nat :=
  (s.groups.filter fun p => p.2.asid == asid && p.2.stat == .running).map (·.1)

/-- Save a group's scratchpads; the group is out. -/
def groupOut (s : State) (gid : Nat) : State := modGroup (saveScratch s gid) gid fun g => { g with stat := .out }

/-- SWITCHED_OUT: the scratchpads of context `asid` are saved, and the event is posted. -/
def execSwitchedOut (s : State) : Host.Outcome State Fault Refusal :=
  let a := s.ev.asid
  if (ctxOf s a).state = .switchingOut && allOut s a then
    let s := (ctxUnits s a).foldl (fun s p => stopEjected s p.1) s
    let s := (runningGroups s a).foldl groupOut s
    if (ctxOf s a).state = .switchingOut then
      .next (present (setCtxState s a .switchedOut) 1 (ctxOf s a).vd 2 a 0 0 0)
    else .next s
  else .next s

/-! ### Faults and reset alone (R247, R261) -/

/-- CONTEXT_FAULT: a context fault of code `value` reaches context `asid` (R247). (Log 20 DEDUCED.) -/
def execContextFault (s : State) : Host.Outcome State Fault Refusal :=
  if 1 ≤ s.ev.value && s.ev.value ≤ 5 then .next (ctxFault s s.ev.asid s.ev.value 0) else .next s

/-- The open windows of a context. -/
def openWindows (s : State) (asid : Nat) : List Nat :=
  (s.windows.filter fun p => p.2.asid == asid && p.2.isOpen).map (·.1)

/-- A token of a context reset since the fault is no longer known (R356). -/
def dropTokens (s : State) (asid : Nat) : State := { s with tokens := s.tokens.filter fun t => t.asid != asid }

/-- What reset alone takes away: windows, warps and offset threads, groups, gang parts, tokens, translations (R261, R344, R388). -/
def clearCtx (s : State) (asid : Nat) : State :=
  let s := (openWindows s asid).foldl (fun s k => resetWindow s (reqEngine asid) k) s
  let groups := s.groups.map fun p =>
    if p.2.asid == asid && (p.2.stat == .running || p.2.stat == .out) then
      (p.1, { p.2 with stat := .ended, members := [], allocs := [], bars := [] })
    else p
  dropTlb (dropTokens { s with
    units := s.units.filter fun p => p.2.asid != asid
    groups := groups
    gangParts := s.gangParts.filter fun p => p.2.asid != asid
    portables := if (ctxOf s asid).dying then s.portables else s.portables.filter fun p => p.asid != asid } asid) asid none 0 0

/-- RESET_ALONE: the warps, queues and translations of a resetting context are cleared. -/
def execResetAlone (s : State) : Host.Outcome State Fault Refusal :=
  if (ctxOf s s.ev.asid).state = .resetting then .next (clearCtx s s.ev.asid) else .next s

/-- The sequence numbers from `q` up to but not including `r`, at most `n`. -/
def seqRange : Nat → Nat → Nat → List Nat
  | 0, _, _ => []
  | n + 1, q, r => if q = r then [] else q :: seqRange n ((q + 1) % 2 ^ 32) r

/-- Reserved entries that the engine has not read, published or not. (Log 70 DEDUCED.) -/
def unreadSeqs (s : State) (ch : Nat) : List Nat :=
  let c := chainOf s ch
  match peek s (chainReq c).asid c.cap.object (c.cap.cursor + 8) 4 with
  | none => []
  | some b => seqRange (2 ^ c.log2n) c.next (ofBytes b)

/-- Every pending entry of a chain completes with `status`, and entries reserved and never published leave the chain (R316,
R319, R246). (Log 70 DEDUCED.) -/
def drainChain (status : Nat) (s : State) (ch : Nat) : State :=
  let qs := unreadSeqs s ch
  let s := modChain s ch fun c =>
    { c with
      next := match qs.getLast? with
        | some q => (q + 1) % 2 ^ 32
        | none => c.next
      entries := c.entries ++ (qs.filter fun q => (entryOf c q).isNone).map fun q => { Entry.blank with seq := q } }
  let s := match qs.getLast? with
    | some q => (chainPut s ch 0xC (toBytes 4 ((q + 1) % 2 ^ 32))).1
    | none => s
  let pend := ((chainOf s ch).entries.filter fun e => e.state != .complete).map (·.seq)
  pend.foldl (fun s q => completeOnly true s ch q status 0 0) s

/-- The chains of a context. -/
def ctxChains (s : State) (asid : Nat) : List Nat := (s.chains.filter fun p => p.2.asid == asid).map (·.1)

/-- A destroyed context's chains are no longer registered with their engines. -/
def forgetChains (s : State) (asid : Nat) : State := { s with chains := s.chains.filter fun p => p.2.asid != asid }

/-- The end of reset alone: pending nodes complete, kernels that only they used retire, and the context is Ready, or Destroyed where
that was asked for (R246, R287). (Log 70 DEDUCED.) -/
def resetDone (s : State) (asid : Nat) : State :=
  let c := ctxOf s asid
  let s := dropNodes ((ctxChains s asid).foldl (drainChain c.resetStatus) (clearCtx s asid)) asid
  if c.dying then setCtxState (forgetChains s asid) asid .destroyed
  else setCtxState (modCtx s asid fun c => { c with resetStatus := 4, idle := 0, migration := none }) asid .ready

/-- RESET_COMPLETE: reset alone of context `asid` has finished. -/
def execResetComplete (s : State) : Host.Outcome State Fault Refusal :=
  if (ctxOf s s.ev.asid).state = .resetting then .next (resetDone s s.ev.asid) else .next s

/-! ### Slices and the watchdog (R262, R263) -/

/-- Another context of the same hard partition is ready (R262). (Log 70 DEDUCED.) -/
def otherReady (s : State) (asid : Nat) : Bool :=
  s.ctxs.any fun p => p.1 != asid && p.2.hpart == (ctxOf s asid).hpart && (mayPlace s p.1 && p.2.state == .ready || selectable s p.1)

/-- SLICE_END: the time slice of context `asid` has expired. -/
def execSliceEnd (s : State) : Host.Outcome State Fault Refusal :=
  let a := s.ev.asid
  let c := ctxOf s a
  if c.state = .resident && c.slice ≠ 0 then
    let s := modCtx (reachTime s (c.sliceStart + c.slice * 1000)) a fun c => { c with sliceStart := c.sliceStart + c.slice * 1000 }
    .next (if otherReady s a then preemptCtx s a 2 else s)
  else .next s

/-- WATCHDOG: TIME moves on by `value` ns in which nothing issues or advances; a count above WATCHDOG µs in context `asid` is a
context fault (R263). (Log 86 DEDUCED.) -/
def execWatchdog (s : State) : Host.Outcome State Fault Refusal :=
  let a := s.ev.asid
  let c := ctxOf s a
  if eligible s a c && c.watchdog ≠ 0 then
    let s := elapse s s.ev.value
    .next (if c.watchdog * 1000 < (ctxOf s a).idle then ctxFault s a 4 15 else s)
  else .next s

end Sys2Proof.Machine
end

