-- ==== Sys2Proof/Machine/Sha.lean ====
section
/-! DEFINITION. SHA-256 and the RSASSA-PSS check, which the spec names by their standards (R295, R405, R409). -/

namespace Sys2Proof.Machine

/-! ### SHA-256

The constants are computed from what the standard takes them from: fractions of roots of the first primes. -/

/-- The largest number of `b` bits more than `r` whose `k`-th power does not exceed `v`, found bit by bit. -/
def rootBits (k v : Nat) : Nat → Nat → Nat
  | 0, r => r
  | b + 1, r => rootBits k v b (if (r + 2 ^ b) ^ k ≤ v then r + 2 ^ b else r)

/-- The first 32 bits of the fraction of the `k`-th root of `p`. -/
def rootFraction (k p : Nat) : Word := BitVec.ofNat 32 (rootBits k (p * 2 ^ (32 * k)) 36 0)

/-- The first 64 primes. -/
def shaPrimes : List Nat := (List.range 312).filter fun n => 2 ≤ n && (List.range n).all fun d => d < 2 || n % d != 0

/-- The round constants. -/
def shaRoundConsts : List Word := shaPrimes.map (rootFraction 3)

/-- The eight working variables. -/
structure ShaVars where
  a : Word
  b : Word
  c : Word
  d : Word
  e : Word
  f : Word
  g : Word
  h : Word
  deriving DecidableEq, Repr

/-- The variables from a list of eight words. -/
def ShaVars.ofWords : List Word → ShaVars
  | [a, b, c, d, e, f, g, h] => ⟨a, b, c, d, e, f, g, h⟩
  | _ => ⟨0, 0, 0, 0, 0, 0, 0, 0⟩

/-- The initial hash value. -/
def shaStart : ShaVars := ShaVars.ofWords ((shaPrimes.take 8).map (rootFraction 2))

/-- Three rotations, combined. -/
def turns (i j k : Nat) (x : Word) : Word := x.rotateRight i ^^^ x.rotateRight j ^^^ x.rotateRight k

/-- Two rotations and a shift, combined. -/
def turnsShift (i j k : Nat) (x : Word) : Word := x.rotateRight i ^^^ x.rotateRight j ^^^ BitVec.ushiftRight x k

/-- One round with the sum of its constant and its message word. -/
def ShaVars.round (v : ShaVars) (kw : Word) : ShaVars :=
  let choice := v.g ^^^ (v.e &&& (v.f ^^^ v.g))
  let most := (v.a &&& (v.b ||| v.c)) ||| (v.b &&& v.c)
  let t := kw + v.h + turns 6 11 25 v.e + choice
  { a := t + turns 2 13 22 v.a + most, b := v.a, c := v.b, d := v.c, e := v.d + t, f := v.e, g := v.f, h := v.g }

/-- The variables as a list of eight words. -/
def ShaVars.words (v : ShaVars) : List Word := [v.a, v.b, v.c, v.d, v.e, v.f, v.g, v.h]

/-- The variables added one by one. -/
def ShaVars.plus (v w : ShaVars) : ShaVars := ShaVars.ofWords (List.zipWith (fun x y => x + y) v.words w.words)

/-- A number from big-endian bytes. -/
def ofBytesBe (b : List Byte) : Nat := b.foldl (fun n x => n * 256 + x.toNat) 0

/-- `n` big-endian bytes of a number. -/
def toBytesBe (n v : Nat) : List Byte := (List.range n).map fun i => BitVec.ofNat 8 (v / 256 ^ (n - 1 - i))

/-- The next message word, from those so far, newest first. -/
def nextWord (l : List Word) : Word :=
  l.getD 15 0 + turnsShift 7 18 3 (l.getD 14 0) + l.getD 6 0 + turnsShift 17 19 10 (l.getD 1 0)

/-- The 64 message words of a block. -/
def blockWords (b : List Byte) : List Word :=
  let first := (List.range 16).map fun i => BitVec.ofNat 32 (ofBytesBe ((b.drop (4 * i)).take 4))
  ((List.range 48).foldl (fun l _ => nextWord l :: l) first.reverse).reverse

/-- The hash value after one more block. -/
def ShaVars.block (v : ShaVars) (b : List Byte) : ShaVars :=
  v.plus (((blockWords b).zip shaRoundConsts).foldl (fun v p => v.round (p.1 + p.2)) v)

/-- The bytes to hash: the message, a 1 bit, zeros, and the length in bits. -/
def shaMessage (b : List Byte) : List Byte :=
  b ++ BitVec.ofNat 8 128 :: List.replicate ((119 - b.length % 64) % 64) 0 ++ toBytesBe 8 (8 * b.length)

/-- SHA-256. -/
def sha256 (b : List Byte) : List Byte :=
  let m := shaMessage b
  let v := (List.range (m.length / 64)).foldl (fun v i => ShaVars.block v ((m.drop (64 * i)).take 64)) shaStart
  v.words.flatMap fun w => toBytesBe 4 w.toNat

/-! ### RSASSA-PSS (R405) -/

/-- x^65537 mod n. -/
def publicPower (x n : Nat) : Nat := (List.range 16).foldl (fun y _ => y * y % n) (x % n) * x % n

/-- MGF1 with SHA-256: `n` bytes of mask, at most 512. -/
def maskBytes (seed : List Byte) (n : Nat) : List Byte :=
  ((List.range 16).flatMap fun i => sha256 (seed ++ toBytesBe 4 i)).take n

/-- The signature `sig` under the key `modulus` and the exponent 65,537 is one of the message whose SHA-256 is `hash`: RSASSA-PSS
with SHA-256, MGF1 and a salt of 32 bytes. Key and signature are big-endian, as that standard has them. (Log 37 DEDUCED.) -/
def pssOk (modulus sig hash : List Byte) : Bool :=
  let n := ofBytesBe modulus
  let s := ofBytesBe sig
  let bits := n.log2
  let len := (bits + 7) / 8
  let m := publicPower s n
  let em := toBytesBe len m
  let dbLen := len - 33
  let h := (em.drop dbLen).take 32
  let mask := maskBytes h dbLen
  let db := ofBytesBe (em.take dbLen) ^^^ ofBytesBe mask
  let plain := toBytesBe dbLen (db % 2 ^ (8 * dbLen - (8 * len - bits)))
  0 < n && s < n && m < 2 ^ bits && 66 ≤ len && em.getLastD 0 == 188
    && plain.take (len - 66) == List.replicate (len - 66) 0 && (plain.drop (len - 66)).headD 0 == 1
    && sha256 (List.replicate 8 0 ++ hash ++ plain.drop (dbLen - 32)) == h

end Sys2Proof.Machine
end

