-- ==== Sys2Proof/Machine/Cheori.lean ====
section
/-! DEFINITION. Cheori bodies: their segments, ops and registers, the native words of their ops, and the checks of a load (R288, R296
to R298, R306). -/

namespace Sys2Proof.Machine

/-! ### Registers (R297) -/

/-- A Cheori register number. -/
def cregOk (n : Nat) : Bool := n < 3920 || n == 4094 || n == 4095

/-- x0 to x3839. -/
def isXreg (n : Nat) : Bool := n < 3840

/-- p0 to p15. -/
def isPreg (n : Nat) : Bool := 3904 ≤ n && n < 3920

/-- tid. -/
def cTid : Nat := 4094

/-- zero. -/
def cZero : Nat := 4095

/-- A field of a per-thread function: x, tid or zero. -/
def isThreadField (n : Nat) : Bool := isXreg n || n == cTid || n == cZero

/-! ### The parts of a body (R296, R298) -/

/-- An op with its literal of 64 bits. -/
structure COp where
  op : Nat
  sub : Nat
  d : Nat
  a : Nat
  b : Nat
  lit : Option Nat
  deriving DecidableEq, Repr

/-- A terminator. -/
structure CTerm where
  op : Nat
  a : Nat
  s0 : Nat
  s1 : Nat
  deriving DecidableEq, Repr

/-- A segment. -/
structure CSeg where
  id : Nat
  conv : Bool
  ops : List COp
  term : CTerm
  deriving DecidableEq, Repr

/-- A body: the entry segment's id, the number of x registers, the segments, and the bytes that these take. -/
structure CBody where
  entry : Nat
  nx : Nat
  segs : List CSeg
  size : Nat
  deriving DecidableEq, Repr

/-- `n` ops from 8-byte words, and the words after them; none where bits 11:1 are not 0 or words are missing. -/
def parseOps : Nat → List Nat → Option (List COp × List Nat)
  | 0, l => some ([], l)
  | _ + 1, [] => none
  | n + 1, w :: r =>
    let o : COp := { op := bitsOf w 56 8, sub := bitsOf w 48 8, d := bitsOf w 36 12, a := bitsOf w 24 12, b := bitsOf w 12 12, lit := none }
    if bitsOf w 1 11 ≠ 0 then none
    else if w % 2 = 0 then (parseOps n r).map fun p => (o :: p.1, p.2)
    else
      match r with
      | [] => none
      | l :: r => (parseOps n r).map fun p => ({ o with lit := some l } :: p.1, p.2)

/-- A terminator's word. -/
def parseTerm (w : Nat) : CTerm := { op := bitsOf w 56 8, a := bitsOf w 44 12, s0 := bitsOf w 0 16, s1 := bitsOf w 16 16 }

/-- `n` segments, and the words after them. -/
def parseSegs : Nat → List Nat → Option (List CSeg × List Nat)
  | 0, l => some ([], l)
  | _ + 1, [] => none
  | n + 1, h :: r =>
    match parseOps (bitsOf h 32 16) r with
    | some (ops, t :: r) =>
      (parseSegs n r).map fun p => ({ id := bitsOf h 48 16, conv := h % 2 == 1, ops := ops, term := parseTerm t } :: p.1, p.2)
    | _ => none

/-- The body that bytes hold; none where they are too short for it. -/
def parseBody (bs : List Byte) : Option CBody :=
  match wordsOf 8 (bs.length / 8) bs with
  | [] => none
  | h :: r =>
    let n := h % 2 ^ 32
    if r.length < n then none
    else (parseSegs n r).map fun p =>
      { entry := bitsOf h 48 16, nx := bitsOf h 32 16, segs := p.1, size := 8 * (1 + (r.length - p.2.length)) }

/-! ### Native words (R298, R306) -/

/-- A native word with its literal. -/
abbrev NWord := Nat × Option Word

/-- The word of an encoding. -/
def nword : Words → NWord
  | .half w => (w, none)
  | .word w l => (w, l)

/-- The instruction of a native word. -/
def nativeInstr (w : NWord) : Option Instr :=
  match decodeParts w.1 (w.2.getD 0) with
  | .ok i => some i
  | .error _ => none

/-- Where registers stand: the per-thread code of an x register, and the c register of a p register. -/
structure Homes where
  x : Nat → Option Nat
  p : Nat → Option Nat

/-- The per-thread code of a field. -/
def Homes.field (h : Homes) (n : Nat) : Option Nat :=
  if n = cTid then some 107 else if n = cZero then some 106 else if isXreg n then h.x n else none

/-- The c register of a field. -/
def Homes.cap (h : Homes) (n : Nat) : Option Nat := if isPreg n then h.p (n - 3904) else none

/-- The literal as the native form takes it. -/
def COp.lit32 (o : COp) : Option Word := o.lit.map (BitVec.ofNat 32)

/-- An A3 word: a function that reads no B has its field 0, and one whose B is a literal too. -/
def a3Word (maj f d a : Nat) (b : Option Nat) (lit : Option Word) : Option NWord :=
  let one := fun (b : Nat) => nword (encA3 maj f d a b lit)
  match lit, b with
  | some _, _ => some (one 0)
  | none, some b => if (nativeInstr (one b)).isSome then some (one b) else some (one 0)
  | none, none => some (one 0)

/-- The op stands for a native word of a memory major through p or k; `img` is added to a displacement through k1 (R305, R306). -/
def memWord (h : Homes) (img : Nat) (o : COp) : Option NWord :=
  let viaK := bitsOf o.sub 4 1 == 1
  let c := if viaK then some (8 + bitsOf o.sub 0 3) else h.p (bitsOf o.sub 0 4)
  let k1 := viaK && bitsOf o.sub 0 3 == 1
  let atomic := 0x27 ≤ o.op && o.op ≤ 0x2A
  let lit := if !k1 then o.lit32
    else if atomic then o.lit32.map (· + BitVec.ofNat 32 (img * 256))
    else some ((o.lit32.getD 0) + BitVec.ofNat 32 img)
  let d := if o.op = 0x25 || o.op = 0x26 then h.cap o.d else if o.op = 0x2E then some o.d else h.field o.d
  match c, h.field o.a, d with
  | some c, some a, some d => some (nword (encM o.op 0 (bitsOf o.sub 5 2) c a d lit))
  | _, _, _ => none

/-- A scratchpad access: C is 0. -/
def localWord (h : Homes) (o : COp) : Option NWord :=
  match h.field o.a, h.field o.d with
  | some a, some d => if bitsOf o.sub 0 5 = 0 then some (nword (encM o.op 0 (bitsOf o.sub 5 2) 0 a d o.lit32)) else none
  | _, _ => none

/-- ATOMS: on the group's own scratchpad where SUB names no capability but p0, else through a capability whose code is not 0.
(Log 38 DESIGN CHOICE.) -/
def atomsWord (h : Homes) (img : Nat) (o : COp) : Option NWord :=
  if bitsOf o.sub 0 5 = 0 then localWord h o
  else if bitsOf o.sub 4 1 = 0 && h.p (bitsOf o.sub 0 4) == some 0 then none
  else memWord h img o

/-- A comparison into an x register: the mask m1 is the translator's own, and the threads whose condition holds pass over the word that
writes 0 (R119, R138, R164). (Log 38 DESIGN CHOICE.) -/
def cmpWords (h : Homes) (o : COp) : Option (List NWord) :=
  match h.field o.d, h.field o.a with
  | some d, some a =>
    (a3Word o.op (o.sub % 8) 65 a (h.field o.b) o.lit32).map fun c =>
      [c, nword (encA3 4 7 d 106 0 (some 1)), nword (encJ 0x18 65 (.lit 16)), nword (encA3 3 0 d 106 0 (some 0))]
  | _, _ => none

/-- The field of a WARP op in formats U and E: an s register for u, a c register for p, z, or 0 where the form takes none; in format T a
tile, an accumulator, or a c register. (Log 38 DESIGN CHOICE.) -/
def Homes.warpField (h : Homes) (tile : Bool) (n : Nat) : Option Nat :=
  if tile then (if n < 16 then some n else if isPreg n then h.p (n - 3904) else none)
  else if 3840 ≤ n && n < 3904 then some (n - 3840)
  else if isPreg n then (h.p (n - 3904)).map (96 + ·)
  else if n = cZero then some 88
  else if n = 0 then some 0
  else none

/-- The major of the native word that a WARP op's literal holds. -/
def COp.warpMajor (o : COp) : Nat := bitsOf (o.lit.getD 0) 2 6

/-- The native word of a WARP op: the one in its literal, with D, A and B in its register fields. -/
def warpWord (h : Homes) (o : COp) : Option NWord :=
  let w := o.lit.getD 0 % 2 ^ 32
  let lit := if w / 2 % 2 = 1 then some (BitVec.ofNat 32 (o.lit.getD 0 / 2 ^ 32)) else none
  let maj := o.warpMajor
  let tile := 0x35 ≤ maj && maj ≤ 0x3B
  match h.warpField tile o.d, h.warpField tile o.a, h.warpField tile o.b with
  | some d, some a, some b =>
    if tile then some (w + b * 2 ^ 16 + a * 2 ^ 12 + d * 2 ^ 8, lit)
    else if maj = 0x34 then some (w + b * 2 ^ 22 + a * 2 ^ 15 + d * 2 ^ 8, lit)
    else if maj = 0x3E || maj = 0x3F then some (w + a * 2 ^ 15 + d * 2 ^ 8, lit.map (· + BitVec.ofNat 32 (if isPreg o.b then b - 96 else 0)))
    else some (w + a * 2 ^ 15 + d * 2 ^ 8, lit)
  | _, _, _ => none

/-- A WARP op's literal holds a native word of majors 0x34 to 0x3F whose register fields are 0 (R298). -/
def warpOk (o : COp) : Bool :=
  let w := o.lit.getD 0 % 2 ^ 32
  let maj := o.warpMajor
  o.lit.isSome && w % 2 == 1 && 0x34 ≤ maj && maj ≤ 0x3F
    && (if 0x35 ≤ maj && maj ≤ 0x3B then bitsOf w 8 12 == 0 else if maj = 0x34 then bitsOf w 8 21 == 0 else bitsOf w 8 14 == 0)

/-- A native load or store of the translator's own: major, size code, capability, data register and displacement. -/
def ownMem (maj sz c d disp : Nat) : NWord :=
  nword (encM maj 0 sz c 106 d (if disp = 0 then none else some (BitVec.ofNat 32 disp)))

/-- MOV D, A or the literal: `zero` is the immediate 0. -/
def movWord (h : Homes) (o : COp) : Option NWord :=
  match h.field o.d with
  | none => none
  | some d =>
    match o.lit32 with
    | some l => some (nword (encA3 4 7 d 106 0 (some l)))
    | none =>
      if o.a = cZero then some (nword (encA3 4 7 d 106 0 (some 0)))
      else (h.field o.a).map fun a => nword (encA3 4 7 d 106 a none)

/-- CAP on c registers. -/
def capWord (h : Homes) (o : COp) : Option NWord :=
  let f := o.sub % 8
  let d := if f = 4 || f = 5 || f = 7 then h.field o.d else h.cap o.d
  match d, h.cap o.a with
  | some d, some a => a3Word 7 f d a (h.field o.b) o.lit32
  | _, _ => none

/-- HDOT4ACC: two DOT2 in order. -/
def hdotWords (h : Homes) (o : COp) : Option (List NWord) :=
  match h.field o.d, h.field o.a, h.field o.b, h.field (o.a + 1), h.field (o.b + 1) with
  | some d, some a, some b, some a', some b' => some [nword (encA3 0x13 6 d a b none), nword (encA3 0x13 6 d a' b' none)]
  | _, _, _, _, _ => none

/-- The native words of an op (R298, R306). (Log 38 DESIGN CHOICE.) -/
def nativeWords (h : Homes) (img : Nat) (o : COp) : Option (List NWord) :=
  let one := fun (w : Option NWord) => w.map fun w => [w]
  let thread := fun (b : Option Nat) =>
    match h.field o.d, h.field o.a with
    | some d, some a => one (a3Word o.op (o.sub % 8) d a b o.lit32)
    | _, _ => none
  if (1 ≤ o.op && o.op ≤ 5) || o.op = 0x10 || (0x12 ≤ o.op && o.op ≤ 0x15) then thread (h.field o.b)
  else if o.op = 6 || o.op = 0x11 then cmpWords h o
  else if o.op = 7 then one (capWord h o)
  else if o.op = 0x16 then thread (if o.sub % 8 < 2 then h.field o.b else some o.b)
  else if (0x20 ≤ o.op && o.op ≤ 0x29) || o.op = 0x2E then one (memWord h img o)
  else if o.op = 0x2A then one (atomsWord h img o)
  else if o.op = 0x2B then one (some (nword (encS 0x2B 0 0 (o.sub % 128) none)))
  else if o.op = 0x2C || o.op = 0x2D then one (localWord h o)
  else if o.op = 0x40 then one (movWord h o)
  else if o.op = 0x41 then one ((h.field o.d).map fun d => ownMem 0x20 2 8 d (o.lit.getD 0))
  else if o.op = 0x42 then one ((h.cap o.d).map fun d => ownMem 0x25 0 8 d (o.lit.getD 0))
  else if o.op = 0x43 then hdotWords h o
  else if o.op = 0x44 then one (warpWord h o)
  else if o.op = 0x45 then one (some (nword (encA3 0x1E (o.sub % 4) 0 0 0 none)))
  else if o.op = 0x46 then one (some (nword (encS 0x1D 4 0 0x20 (some (BitVec.ofNat 32 (o.sub % 16))))))
  else none

/-! ### What ops read and write -/

/-- The op's destination is read too: stores, atomics, and the functions that compute on D. -/
def readsDest (o : COp) : Bool :=
  let f := o.sub % 8
  [0x23, 0x24, 0x26, 0x28, 0x29, 0x2A, 0x2D, 0x43].contains o.op || (o.op == 4 && f == 5) || (o.op == 5 && f ≤ 2)
    || (o.op == 0x10 && f == 3) || ((o.op == 0x13 || o.op == 0x14) && (f == 3 || f == 6))

/-- The op writes its D field. -/
def writesDest (o : COp) : Bool := !([0x23, 0x24, 0x26, 0x28, 0x2B, 0x2D, 0x2E, 0x45, 0x46].contains o.op)

/-- The op has a field A. -/
def hasA (o : COp) : Bool := !([0x2B, 0x41, 0x42, 0x45, 0x46].contains o.op) && !(o.op == 0x40 && o.lit.isSome)

/-- The op reads its field B. -/
def hasB (o : COp) : Bool :=
  o.lit.isNone && ((1 ≤ o.op && o.op ≤ 7) || (0x10 ≤ o.op && o.op ≤ 0x15) || (o.op == 0x16 && o.sub % 8 < 2) || o.op == 0x43)

/-! ### The checks of a load (R288, R296 to R298) -/

/-- An op's code is known, and stands in a CONV segment where it must. -/
def opCodeOk (conv : Bool) (op : Nat) : Bool :=
  (1 ≤ op && op ≤ 7) || (0x10 ≤ op && op ≤ 0x15) || (0x20 ≤ op && op ≤ 0x2E) || (0x40 ≤ op && op ≤ 0x43)
    || (conv && (op == 0x16 || (0x44 ≤ op && op ≤ 0x46)))

/-- The fields name registers of the kind that the op takes. -/
def opKindOk (o : COp) : Bool :=
  let f := o.sub % 8
  if (1 ≤ o.op && o.op ≤ 6) || (0x10 ≤ o.op && o.op ≤ 0x15) || o.op = 0x43 then isThreadField o.d && isThreadField o.a && isThreadField o.b
  else if o.op = 7 then isPreg o.a && isThreadField o.b && (if f = 4 || f = 5 || f = 7 then isThreadField o.d else isPreg o.d)
  else if o.op = 0x16 then isThreadField o.d && isThreadField o.a && (2 ≤ f || isThreadField o.b)
  else if o.op = 0x25 || o.op = 0x26 then isPreg o.d && isThreadField o.a
  else if o.op = 0x2E then isThreadField o.a
  else if 0x20 ≤ o.op && o.op ≤ 0x2D && o.op ≠ 0x2B then isThreadField o.d && isThreadField o.a
  else if o.op = 0x40 then isThreadField o.d && (o.lit.isSome || isThreadField o.a)
  else if o.op = 0x41 then isThreadField o.d
  else if o.op = 0x42 then isPreg o.d
  else o.op != 0x44 || warpOk o

/-- Registers of the check's own, one to each field, for an op of any registers. -/
def probeHomes : Homes := { x := fun n => some (n % 4 * 8), p := fun n => some (n % 5 + 1) }

/-- The op with its registers replaced by fields of the probe. -/
def COp.probe (o : COp) : COp :=
  let f := fun (n k : Nat) => if isXreg n then k else n
  if o.op = 0x44 then o
  else { o with d := if o.op = 0x2E then o.d else f o.d 1, a := f o.a 2, b := if o.op = 0x16 && 2 ≤ o.sub % 8 then o.b else f o.b 3 }

/-- The op has its native form: a SUB, or a code in B, that the native major has not is no op. (Log 66 DEDUCED.) -/
def opSubOk (o : COp) : Bool :=
  match nativeWords probeHomes 0 o.probe with
  | some ws => ws.all fun w => (nativeInstr w).isSome
  | none => false

/-- The x registers that an op names lie below the body's count. -/
def opCountOk (nx : Nat) (o : COp) : Bool :=
  let one := fun n => !isXreg n || n < nx
  (!(readsDest o || writesDest o) || one o.d) && (!hasA o || one o.a) && (!hasB o || one o.b)

/-- An op obeys R297 and R298. -/
def opOk (nx : Nat) (conv : Bool) (o : COp) : Bool :=
  opCodeOk conv o.op && cregOk o.d && cregOk o.a && (cregOk o.b || (o.op == 0x16 && 2 ≤ o.sub % 8)) && opKindOk o
    && opSubOk o && (o.op == 0x44 || opCountOk nx o)

/-- A successor: a segment of the body, or the thread's end. -/
def succOk (ids : List Nat) (n : Nat) : Bool := n == 0xFFFF || ids.contains n

/-- A terminator obeys R298: its A is an x register below the body's count, tid or zero. -/
def termOk (nx : Nat) (ids : List Nat) (t : CTerm) : Bool :=
  let a := isThreadField t.a && (!isXreg t.a || t.a < nx)
  match t.op with
  | 0xF0 => succOk ids t.s0
  | 0xF1 => a && succOk ids t.s0 && succOk ids t.s1
  | 0xF2 => a && succOk ids t.s0
  | 0xF3 => true
  | _ => false

/-- A segment obeys R296 to R298. -/
def segOk (nx : Nat) (ids : List Nat) (g : CSeg) : Bool :=
  g.id != 0xFFFE && g.id != 0xFFFF && g.ops.all (opOk nx g.conv) && termOk nx ids g.term

/-- The body obeys R296 to R298. (Log 66 DEDUCED.) -/
def cheoriOk (bs : List Byte) : Bool :=
  match parseBody bs with
  | none => false
  | some b =>
    let ids := b.segs.map (·.id)
    ids.contains b.entry && b.segs.all (segOk b.nx ids)

end Sys2Proof.Machine
end

