-- ==== Sys2Proof/Machine/Waking.lean ====
section
/-! DEFINITION. What comes to a waiting warp from outside its own issue: arriving data, finished tile operations, wake
conditions, deadlines, refills, answers to faults and lazy pages (R78, R156, R185, R189, R216, R286, R303, R335, R356). -/

namespace Sys2Proof.Machine

/-! ### Arrivals (R97, R189, R216) -/

/-- The data of instruction `id` has come; a result whose window is over is written. -/
def arrive (w : Warp) (id : Nat) : Warp :=
  landWhere { w with pends := w.pends.map fun p => if p.id == id && !p.faulted then { p with arrived := true } else p }
    fun p => p.id == id && p.left == 0

/-- LOAD_DATA_ARRIVAL: the data of instruction `id` of unit `unit` arrives. A return of an old generation is dropped (R251). -/
def execLoadDataArrival (s : State) : Host.Outcome State Fault Refusal :=
  let u := s.ev.unit
  let id := s.ev.id
  .next (tryVector (modUnit s u fun w => if w.stat = .resident then arrive w id else w) u)

/-- TILE_OP_COMPLETE: tile operation `id` of unit `unit` completes, its result is written. -/
def execTileOpComplete (s : State) : Host.Outcome State Fault Refusal :=
  let id := s.ev.id
  .next (modUnit s s.ev.unit fun w => landTops w fun o => o.id == id)

/-- RAS_REFILL_DONE: the refill of thread `row` of unit `unit` writes the entry back (R75, R286). One that would trap is left
to the instruction that waits for it. -/
def execRasRefillDone (s : State) : Host.Outcome State Fault Refusal :=
  let w := unitOf s s.ev.unit
  let r := getRas w s.ev.row
  if w.stat = .resident && isLive w s.ev.row && r.chip.isEmpty && 0 < r.spilled then
    match rasRefill s s.ev.unit s.ev.row with
    | (s, .ok _) => .next s
    | (s, .error (.fault f)) => .next (pageStop s s.ev.unit [(s.ev.row, f)] false)
    | (s, .error (.ctx c)) => .next (ctxFault s w.asid c 0)
    | (s, .error (.trap _)) => .next s
  else .next s

/-! ### Wake conditions (R334, R335) -/

/-- WAKE_CONDITION_MET: a wait of unit `unit` is over. -/
def execWakeConditionMet (s : State) : Host.Outcome State Fault Refusal :=
  let w := unitOf s s.ev.unit
  if mayWake w && ctxRuns s w.asid then
    match wokenWait s s.ev.unit with
    | some x => .next (wake s s.ev.unit x)
    | none => .next s
  else .next s

/-- SLEEP_DEADLINE: TIME reaches the deadline of unit `unit` (R156). -/
def execSleepDeadline (s : State) : Host.Outcome State Fault Refusal :=
  let w := unitOf s s.ev.unit
  match w.waits.find? fun x => x.kind == 10 with
  | some x =>
    if mayWake w then
      .next (modUnit (reachTime s x.value) s.ev.unit fun w => goOn w x (x.pc + x.len))
    else .next s
  | none => .next s

/-! ### The warp timer (R78) -/

/-- The timer's condition stands and is not held. (Log 50 DEDUCED.) -/
def timerDue (s : State) (w : Warp) : Bool :=
  w.off.isNone && w.wtcmp != 0 && w.wtcmp ≤ w.wtime && !w.tm && readyUnit s w

/-- WARP_TIMER: the threads of unit `unit` that would issue next trap. -/
def execWarpTimer (s : State) : Host.Outcome State Fault Refusal :=
  let u := s.ev.unit
  let w := unitOf s u
  if timerDue s w then
    let act := activeThreads w
    .next (takeTrap (modUnit s u fun w => { w with wtcmp := 0 }) u (lowPc w act) act cWarpTimer (maskOf act) 0 false)
  else .next s

/-! ### Trap causes that threads carry (R159, R303, R356) -/

/-- The ready threads of a unit whose PC group would issue next and that carry a cause. (Log 62 DEDUCED.) -/
def carriers (w : Warp) : List Nat := (activeThreads w).filter fun t => sget 0 w.carried t != 0

/-- The threads that carry a cause trap with it at their PC: the cause is that of the lowest one, and threads with another
keep theirs (R159). (Log 62 DEDUCED.) -/
def takeCarried (s : State) (u : Nat) : State :=
  let w := unitOf s u
  let v := sget 0 w.carried (lowest (carriers w))
  let cs := (carriers w).filter fun t => sget 0 w.carried t % 256 == v % 256
  let act := activeThreads w
  takeTrap (modUnit s u fun w => { w with carried := cs.foldl (fun l t => sset 0 l t 0) w.carried }) u (lowPc w act) act
    (v % 256) (maskOf cs) (bitsOf v 8 32) (v.testBit 40)

/-- Give threads of a unit a cause to trap with when they next issue. (Log 62 DEDUCED.) -/
def carry (ts : List Nat) (v : Nat) (w : Warp) : Warp := { w with carried := ts.foldl (fun l t => sset 0 l t v) w.carried }

/-! ### Pages bound lazily (R303) -/

/-- Where a thread stands outside routines: its PC, or where the warp has been saved the PC of its thread record. -/
def standsAt (s : State) (w : Warp) (t : Nat) : Nat :=
  if w.off.isSome || (w.routine.isNone && w.stat == .resident) then getPc w t
  else
    match frameRead s w 0 0x4000 with
    | (_, some b) => fieldAt (recordOf b t) 0 8 % 2 ^ 57
    | (_, none) => getPc w t

/-- The instruction at `pc`, up to 12 bytes with an RTAG, touches page `p`. -/
def touches (pc p : Nat) : Bool := pc / 65536 ≤ p && p ≤ (pc + 11) / 65536

/-- The threads of a unit blocked on a page: by their marks while the warp is on its slot outside routines, else those that
stand at the page, where the warp waits for it. -/
def blockedOn (s : State) (w : Warp) (p : Nat) : List Nat :=
  if w.routine.isNone && w.stat == .resident then
    (heldThreads w).filter fun t => getMark w t == .blocked true && touches (getPc w t) p
  else if w.tokens.any fun k => k.2 == p then (heldThreads w).filter fun t => touches (standsAt s w t) p
  else []

/-- A unit's threads blocked on page `p` become ready; where the page does not come they carry a cause. -/
def unblock (p : Nat) (fail : Option Nat) (s : State) (u : Nat) : State :=
  let w := unitOf s u
  let ts := blockedOn s w p
  modUnit s u fun w =>
    let w := if w.routine.isNone && w.stat == .resident then setMarks w ts .ready else w
    let w := { w with tokens := w.tokens.filter fun k => k.2 != p }
    match fail with
    | some c => carry ts (carryOf c 0 false) w
    | none => w

/-- The threads of a context blocked on page `p` go on, or trap with a cause; its tokens are answered. (Log 63 DEDUCED.) -/
def pageBound (s : State) (asid p : Nat) (fail : Option Nat) : State :=
  let s := { s with tokens := s.tokens.filter fun k => !(k.asid == asid && k.page == some p) }
  ((ctxUnits s asid).map (·.1)).foldl (unblock p fail) s

/-- The translation that a leaf gives for unified page `p` of a tenant. -/
def leafTr (asid p e : Nat) : Tr :=
  { ua := p * 65536, tier := bitsOf e 6 2, frame := bitsOf e 24 28, keyid := bitsOf e 12 12, heat := e.testBit 8
    comp := e.testBit 3, oa := bitsOf e 4 2, tenant := asid, hv := false }

/-- The loader writes a page through its leaf, as requests of port 48, and sets X; the flag says that it could. A write under
another KEYID than the frame's is a context fault (R347). (Log 63 DEDUCED.) -/
def bindPage (s : State) (asid p : Nat) (bs : List Byte) : State × Bool :=
  match leafAddr s 4 (sget 0 s.xlatPt asid).toNat (p * 65536) with
  | .error _ => (s, false)
  | .ok a =>
    let e := hbm64 s a
    let bs := bs.take 65536
    match writeReq s (reqEngine asid) ((pieces 0 bs.length).map fun q => ⟨leafTr asid p e, q.1, q.2⟩) (bs.map fun b => (b, false)) with
    | (s, .ok _) => (putBytes s a (toBytes 8 (e - bitsOf e 2 1 * 4 + 4)) false, true)
    | (s, .error .key) => (ctxFault s asid 1 0, false)
    | (s, .error (.page ..)) => (s, false)

/-- LAZY_PAGE_BOUND: the loader has written the code page `value` of context `asid`, whose bytes are `bytes`, or its
translation has failed (`flag` false): then its blocked threads trap with ILLEGAL_OP (R303). -/
def execLazyPageBound (s : State) : Host.Outcome State Fault Refusal :=
  let a := s.ev.asid
  if s.ev.flag then
    let (s', done) := bindPage s a s.ev.value s.ev.bytes
    .next (if done then pageBound s' a s.ev.value none else s')
  else .next (pageBound s a s.ev.value (some cIllegalOp))

/-! ### Answers to faults (R356) -/

/-- What comes of an answer: a thread of an offset core makes its refill again; vectoring that has waited for a refill goes on, of
the unit's warp where it is an ejected thread (R286). (Log 25 DEDUCED.) -/
def afterAnswer (s : State) (u : Nat) : State :=
  let w := unitOf s u
  if !w.tokens.isEmpty then s
  else
    match w.off with
    | none => tryVector s u
    | some o =>
      let s := refillNow u [o.thread] s
      match o.parent with
      | some p => tryVector s p
      | none => s

/-- A warp's fault is answered. A denied one of an entry routine is a trap of that routine (R260). (Log 61 DEDUCED.) -/
def answerWarp (s : State) (k : Token) (u m : Nat) (deny : Bool) : State :=
  let w := unitOf s u
  if !w.tokens.any (fun q => q.1 == k.num) then s
  else
    let s := modUnit s u fun w => { w with tokens := w.tokens.filter fun q => q.1 != k.num }
    if !deny then afterAnswer s u
    else if k.entry then ctxFault s w.asid 2 0
    else
      match w.off with
      | none =>
        afterAnswer (modUnit s u fun w =>
          { carry (threadsOf m) (carryOf cCapBounds 0 k.replay) w with denied := w.denied ++ [k.num] }) u
      | some o =>
        let s := takeTrap s u (getPc w o.thread) [o.thread] cCapBounds (2 ^ o.thread) 0 k.replay
        match o.parent with
        | some p => tryVector s p
        | none => s

/-- The answer to a translation fault's token: a retry lets the blocked threads fetch again, a denial traps them with CAP_BOUNDS
(R356), and in an entry routine it is a trap of that routine (R260). (Log 61 DEDUCED.) -/
def answerStub (s : State) (k : Token) (p : Nat) (deny : Bool) : State :=
  let s := pageBound s k.asid p (if deny then some cCapBounds else none)
  if deny && k.entry then ctxFault s k.asid 2 0 else s

/-- A copy's fault is answered: the suspended bytes are moved again, or those of the denied page are given up.
(Log 61 DEDUCED.) -/
def answerCopy (s : State) (k : Token) (u id : Nat) (deny : Bool) : State :=
  modCopy s u id fun c =>
    match c.token with
    | none => c
    | some (n, key) =>
      if n = k.num then { c with token := none, denied := if deny then c.denied ++ [key] else c.denied } else c

/-- An engine entry's fault is answered: the access is made again, or the entry completes with POINTER. (Log 61 DEDUCED.) -/
def answerEntry (s : State) (k : Token) (ch q : Nat) (deny : Bool) : State :=
  modEntry s ch q fun e => if e.token = some k.num then { e with token := none, denied := e.denied || deny } else e

/-- A token is answered. (Log 61 DEDUCED.) -/
def answerToken (s : State) (k : Token) (deny : Bool) : State :=
  let s := { s with tokens := s.tokens.filter fun t => t.num != k.num }
  match k.page with
  | some p => answerStub s k p deny
  | none =>
    match k.fault with
    | .unit u m => answerWarp s k u m deny
    | .copy u id => answerCopy s k u id deny
    | .entry ch q => answerEntry s k ch q deny

/-- The answer `value` as FQ_ANSWER holds it, from virtual device `vd`: an unknown token is ignored and counted. -/
def answerFault (s : State) (vd value : Nat) : State :=
  match s.tokens.find? fun t => t.num == value % 2 ^ 32 && (ctxOf s t.asid).vd == vd with
  | some k => answerToken s k (value.testBit 32)
  | none => { s with answersIgnored := s.answersIgnored + 1 }

/-- FQ_ANSWER: virtual device `vd` writes `value`. -/
def execFqAnswer (s : State) : Host.Outcome State Fault Refusal := .next (answerFault s s.ev.vd s.ev.value)

/-! ### Encodings that are no instruction (R94, R95) -/

/-- The unit's bound, timer or trap that comes before its next instruction: an exit routine's budget (R252), a held
pre-emption's bound (R254), the warp timer (R78). (Log 55 DEDUCED, log 103 DESIGN CHOICE.) -/
def beforeIssue (s : State) (w : Warp) : Option Instr :=
  let c := ctxOf s w.asid
  if inExit w && c.exitBudget ≤ routineClk w then some .exitBudgetOverrun
  else if w.heldPre.isSome && w.tm && w.routine.isNone && !w.resumeGuard && c.tmaskBound ≤ w.tmaskClk then some .tmaskBoundExpiry
  else if timerDue s w then some .warpTimer
  else none

/-- The unit is in turn to fetch: it may issue, no unit that shares its issue slots comes before it, and nothing comes before its
instruction (R281, R283, R285). -/
def mayFetch (s : State) (u : Nat) : Bool :=
  let w := unitOf s u
  canIssue s w && turnUnit s u == u && (beforeIssue s w).isNone && (carriers w).isEmpty

/-- ILLEGAL_ENCODING: the bytes that unit `unit`, which is in turn, fetches next are no instruction; its active threads trap.
(Log 84 DEDUCED.) -/
def execIllegalEncoding (s : State) : Host.Outcome State Fault Refusal :=
  let u := s.ev.unit
  let w := unitOf s u
  if mayFetch s u then
    match fetchInsn s w (lowPc w (activeThreads w)) with
    | (s, .error _) => .next s
    | (s, .ok bs) =>
      match decode bs with
      | .ok _ => .next s
      | .error r => issue bs.length true (fun cx s => trapAll cx s (rejectCause r)) { s with turn := u }
  else .next s

end Sys2Proof.Machine
end

