-- ==== Sys2Proof/Machine/Migration.lean ====
section
/-! DEFINITION. Moving a live context: migration stops, monuments, portable frames, and the rebuild on the target (R172, R294,
R299 to R301). -/

namespace Sys2Proof.Machine

/-! ### Monument tables (R294) -/

/-- A monument record. -/
structure Monument where
  off : Nat
  id : Nat
  segment : Nat
  op : Nat
  count : Nat
  map : Nat
  deriving DecidableEq, Repr

/-- A map entry: Cheori register, KIND and LOC. -/
structure MapEntry where
  creg : Nat
  kind : Nat
  loc : Nat
  deriving DecidableEq, Repr

/-- A monument record's 16 bytes. -/
def parseMonument (b : List Byte) : Monument :=
  { off := fieldAt b 0 4, id := fieldAt b 4 2, segment := fieldAt b 6 2, op := fieldAt b 8 2, count := fieldAt b 10 2
    map := fieldAt b 12 4 }

/-- A map entry's 4 bytes. -/
def parseMap (v : Nat) : MapEntry := { creg := bitsOf v 20 12, kind := bitsOf v 16 4, loc := bitsOf v 0 16 }

/-- The monument table of a unit's kernel. -/
def monumentsOf (s : State) (w : Warp) : List Monument :=
  let l := launchOfUnit s w
  (List.range l.nmon).filterMap fun i => (codeBytes s w (l.montab + 16 * i) 16).map parseMonument

/-- The map of a monument. -/
def mapOf (s : State) (w : Warp) (m : Monument) : List MapEntry :=
  (wordsOf 4 m.count ((codeBytes s w m.map (4 * m.count)).getD [])).map parseMap

/-- The return-site list: native offset and Cheori successor. It stands between the last map and the Cheori body (R299,
R305). (Log 64 DEDUCED.) -/
def returnSites (s : State) (w : Warp) : List (Nat × Nat) :=
  let l := launchOfUnit s w
  let stop := (monumentsOf s w).foldl (fun n m => max n (m.map + 4 * m.count)) (l.montab + 16 * l.nmon)
  let first := (stop + 7) / 8 * 8
  let n := (l.cheori - first) / 8
  (wordsOf 8 n ((codeBytes s w first (8 * n)).getD [])).map fun v => (v % 2 ^ 32, bitsOf v 32 16)

/-! ### Stops (R300, R301) -/

/-- MIGRATION_STOP: the driver asks context `asid` to stop within `value` µs of TIME. -/
def execMigrationStop (s : State) : Host.Outcome State Fault Refusal :=
  .next (modCtx s s.ev.asid fun c => { c with migration := some (s.time + s.ev.value * 1000), migFailed := false })

/-- A warp of the context has not stopped. -/
def anyUnstopped (s : State) (asid : Nat) : Bool :=
  s.units.any fun p => p.2.asid == asid && p.2.off.isNone && p.2.stat != .ended && !moved s p.1

/-- MIGRATION_TIMEOUT: the limit of context `asid` has passed. Where a warp has not stopped, the migration fails and the
stopped warps may resume from their own frames. (Log 64 DEDUCED.) -/
def execMigrationTimeout (s : State) : Host.Outcome State Fault Refusal :=
  let a := s.ev.asid
  match (ctxOf s a).migration with
  | none => .next s
  | some d =>
    if anyUnstopped s a then
      .next (modCtx { reachTime s d with portables := s.portables.filter fun p => p.asid != a } a fun c =>
        { c with migration := none, migFailed := true })
    else .next s

/-! ### The portable frame (R300) -/

/-- A per-thread or uniform value of a map entry for thread `t`: none where the entry names none, or its c6 word is not
there. -/
def mapValue (s : State) (w : Warp) (e : MapEntry) (t : Nat) : Option DWord :=
  match e.kind with
  | 0 => some (BitVec.zeroExtend 64 (getX w t (pregOf e.loc)))
  | 1 => some (getS w e.loc)
  | 4 =>
    let c := getC w t 6
    (peek s w.asid c.object (c.low + 8 * e.loc) (if e.creg < 3840 then 4 else 8)).map fun b => BitVec.ofNat 64 (ofBytes b)
  | _ => none

/-- A capability of a map entry: a c register, or the slot of c6 memory of a p register (R304). -/
def mapCap (s : State) (w : Warp) (e : MapEntry) (t : Nat) : Option Cap :=
  if e.kind = 2 then some (getC w t e.loc)
  else if e.kind = 4 && 3904 ≤ e.creg && e.creg < 3920 then
    let c := getC w t 6
    match (objReadCap s (reqOf w) c.object (c.low + 8 * e.loc)).2 with
    | .ok (v, _) => some v
    | .error _ => none
  else none

/-- The whole return stack of a thread, oldest first: the spilled entries, then those on chip. -/
def fullStack (s : State) (w : Warp) (t : Nat) : List Nat :=
  let r := getRas w t
  let c := getC w t 6
  let spilled := (List.range r.spilled).map fun i =>
    match peek s w.asid c.object (spillAddr c (i + 1)).toNat 8 with
    | some b => ofBytes b
    | none => 0
  spilled ++ r.chip.map (·.toNat)

/-- A return stack as Cheori successors; none where an address is no return site. -/
def stackSuccs (sites : List (Nat × Nat)) (base : Nat) (l : List Nat) : Option (List Nat) :=
  l.mapM fun a => (sites.find? fun p => base + p.1 == a % 2 ^ 57).map (·.2)

/-- The barriers of a warp with their state. -/
def barState (s : State) (u : Nat) : List (Nat × Nat × Nat × Bool) :=
  (List.range 4).map fun lv =>
    let b := barOf s (unitOf s u) lv
    (lv, b.gen, b.count, b.arrived.contains u)

/-- Collect the listed values of threads by Cheori register. -/
def gather {α : Type} (es : List MapEntry) (ts : List Nat) (f : MapEntry → Nat → Option α) : Store α :=
  es.foldl (fun l e => ts.foldl (fun l t =>
    match f e t with
    | some v => sput l (xkey e.creg t) v
    | none => l) l) []

/-- The portable frame of a unit at monument `n`; none where a return address is no return site. (Log 64 DEDUCED.) -/
def portableOf (s : State) (u n : Nat) (m : Monument) : Option Portable :=
  let w := unitOf s u
  let ts := liveThreads w
  let sites := returnSites s w
  let es := mapOf s w m
  match (ts.mapM fun t => (stackSuccs sites (codeBase s w) (fullStack s w t)).map fun l => (t, l)) with
  | none => none
  | some rets =>
    some { unit := u, asid := w.asid, group := (groupOf s w.grp).idx, idx := w.idx, monument := n, segment := m.segment
           op := m.op, rmode := w.rmode, sealCtr := w.sealCtr, live := w.live, vals := gather es ts (mapValue s w)
           caps := gather es ts (mapCap s w), retStacks := rets.foldl (fun l p => sput l p.1 p.2) []
           bars := barState s u }

/-- The warp leaves its slot with a direct raw save of its own frame, and its portable frame is written. (Log 64 DEDUCED.) -/
def stopAtMonument (s : State) (u n : Nat) (m : Monument) : State :=
  match portableOf s u n m with
  | none => s
  | some p =>
    let w := unitOf s u
    let s := frameWrite s w 0 (headAndThreads w 0 0 0 [])
    let s := modUnit s u dropElastic
    let rid := regionId s w (lowPc w (liveThreads w))
    let s := saveEnd s u { region := rid, reason := 1, npkt := 0, blocked := false, eject := false, direct := true, raw := true
                           rfault := false, ovrn := false, cause := 0, high := 0 }
    { s with portables := p :: s.portables }

/-- MONUMENT has an effect: a stop is pending, no thread is ejected, every live thread is active, and the warp is neither in
a handler nor in a routine (R172, R301). (Log 64 DEDUCED.) -/
def monumentStops (s : State) (w : Warp) (act : List Nat) : Bool :=
  (ctxOf s w.asid).migration.isSome && w.off.isNone && w.routine.isNone && !w.inh && !anyEjected w
    && (liveThreads w).all act.contains

/-- The body of MONUMENT. Copies of the warp in flight end first. (Log 98 DESIGN CHOICE.) -/
def bodyMonument (n : Nat) (cx : Cx) (s : State) : Res :=
  let w := unitOf s cx.u
  if !monumentStops s w cx.act then .ok s
  else
    match (monumentsOf s w)[n]? with
    | none => .ok s
    | some m =>
      if !w.copies.isEmpty then .error (.hold, s)
      else .ok (stopAtMonument (modUnit s cx.u fun w => closeWin w (liveThreads w)) cx.u n m)

/-- MONUMENT n. -/
def execMonument (n : BitVec 12) (s : State) : Host.Outcome State Fault Refusal := issue 4 true (bodyMonument n.toNat) s

/-! ### The target (R300) -/

/-- The pairs of RTAG and instruction in `n` bytes of native code, as recipe entries in code order: offset of the tagged
instruction, its bytes and its form. -/
def taggedIn (cw : PReg → Word) : Nat → Nat → List Byte → List (Nat × List Byte × RForm)
  | 0, _, _ => []
  | f + 1, o, bs =>
    match bs with
    | [] => []
    | [_] => []
    | b :: c :: r =>
      let n := lengthOf (ofBytes [b, c])
      let one := (b :: c :: r).take n
      if n = 4 && ofBytes one = rtagWord then
        let rest := (b :: c :: r).drop 4
        let k := lengthOf (ofBytes (rest.take 2))
        match decode (rest.take k) with
        | .ok (i, _) =>
          match recipeForm cw i with
          | some x => (o + 4, rest.take k, x) :: taggedIn cw f (o + 4 + k) (rest.drop k)
          | none => taggedIn cw f (o + 4 + k) (rest.drop k)
        | .error _ => taggedIn cw f (o + 4 + k) (rest.drop k)
      else taggedIn cw f (o + n) ((b :: c :: r).drop n)

/-- The recipe of an elastic register: the last tagged definition before the monument, left dropped. -/
def recipeAt (s : State) (w : Warp) (m : Monument) (rmode : Nat) (reg : Nat) (v : Warp) : Warp :=
  let l := taggedIn (lowReg w) m.off 0 ((codeBytes s w 0 m.off).getD [])
  match (l.filter fun p => pnum p.2.2.dst == reg).getLast? with
  | none => v
  | some (o, bs, f) =>
    let r := tagEntry { v with rmode := rmode } f (codeBase s w + o) bs none
    putRecipe v { r with st := .dropped }

/-- Write one map entry's value for thread `t` on the target. A value that the portable frame lacks is free.
(Log 65 DEDUCED.) -/
def placeValue (p : Portable) (e : MapEntry) (u : Nat) (s : State) (t : Nat) : State :=
  let v := (sfind p.vals (xkey e.creg t)).getD (BitVec.ofNat 64 (Config.freeNat (s.fresh + xkey e.creg t)))
  let k := (sfind p.caps (xkey e.creg t)).getD Cap.null
  let w := unitOf s u
  let c := getC w t 6
  match e.kind with
  | 0 => modUnit s u fun w => putX w t e.loc (BitVec.truncate 32 v) 0
  | 1 => modUnit s u fun w => setS w e.loc v
  | 2 => modUnit s u fun w => setC w t e.loc k
  | 4 =>
    if 3904 ≤ e.creg && e.creg < 3920 then (objWriteCap s (reqOf w) c.object (c.low + 8 * e.loc) k false).1
    else (objWrite s (reqOf w) c.object (c.low + 8 * e.loc) (toBytes (if e.creg < 3840 then 4 else 8) v.toNat) false).1
  | _ => s

/-- The return addresses of a thread on the target, pushed oldest first. -/
def pushStack (u : Nat) (sites : List (Nat × Nat)) (base : Nat) (p : Portable) (s : State) (t : Nat) : State :=
  ((sfind p.retStacks t).getD []).foldl (fun s q =>
    match sites.find? fun x => x.2 == q with
    | some x => (rasPush s u t (base + x.1)).1
    | none => s) s

/-- Rebuild a placed warp from its portable frame at the target's monument `m`. (Log 65 DEDUCED.) -/
def rebuild (s : State) (u : Nat) (p : Portable) (m : Monument) : State :=
  let w := unitOf s u
  let ts := threadsOf p.live
  let base := codeBase s w
  let es := mapOf s w m
  let s := modUnit s u fun w =>
    setPcs { setM w 0 (BitVec.ofNat 128 p.live) with live := p.live, rmode := p.rmode, sealCtr := p.sealCtr } ts (base + m.off)
  let s := es.foldl (fun s e => ts.foldl (placeValue p e u) s) s
  let s := (es.filter fun e => e.kind == 3).foldl (fun s e =>
    modUnit s u fun v => recipeAt s v m p.rmode e.loc v) { s with fresh := s.fresh + 2 ^ 19 }
  let s := ts.foldl (pushStack u (returnSites s w) base p) s
  p.bars.foldl (fun s b => modBar s (unitOf s u) b.1 fun x =>
    { x with gen := b.2.1, count := b.2.2.1, arrived := if b.2.2.2 then u :: x.arrived else x.arrived }) s

/-- The portable frame of context `asid` for a warp of a group. -/
def portableFor (s : State) (asid group idx : Nat) : Option Portable :=
  s.portables.find? fun p => p.asid == asid && p.group == group && p.idx == idx

/-- The monument of a unit's kernel that a portable frame names. -/
def matching (s : State) (w : Warp) (p : Portable) : Option Monument :=
  (monumentsOf s w).find? fun m => m.segment == p.segment && m.op == p.op

/-- Every warp of a placed group has its portable frame and its monument. -/
def canRebuild (s : State) (asid gid : Nat) : Bool :=
  (groupOf s gid).members.all fun u =>
    let w := unitOf s u
    match portableFor s asid (groupOf s gid).idx w.idx with
    | some p => (matching s w p).isSome
    | none => false

/-- Rebuild the warps of a group, and restore its scratchpads from the save area; the portable frames are used up.
(Log 65 DEDUCED.) -/
def rebuildGroup (s : State) (asid gid : Nat) : State :=
  let g := groupOf s gid
  let s := g.members.foldl (fun s u =>
    match portableFor s asid g.idx (unitOf s u).idx with
    | none => s
    | some p =>
      match matching s (unitOf s u) p with
      | none => s
      | some m => rebuild s u p m) s
  let s := { s with portables := s.portables.filter fun p => !(p.asid == asid && p.group == g.idx) }
  loadAllocs s gid

/-- MIGRATION_RESUME: launch `id` on this device places its next group on the instance that holds `loc`, and the group's
warps are rebuilt from the portable frames of context `asid`. (Log 65 DEDUCED.) -/
def execMigrationResume (s : State) : Host.Outcome State Fault Refusal :=
  match sfind s.launches s.ev.id with
  | none => .next s
  | some l =>
    if mayPlace s l.asid && l.placed < l.groups && !l.offThreads then
      match placeGroup s s.ev.id s.ev.loc with
      | none => .next s
      | some t =>
        let gid := s.nextId
        if canRebuild t s.ev.asid gid then .next (makeResident (rebuildGroup t s.ev.asid gid) l.asid) else .next s
    else .next s

end Sys2Proof.Machine
end

