-- ==== Sys2Proof/Machine/Translate.lean ====
section
/-! DEFINITION. The translator of version 1: where the registers of a Cheori body go, the native code of its ops, the layout of the
code object, and the loader's tables (R298, R299, R304 to R306). (Log 38 DESIGN CHOICE.) -/

namespace Sys2Proof.Machine

/-! ### What ops read and write -/

/-- The registers of a conversion whose control word is its literal: 64-bit source, 64-bit destination (R142). -/
def wideConv (i : Instr) : Bool × Bool :=
  match convOf i with
  | some (f, _, _, .lit c) => (cvtWideSrc f c, cvtWideDst f c)
  | _ => (false, false)

/-- The registers, in number, that fields D, A and B of an op take each. -/
def opWidths (o : COp) : Nat × Nat × Nat :=
  match (nativeWords probeHomes 0 o.probe).bind fun ws => ws.head?.bind nativeInstr with
  | none => (1, 1, 1)
  | some i =>
    let l := (regNames i).map pnum
    let n := fun k => max 1 ((l.filter fun r => 8 * k ≤ r && r < 8 * k + 8).dedup.length)
    let c := wideConv i
    (if c.2 then 2 else n 1, if c.1 then 2 else n 2, n 3)

/-- Consecutive register numbers from a field on, where it names an x or p register. -/
def span (n w : Nat) : List Nat := if isXreg n then (List.range w).map (n + ·) else if isPreg n then [n] else []

/-- The p register that a memory op goes through. -/
def viaP (o : COp) : List Nat := if 0x20 ≤ o.op && o.op ≤ 0x29 && bitsOf o.sub 4 1 = 0 then [3904 + bitsOf o.sub 0 4] else []

/-- Tiles and accumulators as numbers beside the registers of R297, for the translator's own account of what is live. -/
def tileNum (n : Nat) : Nat := 5000 + n % 16

/-- Every tile. -/
def allTiles : List Nat := (List.range 8).map tileNum

/-- The tiles and accumulators that a WARP op reads and those that it writes; a copy of a tile, which its descriptor names, may be of
any (R219, R223, R226, R227, R230). (Log 38 DESIGN CHOICE.) -/
def warpTiles (o : COp) : List Nat × List Nat :=
  let w := o.lit.getD 0
  let d := tileNum o.d
  let acc := if bitsOf w 20 1 = 1 then [d] else []
  match o.warpMajor with
  | 0x35 | 0x36 | 0x38 => ([], [d])
  | 0x37 => ([d], [])
  | 0x39 | 0x3A => ([tileNum o.a, tileNum o.b] ++ acc, [d])
  | 0x3B => if bitsOf w 24 4 = 0 then ([d], []) else ([], [d])
  | 0x3C => if bitsOf w 22 2 = 0 then ([], []) else if bitsOf w 24 4 = 1 then (allTiles, []) else ([], allTiles)
  | _ => ([], [])

/-- The u and p registers that a field of a WARP op names, `w` of them. -/
def warpSpan (n w : Nat) : List Nat := if 3840 ≤ n && n < 3904 then (List.range w).map (n + ·) else if isPreg n then [n] else []

/-- What an op writes: x, u and p registers, tiles and accumulators. -/
def opWrites (o : COp) : List Nat :=
  if o.op = 0x44 then (warpTiles o).2 ++ (if o.warpMajor = 0x3C then [] else warpSpan o.d 1)
  else if writesDest o then span o.d (opWidths o).1
  else []

/-- What an op reads: x, u and p registers, tiles and accumulators. A copy's descriptor is four u registers (R229). -/
def opReads (o : COp) : List Nat :=
  if o.op = 0x44 then
    (warpTiles o).1 ++ (if o.warpMajor = 0x3C then warpSpan o.d 4 else if o.warpMajor = 0x3E then warpSpan o.d 1 else [])
      ++ warpSpan o.a 1 ++ warpSpan o.b 1
  else
    let w := opWidths o
    let k := if o.op = 0x43 then 2 else 1
    (if readsDest o then span o.d w.1 else []) ++ (if hasA o then span o.a (max k w.2.1) else [])
      ++ (if hasB o then span o.b (max k w.2.2) else []) ++ viaP o

/-! ### Flow -/

/-- The segments as they are placed: the entry first, then the others in the body's order. -/
def placed (b : CBody) : List CSeg := (b.segs.filter fun g => g.id == b.entry) ++ b.segs.filter fun g => g.id != b.entry

/-- The place of segment `id`; the number of segments stands for the thread's end. -/
def segAt (l : List CSeg) (id : Nat) : Nat := (l.findIdx? fun g => g.id == id).getD l.length

/-- The successors that a terminator names. -/
def named (t : CTerm) : List Nat :=
  match t.op with
  | 0xF1 => [t.s0, t.s1]
  | 0xF0 | 0xF2 => [t.s0]
  | _ => []

/-- Where control may go from a segment: a call to any segment, a return to the successor of any call (R298). -/
def succs (l : List CSeg) (g : CSeg) : List Nat :=
  match g.term.op with
  | 0xF2 => List.range l.length
  | 0xF3 => (l.filter fun h => h.term.op == 0xF2).map fun h => segAt l h.term.s0
  | _ => (named g.term).map (segAt l)

/-- The ops of a body, in order of placement. -/
def allOps (l : List CSeg) : List COp := l.flatMap (·.ops)

/-- The registers that ops read before they write them, those of `after` read at the end. -/
def exposed (after : List Nat) : List COp → List Nat
  | [] => after
  | o :: r => (opReads o ++ (exposed after r).filter fun n => !(opWrites o).contains n).dedup

/-- The x register that a terminator reads. -/
def termReads (t : CTerm) : List Nat := if t.op = 0xF1 || t.op = 0xF2 then span t.a 1 else []

/-- The union of what stands for each of the segments `ks`. -/
def gatherSegs (v : List (List Nat)) (ks : List Nat) : List Nat := (ks.flatMap fun k => v.getD k []).dedup

/-- What may be read at the head of each segment before it is written: as many rounds as there are segments. -/
def wanted (l : List CSeg) : List (List Nat) :=
  (fun v => l.map fun g => exposed (gatherSegs v (succs l g) ++ termReads g.term) g.ops)^[l.length + 1] (l.map fun _ => [])

/-- The ops of the segment at place `j`. -/
def segOps (l : List CSeg) (j : Nat) : List COp := ((l[j]?).map CSeg.ops).getD []

/-- The segments from which control may come to segment `j`. -/
def preds (l : List CSeg) (j : Nat) : List Nat := (List.range l.length).filter fun i => ((l[i]?).map fun g => (succs l g).contains j).getD false

/-- What may have been written before the head of each segment; u0 to u3 hold values from the launch (R58). -/
def written (l : List CSeg) : List (List Nat) :=
  (fun (v : List (List Nat)) => (List.range l.length).map fun j =>
    ((if j = 0 then [3840, 3841, 3842, 3843] else [])
      ++ (preds l j).flatMap fun i => v.getD i [] ++ (segOps l i).flatMap opWrites).dedup)^[l.length + 1]
    (l.map fun _ => [])

/-- The registers live at the head of each segment: perhaps written before and perhaps read after. -/
def liveHeads (l : List CSeg) : List (List Nat) := (wanted l).zipWith (fun w d => w.filter d.contains) (written l)

/-- What a copy or a window that WARP ops leave open is at the end of ops: whether a copy is unsealed, whether a window is open. -/
def openAfter (ops : List COp) (s : Bool × Bool) : Bool × Bool :=
  ops.foldl (fun s o =>
    if o.op ≠ 0x44 then s
    else
      let f := bitsOf (o.lit.getD 0) 24 4
      match o.warpMajor with
      | 0x3C => (true, s.2)
      | 0x3D => (if f = 0 then false else s.1, s.2)
      | 0x3F => (s.1, if f = 0 then true else if f ≤ 2 then false else s.2)
      | _ => s) s

/-- Whether a copy may be unsealed, or a window open, at the head of each segment. -/
def openHeads (l : List CSeg) : List (Bool × Bool) :=
  (fun v => (List.range l.length).map fun j =>
    (preds l j).foldl (fun s i => let x := openAfter (segOps l i) (v.getD i (false, false)); (s.1 || x.1, s.2 || x.2))
      (false, false))^[l.length + 1] (l.map fun _ => (false, false))

/-- Segment `j` is the target of a backward successor: one that a segment placed there or later names. -/
def backTarget (l : List CSeg) (j : Nat) : Bool := (l.drop j).any fun g => (named g.term).any fun n => segAt l n == j

/-- The segments with a monument at their head: CONV segments and targets of backward successors, but not where a tile or accumulator
is live, a copy unsealed or a window open (R299). -/
def monumentSegs (l : List CSeg) : List Nat :=
  let live := liveHeads l
  let opens := openHeads l
  (List.range l.length).filter fun j =>
    ((((l[j]?).map (·.conv)).getD false) || backTarget l j) && !((live.getD j []).any (5000 ≤ ·)) && opens.getD j (false, false) == (false, false)

/-- The registers live across a monument. -/
def liveAcross (l : List CSeg) : List Nat := let live := liveHeads l; ((monumentSegs l).flatMap fun j => live.getD j []).dedup

/-! ### Places (R304) -/

/-- How often a register is defined. -/
def defCount (l : List CSeg) (n : Nat) : Nat := ((allOps l).flatMap opWrites).count n

/-- Every live thread is active in segment `j`: it is CONV, or it is entered once from the launch, or by NEXT from one such segment
alone. -/
def together (l : List CSeg) : Nat → Nat → Bool
  | 0, _ => false
  | f + 1, j =>
    (((l[j]?).map (·.conv)).getD false)
      || (match preds l j with
        | [] => j == 0
        | [i] => j != 0 && ((l[i]?).map fun g => g.term.op == 0xF0).getD false && together l f i
        | _ => false)

/-- The op can be a recipe after translation: it is an instruction of R68 through no capability but k1, which holds IM. -/
def recipeOp (o : COp) : Bool :=
  match nativeWords probeHomes 0 o.probe with
  | some [w] =>
    match (nativeInstr w).bind (recipeForm fun _ => 0) with
    | some f => (match f.cap with
      | some c => c.val == 9
      | none => true) && !readsDest o
    | none => false
  | _ => false

/-- A recomputable x register: defined once, by an op that can be a recipe, whose sources are each defined once. RTAG needs every live
thread (R67). (Log 38 DESIGN CHOICE.) -/
def recomputable (l : List CSeg) (n : Nat) : Bool :=
  isXreg n && defCount l n == 1
    && (List.range l.length).any fun j =>
      match (segOps l j).find? fun o => (opWrites o).contains n with
      | some o => together l (l.length + 1) j && recipeOp o && (opReads o).all fun r => defCount l r == 1
      | none => false

/-- Register runs that native fields need: first register, length, and alignment of the first. -/
def runsOf (o : COp) : List (Nat × Nat × Nat) :=
  let w := opWidths o
  if o.op = 0x43 then [(o.a, 2, 1), (o.b, 2, 1)].filter fun r => isXreg r.1
  else
    ((if writesDest o || readsDest o then [(o.d, w.1, w.1)] else []) ++ (if hasA o then [(o.a, w.2.1, w.2.1)] else [])
      ++ (if hasB o then [(o.b, w.2.2, w.2.2)] else [])).filter fun r => isXreg r.1 && 1 < r.2.1

/-- Recomputable registers live across a monument, in order of definition: those that no native field needs beside another register.
(Log 38 DESIGN CHOICE.) -/
def kept (l : List CSeg) : List Nat :=
  let across := liveAcross l
  let runs := (allOps l).flatMap runsOf
  (((allOps l).flatMap opWrites).dedup).filter fun n =>
    across.contains n && recomputable l n && !(runs.any fun r => r.1 ≤ n && n < r.1 + r.2.1)

/-- The first register of the run that holds `n`, as far as `f` steps down. -/
def runStart (runs : List (Nat × Nat × Nat)) : Nat → Nat → Nat
  | 0, n => n
  | f + 1, n =>
    match runs.find? fun r => r.1 < n && n < r.1 + r.2.1 with
    | some r => runStart runs f r.1
    | none => n

/-- The end of the run that starts at `n`. -/
def runEnd (runs : List (Nat × Nat × Nat)) : Nat → Nat → Nat
  | 0, e => e
  | f + 1, e =>
    match runs.find? fun r => r.1 < e && e < r.1 + r.2.1 with
    | some r => runEnd runs f (r.1 + r.2.1)
    | none => e

/-- The first register from `r` on at which every run of the block from `n` has its alignment. -/
def alignRun (runs : List (Nat × Nat × Nat)) (n e r : Nat) : Nat :=
  ((List.range 4).map (r + ·)).find? (fun r => runs.all fun q => !(n ≤ q.1 && q.1 < e) || (r + (q.1 - n)) % q.2.2 == 0) |>.getD r

/-- Base registers in order of first definition, but for the registers of `skip`: pairs of Cheori register and v register, and the
next free one. -/
def baseHomes (runs : List (Nat × Nat × Nat)) (skip : List Nat) (defs : List Nat) : List (Nat × Nat) × Nat :=
  defs.foldl (fun p n =>
    if !isXreg n || skip.contains n || p.1.any fun q => q.1 == n then p
    else
      let a := runStart runs 96 n
      let e := runEnd runs 96 (n + 1)
      let r := alignRun runs a e p.2
      (p.1 ++ (List.range (e - a)).map (fun i => (a + i, r + i)), r + (e - a))) ([], 0)

/-- Where everything of a body goes. -/
structure Plan where
  /-- x registers in base registers, and in elastic ones. -/
  base : List (Nat × Nat)
  elastic : List (Nat × Nat)
  /-- p registers in c registers, and in slots of c6 memory by byte offset. -/
  caps : List (Nat × Nat)
  slots : List (Nat × Nat)
  /-- Spilled x registers, by byte offset in c6 memory. -/
  spills : List (Nat × Nat)
  b : Nat
  e : Nat
  stack : Nat
  deriving DecidableEq, Repr

/-- The plan for segments whose own stack is `stack` bytes; `noE` where the driver requests E = 0. Registers that no op defines come
after those that are defined. (Log 38 DESIGN CHOICE.) -/
def planOf (l : List CSeg) (noE : Bool) (stack : Nat) : Plan :=
  let names := (allOps l).flatMap opWrites ++ (allOps l).flatMap opReads ++ l.flatMap fun g => termReads g.term
  let defs := names.reverse.dedup.reverse
  let runs := (allOps l).flatMap runsOf
  let keep := kept l
  let skip := if noE then [] else keep
  let (base, used) := baseHomes runs skip defs
  let size := (used + 8 + 7) / 8 * 8
  let ps := defs.filter isPreg
  let inC := if ps.length ≤ 6 then ps else ps.take 5
  let out := ps.drop inC.length
  let first := stack + 16 * out.length
  let spilled := if noE then keep else []
  { base := base
    elastic := if noE then [] else (List.range keep.length).map fun i => (keep.getD i 0, size + i)
    caps := (List.range inC.length).map fun i => (inC.getD i 0, i)
    slots := (List.range out.length).map fun i => (out.getD i 0, stack + 16 * i)
    spills := (List.range spilled.length).map fun i => (spilled.getD i 0, first + 8 * i)
    b := size
    e := if noE then 0 else (keep.length + 7) / 8 * 8
    stack := (first + 8 * spilled.length + 15) / 16 * 16 }

/-- The homes of a plan. -/
def Plan.homes (p : Plan) : Homes :=
  { x := fun n => ((p.base ++ p.elastic).find? fun q => q.1 == n).map (·.2)
    p := fun n => ((p.caps.find? fun q => q.1 == 3904 + n).map (·.2)).or ((p.slots.find? fun q => q.1 == 3904 + n).map fun _ => 5) }

/-! ### Code (R103, R306) -/

/-- A register has a DA code of the compact form. -/
def hasDA : PReg → Bool
  | .v n => n.val < 32
  | .o _ => true
  | .y _ => true
  | .z => true
  | _ => false

/-- A register has a B code of the compact form. -/
def hasCB : PReg → Bool
  | .v n => n.val < 16
  | .q _ => false
  | _ => true

/-- The compact form with the given operation, where R103 allows it. -/
def compactIf (i : Instr) (d a : PReg) (b : Src) (k : PReg → PReg → Instr) : Instr :=
  match b with
  | .reg r => if d = a && hasDA d && hasCB r then k d r else i
  | .lit _ => i

/-- The instruction in compact form where R103 allows it. -/
def shorten (i : Instr) : Instr :=
  match i with
  | .iadd d a b => compactIf i d a b .compactIadd
  | .isub d a b => compactIf i d a b .compactIsub
  | .imul d a b => compactIf i d a b .compactImul
  | .and d a b => compactIf i d a b .compactAnd
  | .or d a b => compactIf i d a b .compactOr
  | .xor d a b => compactIf i d a b .compactXor
  | .shl d a b => compactIf i d a b .compactShl
  | .shr d a b => compactIf i d a b .compactShr
  | .fadd d a b => compactIf i d a b .compactFadd
  | .fmul d a b => compactIf i d a b .compactFmul
  | .fmax d a b => compactIf i d a b .compactFmax
  | .fmin d a b => compactIf i d a b .compactFmin
  | .hadd2 d a b => compactIf i d a b .compactHadd2
  | .mov d (.reg r) => if hasDA d && hasCB r then .compactMov d r else i
  | .mov d (.lit w) => if hasDA d && (-16 ≤ w.toInt && w.toInt ≤ 15) then .compactMovi d (w.setWidth 5) else i
  | i => i

/-- The bytes of a native word, in its compact form where that is allowed. -/
def nativeBytes (w : NWord) : Option (List Byte) := (nativeInstr w).bind fun i => encode (shorten i)

/-- Join byte strings, none where one is missing. -/
def joinBytes (l : List (Option (List Byte))) : Option (List Byte) := (l.mapM id).map List.flatten

/-- RTAG. -/
def rtagW : NWord := nword (encA3 0x31 0 0 0 0 none)

/-- JOIN m0. -/
def joinW : NWord := nword (encA3 0x1C 2 0 64 0 none)

/-- MACT m0. -/
def mactW : NWord := nword (encA3 0x0D 7 64 0 0 none)

/-- MONUMENT n. -/
def monumentW (n : Nat) : NWord := nword (encS 0x1D 1 0 n none)

/-- EXIT. -/
def exitW : NWord := nword (encA3 0x1C 4 0 0 0 none)

/-- One of the translator's own registers, v(B − 8) to v(B − 1). -/
def Plan.temp (p : Plan) (i : Nat) : Nat := p.b - 8 + i

/-- A piece of code: a native word, a branch or a constant that names a segment, or the place to which a call returns, with its Cheori
successor. -/
inductive NPiece where
  | word (w : NWord)
  | jump (maj a seg : Nat)
  | pick (d a seg : Nat)
  | site (succ : Nat)
  deriving DecidableEq, Repr

/-- The bytes of a piece that stands at `at_`, where `labels` gives the native offsets of segments. Branches have their literal form, so
that no length depends on a label. -/
def NPiece.bytes (labels : List Nat) (at_ : Nat) : NPiece → Option (List Byte)
  | .word w => nativeBytes w
  | .jump maj a k => nativeBytes (nword (encJ maj a (.lit (BitVec.ofInt 32 ((labels.getD k 0 : Int) - at_)))))
  | .pick d a k => nativeBytes (nword (encA3 5 2 d a 0 (some (BitVec.ofNat 32 (labels.getD k 0)))))
  | .site _ => some []

/-- The bytes of pieces from `at_` on, and the return sites among them. -/
def emitPieces (labels : List Nat) : Nat → List NPiece → Option (List Byte × List (Nat × Nat))
  | _, [] => some ([], [])
  | at_, p :: r =>
    match p.bytes labels at_ with
    | none => none
    | some b =>
      (emitPieces labels (at_ + b.length) r).map fun q =>
        (b ++ q.1, match p with
          | .site n => (at_, n) :: q.2
          | _ => q.2)

/-- The length of pieces. -/
def lengthOfPieces (l : List NPiece) : Option Nat := (emitPieces [] 0 l).map (·.1.length)

/-- Loads of the spilled registers among `rs` that a monument has cut off, `cut`. -/
def reloadSpills (p : Plan) (cut rs : List Nat) : List NWord :=
  rs.dedup.filterMap fun r =>
    if cut.contains r then (p.spills.find? fun q => q.1 == r).map fun q => ownMem 0x20 2 6 ((p.homes.x r).getD 0) q.2 else none

/-- Loads before an op: the p register in a slot that it reads, and the spilled registers that a monument has cut off. -/
def reloads (p : Plan) (cut : List Nat) (o : COp) : List NWord :=
  ((opReads o).dedup.filterMap fun r => (p.slots.find? fun q => q.1 == r).map fun q => ownMem 0x25 0 6 5 q.2) ++ reloadSpills p cut (opReads o)

/-- Stores after an op: the slot or the spill word of the register that it writes. -/
def storesAfter (p : Plan) (o : COp) : List NWord :=
  ((opWrites o).filterMap fun r => (p.slots.find? fun q => q.1 == r).map fun q => ownMem 0x26 0 6 5 q.2)
    ++ ((opWrites o).filterMap fun r => (p.spills.find? fun q => q.1 == r).map fun q => ownMem 0x23 2 6 ((p.homes.x r).getD 0) q.2)

/-- The code of ops, with `cut` the spilled registers that a monument has cut off from their words: a kept register's definition carries
RTAG. -/
def opPieces (p : Plan) (img : Nat) : List Nat → List COp → Option (List NWord)
  | _, [] => some []
  | cut, o :: r =>
    let tag := (opWrites o).any fun n => p.elastic.any fun q => q.1 == n
    match nativeWords p.homes img o, opPieces p img (cut.filter fun n => !(opWrites o).contains n) r with
    | some ws, some l => some (reloads p cut o ++ (if tag then [rtagW] else []) ++ ws ++ storesAfter p o ++ l)
    | _, _ => none

/-- The spilled registers that a monument has cut off at the head of each segment: those live at its own monument, and those cut off
before and not defined since (R304). -/
def cutHeads (l : List CSeg) (p : Plan) : List (List Nat) :=
  let live := liveHeads l
  let ms := monumentSegs l
  let own := fun j => if ms.contains j then (live.getD j []).filter fun n => p.spills.any fun q => q.1 == n else []
  (fun v => (List.range l.length).map fun j =>
    (own j ++ (preds l j).flatMap fun i =>
      let w := (segOps l i).flatMap opWrites
      (v.getD i []).filter fun n => !w.contains n).dedup)^[l.length + 1] (l.map fun _ => [])

/-- The places that end a thread share one end: more than one do, or one that is no NEXT. -/
def shareEnd (l : List CSeg) : Bool :=
  2 ≤ (l.map fun g => (named g.term).count 0xFFFF).foldl (· + ·) 0 || l.any fun g => g.term.op != 0xF0 && (named g.term).contains 0xFFFF

/-- The threads go on at place `k`: no code where it is the one placed next. -/
def goTo (next k : Nat) : List NPiece := if k = next then [] else [.jump 0x18 88 k]

/-- The code of a terminator of the segment at place `j`. A thread's end waits for every live thread (R298): in one place, or in a CONV
segment, where all are active. (Log 38 DESIGN CHOICE.) -/
def termPieces (l : List CSeg) (p : Plan) (j : Nat) (g : CSeg) (cut : List Nat) : Option (List NPiece) :=
  let t := g.term
  let at_ := segAt l
  let load := (reloadSpills p cut (termReads t)).map NPiece.word
  match t.op with
  | 0xF0 =>
    if t.s0 = 0xFFFF then
      some (if g.conv then [.word exitW] else if shareEnd l then goTo (j + 1) l.length else [.word joinW, .word exitW])
    else some (goTo (j + 1) (at_ t.s0))
  | 0xF1 =>
    let rest := goTo (j + 1) (at_ t.s0)
    if t.a = cZero then some rest
    else if t.a = cTid then some ([.word (nword (encA3 4 7 (p.temp 0) 106 107 none)), .jump 0x19 (p.temp 0) (at_ t.s1)] ++ rest)
    else (p.homes.field t.a).map fun a => load ++ [.jump 0x19 a (at_ t.s1)] ++ rest
  | 0xF2 =>
    (p.homes.field t.a).map fun a =>
      load ++ [.word (nword (encA3 4 7 (p.temp 0) 106 0 (some 0)))]
        ++ ((List.range l.length).flatMap fun k =>
          let id := ((l[k]?).map (·.id)).getD 0
          [.word (nword (encA3 3 2 (p.temp 1) a 0 (some (BitVec.ofNat 32 id)))), .pick (p.temp 1) (p.temp 0) k,
           .word (nword (encA3 4 7 (p.temp 0) 106 (p.temp 1) none))])
        ++ [.word (nword (encA3 0x1C 0 0 (p.temp 0) 0 none)), .site t.s0] ++ goTo (j + 1) (at_ t.s0)
  | _ => some [.word (nword (encA3 0x1C 1 0 0 0 none))]

/-- A segment's head: in a CONV segment a JOIN of all threads, and its monument (R299, R306). -/
def headPieces (ms : List Nat) (j : Nat) (g : CSeg) : List NPiece :=
  (if g.conv then [.word joinW] else []) ++ (if ms.contains j then [.word (monumentW (ms.takeWhile (· != j)).length)] else [])

/-- The code of the segment at place `j`: what stands before its label, its head, and the rest. -/
def segCode (l : List CSeg) (p : Plan) (img j : Nat) (g : CSeg) : Option (List NPiece × List NPiece × List NPiece) :=
  let cut := (cutHeads l p).getD j []
  let last := cut.filter fun n => !((g.ops.flatMap opWrites).contains n)
  match opPieces p img cut g.ops, termPieces l p j g last with
  | some o, some t => some (if j = 0 then [.word mactW] else [], headPieces (monumentSegs l) j g, o.map NPiece.word ++ t)
  | _, _ => none

/-- The code of every segment, and the shared end after them. -/
def bodyPieces (l : List CSeg) (p : Plan) (img : Nat) : Option (List (List NPiece × List NPiece × List NPiece)) :=
  ((List.range l.length).mapM fun j => (l[j]?).bind (segCode l p img j)).map fun c =>
    c ++ [([], [], if shareEnd l then [.word joinW, .word exitW] else [])]

/-- The native offsets at which segments begin, from `at_` on: their labels, and where their ops start. -/
def labelsFrom : Nat → List (List NPiece × List NPiece × List NPiece) → Option (List (Nat × Nat))
  | _, [] => some []
  | at_, (a, h, b) :: r =>
    match lengthOfPieces a, lengthOfPieces h, lengthOfPieces b with
    | some x, some y, some z => (labelsFrom (at_ + x + y + z) r).map ((at_ + x, at_ + x + y) :: ·)
    | _, _, _ => none

/-- Native code: its bytes, where the ops of each segment start, and the return sites. -/
structure NCode where
  bytes : List Byte
  starts : List Nat
  sites : List (Nat × Nat)
  deriving DecidableEq, Repr

/-- The native code of a body for a rodata image at native offset `img`. -/
def codeOf (l : List CSeg) (p : Plan) (img : Nat) : Option NCode :=
  match bodyPieces l p img with
  | none => none
  | some c =>
    match labelsFrom 0 c with
    | none => none
    | some ls => (emitPieces (ls.map (·.1)) 0 (c.flatMap fun x => x.1 ++ x.2.1 ++ x.2.2)).map fun e => ⟨e.1, ls.map (·.2), e.2⟩

/-! ### What version 1 can place -/

/-- The depth of a kept register's recipe (R67). -/
def keptDepth (l : List CSeg) (ks : List Nat) : Nat → Nat → Nat
  | 0, _ => 3
  | f + 1, n =>
    match (allOps l).find? fun o => (opWrites o).contains n with
    | none => 0
    | some o =>
      match (opReads o).filter fun r => ks.contains r with
      | [] => 0
      | r :: q => 1 + ((r :: q).map (keptDepth l ks f)).foldl max 0

/-- The plan holds: register counts are within R53 and R304, depths within R67, and no op reads two p registers of slots.
(Log 38 DESIGN CHOICE.) -/
def planOk (l : List CSeg) (p : Plan) : Bool :=
  p.b + p.e ≤ 96 && p.e ≤ 32
    && (p.elastic.all fun q => keptDepth l (p.elastic.map (·.1)) 4 q.1 ≤ 2)
    && (allOps l).all fun o => ((opReads o).dedup.filter fun r => p.slots.any fun q => q.1 == r).length ≤ 1

/-! ### Tables and layout (R294, R305) -/

/-- A map entry for a live register. -/
def mapWord (p : Plan) (n : Nat) : Nat :=
  let e := fun k loc => n * 2 ^ 20 + k * 2 ^ 16 + loc
  let at_ := fun (l : List (Nat × Nat)) => (l.find? fun q => q.1 == n).map (·.2)
  if 3840 ≤ n && n < 3904 then e 1 (n - 3840)
  else match at_ p.elastic, at_ p.spills, at_ p.slots, at_ p.caps, at_ p.base with
  | some r, _, _, _, _ => e 3 r
  | none, some o, _, _, _ => e 4 (o / 8)
  | none, none, some o, _, _ => e 4 (o / 8)
  | none, none, none, some c, _ => e 2 c
  | none, none, none, none, some r => e 0 r
  | none, none, none, none, none => e 5 0

/-- Round up to a multiple of `k`. -/
def alignTo (k n : Nat) : Nat := (n + k - 1) / k * k

/-- What the translator writes: the code object's bytes from base, and the record's fields SHAPE, HANDLER, FRAME, MONTAB, CHEORI and
STACK. -/
structure Translation where
  bytes : List Byte
  shape : Nat
  handler : Nat
  frame : Nat
  montab : Nat
  cheori : Nat
  stack : Nat
  deriving DecidableEq, Repr

/-- The monument records and then their maps, for a table at offset `tab`. -/
def monumentTable (l : List CSeg) (p : Plan) (starts : List Nat) (tab : Nat) : List Byte :=
  let ms := monumentSegs l
  let live := liveHeads l
  let maps := ms.map fun j => ((List.range 3920).filter (live.getD j []).contains).map (mapWord p)
  let first := tab + 16 * ms.length
  let recs := (List.range ms.length).flatMap fun i =>
    let j := ms.getD i 0
    let at_ := first + 4 * ((maps.take i).map List.length).foldl (· + ·) 0
    toBytes 4 (starts.getD j 0) ++ toBytes 2 (i + 1) ++ toBytes 2 ((l[j]?.map (·.id)).getD 0) ++ toBytes 2 0
      ++ toBytes 2 (maps.getD i []).length ++ toBytes 4 at_
  recs ++ maps.flatten.flatMap (toBytes 4)

/-- The return-site list: native offset and Cheori successor of each call (R299). -/
def siteList (sites : List (Nat × Nat)) : List Byte := sites.flatMap fun x => toBytes 4 x.1 ++ toBytes 4 x.2

/-- THE TRANSLATOR: the body `cheori`, which may end in a rodata image, for a kernel whose record's SHAPE is `shape` and STACK is
`stack`, and whose native trap handler, where it has one, is `handler`; none where version 1 cannot place the body's registers. The
order is code, rodata image, monument table and maps, return-site list, and the Cheori body (R305). (Log 38 DESIGN CHOICE.) -/
def translate (cheori : List Byte) (shape stack : Nat) (noE : Bool) (handler : Option (List Byte)) : Option Translation :=
  match parseBody cheori with
  | none => none
  | some b =>
    let l := placed b
    let p := planOf l noE stack
    if !planOk l p then none
    else
      match codeOf l p 0 with
      | none => none
      | some c0 =>
        let size := c0.bytes.length + (handler.getD []).length
        let img := alignTo 16 size
        let rodata := cheori.drop b.size
        let tab := alignTo 16 (img + rodata.length)
        match codeOf l p img with
        | none => none
        | some c =>
          let mon := monumentTable l p c.starts tab
          let ret := alignTo 8 (tab + mon.length)
          let body := ret + 8 * c.sites.length
          let w := { Warp.blank with base := p.b }
          some {
            bytes := padTo ret (padTo tab (padTo img (c.bytes ++ handler.getD []) ++ rodata) ++ mon) ++ siteList c.sites ++ cheori
            shape := p.b + p.e * 2 ^ 8 + bitsOf shape 16 7 * 2 ^ 16 + bitsOf shape 24 3 * 2 ^ 24 + bitsOf shape 32 16 * 2 ^ 32
            handler := if handler.isSome then c.bytes.length + 2 ^ 32 else 0
            frame := 0x4000 + rawSize w
            montab := tab + (monumentSegs l).length * 2 ^ 32
            cheori := body + cheori.length * 2 ^ 32
            stack := p.stack }

end Sys2Proof.Machine
end

