-- ==== Sys2Proof/Machine/Kernel.lean ====
section
/-! DEFINITION. Kernels: the loader's checks, stamps, translation and retirement (R53, R105, R287, R288, R294 to R298, R302,
R412). -/

namespace Sys2Proof.Machine

/-- The device hash (R295). -/
def deviceHash : Nat := ofBytes ((sha256 (toBytes 8 Config.cfgRev.toNat ++ toBytes 8 Config.translatorVersion.toNat)).take 8)

/-! ### The record (R288, R289) -/

/-- An 8-byte field of a record has bits only in the given fields. -/
def onlyBits (b : List Byte) (o : Nat) (fields : List (Nat × Nat)) : Bool := !strayBits (fieldAt b o 8) fields

/-- The size of the code object that K1 names. -/
def codeSize (k1 : Cap) : Nat := k1.high - k1.low

/-- BAD_RECORD's conditions do not hold. (Log 66 DEDUCED.) -/
def recordOk (b : List Byte) (k1 : Cap) : Bool :=
  let sh := fieldAt b 8 8
  let base := bitsOf sh 0 7
  let e := bitsOf sh 8 6
  let args := bitsOf sh 32 16
  let size := codeSize k1
  let nreg := bitsOf (fieldAt b 0x28 8) 32 16
  let mon := fieldAt b 0x38 8
  fieldAt b 0 8 == 1
    && onlyBits b 8 [(0, 7), (8, 6), (16, 4), (20, 3), (24, 3), (32, 16)] && onlyBits b 0x20 [(0, 33)]
    && onlyBits b 0x28 [(0, 48)] && onlyBits b 0x38 [(0, 48)] && onlyBits b 0x58 [(0, 19)] && onlyBits b 0x60 [(0, 32)]
    && fieldAt b 0x68 24 == 0 && fieldAt b 0x130 80 == 0
    && base % 8 == 0 && 8 ≤ base && base ≤ 96 && e ≤ min 32 (96 - base) && bitsOf sh 16 4 ≤ 8 && bitsOf sh 20 3 ≤ 4
    && 1 ≤ bitsOf sh 24 3 && args % 16 == 0 && args ≤ 4096
    && !(fieldAt b 0x20 8).testBit 0
    && (nreg == 0 || fieldAt b 0x30 8 + 64 * nreg ≤ size)
    && (bitsOf mon 32 16 == 0 || mon % 2 ^ 32 + 16 * bitsOf mon 32 16 ≤ size)
    && (fieldAt b 0x54 4 == 0 || fieldAt b 0x50 4 + fieldAt b 0x54 4 ≤ size)

/-- STORE_RANGE's conditions do not hold. -/
def storeOk (b : List Byte) : Bool :=
  let n := fieldAt b 0x58 8
  n % 64 == 0 && n ≤ 0x60000 && fieldAt b 0x60 8 % 16 == 0

/-! ### The region table (R105, R288) -/

/-- A region by itself is good: both routines or neither, none inside the region, EJT, the eject list and the frame size. -/
def regionOk (base : Nat) (r : Region) : Bool :=
  let inside := fun p => r.start ≤ p && p < r.stop
  (r.exit == 0xFFFFFFFF) == (r.entry == 0xFFFFFFFF)
    && (r.exit == 0xFFFFFFFF || (!inside r.exit && !inside r.entry))
    && r.ejt ≤ 16 && r.ejV / 2 ^ base == 0 && r.frame % 16 == 0

/-- Two regions do not overlap. -/
def apart (a b : Region) : Bool := a.stop ≤ b.start || b.stop ≤ a.start

/-- No two of the regions overlap. -/
def allApart : List Region → Bool
  | [] => true
  | r :: l => l.all (apart r) && allApart l

/-! ### Monument maps (R294, R297) -/

/-- Every entry of every monument map has a KIND of R294 and a register number of R297. -/
def mapsOk (code : Nat → Nat → List Byte) (montab n : Nat) : Bool :=
  (List.range n).all fun i =>
    let m := parseMonument (code (montab + 16 * i) 16)
    (wordsOf 4 m.count (code m.map (4 * m.count))).all fun v => (parseMap v).kind ≤ 5 && cregOk (parseMap v).creg

/-! ### Loading (R287, R288) -/

/-- The load status of a record and its code object; LOAD_OK stands also for a body still to be translated. (Log 66 DEDUCED.) -/
def loadStatus (b : List Byte) (k1 : Cap) (code : Nat → Nat → List Byte) : Nat :=
  let base := bitsOf (fieldAt b 8 8) 0 7
  let regions := (List.range (bitsOf (fieldAt b 0x28 8) 32 16)).map fun i => parseRegion (code (fieldAt b 0x30 8 + 64 * i) 64)
  let mon := fieldAt b 0x38 8
  let n := fieldAt b 0x54 4
  let stamp := fieldAt b 0x48 8
  if !recordOk b k1 then 1
  else if !(regions.all (regionOk base) && allApart regions) then 2
  else if !(mapsOk code (mon % 2 ^ 32) (bitsOf mon 32 16) && (n == 0 || cheoriOk (code (fieldAt b 0x50 4) n))) then 3
  else if !storeOk b then 6
  else if fieldAt b 0x40 8 ≠ 0 then 5
  else if (stamp == 0 || stamp != deviceHash) && n == 0 then 4
  else 0

/-- The state that a status leads to. -/
def loadState (b : List Byte) (status : Nat) : Nat :=
  if status ≠ 0 then 2 else if fieldAt b 0x48 8 ≠ 0 && fieldAt b 0x48 8 = deviceHash then 4 else 3

/-- KEYID of the leaf of an object's first byte at `off`, where it is mapped. -/
def keyidAt (s : State) (asid obj off : Nat) : Option Nat :=
  match lookup s asid obj off 1 with
  | .ok k =>
    match trOf s k off false false with
    | .ok t => some t.keyid
    | .error _ => none
  | .error _ => none

/-- Every page of the first `n` bytes of an object lies on an HBM frame with COMP = 0 under key `key`, and may be written. -/
def onFrames (s : State) (asid obj n key : Nat) : Bool :=
  (List.range ((n + 65535) / 65536)).all fun i =>
    match lookup s asid obj (i * 65536) (n - i * 65536) with
    | .ok k =>
      match trOf s k (i * 65536) true false with
      | .ok t => t.tier == 0 && !t.comp && !t.hv && t.keyid == key
      | .error _ => false
    | .error _ => false

/-- The data object of a loaded kernel: its Cadastre entry and its bytes; the capability that is reported (R412). None where its pages
do not lie on HBM frames under the context's key, which is that of the launch record's page. (Log 66 DEDUCED.) -/
def makeData (s : State) (asid : Nat) (record : Cap) (obj entry : Nat) (bs : List Byte) : Option (State × Cap) :=
  let s := putBytes s ((sget 0 s.xlatCad asid).toNat + 16 * obj) (toBytes 16 entry) false
  let r := narrowRange 0 bs.length
  match keyidAt s asid record.object record.cursor with
  | none => none
  | some key =>
    if onFrames s asid obj bs.length key then
      match objWrite s (reqEngine asid) obj 0 bs false with
      | (s, .ok _) => some (s, mkCap 0 asid obj 3 r.2.2 r.2.1 r.1 0 true)
      | (_, .error _) => none
    else none

/-- KERNEL_LOAD: the loader checks the image whose launch record capability `cap` names, of context `asid`. Where `flag` is
set the source has a `.data` section of `bytes`, for object `id` with the Cadastre entry `value`, whose pages are mapped. -/
def execKernelLoad (s : State) : Host.Outcome State Fault Refusal :=
  let a := s.ev.asid
  let c := s.ev.cap
  let b := (peek s a c.object c.cursor 384).getD (zeros 384)
  let k1 := ((engineCap s (reqEngine a) c.object (c.cursor + 0x90)).2.toOption).getD Cap.null
  let code := fun o n => (peek s a k1.object (k1.low + o) n).getD (zeros n)
  let st := loadStatus b k1 code
  let k : Kernel := { asid := a, record := c, state := loadState b st, status := st, dataCap := Cap.null }
  let done := fun (s : State) (d : Cap) =>
    { s with kernels := sput s.kernels (kernelKey a k1.object) { k with dataCap := d } }
  if st = 0 && s.ev.flag then
    match makeData s a c s.ev.id s.ev.value s.ev.bytes with
    | none => .next s
    | some (s, d) => .next (done s d)
  else .next (done s Cap.null)

/-- Write fields of a launch record, by offset. -/
def putRecord (rq : Req) (c : Cap) : List (Nat × List Byte) → State → State
  | [], s => s
  | (o, bs) :: r, s => putRecord rq c r (objWrite s rq c.object (c.cursor + o) bs false).1

/-- The record's fields of a translated kernel: it has no declared region. -/
def translatedFields (t : Translation) : List (Nat × List Byte) :=
  [(8, toBytes 8 t.shape), (0x20, toBytes 8 t.handler), (0x28, toBytes 8 t.frame), (0x30, zeros 8), (0x38, toBytes 8 t.montab), (0x50, toBytes 8 t.cheori),
   (0x60, toBytes 8 t.stack)]

/-- The translation of a kernel whose record names a body, as far as it fits the code object; `handler` is the native code of the trap
handler where the record has one. (Log 38 DESIGN CHOICE.) -/
def ownTranslation (s : State) (asid : Nat) (record k1 : Cap) (noE : Bool) (handler : List Byte) : Option Translation :=
  match peek s asid record.object record.cursor 128 with
  | none => none
  | some b =>
    match peek s asid k1.object (k1.low + fieldAt b 0x50 4) (fieldAt b 0x54 4) with
    | none => none
    | some body =>
      let hen := bitsOf (fieldAt b 0x20 8) 32 1 = 1
      match translate body (fieldAt b 8 8) (fieldAt b 0x60 4) noE (if hen then some handler else none) with
      | none => none
      | some t => if t.bytes.length ≤ codeSize k1 then some t else none

/-- TRANSLATION_COMPLETE: the translator has written the native body of the kernel with code object `id` of context `asid`, with
`flag` for E = 0 and, where its record has a trap handler, `bytes` for that handler's code; the body is stamped. A body that version 1
cannot place, or whose translation does not fit the code object, stays untranslated. (Log 38 DESIGN CHOICE.) -/
def execTranslationComplete (s : State) : Host.Outcome State Fault Refusal :=
  let a := s.ev.asid
  let k := sget Kernel.blank s.kernels (kernelKey a s.ev.id)
  if k.state = 3 then
    let rq := reqEngine a
    let k1 := ((engineCap s rq k.record.object (k.record.cursor + 0x90)).2.toOption).getD Cap.null
    match ownTranslation s a k.record k1 s.ev.flag s.ev.bytes with
    | none => .next s
    | some t =>
      let s := putRecord rq k.record (translatedFields t ++ [(0x48, toBytes 8 deviceHash)]) s
      let s := (objWrite s rq s.ev.id k1.low t.bytes false).1
      .next { s with kernels := smod s.kernels (kernelKey a s.ev.id) fun k => { k with state := 4 } }
  else .next s

/-! ### Retiring (R287, R412) -/

/-- KERNEL_UNLOAD: the driver unloads the kernel with code object `id` of context `asid`. -/
def execKernelUnload (s : State) : Host.Outcome State Fault Refusal :=
  if kernelState s s.ev.asid s.ev.id = 4 then
    .next (retireKernel { s with kernels := smod s.kernels (kernelKey s.ev.asid s.ev.id) fun k => { k with state := 5 } }
      s.ev.asid s.ev.id)
  else .next s

end Sys2Proof.Machine
end

