-- ==== Sys2Proof/Machine/Graph.lean ====
section
/-! DEFINITION. The graph and binning engines: reading entries, dispatch, ageing, completion, binning, and gangs (R268, R284,
R316 to R325). -/

namespace Sys2Proof.Machine

/-! ### Reading (R318) -/

/-- An entry whose completion waited on a fault that has been answered. -/
def heldCompletion (c : Chain) : Option (Nat × Nat × Nat × Nat) :=
  match c.entries.find? fun e => e.fixed.isSome && e.token.isNone && e.state != .complete with
  | some e => e.fixed.map fun f => (e.seq, f)
  | none => none

/-- An engine's chain goes on: a completion that waited, entries whose wait is over, then the next published entry. -/
def chainEntryRead (s : State) (ch : Nat) : State :=
  match sfind s.chains ch with
  | none => s
  | some c =>
    if !engineOn s c then s
    else
      match heldCompletion c with
      | some (q, st, cause, pc) => finishEntry s ch q st cause pc
      | none => readNext (settleChain (c.entries.length + 1) s ch) ch

/-! ### Places (R23, R321) -/

/-- Every place that names an instance of a level. (Log 69 DESIGN CHOICE.) -/
def instances (level : Nat) : List Loc :=
  let cl := List.range 4
  if level ≤ 5 then
    cl.flatMap fun c =>
      if level = 5 then [⟨c, 0, 0, 0, 0⟩]
      else (List.range 12).flatMap fun sl =>
        if level = 4 then [⟨c, sl, 0, 0, 0⟩]
        else (List.range 16).flatMap fun k =>
          if level = 3 then [⟨c, sl, k, 0, 0⟩] else (List.range 4).map fun p => ⟨c, sl, k, p, 0⟩
  else [Loc.zero]

/-- A free context of an offset core of the hard partition of context `asid`. -/
def offsetPlace (s : State) (asid : Nat) : Option Loc :=
  (List.range 4).findSome? fun c => (freeContexts s asid ⟨c, 0, 0, 0, 0⟩).head?

/-- The warps that the largest instance of a level holds, as the capability registers report them (R24, R64). -/
def levelWarps (s : State) (level : Nat) : Nat := cfgLevel s (min level 6)

/-- The status with which a node of `groups` groups whose record has been read completes at its dispatch, if it does (R24, R268,
R287, R290, R295). Only a Loaded kernel runs; a node of a kernel that has not been loaded is a bad launch. (Log 66 DEDUCED.) -/
def launchStatus (s : State) (l : Launch) (groups : Nat) : Option Nat :=
  if kernelState s l.asid l.kernel = 5 || kernelState s l.asid l.kernel = 6 then some 5
  else if kernelState s l.asid l.kernel ≠ 4 || !launchOk l groups then some 6
  else if !l.offThreads && levelWarps s l.level < l.warps then some 1
  else if l.groups = 0 then some 0
  else none

/-- Granule 3 of a class 2 or 3 node names a chain with room: its header, where it is valid for the class. -/
def targetHeader (s : State) (c : Chain) (e : Entry) : Option Header :=
  let t := granule e 3
  match peek s c.asid t.object t.cursor 64 with
  | none => none
  | some b =>
    let h := headerOf b
    if h.ok c.asid && h.engine == (if eClass e = 2 then 3 else 2) && capCovers t (64 + 64 * 2 ^ h.log2n) (rR + rW) 64 then some h
    else none

/-- Where a node's first group or thread finds room: an instance on which the group can be seated, so that no pinned or pending value
holds it back (R23, R307), or a free offset-core context. -/
def nodePlace (s : State) (l : Launch) : Option Loc :=
  if l.offThreads then offsetPlace s l.asid
  else
    let (id, t) := newId s
    let t := { t with launches := sput t.launches id l }
    (instances l.level).find? fun p => (seatGroup t id p).isSome

/-- A Ready entry finds a place: a group, a thread, or a chain slot; one that completes at its dispatch needs none. One that waits
on a fault finds none. -/
def findsPlace (s : State) (ch : Nat) (e : Entry) : Bool :=
  let c := chainOf s ch
  if e.token.isSome then false
  else if eKind e = 2 || e.denied then true
  else if 2 ≤ eClass e then
    match targetHeader s c e with
    | some h => !h.full
    | none => true
  else
    match (entryRecord s c e).2 with
    | .ok (some r) =>
      let l := nodeLaunch c ch e r
      (launchStatus s l (nodeGroups e r)).isSome || (nodePlace s l).isSome
    | _ => true

/-! ### Which node (R321) -/

/-- The Ready entries of graph chains whose contexts may run, with their chains. -/
def readyNodes (s : State) : List (Nat × Entry) :=
  s.chains.flatMap fun p =>
    if p.2.engine == 1 && mayPlace s p.2.asid then
      (p.2.entries.filter fun e => e.state == .ready && e.fixed.isNone).map fun e => (p.1, e)
    else []

/-- No Ready entry of the same level is older. -/
def isOldest (l : List (Nat × Entry)) (e : Entry) : Bool := l.all fun p => p.2.prio != e.prio || e.readyAt ≤ p.2.readyAt

/-- Entry `e` is the one that the graph engine may dispatch: the oldest of its level, and the oldest of each higher level
finds no place. -/
def mayDispatch (s : State) (e : Entry) : Bool :=
  let l := readyNodes s
  isOldest l e && l.all fun p => p.2.prio ≤ e.prio || !isOldest l p.2 || !findsPlace s p.1 p.2

/-! ### COPY (R320) -/

/-- Move `n` bytes of a COPY entry from byte `o` on, line by line, as far as they go: the bytes moved, and the fault. -/
def copyLines (rq : Req) (src dst : Cap) : Nat → Nat → Nat → State → State × Nat × Option (Flt × Bool)
  | 0, o, _, s => (s, o, none)
  | f + 1, o, n, s =>
    if n = 0 then (s, o, none)
    else
      let a := src.cursor + o
      let b := dst.cursor + o
      let m := min n (min (64 - a % 64) (64 - b % 64))
      match objReadM s rq src.object a m false with
      | (s, .error e) => (s, o, some (e, false))
      | (s, .ok l) =>
        match objWriteM s rq dst.object b l with
        | (s, .error e) => (s, o, some (e, true))
        | (s, .ok _) => copyLines rq src dst f (o + m) (n - m) s

/-- A COPY entry runs: to its end, or until a fault that it waits on. (Log 68 DEDUCED.) -/
def runCopy (s : State) (ch : Nat) (e : Entry) : State :=
  let c := chainOf s ch
  let src := granule e 1
  let dst := granule e 3
  if e.denied || !capCovers src e.length rR 1 || !capCovers dst e.length rW 1 then finishEntry s ch e.seq 11 0 0
  else
    match copyLines (chainReq c) src dst e.length e.moved (e.length - e.moved) s with
    | (s, _, none) => finishEntry s ch e.seq 0 0 0
    | (s, o, some (f, wr)) =>
      let s := modEntry s ch e.seq fun e => { e with moved := o }
      engineFault s ch e.seq (if wr then dst.object else src.object) wr f

/-! ### NODE class 2 and 3 (R320) -/

/-- Write four granules. -/
def putGranules (rq : Req) (obj : Nat) : List Cap → Nat → State → State × Except Flt Unit
  | [], _, s => (s, .ok ())
  | c :: r, off, s =>
    match objWriteCap s rq obj off c false with
    | (s, .error f) => (s, .error f)
    | (s, .ok _) => putGranules rq obj r (off + 16) s

/-- Append the request block of granule 1 to the target chain and publish it. (Log 68 DEDUCED.) -/
def appendRequest (s : State) (c : Chain) (e : Entry) (h : Header) : State × Except Flt Unit :=
  let rq := chainReq c
  let t := granule e 3
  match engineCaps rq (granule e 1).object 4 (granule e 1).cursor s with
  | (s, .error f) => (s, .error f)
  | (s, .ok gs) =>
    let gs := (withSmode h 0 (gs.map fun g => (g, false))).map (·.1)
    match putGranules rq t.object gs (t.cursor + slotAt h h.resv) s with
    | (s, .error f) => (s, .error f)
    | (s, .ok _) => objWrite s rq t.object (t.cursor + 8) (toBytes 4 (h.resv + 1) ++ toBytes 4 (h.resv + 1)) false

/-- A node of class 2 or 3 is dispatched. A target that is no valid chain completes it with POINTER. -/
def runRequest (s : State) (ch : Nat) (e : Entry) : State :=
  let c := chainOf s ch
  match targetHeader s c e with
  | none => finishEntry s ch e.seq 11 0 0
  | some h =>
    if h.full then s
    else
      match appendRequest s c e h with
      | (s', .ok _) => modEntry s' ch e.seq fun e => { e with state := .running, moved := h.resv }
      | (_, .error f) => engineFault s ch e.seq (granule e 3).object true f

/-! ### Gangs (R324, R325) -/

/-- A gang of a node of kernel `kernel` becomes armed: ARM goes to every member of the table. -/
def armGang (s : State) (ch : Nat) (e : Entry) (kernel : Nat) : State :=
  let c := chainOf s ch
  let g2 := (granule e 2).bits.toNat
  let n := bitsOf g2 32 12
  let t := bitsOf g2 96 32
  let k := granule e 3
  match objRead s (chainReq c) k.object k.cursor (4 * n) false with
  | (s, .error f) => engineFault s ch e.seq k.object false f
  | (s, .ok (bs, _)) =>
    let (id, s) := newId s
    let g : Gang :=
      { asid := c.asid, kernel := kernel, chain := ch, seq := e.seq, state := .arming, members := wordsOf 4 n bs, acked := [], done := []
        deadline := s.time + (if t = 0 then 250000 else t) * 1000 }
    modEntry { s with gangs := sput s.gangs id g } ch e.seq fun e => { e with state := .running, launch := id }

/-- Change gang `g`. -/
def modGang (s : State) (g : Nat) (f : Gang → Gang) : State := { s with gangs := smod s.gangs g f }

/-- The leader's entry of a gang is still running. -/
def gangLives (s : State) (g : Gang) : Bool :=
  match entryOf (chainOf s g.chain) g.seq with
  | some e => e.state == .running && e.fixed.isNone
  | none => false

/-- A gang's node has ended with `status`: it completes, and a kernel that only it used retires. -/
def endGang (s : State) (id : Nat) (g : Gang) (st : GangState) (status : Nat) : State :=
  let s := modGang s id fun g => { g with state := st }
  retireKernel (if gangLives s g then finishEntry s g.chain g.seq status 0 0 else s) g.asid g.kernel

/-- The leader aborts a gang: its node completes with GANG_ABORT. -/
def abortGang (s : State) (id : Nat) (g : Gang) : State := endGang s id g .aborted 9

/-- GANG_ACK: device `member` of gang `gang` acknowledges ARM; when all have, GO is sent. -/
def execGangAck (s : State) : Host.Outcome State Fault Refusal :=
  match sfind s.gangs s.ev.gang with
  | none => .next s
  | some g =>
    if g.state = .arming && g.members.contains s.ev.member then
      let acked := s.ev.member :: g.acked.filter (· != s.ev.member)
      let all := g.members.all acked.contains
      .next (modGang s s.ev.gang fun g => { g with acked := acked, state := if all then .running else .arming })
    else .next s

/-- GANG_TIMEOUT: gang `gang` has waited GANG_TIMEOUT with a member unacknowledged. -/
def execGangTimeout (s : State) : Host.Outcome State Fault Refusal :=
  match sfind s.gangs s.ev.gang with
  | none => .next s
  | some g => if g.state = .arming then .next (abortGang (reachTime s g.deadline) s.ev.gang g) else .next s

/-- GANG_MEMBER_RESET: the gang context of a member of gang `gang` was reset while Running. -/
def execGangMemberReset (s : State) : Host.Outcome State Fault Refusal :=
  match sfind s.gangs s.ev.gang with
  | none => .next s
  | some g => if g.state = .running then .next (abortGang s s.ev.gang g) else .next s

/-- The first nonzero status of members, in the order of their reports. -/
def firstStatus (l : List (Nat × Nat)) : Nat := ((l.map (·.2)).find? (· != 0)).getD 0

/-- GANG_MEMBER_DONE: device `member` of gang `gang` reports its groups Done, with status `value`. -/
def execGangMemberDone (s : State) : Host.Outcome State Fault Refusal :=
  match sfind s.gangs s.ev.gang with
  | none => .next s
  | some g =>
    if g.state = .running && g.members.contains s.ev.member && !g.done.any (fun d => d.1 == s.ev.member) then
      let done := g.done ++ [(s.ev.member, s.ev.value)]
      let s := modGang s s.ev.gang fun g => { g with done := done }
      if g.members.all fun m => done.any fun d => d.1 == m then
        .next (endGang s s.ev.gang g .done (firstStatus done))
      else .next s
    else .next s

/-- Seat `n` groups of a launch; none where one finds no room. (Log 69 DESIGN CHOICE.) -/
def seatAll : Nat → Nat → State → Option State
  | 0, _, s => some s
  | n + 1, ln, s =>
    match seatGroup s ln Loc.zero with
    | some p => seatAll n ln p.2
    | none => none

/-- Keep the places of every group of launch `ln` for gang `gang`: its warps and groups stand aside, and none is placed (R324).
(Log 69 DESIGN CHOICE.) -/
def reserveAll (s : State) (gang ln leader : Nat) : Option State :=
  let l := launchOf s ln
  (seatAll l.groups ln s).map fun t =>
    let gs := t.groups.filter fun g => g.2.launch == ln
    let us := t.units.filter fun u => gs.any fun g => g.1 == u.2.grp
    { modLaunch t ln (fun _ => l) with
      groups := t.groups.filter fun g => g.2.launch != ln
      units := t.units.filter fun u => !gs.any fun g => g.1 == u.2.grp
      gangParts := sput t.gangParts gang ⟨ln, l.asid, leader, true, false, us, gs⟩ }

/-- GANG_ARM: this device is member `member` of gang `gang` that device `value` leads, with context `asid` and the launch record that
`cap` names. Where its kernel may run and its groups have room it keeps their places and acknowledges (R295, R324). A member whose
links are all Down cannot (R404). (Log 69 DESIGN CHOICE.) -/
def execGangArm (s : State) : Host.Outcome State Fault Refusal :=
  let a := s.ev.asid
  let k := s.ev.cap
  if !mayPlace s a || !capCovers k 384 rR 64 || (s.ev.value ≠ s.domainId && pathDown s 3) then .next s
  else
    match readRecord s (reqEngine a) k with
    | (s, .error _) => .next s
    | (s, .ok r) =>
      let l := { launchFrom a r with member := s.ev.member }
      if (launchStatus s l l.groups).getD 0 ≠ 0 then .next s
      else
        let (id, t) := newId s
        .next ((reserveAll { t with launches := sput t.launches id l } s.ev.gang id s.ev.value).getD s)

/-- GANG_GO: the groups of this device's part of gang `gang` are placed where their places are kept; in a context that is not Ready or
Resident, or whose virtual device is Held, once that changes (R324, R398). (Log 69 DESIGN CHOICE.) -/
def execGangGo (s : State) : Host.Outcome State Fault Refusal :=
  match sfind s.gangParts s.ev.gang with
  | none => .next s
  | some p =>
    if p.acked && !p.started then
      let s := { s with gangParts := smod s.gangParts s.ev.gang fun p => { p with started := true } }
      .next (if mayPlace s p.asid then placePart s s.ev.gang p else s)
    else .next s

/-- GANG_ABORT: this device's part of gang `gang` has acknowledged or started, and its context takes GANG_ABORT (R325). -/
def execGangAbort (s : State) : Host.Outcome State Fault Refusal :=
  match sfind s.gangParts s.ev.gang with
  | none => .next s
  | some p =>
    if p.acked || p.started then
      .next (ctxFault { s with gangParts := sdel s.gangParts s.ev.gang } p.asid 5 0)
    else .next s

/-! ### Dispatch -/

/-- A node of class 0 or 1 is dispatched at `loc`, where its first group or thread finds room. -/
def runNode (s : State) (ch : Nat) (e : Entry) (loc : Loc) : State :=
  let c := chainOf s ch
  match entryRecord s c e with
  | (s, .error f) => engineFault s ch e.seq (granule e 1).object false f
  | (s, .ok none) => finishEntry s ch e.seq 11 0 0
  | (s, .ok (some r)) =>
    let l := nodeLaunch c ch e r
    match launchStatus s l (nodeGroups e r) with
    | some st => finishEntry s ch e.seq st 0 0
    | none =>
      if l.level = 7 && !l.offThreads then armGang s ch e l.kernel
      else
        let (id, t) := newId s
        let t := { t with launches := sput t.launches id l }
        let fits := if l.offThreads then (placeThread t id loc).isSome else (placeGroup t id loc).isSome
        if fits then modEntry t ch e.seq fun e => { e with state := .running, launch := id } else s

/-- Dispatch an entry (R319, R320). A released entry whose LENGTH is 0 has completed already (R323). -/
def dispatch (s : State) (ch : Nat) (e : Entry) (loc : Loc) : State :=
  let s := advanced s (chainOf s ch).asid
  if e.denied then finishEntry s ch e.seq 11 0 0
  else if eKind e = 2 then
    runCopy (makeResident (modEntry s ch e.seq fun e => { e with state := .running }) (chainOf s ch).asid) ch e
  else if 2 ≤ eClass e then runRequest s ch e
  else runNode s ch e loc

/-- NODE_DISPATCH: entry `seq` of graph chain `chain` is dispatched, at the place `loc` for a node of class 0 or 1; a COPY
entry in progress goes on. -/
def execNodeDispatch (s : State) : Host.Outcome State Fault Refusal :=
  let c := chainOf s s.ev.chain
  match entryOf c s.ev.seq with
  | none => .next s
  | some e =>
    if c.engine = 1 && mayPlace s c.asid && e.token.isNone && e.fixed.isNone then
      if e.state = .ready && mayDispatch s e then .next (dispatch s s.ev.chain e s.ev.loc)
      else if e.state = .running && eKind e = 2 then .next (runCopy s s.ev.chain e)
      else .next s
    else .next s

/-- NODE_AGEING: entry `seq` of graph chain `chain` has been Ready for 1,000 µs at one level (R321). -/
def execNodeAgeing (s : State) : Host.Outcome State Fault Refusal :=
  let c := chainOf s s.ev.chain
  match entryOf c s.ev.seq with
  | none => .next s
  | some e =>
    if c.engine = 1 && e.state = .ready && e.prio < 7 then
      let t := e.agedAt + 1000000
      .next (modEntry (reachTime s t) s.ev.chain s.ev.seq fun e => { e with prio := e.prio + 1, agedAt := t })
    else .next s

/-! ### Completion (R322) -/

/-- Every group of a launch has finished, and every copy of its warps has completed (R322). -/
def launchDone (s : State) (ln : Nat) : Bool :=
  let l := launchOf s ln
  l.placed == l.groups && l.finished == l.groups
    && !(s.units.any fun p => p.2.stat == .ended && (groupOf s p.2.grp).launch == ln)

/-- A finished launch leaves the device, with its groups. -/
def dropLaunch (s : State) (ln : Nat) : State :=
  let l := launchOf s ln
  retireKernel { s with launches := sdel s.launches ln, groups := s.groups.filter fun p => p.2.launch != ln } l.asid l.kernel

/-- The end of a node of class 0 or 1. -/
def finishNode (s : State) (ch q ln : Nat) : State :=
  let l := launchOf s ln
  let trap := l.status = 2 || l.status = 3
  dropLaunch (finishEntry s ch q l.status (if trap then l.cause else 0) (if trap then l.pc else 0)) ln

/-- The request that a node of class 2 or 3 appended has completed: as the target chain's engine knows it, or where DONE has passed
it (R316, R320). (Log 68 DEDUCED.) -/
def requestDone (s : State) (c : Chain) (e : Entry) : Bool :=
  let t := granule e 3
  let known := s.chains.any fun p =>
    p.2.asid == c.asid && p.2.cap.object == t.object && p.2.cap.cursor == t.cursor
      && (entryOf p.2 e.moved).any fun x => x.state == .complete
  known || match peek s c.asid (granule e 3).object ((granule e 3).cursor + 0x10) 4 with
  | some b => seqDone (ofBytes b) e.moved
  | none => false

/-- NODE_COMPLETE: entry `seq` of graph chain `chain` has no work left; with `flag`, this device's part of gang `gang`.
(Log 69 DESIGN CHOICE.) -/
def execNodeComplete (s : State) : Host.Outcome State Fault Refusal :=
  if s.ev.flag then
    match sfind s.gangParts s.ev.gang with
    | none => .next s
    | some p =>
      if p.started && launchDone s p.launch then
        .next (settleCtx (dropLaunch { s with gangParts := sdel s.gangParts s.ev.gang } p.launch) p.asid)
      else .next s
  else
    let c := chainOf s s.ev.chain
    match entryOf c s.ev.seq with
    | none => .next s
    | some e =>
      if c.engine = 1 && e.state = .running && eKind e = 1 && e.token.isNone && e.fixed.isNone then
        if 2 ≤ eClass e then
          if requestDone s c e then .next (finishEntry s s.ev.chain s.ev.seq 0 0 0) else .next s
        else
          if (sfind s.launches e.launch).isSome && launchDone s e.launch then .next (finishNode s s.ev.chain s.ev.seq e.launch)
          else .next s
      else .next s

/-! ### Binning (R323) -/

/-- The counts of the items below NBINS, and whether an item was ignored. -/
def countItems (n : Nat) (items : List Nat) : List Nat × Bool :=
  ((List.range n).map fun d => items.countP (· == d), items.any fun d => n ≤ d)

/-- Patch and release the Held entries of a chain: they share one ready time. -/
def releaseHeldIn (counts : List Nat) (base scale p t : Nat) (c : Chain) : Chain :=
  { c with entries := c.entries.map fun e =>
      if e.state == .held && base ≤ eBin e && eBin e < base + counts.length then
        { e with length := counts.getD (eBin e - base) 0 * scale % 2 ^ 32, state := .ready, readyAt := p, agedAt := t
                 prio := ePrio e }
      else e }

/-- Entries that a release made Ready with LENGTH 0. -/
def emptyReady (s : State) (asid p : Nat) : List (Nat × Nat) :=
  s.chains.flatMap fun q =>
    if q.2.asid == asid && q.2.engine == 1 then
      (q.2.entries.filter fun e => e.state == .ready && e.readyAt == p && e.length == 0).map fun e => (q.1, e.seq)
    else []

/-- The release of step 3, as one event. -/
def releaseAll (s : State) (asid : Nat) (counts : List Nat) (base scale : Nat) : State :=
  let p := s.arbPos
  let s := { s with
    arbPos := p + 1
    chains := s.chains.map fun q =>
      if q.2.asid == asid && q.2.engine == 1 then (q.1, releaseHeldIn counts base scale p s.time q.2) else q }
  (emptyReady s asid p).foldl (fun s q => finishEntry s q.1 q.2 0 0 0) s

/-- A BIN entry runs. (Log 68 DEDUCED.) -/
def runBin (s : State) (ch : Nat) (e : Entry) : State :=
  let c := chainOf s ch
  let g2 := (granule e 2).bits.toNat
  let rq := chainReq c
  let items := granule e 1
  let out := granule e 3
  match objRead s rq items.object items.cursor (4 * e.length) false with
  | (s, .error f) => engineFault s ch e.seq items.object false f
  | (s, .ok (bs, _)) =>
    let (counts, lost) := countItems (bitsOf g2 0 16) (wordsOf 4 e.length bs)
    match objWrite s rq out.object out.cursor (counts.flatMap (toBytes 4)) false with
    | (s, .error f) => engineFault s ch e.seq out.object true f
    | (s, .ok _) =>
      finishEntry (releaseAll s c.asid counts (bitsOf g2 16 16) (bitsOf g2 32 32)) ch e.seq (if lost then 10 else 0) 0 0

/-- BIN_ENTRY: the binning engine runs entry `seq` of its chain `chain`. -/
def execBinEntry (s : State) : Host.Outcome State Fault Refusal :=
  let c := chainOf s s.ev.chain
  match entryOf c s.ev.seq with
  | none => .next s
  | some e =>
    if c.engine = 2 && engineOn s c && e.state = .ready && e.token.isNone && e.fixed.isNone then
      if e.denied then .next (finishEntry s s.ev.chain s.ev.seq 11 0 0)
      else .next (runBin (makeResident (advanced s c.asid) c.asid) s.ev.chain e)
    else .next s

end Sys2Proof.Machine
end

