-- ==== Sys2Proof/Machine/ControlChain.lean ====
section
/-! DEFINITION. Control chains in host memory and their entries: CTXREG, CHREG, CTXDESTROY and ATTEST (R245, R246, R314, R315,
R409). -/

namespace Sys2Proof.Machine

/-! ### Host memory -/

/-- `n` bytes of host memory. -/
def hostBytes (s : State) (a n : Nat) : List Byte := memBytes s (tierBase 1 + a) n

/-- Write bytes of host memory. -/
def hostPut (s : State) (a : Nat) (bs : List Byte) : State := putBytes s (tierBase 1 + a) bs false

/-- The hard partition of a virtual device. -/
def vdHpart (s : State) (vd : Nat) : Nat := bitsOf (sget 0 s.vdPart vd) 0 3

/-- An ASID lies in the PART_ASID range of a hard partition (R397, R402). -/
def asidIn (s : State) (h asid : Nat) : Bool :=
  let v := (sget 0 s.partAsid h).toNat
  bitsOf v 0 13 ≤ asid && asid ≤ bitsOf v 16 13

/-! ### Registration and publishing (R315) -/

/-- A control chain's header is well formed. -/
def ctlHeaderOk (h : Header) : Bool :=
  h.ctl % 16 == 0 && 1 ≤ h.log2n && h.log2n ≤ 16 && h.ctl / 2 ^ 9 == 0 && h.owner == 0 && h.rest == 0

/-- A write of CTLCHAIN. -/
def writeCtlchain (s : State) (vd a : Nat) : State :=
  let h := headerOf (hostBytes s a 64)
  if a ≠ 0 && a % 64 = 0 && ctlHeaderOk h then
    let s := hostPut s a (toBytes 4 (h.ctl + 2 ^ 31) ++ toBytes 4 0 ++ toBytes 4 1 ++ toBytes 4 1 ++ toBytes 4 0 ++ toBytes 4 0)
    modVd s vd fun v => { v with ctlchain := a, ctlTail := 1, ctlNext := 1, ctlLog2 := h.log2n, ctlFailed := [] }
  else modVd s vd fun v => { v with ctlchain := 0 }

/-- CTLCHAIN: virtual device `vd` writes `value`. -/
def execCtlchain (s : State) : Host.Outcome State Fault Refusal := .next (writeCtlchain s s.ev.vd s.ev.value)

/-- A write of CTLTAIL. -/
def writeCtltail (s : State) (vd v : Nat) : State := modVd s vd fun x => { x with ctlTail := v % 2 ^ 32 }

/-- CTLTAIL: virtual device `vd` writes `value`. -/
def execCtltail (s : State) : Host.Outcome State Fault Refusal := .next (writeCtltail s s.ev.vd s.ev.value)

/-! ### Entries -/

/-- The next published entry of a virtual device's control chain, its granules as bits. -/
def ctlEntry (s : State) (vd : Nat) : Option Entry :=
  let v := vdOf s vd
  if v.state = 0 || v.ctlchain = 0 || v.ctlNext = v.ctlTail then none
  else
    let a := v.ctlchain + 64 + 64 * (v.ctlNext % 2 ^ v.ctlLog2)
    some { Entry.blank with
      seq := v.ctlNext
      granules := (List.range 4).map fun i => ⟨BitVec.ofNat 128 (ofBytes (hostBytes s (a + 16 * i) 16)), false⟩ }

/-- A capability granule of a control entry is accepted as tagged. -/
def ctlCap (s : State) (vd : Nat) (c : Cap) : Option Cap :=
  if asidIn s (vdHpart s vd) c.tenant && c.top == 0 then some { c with tag := true } else none

/-- A control entry completes: its status, its event, DONE, and vector 2, which the arbiter orders after the event (R26, R315, R322). -/
def finishCtl (s : State) (vd : Nat) (e : Entry) (status : Nat) : State :=
  let v := vdOf s vd
  let s := if status = 0 then s
    else hostPut (hostPut s (v.ctlchain + 4) (toBytes 4 status)) (v.ctlchain + 0x14) (toBytes 4 e.seq)
  let s := if status ≠ 0 || eNotify e then present s 1 vd 1 0 0 e.seq status else s
  let s := presentIrq (hostPut s (v.ctlchain + 0x10) (toBytes 4 e.seq)) 1 vd 2
  modVd s vd fun v =>
    { v with ctlNext := (e.seq + 1) % 2 ^ 32, ctlFailed := if status = 0 then v.ctlFailed else (e.seq :: v.ctlFailed).take 65536 }

/-- Sequence number `p` lies in (q − N, q) of a control chain. -/
def inCtlRing (v : Vd) (q p : Nat) : Bool :=
  let k := (q + 2 ^ 32 - p) % 2 ^ 32
  0 < k && k < 2 ^ v.ctlLog2

/-- A predecessor failed: a named one, or with ORDERED any earlier entry (R317). -/
def ctlPredFailed (v : Vd) (e : Entry) : Bool :=
  v.ctlFailed.any fun p => eOrdered e || (inCtlRing v e.seq p && (ePreds e).contains p)

/-- The checks that every control entry shares (R315, R318): a status, or the capabilities of granules 1 and 3.
(Log 67 DEDUCED.) -/
def ctlCheck (s : State) (vd : Nat) (e : Entry) : Except Nat (Cap × Cap) :=
  let v := vdOf s vd
  let k := eKind e
  let g := fun i => granule e i
  if k < 0x20 || 0x23 < k || (ePreds e).any (fun p => !inCtlRing v e.seq p)
      || (k ≠ 0x23 && ((g 2).bits != 0 || (g 3).bits != 0)) then .error 7
  else
    match if k = 0x23 then ctlCap s vd (g 3) else ctlCap s vd (g 1) with
    | none => .error 11
    | some c =>
      if k = 0x23 && !capCovers c 512 rW 1 then .error 11
      else if (k = 0x20 || k = 0x22) && !capCovers c 32 (rR + rW) 1 then .error 11
      else if ctlPredFailed v e then .error 8
      else .ok (c, c)

/-- The entry passes the checks of its reading. -/
def ctlPasses (s : State) (vd : Nat) (e : Entry) : Bool :=
  match ctlCheck s vd e with
  | .error _ => false
  | .ok _ => true

/-- Run the next control entry where its KIND is `k`; `f` gives the state and the status. The checks come at its reading (R318); one
that passes them and is held waits for ever, as no binning release covers a control chain (R319). -/
def runCtl (s : State) (vd k : Nat) (f : Cap → Entry → State × Nat) : State :=
  match ctlEntry s vd with
  | none => s
  | some e =>
    if eKind e ≠ k then s
    else
      match ctlCheck s vd e with
      | .error st => finishCtl s vd e st
      | .ok (c, _) => if eHold e then s else let (s, st) := f c e; finishCtl s vd e st

/-! ### CTXREG (R245) -/

/-- The descriptor's fields pass R245. -/
def descOk (s : State) (w0 w1 w2 : Nat) : Bool :=
  let _ := w1
  let asid := bitsOf w0 0 13
  bitsOf w0 19 13 == 0 && bitsOf w0 13 3 == 0 && bitsOf w2 32 32 == 0
    && (match sfind s.ctxs asid with
      | some c => c.state == .destroyed
      | none => true)
    && asidIn s (bitsOf w0 16 3) asid

/-- A value of 0 selects the default (R64, R245). -/
def orDefault (v d : Nat) : Nat := if v = 0 then d else v

/-- The context that a descriptor describes. -/
def ctxFrom (vd : Nat) (c : Cap) (w0 w1 w2 : Nat) : Ctx :=
  { Ctx.blank with
    vd := vd, desc := c, hpart := bitsOf w0 16 3, state := .created, exitBudget := orDefault (bitsOf w0 32 16) 8192
    tmaskBound := orDefault (bitsOf w0 48 16) 4096, rejoinLimit := orDefault (bitsOf w1 0 32) 65536, slice := bitsOf w1 32 32
    watchdog := bitsOf w2 0 32 }

/-- Register the context whose descriptor `c` names. (Log 67 DEDUCED.) -/
def registerCtx (s : State) (vd : Nat) (c : Cap) : State × Nat :=
  match objRead s (reqEngine c.tenant) c.object c.cursor 32 false with
  | (s, .error _) => (s, 11)
  | (s, .ok (b, _)) =>
    let w0 := fieldAt b 0 8
    let w1 := fieldAt b 8 8
    let w2 := fieldAt b 16 8
    if descOk s w0 w1 w2 then
      let a := bitsOf w0 0 13
      (setCtxState { s with ctxs := sput s.ctxs a (ctxFrom vd c w0 w1 w2) } a .ready, 0)
    else (s, 12)

/-- CTXREG: the next control entry of virtual device `vd` registers a context. -/
def execCtxreg (s : State) : Host.Outcome State Fault Refusal :=
  .next (runCtl s s.ev.vd 0x20 fun c _ => registerCtx s s.ev.vd c)

/-! ### CHREG (R314) -/

/-- The header words that registration writes: CTL with REG, ERRCODE, RESV, TAIL, DONE, ERRSEQ. -/
def regHeader (h : Header) : List Byte :=
  toBytes 4 (h.ctl % 2 ^ 31 + 2 ^ 31) ++ toBytes 4 0 ++ toBytes 4 1 ++ toBytes 4 1 ++ toBytes 4 0 ++ toBytes 4 0

/-- Register the chain that `c` names. (Log 67 DEDUCED.) -/
def registerChain (s : State) (vd : Nat) (c : Cap) : State × Nat :=
  match objRead s (reqEngine c.tenant) c.object c.cursor 64 false with
  | (s, .error _) => (s, 7)
  | (s, .ok (b, _)) =>
    let h := headerOf b
    let a := h.owner
    if !capCovers c 64 (rR + rW) 64 || !h.formOk || h.engine = 0 || !capCovers c (64 + 64 * 2 ^ h.log2n) (rR + rW) 64
        || 2 ^ 13 ≤ a then (s, 7)
    else
      match sfind s.ctxs a with
      | none => (s, 12)
      | some x =>
        if x.vd ≠ vd || x.state = .destroyed then (s, 12)
        else
          match objWrite s (reqEngine a) c.object c.cursor (regHeader h) false with
          | (s, .error _) => (s, 7)
          | (s, .ok _) =>
            let (id, s) := newId s
            let k := { Chain.blank with
              asid := a, vd := vd, cap := c, engine := h.engine, cluster := h.cluster, log2n := h.log2n }
            let old := s.chains.filter fun p => !(p.2.asid == a && p.2.cap.object == c.object && p.2.cap.cursor == c.cursor)
            ({ s with chains := sput old id k }, 0)

/-- CHREG: the next control entry of virtual device `vd` registers a chain. -/
def execChreg (s : State) : Host.Outcome State Fault Refusal :=
  .next (runCtl s s.ev.vd 0x21 fun c _ => registerChain s s.ev.vd c)

/-! ### CTXDESTROY (R246) -/

/-- Reset a context alone and destroy it. (Log 67 DEDUCED.) -/
def destroyCtx (s : State) (asid : Nat) : State :=
  resetDone (setCtxState (modCtx s asid fun c => { c with dying := true, resetStatus := 4 }) asid .resetting) asid

/-- Destroy the context whose descriptor `c` names. -/
def unregisterCtx (s : State) (vd : Nat) (c : Cap) : State × Nat :=
  match objRead s (reqEngine c.tenant) c.object c.cursor 8 false with
  | (s, .error _) => (s, 11)
  | (s, .ok (b, _)) =>
    let a := bitsOf (ofBytes b) 0 13
    match sfind s.ctxs a with
    | none => (s, 12)
    | some x => if x.vd ≠ vd || x.state = .destroyed then (s, 12) else (destroyCtx s a, 0)

/-- CTXDESTROY: the next control entry of virtual device `vd` destroys a context. -/
def execCtxdestroy (s : State) : Host.Outcome State Fault Refusal :=
  .next (runCtl s s.ev.vd 0x22 fun c _ => unregisterCtx s s.ev.vd c)

/-! ### ATTEST (R409) -/

/-- The signed part of the report. The hash of a body that no start of this run has loaded is one free value.
(Log 37 DEDUCED.) -/
def attestBody (s : State) (nonce : List Byte) : List Byte :=
  s.image.getD ((List.range 32).map Config.heldFirmware) ++ toBytes 8 deviceHash ++ toBytes 4 Config.cfgRev.toNat
    ++ toBytes 4 (cfgCores s) ++ toBytes 4 (cfgOffcores s) ++ nonce

/-- Write the report. -/
def attest (s : State) (c : Cap) (e : Entry) : State × Nat :=
  let b := attestBody s (toBytes 16 (granule e 1).bits.toNat ++ toBytes 16 (granule e 2).bits.toNat)
  let r := b ++ padTo 384 ((Config.attestSignature s.fresh b).take 384)
  match objWrite { s with fresh := s.fresh + 32 } (reqEngine c.tenant) c.object c.cursor r false with
  | (s, .error _) => (s, 11)
  | (s, .ok _) => (s, 0)

/-- ATTEST: the next control entry of virtual device `vd` writes an attestation report. -/
def execAttest (s : State) : Host.Outcome State Fault Refusal := .next (runCtl s s.ev.vd 0x23 fun c e => attest s c e)

/-! ### CHAIN_ENTRY_READ (R315, R318) -/

/-- A control entry of a KIND that the control chain does not accept. -/
def rejectCtl (s : State) (vd : Nat) : State :=
  match ctlEntry s vd with
  | none => s
  | some e => if 0x20 ≤ eKind e && eKind e ≤ 0x23 then s else finishCtl s vd e 7

/-- CHAIN_ENTRY_READ: chain `chain` goes on, or with `flag` the control chain of virtual device `vd`. -/
def execChainEntryRead (s : State) : Host.Outcome State Fault Refusal :=
  .next (if s.ev.flag then rejectCtl s s.ev.vd else chainEntryRead s s.ev.chain)

end Sys2Proof.Machine
end

