-- ==== Sys2Proof/Machine/CrossThread.lean ====
section
/-! DEFINITION. XTHREAD: operations across the participants of an issue (R146 to R150). -/

namespace Sys2Proof.Machine

/-- The body of a cross-thread function: every participant's value is computed from the registers as they stood (R146). -/
def bodyCross (d : PReg) (reads : List RName) (g : Cx → Warp → List Nat → Nat → Word) (cx : Cx) (s : State) : Res :=
  let x : Uses := { reads := reads, writes := [.x d], data := [], tagged := false }
  if (nameCheck (unitOf s cx.u) x).isNone && onOffset (unitOf s cx.u) then trapAll cx s cOffsetIllegal
  else
    withOperands cx x (commit cx x fun s =>
      .ok (modUnit s cx.u fun w => cx.act.foldl (fun v t => setX v t d (g cx w cx.act t) 0) w)) s

/-- The thread that a shuffle reads: `s` where it participates, else the reader itself (R147). (Log 24 DEDUCED.) -/
def shflFrom (act : List Nat) (t u : Nat) : Nat := if act.contains u then u else t

/-- SHFL D, A, B (R147). -/
def execShfl (d a : PReg) (b : Src) (s : State) : Host.Outcome State Fault Refusal :=
  issue (srcLen b) false (bodyCross d (.x a :: srcName b) fun _ w act t =>
    getX w (shflFrom act t ((getSrc w t b).toNat % 128)) a) s

/-- SHFLX D, A, B (R147). -/
def execShflx (d a : PReg) (b : Src) (s : State) : Host.Outcome State Fault Refusal :=
  issue (srcLen b) false (bodyCross d (.x a :: srcName b) fun _ w act t =>
    getX w (shflFrom act t (t ^^^ ((getSrc w t b).toNat % 128))) a) s

/-- The participants of P(t) in rising index (R149). -/
def lanePartners (act : List Nat) (keep : Nat → Bool) : List Nat := (List.range 128).filter fun t => act.contains t && keep t

/-- The integer operation on P(t)'s values, the identity of an empty set included (R149). -/
def redI (op : RedI) (l : List Word) : Word :=
  match op with
  | .add => l.foldl aluAdd 0
  | .minI => l.foldl aluMinI 0x7FFFFFFF
  | .maxI => l.foldl aluMaxI 0x80000000
  | .minN => l.foldl aluMinN 0xFFFFFFFF
  | .maxN => l.foldl aluMaxN 0
  | .and => l.foldl aluAnd 0xFFFFFFFF
  | .or => l.foldl aluOr 0
  | .xor => l.foldl aluXor 0

/-- The exact f32 sum of the values of participants, rounded once (R149). -/
def redSum (cx : Cx) (ts : List Nat) (l : List Word) : Word :=
  if l.isEmpty then 0
  else
    let vs := l.map fun v => fdec .f32 v.toNat
    let mode := modeOf (cx.rmode % 8)
    BitVec.ofNat 32 (fenc .f32 mode false ⟨originHash cx.pc, lowest ts⟩ ((firstNan vs).getD (sumVals mode vs)))

/-- The float operation on P(t)'s values in rising index (R149). -/
def redF (op : RedF) (cx : Cx) (ts : List Nat) (l : List Word) : Word :=
  match op with
  | .sum => redSum cx ts l
  | .max =>
    match l with
    | [] => 0xFF800000
    | v :: _ => l.foldl fMax v
  | .min =>
    match l with
    | [] => 0x7F800000
    | v :: _ => l.foldl fMin v

/-- WREDF.op D, A (R149). -/
def execWredf (op : RedF) (d a : PReg) (s : State) : Host.Outcome State Fault Refusal :=
  issue 4 false (bodyCross d [.x a] fun cx w act _ =>
    let ts := lanePartners act fun _ => true
    redF op cx ts (ts.map fun t => getX w t a)) s

/-- WREDI.op D, A (R149). -/
def execWredi (op : RedI) (d a : PReg) (s : State) : Host.Outcome State Fault Refusal :=
  issue 4 false (bodyCross d [.x a] fun _ w act _ => redI op ((lanePartners act fun _ => true).map fun t => getX w t a)) s

/-- A participant counts in the scan of thread `t`. -/
def scanKeep (excl : Bool) (t u : Nat) : Bool := if excl then decide (u < t) else decide (u ≤ t)

/-- WSCANF.op D, A (R149). -/
def execWscanf (op : RedF) (excl : Bool) (d a : PReg) (s : State) : Host.Outcome State Fault Refusal :=
  issue 4 false (bodyCross d [.x a] fun cx w act t =>
    let ts := lanePartners act (scanKeep excl t)
    redF op cx ts (ts.map fun u => getX w u a)) s

/-- WSCANI.op D, A (R149). -/
def execWscani (op : RedI) (excl : Bool) (d a : PReg) (s : State) : Host.Outcome State Fault Refusal :=
  issue 4 false (bodyCross d [.x a] fun _ w act t => redI op ((lanePartners act (scanKeep excl t)).map fun u => getX w u a)) s

/-- VOTE.op D, A (R150). -/
def execVote (op : VoteOp) (d a : PReg) (s : State) : Host.Outcome State Fault Refusal :=
  issue 4 false (bodyCross d [.x a] fun _ w act t =>
    let l := act.map fun u => getX w u a
    match op with
    | .all => BitVec.ofNat 32 (l.all (· != 0)).toNat
    | .any => BitVec.ofNat 32 (l.any (· != 0)).toNat
    | .uni => BitVec.ofNat 32 (l.all (· == getX w t a)).toNat
    | .count => BitVec.ofNat 32 (l.countP (· != 0))) s

/-- MATCH.op D, A (R150). -/
def execMatchT (op : MatchOp) (d a : PReg) (s : State) : Host.Outcome State Fault Refusal :=
  issue 4 false (bodyCross d [.x a] fun _ w act t =>
    let same := lanePartners act fun u => getX w u a == getX w t a
    match op with
    | .leader => BitVec.ofNat 32 (lowest same)
    | .count => BitVec.ofNat 32 same.length
    | .rank => BitVec.ofNat 32 (same.countP (· < t))) s

end Sys2Proof.Machine
end

