-- ==== Sys2Proof/Machine/FloatArith.lean ====
section
/-! DEFINITION. The floating-point instructions: FARITH, FCMP, FSPEC, HPACK and BPACK (R131 to R141). -/

namespace Sys2Proof.Machine

/-- FADD D, A, B (R135). -/
def execFadd (d a : PReg) (b : Src) (s : State) : Host.Outcome State Fault Refusal :=
  perThread (srcLen b) (fun2 d a b fAdd) s

/-- FSUB D, A, B (R135). -/
def execFsub (d a : PReg) (b : Src) (s : State) : Host.Outcome State Fault Refusal :=
  perThread (srcLen b) (fun2 d a b fSub) s

/-- FMUL D, A, B (R135). -/
def execFmul (d a : PReg) (b : Src) (s : State) : Host.Outcome State Fault Refusal :=
  perThread (srcLen b) (fun2 d a b fMul) s

/-- FMIN D, A, B (R136). -/
def execFmin (d a : PReg) (b : Src) (s : State) : Host.Outcome State Fault Refusal :=
  perThread (srcLen b) (fun2 d a b (fun _ => fMin)) s

/-- FMAX D, A, B (R136). -/
def execFmax (d a : PReg) (b : Src) (s : State) : Host.Outcome State Fault Refusal :=
  perThread (srcLen b) (fun2 d a b (fun _ => fMax)) s

/-- FSCALE D, A, B (R135). -/
def execFscale (d a : PReg) (b : Src) (s : State) : Host.Outcome State Fault Refusal :=
  perThread (srcLen b) (fun2 d a b fScale) s

/-- FCOPYS D, A, B (R135). -/
def execFcopys (d a : PReg) (b : Src) (s : State) : Host.Outcome State Fault Refusal :=
  perThread (srcLen b) (fun2 d a b (fun _ => fCopys)) s

/-- FFMA D, A, B: D := A × B + D with one rounding (R135). -/
def execFfma (d a : PReg) (b : Src) (s : State) : Host.Outcome State Fault Refusal :=
  perThread (srcLen b) (fun3 d a b fun e d a b => fFma e a b d) s

/-- FCMP.EQ mD, A, B (R137). -/
def execFcmpEq (m : Fin 16) (a : PReg) (b : Src) (s : State) : Host.Outcome State Fault Refusal :=
  compare m a b (fun x y => fcond .eq x.toNat y.toNat) s

/-- FCMP.NE mD, A, B (R137). -/
def execFcmpNe (m : Fin 16) (a : PReg) (b : Src) (s : State) : Host.Outcome State Fault Refusal :=
  compare m a b (fun x y => fcond .ne x.toNat y.toNat) s

/-- FCMP.LT mD, A, B (R137). -/
def execFcmpLt (m : Fin 16) (a : PReg) (b : Src) (s : State) : Host.Outcome State Fault Refusal :=
  compare m a b (fun x y => fcond .lt x.toNat y.toNat) s

/-- FCMP.LE mD, A, B (R137). -/
def execFcmpLe (m : Fin 16) (a : PReg) (b : Src) (s : State) : Host.Outcome State Fault Refusal :=
  compare m a b (fun x y => fcond .le x.toNat y.toNat) s

/-- FCMP.UNORD mD, A, B (R137). -/
def execFcmpUnord (m : Fin 16) (a : PReg) (b : Src) (s : State) : Host.Outcome State Fault Refusal :=
  compare m a b (fun x y => fcond .unord x.toNat y.toNat) s

/-- FCMP.ORD mD, A, B (R137). -/
def execFcmpOrd (m : Fin 16) (a : PReg) (b : Src) (s : State) : Host.Outcome State Fault Refusal :=
  compare m a b (fun x y => fcond .ord x.toNat y.toNat) s

/-- FCMP.ISNAN mD, A (R137). -/
def execFcmpIsnan (m : Fin 16) (a : PReg) (s : State) : Host.Outcome State Fault Refusal :=
  compare m a (.reg .z) (fun x y => fcond .isnan x.toNat y.toNat) s

/-- FCMP.ISINF mD, A (R137). -/
def execFcmpIsinf (m : Fin 16) (a : PReg) (s : State) : Host.Outcome State Fault Refusal :=
  compare m a (.reg .z) (fun x y => fcond .isinf x.toNat y.toNat) s

/-- FRCP D, A (R138, R139). -/
def execFrcp (d a : PReg) (s : State) : Host.Outcome State Fault Refusal :=
  perThread 4 (fun1 d a fRcp) s

/-- FRSQ D, A (R138, R139). -/
def execFrsq (d a : PReg) (s : State) : Host.Outcome State Fault Refusal :=
  perThread 4 (fun1 d a fRsq) s

/-- FSQRT D, A (R138, R139). -/
def execFsqrt (d a : PReg) (s : State) : Host.Outcome State Fault Refusal :=
  perThread 4 (fun1 d a fSqrt) s

/-- FEXP2 D, A (R138, R139). -/
def execFexp2 (d a : PReg) (s : State) : Host.Outcome State Fault Refusal :=
  perThread 4 (fun1 d a fExp2) s

/-- FLOG2 D, A (R138, R139). -/
def execFlog2 (d a : PReg) (s : State) : Host.Outcome State Fault Refusal :=
  perThread 4 (fun1 d a fLog2) s

/-- FTANH D, A (R138, R139). -/
def execFtanh (d a : PReg) (s : State) : Host.Outcome State Fault Refusal :=
  perThread 4 (fun1 d a fTanh) s

/-- FDIV D, A, B (R138). -/
def execFdiv (d a : PReg) (b : Src) (s : State) : Host.Outcome State Fault Refusal :=
  perThread (srcLen b) (fun2 d a b fDiv) s

/-- FRINT D, A (R138). -/
def execFrint (d a : PReg) (s : State) : Host.Outcome State Fault Refusal :=
  perThread 4 (fun1 d a fRint) s

/-- HADD2 D, A, B (R140). -/
def execHadd2 (d a : PReg) (b : Src) (s : State) : Host.Outcome State Fault Refusal :=
  perThread (srcLen b) (fun2 d a b (pAdd .f16)) s

/-- HSUB2 D, A, B (R140). -/
def execHsub2 (d a : PReg) (b : Src) (s : State) : Host.Outcome State Fault Refusal :=
  perThread (srcLen b) (fun2 d a b (pSub .f16)) s

/-- HMUL2 D, A, B (R140). -/
def execHmul2 (d a : PReg) (b : Src) (s : State) : Host.Outcome State Fault Refusal :=
  perThread (srcLen b) (fun2 d a b (pMul .f16)) s

/-- HMIN2 D, A, B (R140). -/
def execHmin2 (d a : PReg) (b : Src) (s : State) : Host.Outcome State Fault Refusal :=
  perThread (srcLen b) (fun2 d a b (fun _ => pMin .f16)) s

/-- HMAX2 D, A, B (R140). -/
def execHmax2 (d a : PReg) (b : Src) (s : State) : Host.Outcome State Fault Refusal :=
  perThread (srcLen b) (fun2 d a b (fun _ => pMax .f16)) s

/-- HFMA2 D, A, B (R140). -/
def execHfma2 (d a : PReg) (b : Src) (s : State) : Host.Outcome State Fault Refusal :=
  perThread (srcLen b) (fun3 d a b fun e d a b => pFma .f16 e a b d) s

/-- DOT2 D, A, B: an f32 accumulation (R141). -/
def execDot2 (d a : PReg) (b : Src) (s : State) : Host.Outcome State Fault Refusal :=
  perThread (srcLen b) (fun3 d a b fun e d a b => pDot .f16 e a b d) s

/-- BADD2 D, A, B (R140). -/
def execBadd2 (d a : PReg) (b : Src) (s : State) : Host.Outcome State Fault Refusal :=
  perThread (srcLen b) (fun2 d a b (pAdd .bf16)) s

/-- BSUB2 D, A, B (R140). -/
def execBsub2 (d a : PReg) (b : Src) (s : State) : Host.Outcome State Fault Refusal :=
  perThread (srcLen b) (fun2 d a b (pSub .bf16)) s

/-- BMUL2 D, A, B (R140). -/
def execBmul2 (d a : PReg) (b : Src) (s : State) : Host.Outcome State Fault Refusal :=
  perThread (srcLen b) (fun2 d a b (pMul .bf16)) s

/-- BMIN2 D, A, B (R140). -/
def execBmin2 (d a : PReg) (b : Src) (s : State) : Host.Outcome State Fault Refusal :=
  perThread (srcLen b) (fun2 d a b (fun _ => pMin .bf16)) s

/-- BMAX2 D, A, B (R140). -/
def execBmax2 (d a : PReg) (b : Src) (s : State) : Host.Outcome State Fault Refusal :=
  perThread (srcLen b) (fun2 d a b (fun _ => pMax .bf16)) s

/-- BFMA2 D, A, B (R140). -/
def execBfma2 (d a : PReg) (b : Src) (s : State) : Host.Outcome State Fault Refusal :=
  perThread (srcLen b) (fun3 d a b fun e d a b => pFma .bf16 e a b d) s

/-- BDOT2 D, A, B: an f32 accumulation (R141). -/
def execBdot2 (d a : PReg) (b : Src) (s : State) : Host.Outcome State Fault Refusal :=
  perThread (srcLen b) (fun3 d a b fun e d a b => pDot .bf16 e a b d) s

end Sys2Proof.Machine
end

