-- ==== Sys2Proof/Machine/Integer.lean ====
section
/-! DEFINITION. The per-thread integer instructions: IARITH, IMINMAX, LOGIC, BITS, IMISC and ICMP (R110 to R119). -/

namespace Sys2Proof.Machine

/-- IADD D, A, B (R114). -/
def execIadd (d a : PReg) (b : Src) (s : State) : Host.Outcome State Fault Refusal :=
  perThread (srcLen b) (fun2 d a b fun _ => aluAdd) s

/-- ISUB D, A, B (R114). -/
def execIsub (d a : PReg) (b : Src) (s : State) : Host.Outcome State Fault Refusal :=
  perThread (srcLen b) (fun2 d a b fun _ => aluSub) s

/-- IMUL D, A, B (R114). -/
def execImul (d a : PReg) (b : Src) (s : State) : Host.Outcome State Fault Refusal :=
  perThread (srcLen b) (fun2 d a b fun _ => aluMul) s

/-- IMULH.i D, A, B (R114). -/
def execImulhI (d a : PReg) (b : Src) (s : State) : Host.Outcome State Fault Refusal :=
  perThread (srcLen b) (fun2 d a b fun _ => aluMulhI) s

/-- IMULH.n D, A, B (R114). -/
def execImulhN (d a : PReg) (b : Src) (s : State) : Host.Outcome State Fault Refusal :=
  perThread (srcLen b) (fun2 d a b fun _ => aluMulhN) s

/-- IADDS.i D, A, B (R114). -/
def execIaddsI (d a : PReg) (b : Src) (s : State) : Host.Outcome State Fault Refusal :=
  perThread (srcLen b) (fun2 d a b fun _ => aluAddsI) s

/-- IADDS.n D, A, B (R114). -/
def execIaddsN (d a : PReg) (b : Src) (s : State) : Host.Outcome State Fault Refusal :=
  perThread (srcLen b) (fun2 d a b fun _ => aluAddsN) s

/-- IABSD D, A, B (R114). -/
def execIabsd (d a : PReg) (b : Src) (s : State) : Host.Outcome State Fault Refusal :=
  perThread (srcLen b) (fun2 d a b fun _ => aluAbsd) s

/-- IMIN.i D, A, B (R115). -/
def execIminI (d a : PReg) (b : Src) (s : State) : Host.Outcome State Fault Refusal :=
  perThread (srcLen b) (fun2 d a b fun _ => aluMinI) s

/-- IMIN.n D, A, B (R115). -/
def execIminN (d a : PReg) (b : Src) (s : State) : Host.Outcome State Fault Refusal :=
  perThread (srcLen b) (fun2 d a b fun _ => aluMinN) s

/-- IMAX.i D, A, B (R115). -/
def execImaxI (d a : PReg) (b : Src) (s : State) : Host.Outcome State Fault Refusal :=
  perThread (srcLen b) (fun2 d a b fun _ => aluMaxI) s

/-- IMAX.n D, A, B (R115). -/
def execImaxN (d a : PReg) (b : Src) (s : State) : Host.Outcome State Fault Refusal :=
  perThread (srcLen b) (fun2 d a b fun _ => aluMaxN) s

/-- IDIV.i D, A, B (R115, R111). -/
def execIdivI (d a : PReg) (b : Src) (s : State) : Host.Outcome State Fault Refusal :=
  perThread (srcLen b) (fun2 d a b fun _ => aluDivI) s

/-- IDIV.n D, A, B (R115, R111). -/
def execIdivN (d a : PReg) (b : Src) (s : State) : Host.Outcome State Fault Refusal :=
  perThread (srcLen b) (fun2 d a b fun _ => aluDivN) s

/-- IREM.i D, A, B (R115, R111). -/
def execIremI (d a : PReg) (b : Src) (s : State) : Host.Outcome State Fault Refusal :=
  perThread (srcLen b) (fun2 d a b fun _ => aluRemI) s

/-- IREM.n D, A, B (R115, R111). -/
def execIremN (d a : PReg) (b : Src) (s : State) : Host.Outcome State Fault Refusal :=
  perThread (srcLen b) (fun2 d a b fun _ => aluRemN) s

/-- AND D, A, B (R116). -/
def execAnd (d a : PReg) (b : Src) (s : State) : Host.Outcome State Fault Refusal :=
  perThread (srcLen b) (fun2 d a b fun _ => aluAnd) s

/-- OR D, A, B (R116). -/
def execOr (d a : PReg) (b : Src) (s : State) : Host.Outcome State Fault Refusal :=
  perThread (srcLen b) (fun2 d a b fun _ => aluOr) s

/-- XOR D, A, B (R116). -/
def execXor (d a : PReg) (b : Src) (s : State) : Host.Outcome State Fault Refusal :=
  perThread (srcLen b) (fun2 d a b fun _ => aluXor) s

/-- ANDN D, A, B (R116). -/
def execAndn (d a : PReg) (b : Src) (s : State) : Host.Outcome State Fault Refusal :=
  perThread (srcLen b) (fun2 d a b fun _ => aluAndn) s

/-- SHL D, A, B (R116). -/
def execShl (d a : PReg) (b : Src) (s : State) : Host.Outcome State Fault Refusal :=
  perThread (srcLen b) (fun2 d a b fun _ => aluShl) s

/-- SHR D, A, B (R116). -/
def execShr (d a : PReg) (b : Src) (s : State) : Host.Outcome State Fault Refusal :=
  perThread (srcLen b) (fun2 d a b fun _ => aluShr) s

/-- SAR D, A, B (R116). -/
def execSar (d a : PReg) (b : Src) (s : State) : Host.Outcome State Fault Refusal :=
  perThread (srcLen b) (fun2 d a b fun _ => aluSar) s

/-- ROL D, A, B (R116). -/
def execRol (d a : PReg) (b : Src) (s : State) : Host.Outcome State Fault Refusal :=
  perThread (srcLen b) (fun2 d a b fun _ => aluRol) s

/-- POPC D, A (R117). -/
def execPopc (d a : PReg) (s : State) : Host.Outcome State Fault Refusal :=
  perThread 4 (fun1 d a fun _ => aluPopc) s

/-- CLZ D, A (R117). -/
def execClz (d a : PReg) (s : State) : Host.Outcome State Fault Refusal :=
  perThread 4 (fun1 d a fun _ => aluClz) s

/-- BREV D, A (R117). -/
def execBrev (d a : PReg) (s : State) : Host.Outcome State Fault Refusal :=
  perThread 4 (fun1 d a fun _ => aluBrev) s

/-- BFX.i D, A, B (R117). -/
def execBfxI (d a : PReg) (b : Src) (s : State) : Host.Outcome State Fault Refusal :=
  perThread (srcLen b) (fun2 d a b fun _ => aluBfxI) s

/-- BFX.n D, A, B (R117). -/
def execBfxN (d a : PReg) (b : Src) (s : State) : Host.Outcome State Fault Refusal :=
  perThread (srcLen b) (fun2 d a b fun _ => aluBfxN) s

/-- BFI D, A, B: D is read too (R117). -/
def execBfi (d a : PReg) (b : Src) (s : State) : Host.Outcome State Fault Refusal :=
  perThread (srcLen b) (fun3 d a b fun _ => aluBfi) s

/-- PERMB D, A, B (R117). -/
def execPermb (d a : PReg) (b : Src) (s : State) : Host.Outcome State Fault Refusal :=
  perThread (srcLen b) (fun2 d a b fun _ => aluPermb32) s

/-- MOV D, B (R117). -/
def execMov (d : PReg) (b : Src) (s : State) : Host.Outcome State Fault Refusal :=
  perThread (srcLen b) (funMov d b) s

/-- IMAD D, A, B: D := A × B + D (R118). -/
def execImad (d a : PReg) (b : Src) (s : State) : Host.Outcome State Fault Refusal :=
  perThread (srcLen b) (fun3 d a b fun _ => aluMad) s

/-- IMADW as a function: the pair D, D + 1 is read, and both halves are written together (R118). -/
def funMadw (d a : PReg) (b : Src) : TFun :=
  { reads := a :: srcRegs b ++ [d, pnext d 1], writes := [d, pnext d 1], data := []
    fn := fun _ l =>
      let r := aluMadw (l.getD (l.length - 2) 0) (l.getLastD 0) (l.getD 0 0) (srcVal b (l.getD 1 0))
      [r.1, r.2] }

/-- IMADW D, A, B (R118). -/
def execImadw (d a : PReg) (b : Src) (s : State) : Host.Outcome State Fault Refusal :=
  perThread (srcLen b) (funMadw d a b) s

/-- ISEL D, A, B: D is the condition (R118). -/
def execIsel (d a : PReg) (b : Src) (s : State) : Host.Outcome State Fault Refusal :=
  perThread (srcLen b) (fun3 d a b fun _ => aluSel) s

/-- LEA D, A, B: D := A + 4 × B (R118). -/
def execLea (d a : PReg) (b : Src) (s : State) : Host.Outcome State Fault Refusal :=
  perThread (srcLen b) (fun2 d a b fun _ => aluLea) s

/-- ICMP.EQ mD, A, B (R119). -/
def execIcmpEq (m : Fin 16) (a : PReg) (b : Src) (s : State) : Host.Outcome State Fault Refusal :=
  compare m a b condEq s

/-- ICMP.NE mD, A, B (R119). -/
def execIcmpNe (m : Fin 16) (a : PReg) (b : Src) (s : State) : Host.Outcome State Fault Refusal :=
  compare m a b condNe s

/-- ICMP.LT.i mD, A, B (R119). -/
def execIcmpLtI (m : Fin 16) (a : PReg) (b : Src) (s : State) : Host.Outcome State Fault Refusal :=
  compare m a b condLtI s

/-- ICMP.LE.i mD, A, B (R119). -/
def execIcmpLeI (m : Fin 16) (a : PReg) (b : Src) (s : State) : Host.Outcome State Fault Refusal :=
  compare m a b condLeI s

/-- ICMP.LT.n mD, A, B (R119). -/
def execIcmpLtN (m : Fin 16) (a : PReg) (b : Src) (s : State) : Host.Outcome State Fault Refusal :=
  compare m a b condLtN s

/-- ICMP.LE.n mD, A, B (R119). -/
def execIcmpLeN (m : Fin 16) (a : PReg) (b : Src) (s : State) : Host.Outcome State Fault Refusal :=
  compare m a b condLeN s

/-- ICMP.TEST mD, A, B (R119). -/
def execIcmpTest (m : Fin 16) (a : PReg) (b : Src) (s : State) : Host.Outcome State Fault Refusal :=
  compare m a b condTest s

/-- ICMP.NTEST mD, A, B (R119). -/
def execIcmpNtest (m : Fin 16) (a : PReg) (b : Src) (s : State) : Host.Outcome State Fault Refusal :=
  compare m a b condNtest s

end Sys2Proof.Machine
end

