-- ==== Sys2Proof/Machine/Sampler.lean ====
section
/-! DEFINITION. The random engine and the sampler engines: tickets, stage control blocks, probabilities, drawing, verifying,
stop matching and the result record (R373 to R387, R392, R393). -/

namespace Sys2Proof.Machine

/-! ### The random engine (R380 to R382) -/

/-- A random-engine slot at its reset values. -/
def RngSlot.blank : RngSlot := { key := 0, nxt := 0, owner := 0, en := false, ring := [] }

/-- One round of R381, with its rotation count. -/
def rngRound (key : DWord) (r rot : Nat) (ab : DWord × DWord) : DWord × DWord :=
  let a := ab.1 + ab.2
  let b := ab.2.rotateLeft rot ^^^ a
  (a.rotateLeft 32 ^^^ (key + BitVec.ofNat 64 (r + 1)), b)

/-- word(key, n) (R381). -/
def rngWord (key n : DWord) : DWord :=
  let p := [13, 17, 43, 29, 51, 7].zipIdx.foldl (fun ab x => rngRound key x.2 x.1 ab) (n, key ^^^ 0x6A09E667F3BCC908)
  p.1 ^^^ p.2

/-- The ring of ready words, filled from NEXT to 16 words. -/
def fillRing (x : RngSlot) : RngSlot :=
  { x with ring := (List.range 16).map fun i => rngWord x.key (x.nxt + BitVec.ofNat 64 i) }

/-- RNG_RING_REFILL: the ring of slot `id` is filled from NEXT. -/
def execRngRingRefill (s : State) : Host.Outcome State Fault Refusal := .next { s with slots := smod s.slots s.ev.id fillRing }

/-- A write of a slot's KEY or NEXT discards its ring and refills it. -/
def writeRng (s : State) (n : Nat) (f : RngSlot → RngSlot) : State :=
  { s with slots := sput s.slots n (fillRing (f (sget RngSlot.blank s.slots n))) }

/-- RNG_KEY_WRITE: virtual device `vd` writes `value` to KEY, or with `flag` to NEXT, of the slot that RNG_SEL names. -/
def execRngKeyWrite (s : State) : Host.Outcome State Fault Refusal :=
  let v := BitVec.ofNat 64 s.ev.value
  .next (writeRng s (vdOf s s.ev.vd).rngSel fun x => if s.ev.flag then { x with nxt := v } else { x with key := v })

/-- The first ticket of a request, reserved where its TICKET is all ones and it is sampled (R382, R392). -/
def reserveTickets (s : State) (slot ticket n : Nat) (greedy : Bool) : State × Nat :=
  if ticket = 2 ^ 64 - 1 && !greedy then
    ({ s with slots := smod s.slots slot fun x => { x with nxt := x.nxt + BitVec.ofNat 64 n, ring := x.ring.drop n } },
     (sget RngSlot.blank s.slots slot).nxt.toNat)
  else (s, ticket)

/-! ### Sums, comparisons and probabilities (R377 to R379) -/

/-- A rounding environment of the sampler: no SAT, and no instruction whose PC a NaN could carry. -/
def sampEnv (mode : Nat) : FEnv := { pc := 0, t := 0, rmode := mode }

/-- a < b as exact reals; false where either is no number. -/
def realLt (a b : FVal) : Bool :=
  match a, b with
  | .fin s m e, .fin t n f =>
    match sumTerms .rne [⟨s, m, e⟩, ⟨!t, n, f⟩] with
    | .fin neg k _ => neg && k != 0
    | _ => false
  | _, _ => false

/-- A finite value. -/
def FVal.isFin : FVal → Bool
  | .fin _ _ _ => true
  | _ => false

/-- The enclosure of e^(−d) of a positive dyadic `d`. -/
def expNegEnds (m : Nat) (e : Int) : FVal × FVal :=
  let top : Int := (Nat.log2 m : Int) + e
  if top < -40 then ends false (2 ^ 80 - 1) (2 ^ 80 - 1) (-80)
  else if top ≥ 8 then ends false 1 1 (-400)
  else
    -- d in units of 2^-256; e is at least -149.
    let x := m * 2 ^ (e + 256).toNat
    let n := x / ln2Fix
    let y := expFix (x % ln2Fix)
    ends false (2 ^ (2 * fixBits) / (y + 4096)) (2 ^ (2 * fixBits) / (y - 4096) + 1) (-256 - n)

/-- e_v := round(e^(x − m), mode) (R378), where m is the greatest x of the position. (Log 72 DESIGN CHOICE.) -/
def expDiff (mode : Nat) (m x : Word) : Word :=
  match decW x, decW m with
  | .inf true, _ => 0
  | .fin _ _ _, .inf false => 0
  | .fin s a e, .fin t b f =>
    match sumTerms .rne [⟨t, b, f⟩, ⟨!s, a, e⟩] with
    | .fin _ 0 _ => 0x3F800000
    | .fin _ k g =>
      encW (sampEnv mode) (expNegEnds k g).1
    | _ => Config.expTie mode x m
  | _, _ => Config.expTie mode x m

/-- The sums C_v of R378 of weights in ascending order of token: the block in progress, the sum of the blocks before it and
the sum in it. -/
def prefixSums (mode block : Nat) (done cur : Word) : List (Nat × Word) → List (Nat × Word)
  | [] => []
  | (v, w) :: r =>
    let e := sampEnv mode
    let (done, cur) := if v / 64 = block then (done, fAdd e cur w) else (fAdd e done cur, w)
    (v, fAdd e done cur) :: prefixSums mode (v / 64) done cur r

/-- The sum of weights in ascending order of token (R378). -/
def sumSet (mode : Nat) (l : List (Nat × Word)) : Word := ((prefixSums mode 0 0 0 l).getLast?.map (·.2)).getD 0

/-- Token `u` ranks above `v` (R378). -/
def ranksAbove (u v : Nat × Word) : Bool :=
  fcond .lt v.2.toNat u.2.toNat || (fcond .eq u.2.toNat v.2.toNat && u.1 < v.1)

/-- A FILTER block: TOPK, TOPP, MINP. -/
structure Filter where
  topk : Nat
  topp : Word
  minp : Word
  deriving DecidableEq, Repr

/-- FILTER keeps a token, of those with their probabilities (R379). -/
def keeps (mode : Nat) (f : Filter) (ps : List (Nat × Word)) (v : Nat × Word) : Bool :=
  let above := ps.filter fun u => ranksAbove u v
  let pmax := ((ps.find? fun u => ps.all fun w => !ranksAbove w u).map (·.2)).getD 0
  above.isEmpty
    || ((f.topk == 0 || above.length < f.topk) && (f.topp == 0x3F800000 || fcond .lt (sumSet mode above).toNat f.topp.toNat)
        && fcond .le (fMul (sampEnv mode) f.minp pmax).toNat v.2.toNat)

/-- The kept set with its weights e_v (R379). -/
def keptSet (mode : Nat) (f : Option Filter) (es : List (Nat × Word)) : List (Nat × Word) :=
  match f with
  | none => es
  | some f =>
    let z := sumSet mode es
    let ps := es.map fun p => (p.1, fDiv (sampEnv mode) p.2 z)
    ((es.zip ps).filter fun p => keeps mode f ps p.2).map (·.1)

/-! ### A request's data -/

/-- A request whose blocks have been read and checked. -/
structure Sample where
  mode : Nat
  npos : Nat
  vocab : Nat
  greedy : Bool
  /-- TEMP, where the stage divides. -/
  temp : Option Word
  bias : List (Option Word)
  allow : List Bool
  /-- REP, PRES, FREQ, and the counts. -/
  pen : Word × Word × Word
  hist : List Nat
  filt : Option Filter
  /-- The draft tokens of VERIFY. -/
  draft : Option (List Nat)
  /-- The rows of DPROB and of the logits. -/
  dprob : List (List Word)
  logits : List (List Word)
  key : DWord
  /-- A number for the free choices of the request. -/
  free : Nat
  deriving DecidableEq, Repr

/-- x of R377 after PENALTY with a count `c` above 0. -/
def penalise (mode : Nat) (pen : Word × Word × Word) (c : Nat) (x : Word) : Word :=
  let e := sampEnv mode
  let rep := decW pen.1
  let n := FVal.fin false c 0
  let take := fun (k : FVal) => [negVal (mulVals (decW pen.2.1) k), negVal (mulVals (mulVals (decW pen.2.2) n) k)]
  if isNanBits .f32 x.toNat then x
  else if 0 < valueKey .f32 x.toNat then encW e (divF (sumVals e.mode (decW x :: take rep)) rep)
  else encW e (sumVals e.mode (mulVals (decW x) rep :: take (.fin false 1 0)))

/-- x of R377, and whether the flag NAN is set. -/
def logitX (q : Sample) (x : Word) (b : Option Word) (ok : Bool) (c : Nat) : Word × Bool :=
  let e := sampEnv q.mode
  let x := match q.temp with
    | some t => fDiv e x t
    | none => x
  let x := match b with
    | some b => fAdd e x b
    | none => x
  let x := if ok then x else 0xFF800000
  let x := if 0 < c then penalise q.mode q.pen c x else x
  if isNanBits .f32 x.toNat then (0xFF800000, true) else (x, false)

/-- The x values of position `i`, and whether one was NaN. -/
def rowX (q : Sample) (i : Nat) : List (Nat × Word) × Bool :=
  let l := ((q.logits.getD i []).zip (q.bias.zip (q.allow.zip q.hist))).map fun p => logitX q p.1 p.2.1 p.2.2.1 p.2.2.2
  (l.zipIdx.map fun p => (p.2, p.1.1), l.any (·.2))

/-- The lowest token with the greatest x. -/
def argmaxX (l : List (Nat × Word)) : Nat × Word :=
  l.foldl (fun a p => if valueKey .f32 a.2.toNat < valueKey .f32 p.2.toNat then p else a) (l.headD (0, 0))

/-- A position's x values: none where all are −∞. -/
structure Pos where
  top : Nat
  /-- The kept set with its weights. -/
  kept : List (Nat × Word)
  deriving DecidableEq, Repr

/-- Position `i`, and whether NAN is set. -/
def position (q : Sample) (i : Nat) : Option Pos × Bool :=
  let (xs, nan) := rowX q i
  if xs.all fun p => p.2 == 0xFF800000 then (none, nan)
  else
    let t := argmaxX xs
    (some ⟨t.1, if q.greedy then [] else keptSet q.mode q.filt (xs.map fun p => (p.1, expDiff q.mode t.2 p.2))⟩, nan)

/-! ### Drawing and verifying (R383, R384) -/

/-- u of a ticket (R381). -/
def ticketU (q : Sample) (n : Nat) : FVal := .fin false ((rngWord q.key (BitVec.ofNat 64 n)).toNat / 2 ^ 40) (-24)

/-- A draw from weights (R383). Where a sum is no finite number the spec states no result, and the token is a free one. -/
def drawFrom (q : Sample) (k : List (Nat × Word)) (n i : Nat) : Nat :=
  let z := decW (sumSet q.mode k)
  if !z.isFin then (k.getD (Config.freeNat (q.free + i) % k.length) (0, 0)).1
  else
    let lhs := mulVals (ticketU q n) z
    match (prefixSums q.mode 0 0 0 k).find? fun c => realLt lhs (decW c.2) with
    | some c => c.1
    | none => (((k.filter fun p => magBits .f32 p.2.toNat != 0).getLast?).map (·.1)).getD 0

/-- What a request emits. -/
structure Emitted where
  toks : List Nat
  accept : Nat
  nan : Bool
  empty : Bool
  deriving DecidableEq, Repr

/-- The token of a draw or argmax at a position. (Log 72 DESIGN CHOICE.) -/
def takeToken (q : Sample) (p : Pos) (n i : Nat) : Nat := if q.greedy then p.top else drawFrom q p.kept n i

/-- DRAW over `left` positions from `i` on; `n` is the next ticket. -/
def drawAll (q : Sample) : Nat → Nat → Nat → Emitted → Emitted
  | 0, _, _, o => o
  | left + 1, i, n, o =>
    match position q i with
    | (none, nan) => { o with nan := o.nan || nan, empty := true }
    | (some p, nan) => drawAll q left (i + 1) (n + 1) { o with toks := o.toks ++ [takeToken q p n i], nan := o.nan || nan }

/-- p′ of a token. -/
def probOf (q : Sample) (p : Pos) (v : Nat) : Word :=
  match p.kept.find? fun k => k.1 == v with
  | some k => fDiv (sampEnv q.mode) k.2 (sumSet q.mode p.kept)
  | none => 0

/-- A draft is accepted; `n` is the ticket of its test. -/
def accepts (q : Sample) (p : Pos) (i d n : Nat) : Bool :=
  if q.greedy then d == p.top
  else
    let f := decW ((q.dprob.getD i []).getD d 0)
    f.isFin && realLt (mulVals (ticketU q n) f) (decW (probOf q p d))

/-- The residual of R384 over all tokens. -/
def residual (q : Sample) (p : Pos) (i : Nat) : List (Nat × Word) :=
  let z := sumSet q.mode p.kept
  let ps := (q.dprob.getD i []).zipIdx.map fun d =>
    (d.2, d.1, match p.kept.find? fun k => k.1 == d.2 with
      | some k => fDiv (sampEnv q.mode) k.2 z
      | none => 0)
  ps.map fun x =>
    let r := fSub (sampEnv q.mode) x.2.2 x.2.1
    (x.1, if (decW x.2.1).isFin && 0 < valueKey .f32 r.toNat then r else 0)

/-- The token emitted at a rejected draft. -/
def rejected (q : Sample) (p : Pos) (i n : Nat) : Nat :=
  if q.greedy then p.top
  else
    let r := residual q p i
    if r.all fun x => magBits .f32 x.2.toNat == 0 then drawFrom q p.kept n i else drawFrom q r n i

/-- VERIFY over the drafts left from position `i` on. (Log 71 DEDUCED.) -/
def verifyAll (q : Sample) : List Nat → Nat → Nat → Emitted → Emitted
  | [], i, n, o => drawAll q 1 i n o
  | d :: r, i, n, o =>
    match position q i with
    | (none, nan) => { o with nan := o.nan || nan, empty := true }
    | (some p, nan) =>
      let o := { o with nan := o.nan || nan }
      if accepts q p i d n then verifyAll q r (i + 1) (n + 1) { o with toks := o.toks ++ [d], accept := o.accept + 1 }
      else { o with toks := o.toks ++ [rejected q p i (n + 1)] }

/-- What a request emits from its first ticket on. -/
def emit (q : Sample) (first : Nat) : Emitted :=
  let o : Emitted := ⟨[], 0, false, false⟩
  match q.draft with
  | none => drawAll q q.npos 0 first o
  | some d => verifyAll q d 0 first o

/-! ### Stop matching (R386, R387) -/

/-- The stop state. -/
structure StopState where
  nohold : Bool
  held : List Nat
  prog : List Nat
  strs : List (List Nat)
  deriving DecidableEq, Repr

/-- The stop state that 672 bytes hold; none where a field is out of range. -/
def stopOf (b : List Byte) : Option StopState :=
  let ctl := fieldAt b 0 4
  let held := fieldAt b 4 4
  let n := bitsOf ctl 0 4
  let len := fun i => fieldAt b (0x80 + 68 * i) 4
  if ctl / 32 ≠ 0 || 8 < n || 15 < held || (List.range n).any (fun i => len i == 0 || 16 < len i) then none
  else
    some { nohold := ctl.testBit 4, held := wordsOf 4 held (b.drop 0x10), prog := wordsOf 1 n (b.drop 8)
           strs := (List.range n).map fun i => wordsOf 4 (len i) (b.drop (0x84 + 68 * i)) }

/-- The tokens of the sequence before this step, as far as a string's progress `p` and the held tokens tell them (R387). -/
def earlierToks (st : StopState) (str : List Nat) (p : Nat) : List Nat := str.take (p - st.held.length) ++ st.held

/-- The progress of a string after a sequence: the greatest k such that the last k tokens are its first k (R387). -/
def progress (str seq : List Nat) : Nat :=
  ((List.range (min str.length seq.length + 1)).reverse.find? fun k => seq.drop (seq.length - k) == str.take k).getD 0

/-- What stop matching gives: KEEP, the delivered tokens, RETRACT, whether a string completed, and HELD and PROG after. -/
structure Stopped where
  keep : Nat
  del : List Nat
  retract : Nat
  stop : Bool
  held : List Nat
  prog : List Nat
  deriving DecidableEq, Repr

/-- Match the tokens from the `j`-th on. -/
def matchFrom (st : StopState) (toks : List Nat) : List Nat → Nat → List Nat → Stopped
  | [], _, prog =>
    let seq := st.held ++ toks
    let h := prog.foldl max 0
    if st.nohold then ⟨toks.length, toks, 0, false, st.held, prog⟩
    else ⟨toks.length, seq.take (seq.length - h), 0, false, seq.drop (seq.length - h), prog⟩
  | _ :: r, j, _ =>
    let prog := (st.strs.zip st.prog).map fun p => progress p.1 (earlierToks st p.1 p.2 ++ toks.take (j + 1))
    match (st.strs.zip prog).find? fun p => p.2 == p.1.length with
    | none => matchFrom st toks r (j + 1) prog
    | some p =>
      let len := p.1.length
      let m := min len (j + 1)
      let now := toks.take (j + 1 - m)
      { keep := j + 1
        del := if st.nohold then now else st.held.take (st.held.length - (len - m)) ++ now
        retract := if st.nohold then len - m else 0, stop := true, held := [], prog := prog.map fun _ => 0 }

/-- The stop state's bytes after a request. The words of HTOK past the held tokens are free. -/
def stopBytes (s : State) (b : List Byte) (r : Stopped) : List Byte :=
  b.take 4 ++ toBytes 4 r.held.length ++ padTo 8 (r.prog.flatMap (toBytes 1))
    ++ (r.held.flatMap (toBytes 4) ++ freeBytes s 64).take 64 ++ b.drop 0x50

/-! ### Reading and checking (R375, R376) -/

/-- Why a request does not reach its result. -/
inductive Refuse where
  | status (st : Nat)
  | fault (obj off : Nat) (wr : Bool) (f : Flt)
  deriving DecidableEq, Repr

/-- What a request has read: of an earlier try what it has still to use, and all of it up to now (R356, R374). -/
structure Tape where
  bytes : List PByte
  caps : List Cap
  seen : List PByte
  seenCaps : List Cap
  deriving DecidableEq, Repr

/-- A step of the engine that may stop. -/
abbrev Served (α : Type) := State × Tape → (State × Tape) × Except Refuse α

/-- Go on with a result. -/
def Served.bind {α β : Type} (x : Served α) (f : α → Served β) : Served β := fun s =>
  match x s with
  | (s, .error e) => (s, .error e)
  | (s, .ok a) => f a s

/-- A result without reading. -/
def Served.pure {α : Type} (a : α) : Served α := fun s => (s, .ok a)

/-- A step of the device's state alone. -/
def Served.lift {α : Type} (f : State → State × α) : Served α := fun s => (((f s.1).1, s.2), .ok (f s.1).2)

/-- Stop with a status unless a condition holds. -/
def Served.need (b : Bool) (st : Nat) : Served Unit := fun s => (s, if b then .ok () else .error (.status st))

/-- Read the lines of an access in order, byte by byte where one faults: the bytes read, and the byte that faults. -/
def linesRead (rq : Req) (obj : Nat) : List (Nat × Nat) → State → State × List PByte × Option (Nat × Flt)
  | [], s => (s, [], none)
  | (o, n) :: r, s =>
    match objReadM s rq obj o n false with
    | (s, .ok l) => let (s, m, bad) := linesRead rq obj r s; (s, l ++ m, bad)
    | (s, .error f) =>
      let k := ((List.range n).reverse.find? fun k => (objReadM s rq obj o k false).2.isOk).getD 0
      match objReadM s rq obj o k false with
      | (s, .ok l) => (s, l, some (o + k, f))
      | (s, .error f) => (s, [], some (o, f))

/-- Read `n` bytes through a capability, which must cover them: the bytes and whether they came poisoned. What an earlier try has
read is not read again (R356, R374). -/
def readVia (rq : Req) (c : Cap) (n : Nat) : Served (List Byte × Bool) := fun (s, t) =>
  if !capCovers c n rR 1 then ((s, t), .error (.status 11))
  else
    let old := t.bytes.take n
    let (s, l, bad) := linesRead rq c.object (pieces (c.cursor + old.length) (n - old.length)) s
    let t := { t with bytes := t.bytes.drop n, seen := t.seen ++ old ++ l }
    match bad with
    | none => ((s, t), .ok (unmarked (old ++ l)))
    | some (o, f) => ((s, t), .error (.fault c.object o false f))

/-- Read the capability at byte `a` of an object. -/
def capVia (rq : Req) (obj a : Nat) : Served Cap := fun (s, t) =>
  match t.caps with
  | c :: r => ((s, { t with caps := r, seenCaps := t.seenCaps ++ [c] }), .ok c)
  | [] =>
    match engineCap s rq obj a with
    | (s, .ok c) => ((s, { t with seenCaps := t.seenCaps ++ [c] }), .ok c)
    | (s, .error f) => ((s, t), .error (.fault obj a false f))

/-- The bytes of a block that may be other than 0, besides KIND, by kind (R376). -/
def listedByte (kind i : Nat) : Bool :=
  match kind with
  | 0 => true
  | 1 => 4 ≤ i && i < 8
  | 2 => 16 ≤ i && i < 32
  | 3 => 16 ≤ i && i < 32
  | 4 => 4 ≤ i && i < 32
  | 5 => 4 ≤ i && i < 16
  | 7 => i == 1 || (16 ≤ i && i < 48)
  | _ => false

/-- Kinds rise strictly. -/
def rising : List Nat → Bool
  | a :: b :: r => a < b && rising (b :: r)
  | _ => true

/-- A stage block of 64 bytes, with its place in the list. -/
structure Block where
  at_ : Nat
  bytes : List Byte
  deriving DecidableEq, Repr

/-- KIND. -/
def Block.kind (b : Block) : Nat := fieldAt b.bytes 0 1

/-- The block of a kind. -/
def blockOfKind (l : List Block) (k : Nat) : Option Block := l.find? fun b => b.kind == k

/-- A field of a block of a kind, 0 where it is absent. -/
def blockField (l : List Block) (k o n : Nat) : Nat := ((blockOfKind l k).map fun b => fieldAt b.bytes o n).getD 0

/-- The blocks' order and unlisted bytes (R375, R376). -/
def shapeOk (l : List Block) : Bool :=
  let ks := l.map Block.kind
  ks.head? == some 0 && rising ks && ks.all (· ≤ 8) && (ks.contains 6 != ks.contains 7)
    && l.all fun b => b.bytes.zipIdx.all fun p => p.2 == 0 || p.1 == 0 || listedByte b.kind p.2

/-- A finite f32. -/
def finiteW (x : Nat) : Bool := (decW (BitVec.ofNat 32 x)).isFin

/-- a ≤ b of f32 bits. -/
def leW (a b : Nat) : Bool := fcond .le a b

/-- The limits of R376 on the fields of the blocks. (Log 71 DEDUCED.) -/
def limitsOk (l : List Block) : Bool :=
  let has := fun k => (blockOfKind l k).isSome
  let npos := blockField l 0 1 1
  let vocab := blockField l 0 4 4
  let temp := blockField l 1 4 4
  let rep := blockField l 4 4 4
  1 ≤ npos && npos ≤ 17 && blockField l 0 2 2 < 4096 && 1 ≤ vocab && vocab ≤ 262144
    && (!has 1 || temp < 0x7F800000)
    && (!has 4 || (finiteW rep && leW 0x3F800000 rep && finiteW (blockField l 4 8 4) && finiteW (blockField l 4 12 4)))
    && (!has 5 || (blockField l 5 4 4 ≤ vocab && fcond .lt 0 (blockField l 5 8 4) && leW (blockField l 5 8 4) 0x3F800000
        && leW 0 (blockField l 5 12 4) && fcond .lt (blockField l 5 12 4) 0x3F800000))
    && (!has 7 || (blockField l 7 1 1 + 1 == npos && 2 ≤ npos))

/-- The capability at byte `o` of the block of a kind, as the engine takes it (R375). (Log 71 DEDUCED.) -/
def blockCap (rq : Req) (k : Cap) (l : List Block) (kind o : Nat) : Served Cap :=
  capVia rq k.object (k.cursor + ((blockOfKind l kind).map Block.at_).getD 0 + o)

/-- The bytes of a stage's table: none where the stage is absent. -/
def stageData (rq : Req) (k : Cap) (l : List Block) (kind o n : Nat) : Served (Option (List Byte)) := fun s =>
  if (blockOfKind l kind).isNone then (s, .ok none)
  else
    ((blockCap rq k l kind o).bind fun c => (readVia rq c n).bind fun r => Served.pure (some r.1)) s

/-- Split a list into `n` rows of `m` elements. -/
def splitRows {α : Type} (m : Nat) : Nat → List α → List (List α)
  | 0, _ => []
  | n + 1, l => l.take m :: splitRows m n (l.drop m)

/-- `n` f32 words of bytes. -/
def words32 (n : Nat) (b : List Byte) : List Word := (wordsOf 4 n b).map (BitVec.ofNat 32)

/-- The stage list of an entry, read and checked (R375). -/
def readStages (rq : Req) (k : Cap) (n asid : Nat) : Served (List Block) := fun s =>
  ((readVia rq k (64 * n)).bind fun r =>
    let l := (List.range n).map fun i => Block.mk (64 * i) ((r.1.drop (64 * i)).take 64)
    (Served.need (shapeOk l && limitsOk l && slotOk s.1 (blockField l 0 2 2) asid) 7).bind fun _ => Served.pure l) s

/-- What a request carries besides its sample: RESULT, STOPST, the stop state's bytes, SLOT and TICKET, and poison. -/
structure Request where
  sample : Sample
  result : Cap
  stopst : Cap
  stop : Option (List Byte)
  slot : Nat
  ticket : Nat
  poison : Bool
  deriving DecidableEq, Repr

/-- HEAD's capabilities, checked: LOGITS, RESULT, STOPST. -/
def readHead (rq : Req) (k : Cap) (l : List Block) : Served (Cap × Cap × Cap) :=
  let n := 4 * (blockField l 0 1 1 * blockField l 0 4 4)
  let stops := (blockOfKind l 8).isSome
  (blockCap rq k l 0 0x10).bind fun lg =>
  (blockCap rq k l 0 0x20).bind fun rs =>
  (blockCap rq k l 0 0x30).bind fun st =>
  (Served.need (capCovers lg n rR 1 && capCovers rs 256 (rR + rW) 1 && (!stops || capCovers st 672 (rR + rW) 1)) 11).bind fun _ =>
  Served.pure (lg, rs, st)

/-- VERIFY's drafts and probabilities. -/
def readDrafts (rq : Req) (k : Cap) (l : List Block) (greedy : Bool) : Served (Option (List Nat) × List (List Word)) :=
  let n := blockField l 7 1 1
  let vocab := blockField l 0 4 4
  (stageData rq k l 7 0x10 (4 * n)).bind fun d =>
  ((if greedy then Served.pure none else stageData rq k l 7 0x20 (4 * (n * vocab))) : Served (Option (List Byte))).bind fun p =>
  let toks := d.map (wordsOf 4 n)
  (Served.need ((toks.getD []).all fun t => t < vocab) 7).bind fun _ =>
  Served.pure (toks, (p.map fun b => splitRows vocab n (words32 (n * vocab) b)).getD [])

/-- The stop state, where STOP is present. -/
def readStop (rq : Req) (l : List Block) (st : Cap) : Served (Option (List Byte)) := fun s =>
  if (blockOfKind l 8).isNone then (s, .ok none)
  else
    ((readVia rq st 672).bind fun r => (Served.need (stopOf r.1).isSome 7).bind fun _ => Served.pure (some r.1)) s

/-- Read a request whose blocks are `l` (R375 to R377). (Log 71 DEDUCED.) -/
def readRequest (rq : Req) (k : Cap) (mode : Nat) (l : List Block) : Served Request := fun s =>
  let npos := blockField l 0 1 1
  let vocab := blockField l 0 4 4
  let slot := blockField l 0 2 2
  let temp := BitVec.ofNat 32 (blockField l 1 4 4)
  let scaled := (blockOfKind l 1).isSome
  let greedy := scaled && temp == 0
  ((readHead rq k l).bind fun h =>
    (stageData rq k l 2 0x10 (4 * vocab)).bind fun bias =>
    (stageData rq k l 3 0x10 ((vocab + 7) / 8)).bind fun allow =>
    (stageData rq k l 4 0x10 (2 * vocab)).bind fun hist =>
    (readDrafts rq k l greedy).bind fun d =>
    (readStop rq l h.2.2).bind fun stop =>
    (readVia rq h.1 (4 * (npos * vocab))).bind fun lg => Served.lift fun s =>
      let f32 := fun o => BitVec.ofNat 32 (blockField l 4 o 4)
      let filt := (blockOfKind l 5).map fun _ =>
        Filter.mk (blockField l 5 4 4) (BitVec.ofNat 32 (blockField l 5 8 4)) (BitVec.ofNat 32 (blockField l 5 12 4))
      let bits := (allow.getD []).flatMap fun b => (List.range 8).map b.getLsbD
      let q : Sample :=
        { mode := mode, npos := npos, vocab := vocab, greedy := greedy, temp := if scaled && !greedy then some temp else none
          bias := match bias with
            | some b => (words32 vocab b).map some
            | none => List.replicate vocab none
          allow := if allow.isSome then bits.take vocab else List.replicate vocab true
          pen := (f32 4, f32 8, f32 12)
          hist := match hist with
            | some b => wordsOf 2 vocab b
            | none => List.replicate vocab 0
          filt := filt, draft := d.1, dprob := d.2, logits := splitRows vocab npos (words32 (npos * vocab) lg.1)
          key := (sget RngSlot.blank s.slots slot).key, free := s.fresh }
      ({ s with fresh := s.fresh + 64 },
       { sample := q, result := h.2.1, stopst := h.2.2, stop := stop, slot := slot, ticket := blockField l 0 8 8,
         poison := lg.2 })) s

/-! ### The result (R385, R392) -/

/-- What a request delivers. -/
def deliver (r : Request) (o : Emitted) : Stopped :=
  match r.stop.bind stopOf with
  | some st => matchFrom st o.toks o.toks 0 st.prog
  | none => ⟨o.toks.length, o.toks, 0, false, [], []⟩

/-- The 256 bytes of the result record. -/
def resultBytes (o : Emitted) (r : Stopped) (first : Nat) (poison : Bool) : List Byte :=
  let flags := r.stop.toNat + 2 * o.nan.toNat + 4 * o.empty.toNat + 8 * poison.toNat
  toBytes 1 o.toks.length ++ toBytes 1 r.keep ++ toBytes 1 r.del.length ++ toBytes 1 r.retract ++ toBytes 1 o.accept
    ++ toBytes 1 flags ++ toBytes 2 0 ++ toBytes 8 first ++ toBytes 16 0 ++ padTo 96 (o.toks.flatMap (toBytes 4))
    ++ padTo 128 (r.del.flatMap (toBytes 4))

/-- What a request whose data is read is to write: the result record, then the stop state. Its tickets are reserved and its tokens
drawn. (Log 71 DEDUCED.) -/
def computeRequest (s : State) (r : Request) : State × List (Cap × List Byte) :=
  let (s, first) := reserveTickets s r.slot r.ticket r.sample.npos r.sample.greedy
  let o : Emitted := if r.poison then ⟨[], 0, false, false⟩ else emit r.sample first
  let d : Stopped := if r.poison then ⟨0, [], 0, false, [], []⟩ else deliver r o
  ({ s with fresh := s.fresh + 64 },
   (r.result, resultBytes o d first r.poison) :: match r.stop with
     | none => []
     | some b => [(r.stopst, if r.poison then b else stopBytes s b d)])

/-- Write bytes at an object's lines in order, byte by byte where one faults: how many are written, and the byte that faults. -/
def linesWrite (rq : Req) (obj : Nat) : List (Nat × Nat) → List Byte → State → State × Nat × Option (Nat × Flt)
  | [], _, s => (s, 0, none)
  | (o, n) :: r, bs, s =>
    match objWrite s rq obj o (bs.take n) false with
    | (s, .ok _) => let (s, m, bad) := linesWrite rq obj r (bs.drop n) s; (s, n + m, bad)
    | (s, .error f) =>
      let k := ((List.range n).reverse.find? fun k => (objWrite s rq obj o (bs.take k) false).2.isOk).getD 0
      match objWrite s rq obj o (bs.take k) false with
      | (s, .ok _) => (s, k, some (o + k, f))
      | (s, .error f) => (s, 0, some (o, f))

/-- Write what a request is to write but for its first `k` bytes: how many have been written then, and the fault. -/
def writeOuts (rq : Req) : Nat → List (Cap × List Byte) → State → State × Nat × Option (Nat × Nat × Flt)
  | _, [], s => (s, 0, none)
  | k, (c, bs) :: r, s =>
    let (s, n, bad) := linesWrite rq c.object (pieces (c.cursor + min k bs.length) (bs.length - k)) (bs.drop k) s
    match bad with
    | some (o, f) => (s, min k bs.length + n, some (c.object, o, f))
    | none => let (s, m, bad) := writeOuts rq (k - bs.length) r s; (s, bs.length + m, bad)

/-- Write entry `q`'s result and complete it; on a fault it waits, and goes on at the byte that faults. -/
def writeResult (s : State) (rq : Req) (ch q : Nat) (out : List (Cap × List Byte)) (k : Nat) : State :=
  match writeOuts rq k out s with
  | (s, _, none) => finishEntry s ch q 0 0 0
  | (s, n, some (obj, off, f)) => engineFault (modEntry s ch q fun e => { e with out := out, put := n }) ch q obj true (f.at off)

/-- The mode of a request (R374). SMODE 6 and 7 name no mode, and such a request runs under a free one.
(Log 72 DESIGN CHOICE.) -/
def requestMode (s : State) (e : Entry) : Nat :=
  let g2 := (granule e 2).bits.toNat
  let smode := bitsOf g2 8 3
  if bitsOf g2 0 3 ≠ 0 then bitsOf g2 0 3 - 1
  else if smode < 6 then smode
  else Config.freeNat s.fresh % 6

/-- Serve entry `e` of chain `ch`. A request that waits on a fault keeps what it has read, and makes the suspended byte again
(R356, R374). (Log 71 DEDUCED.) -/
def serveEntry (s : State) (ch : Nat) (e : Entry) : State :=
  let c := chainOf s ch
  let rq := chainReq c
  let k := granule e 1
  let s := modEntry { s with sampPtr := sput s.sampPtr c.cluster ch } ch e.seq fun e => { e with state := .running }
  if !e.out.isEmpty then writeResult s rq ch e.seq e.out e.put
  else
    match ((readStages rq k e.length c.asid).bind fun l => readRequest rq k (requestMode s e) l)
        ({ s with fresh := s.fresh + 1 }, ⟨e.got, e.gotCaps, [], []⟩) with
    | ((s, _), .ok r) => let (s, out) := computeRequest s r; writeResult s rq ch e.seq out 0
    | ((s, _), .error (.status st)) => finishEntry s ch e.seq st 0 0
    | ((s, t), .error (.fault obj off wr f)) =>
      engineFault (modEntry s ch e.seq fun e => { e with got := t.seen, gotCaps := t.seenCaps }) ch e.seq obj wr (f.at off)

/-! ### Which request (R374) -/

/-- The entry that a sampler chain offers: the first not yet complete, Ready or waiting no more on a fault. -/
def offered (c : Chain) : Option Entry :=
  match c.entries.find? fun e => e.state != .complete with
  | some e => if (e.state = .ready || e.state = .running) && e.token.isNone && e.fixed.isNone then some e else none
  | none => none

/-- The sampler chains of a cluster whose contexts the engine serves, in the order of their registration. -/
def samplerChains (s : State) (cluster : Nat) : List (Nat × Chain) :=
  s.chains.filter fun p => p.2.engine == 3 && p.2.cluster == cluster && engineOn s p.2

/-- The engine has a request in progress. -/
def inService (c : Chain) : Bool := c.entries.any fun e => e.state == .running

/-- Chain `ch` is the one whose request the cluster's engine serves next. -/
def mayServe (s : State) (ch : Nat) : Bool :=
  let l := samplerChains s (chainOf s ch).cluster
  match l.find? fun p => inService p.2 with
  | some p => p.1 == ch
  | none =>
    let last := sget 0 s.sampPtr (chainOf s ch).cluster
    let next := (l.filter fun p => last < p.1) ++ l.filter fun p => p.1 ≤ last
    match next.find? fun p => (offered p.2).isSome with
    | some p => p.1 == ch
    | none => false

/-- SAMPLE_REQUEST: the sampler engine of chain `chain` serves the request in turn. -/
def execSampleRequest (s : State) : Host.Outcome State Fault Refusal :=
  let ch := s.ev.chain
  match offered (chainOf s ch) with
  | none => .next s
  | some e =>
    if !mayServe s ch then .next s
    else if e.denied then .next (finishEntry s ch e.seq 11 0 0)
    else .next (serveEntry (makeResident (advanced s (chainOf s ch).asid) (chainOf s ch).asid) ch e)

end Sys2Proof.Machine
end

