-- ==== Sys2Proof/Machine/Registers.lean ====
section
/-! DEFINITION. Virtual devices and the register window: the event arbiter, event rings and fault queues, shootdowns, holding
and resets of virtual devices, the device's own registers, and requests from outside (R8, R26, R27, R344, R347, R348, R351,
R353, R355, R396 to R402). -/

namespace Sys2Proof.Machine

/-! ### Rings (R399 to R401) -/

/-- A ring is enabled (R400). -/
def ringOn (base : DWord) (log2 : Nat) : Bool := base != 0 && log2 != 0

/-- A ring has no room: full, or its head out of range (R400). -/
def ringFull (head tail log2 : Nat) : Bool := 2 ^ log2 ≤ (tail + 2 ^ 32 - head) % 2 ^ 32

/-- The event ring of a virtual device takes an entry. -/
def evrRoom (v : Vd) : Bool := ringOn v.evrBase v.evrLog2 && !ringFull v.evrHead v.evrTail v.evrLog2

/-- The fault queue of a virtual device takes a record. -/
def fqRoom (v : Vd) : Bool := ringOn v.fqBase v.fqLog2 && !ringFull v.fqHead v.fqTail v.fqLog2

/-- The 32 bytes of an event. -/
def eventBytes (e : Event) : List Byte :=
  toBytes 2 e.typ ++ toBytes 2 e.asid ++ toBytes 4 e.gen ++ toBytes 8 e.a ++ toBytes 8 e.b ++ toBytes 8 e.c

/-- Write an entry of the event ring and advance EVR_TAIL; the first entry of an empty ring raises vector 0 (R399). -/
def writeEvr (s : State) (vd : Nat) (e : Event) : State :=
  let v := vdOf s vd
  let s := hostPut s (v.evrBase.toNat + 32 * (v.evrTail % 2 ^ v.evrLog2)) (eventBytes e)
  let fire := v.evrArmed && v.evrHead == v.evrTail
  let s := modVd s vd fun v => { v with evrTail := (v.evrTail + 1) % 2 ^ 32, evrArmed := v.evrArmed && !fire }
  if fire then raiseIrq s vd 0 else s

/-- An OVERFLOW entry (R401). -/
def overflowEvent (v : Vd) (vd : Nat) : Event :=
  { src := 0, clk := 0, vd := vd, typ := 7, asid := 0, gen := v.gen, a := v.lostSince, b := 0, c := 0, what := .entry }

/-- A 64-bit count one higher, saturating. -/
def count64 (n : Nat) : Nat := min (n + 1) (2 ^ 64 - 1)

/-- Drop an event whose generation has passed. -/
def dropStale (s : State) (vd : Nat) : State := modVd s vd fun v => { v with evStale := count64 v.evStale }

/-- Remove the first held event of a virtual device: it, and the rest. -/
def firstHeld (vd : Nat) : List Event → Option (Event × List Event)
  | [] => none
  | e :: r =>
    if e.vd = vd then some (e, r)
    else (firstHeld vd r).map fun p => (p.1, e :: p.2)

/-- Deliver held events in order while the ring takes them, an OVERFLOW entry first where events have been lost; stale ones are
dropped. -/
def drainHeld : Nat → State → Nat → State
  | 0, s, _ => s
  | n + 1, s, vd =>
    let v := vdOf s vd
    match firstHeld vd s.holding with
    | none => s
    | some (e, r) =>
      if e.gen ≠ v.gen then drainHeld n (dropStale { s with holding := r } vd) vd
      else if v.state = 3 || !evrRoom v then s
      else if v.lostSince ≠ 0 then
        drainHeld n (modVd (writeEvr s vd (overflowEvent v vd)) vd fun v => { v with lostSince := 0 }) vd
      else drainHeld n (writeEvr { s with holding := r } vd e) vd

/-- Deliver what a virtual device holds. -/
def drain (s : State) (vd : Nat) : State := drainHeld (2 * s.holding.length + 2) s vd

/-- Append an event to the holding store, or lose it. -/
def holdEvent (s : State) (e : Event) : State :=
  if (s.holding.filter fun h => h.vd == e.vd).length < 1024 then { s with holding := s.holding ++ [e] }
  else modVd s e.vd fun v => { v with evLost := count64 v.evLost, lostSince := v.lostSince + 1 }

/-- Deliver an accepted event (R401). -/
def deliverEvent (s : State) (e : Event) : State :=
  let s := drain s e.vd
  let v := vdOf s e.vd
  if e.gen ≠ v.gen then dropStale s e.vd
  else if v.state = 3 || !evrRoom v || (firstHeld e.vd s.holding).isSome then holdEvent s e
  else
    let s := if v.lostSince = 0 then s
      else modVd (writeEvr s e.vd (overflowEvent v e.vd)) e.vd fun v => { v with lostSince := 0 }
    if evrRoom (vdOf s e.vd) then writeEvr s e.vd e else holdEvent s e

/-! ### The fault queue (R355, R400) -/

/-- Write a record to its virtual device's fault queue. -/
def writeFq (s : State) (f : Fault32) : State :=
  let v := vdOf s f.vd
  let s := hostPut s (v.fqBase.toNat + 32 * (v.fqTail % 2 ^ v.fqLog2))
    (toBytes 8 f.w0.toNat ++ toBytes 8 f.w1.toNat ++ toBytes 8 f.w2.toNat ++ toBytes 8 f.w3.toNat)
  let fire := v.fqArmed && v.fqHead == v.fqTail
  let s := modVd s f.vd fun v => { v with fqTail := (v.fqTail + 1) % 2 ^ 32, fqArmed := v.fqArmed && !fire }
  if fire then raiseIrq s f.vd 1 else s

/-- The records of a virtual device that wait at the fault unit. -/
def waitingOf (s : State) (vd : Nat) : List Fault32 := s.waitingFaults.filter fun f => f.vd == vd

/-- An accepted record goes to its queue, or waits at the fault unit behind the records that wait there. -/
def postRecord (s : State) (f : Fault32) : State :=
  if fqRoom (vdOf s f.vd) && (waitingOf s f.vd).isEmpty then writeFq s f else { s with waitingFaults := s.waitingFaults ++ [f] }

/-- The store of 1,024 waiting records is full for this record: its source waits. -/
def recordStuck (s : State) (e : Event) : Bool :=
  match e.what with
  | .record f => !(fqRoom (vdOf s f.vd) && (waitingOf s f.vd).isEmpty) && 1024 ≤ (waitingOf s f.vd).length
  | _ => false

/-- FAULT_RECORD_POST: the first waiting record whose queue has room is posted. -/
def execFaultRecordPost (s : State) : Host.Outcome State Fault Refusal :=
  match s.waitingFaults.find? fun f => fqRoom (vdOf s f.vd) with
  | none => .next s
  | some f => .next (writeFq { s with waitingFaults := s.waitingFaults.erase f } f)

/-! ### Function-level reset (R398, R401) -/

/-- The contexts of a virtual device. -/
def vdCtxs (s : State) (vd : Nat) : List Nat := (s.ctxs.filter fun p => p.2.vd == vd && p.2.state != .destroyed).map (·.1)

/-- Reset alone of a context, whole. -/
def resetCtx (s : State) (asid : Nat) : State := resetDone (setCtxState s asid .resetting) asid

/-- A function-level reset: every context is reset alone, the generation rises, the event and fault ring registers are 0, and
events held from before are stale. (Log 77 DEDUCED.) -/
def resetVd (s : State) (vd : Nat) : State :=
  if (vdOf s vd).state = 0 then s
  else
    let s := (vdCtxs s vd).foldl resetCtx s
    drain (modVd s vd fun v =>
      { v with
        state := 1, gen := (v.gen + 1) % 2 ^ 32, evrBase := 0, evrLog2 := 0, evrHead := 0, evrTail := 0, evrArmed := true
        fqBase := 0, fqLog2 := 0, fqHead := 0, fqTail := 0, fqArmed := true }) vd

/-- FUNCTION_LEVEL_RESET of virtual device `vd`: an event of the arbiter, from the host link. (Log 77 DEDUCED.) -/
def execFunctionLevelReset (s : State) : Host.Outcome State Fault Refusal :=
  .next (presentWhat s 12 s.ev.vd 0 0 0 0 0 .reset)

/-! ### The arbiter (R26, R27) -/

/-- The events that may be accepted: those of a source behind its own stuck record wait with it (R26, R400).
(Log 74 DEDUCED.) -/
def openEvents (s : State) (l : List Event) : List Event :=
  let stuck := l.filter (recordStuck s)
  l.filter fun e => !((l.takeWhile (· != e) ++ [e]).any fun x => x.src == e.src && x.vd == e.vd && stuck.contains x)

/-- The next event of the arbiter: of those presented in the earliest clk, the lowest source's first. (Log 74 DEDUCED.) -/
def nextEvent (s : State) : Option Event :=
  let l := openEvents s s.arbiter
  match l with
  | [] => none
  | e :: _ =>
    let now := l.filter fun x => x.clk == e.clk
    let m := now.foldl (fun m x => min m x.src) e.src
    l.find? fun x => x.clk == e.clk && x.src == m

/-- What an event's acceptance does besides its delivery: a context fault's starts reset alone (R246), a link or power event
raises vector 3 (R396). (Log 74 DEDUCED.) -/
def onAccept (s : State) (e : Event) : State :=
  if e.typ = 4 && (ctxOf s e.asid).state = .faulted then setCtxState s e.asid .resetting
  else if e.typ = 5 || e.typ = 6 then raiseIrq s e.vd 3
  else s

/-- An accepted event takes effect: an entry is stamped with its generation and delivered, an interrupt is raised, a record goes to its
fault queue, a function-level reset is done. -/
def applyEvent (s : State) (e : Event) : State :=
  match e.what with
  | .entry => let e := { e with gen := (vdOf s e.vd).gen }; deliverEvent (onAccept s e) e
  | .irq v => raiseIrq s e.vd v
  | .record f => postRecord s f
  | .reset => resetVd s e.vd

/-- Accept the arbiter's next event. -/
def acceptEvent (s : State) : State :=
  match nextEvent s with
  | none => s
  | some e => applyEvent { s with arbiter := s.arbiter.erase e, arbPos := s.arbPos + 1 } e

/-- EVENT_ACCEPT. -/
def execEventAccept (s : State) : Host.Outcome State Fault Refusal := .next (acceptEvent s)

/-! ### Heads of the rings (R399, R400) -/

/-- A write of EVR_HEAD. -/
def writeEvrHead (s : State) (vd v : Nat) : State :=
  drain (modVd s vd fun x => { x with evrHead := v % 2 ^ 32, evrArmed := true }) vd

/-- EVR_HEAD: virtual device `vd` writes `value`. -/
def execEvrHead (s : State) : Host.Outcome State Fault Refusal := .next (writeEvrHead s s.ev.vd s.ev.value)

/-- A write of FQ_HEAD. -/
def writeFqHead (s : State) (vd v : Nat) : State := modVd s vd fun x => { x with fqHead := v % 2 ^ 32, fqArmed := true }

/-- FQ_HEAD: virtual device `vd` writes `value`; waiting records follow as FAULT_RECORD_POST. -/
def execFqHead (s : State) : Host.Outcome State Fault Refusal := .next (writeFqHead s s.ev.vd s.ev.value)

/-! ### Shootdown (R344) -/

/-- The shootdown that SHOOT has started is done. The range is that of SHOOT_PG when SHOOT was written. (Log 76 DEDUCED.) -/
def endShoot (s : State) (vd : Nat) : State :=
  let v := vdOf s vd
  if v.shootBusy then
    let obj := bitsOf v.shoot 13 24
    let s := dropTlb s (bitsOf v.shoot 0 13) (if obj = 0xFFFFFF then none else some obj) (bitsOf v.shoot 64 41) (bitsOf v.shoot 105 23)
    modVd s vd fun v => { v with shootBusy := false }
  else s

/-- A write of SHOOT. An ASID outside the partition's range is ignored (R397). (Log 76 DEDUCED.) -/
def writeShoot (s : State) (vd v : Nat) : State :=
  if asidIn s (vdHpart s vd) (bitsOf v 0 13) then
    modVd (endShoot s vd) vd fun x => { x with shootBusy := true, shoot := v % 2 ^ 37 + x.shootPg.toNat * 2 ^ 64 }
  else s

/-- SHOOT: virtual device `vd` writes `value`. -/
def execShoot (s : State) : Host.Outcome State Fault Refusal := .next (writeShoot s s.ev.vd s.ev.value)

/-- SHOOTDOWN_COMPLETE: the shootdown of virtual device `vd` is done. -/
def execShootdownComplete (s : State) : Host.Outcome State Fault Refusal := .next (endShoot s s.ev.vd)

/-! ### Frame keys and heat (R347, R353) -/

/-- The frame lies in the range of a tier with a registry. -/
def keyedFrame (tier frame : Nat) : Bool := (tier == 0 || tier == 2) && frameOk tier frame

/-- A write of FKR_CLEAR: the entry is unclaimed, and every byte of the frame reads 0. -/
def clearKey (s : State) (v : Nat) : State :=
  let f := bitsOf v 0 28
  let t := bitsOf v 32 2
  if keyedFrame t f then
    let a := tierBase t + f * 65536
    { s with
      frameKeys := sset none s.frameKeys (t * 2 ^ 28 + f) none
      mem := sclear s.mem a (a + 65536)
      memPoison := sclear s.memPoison a (a + 65536)
      tags := if t = 0 then sclear s.tags (a / 16) ((a + 65536) / 16) else s.tags }
  else s

/-- FKR_CLEAR: the physical function writes `value`. -/
def execFkrClear (s : State) : Host.Outcome State Fault Refusal := .next (if s.ev.vd = 0 then clearKey s s.ev.value else s)

/-- A write of HEAT_SEED: port or gateway `n` takes SEED XOR n, and 1 in place of 0. -/
def seedHeat (s : State) (v : Nat) : State :=
  let one := fun (n : Nat) => let x := BitVec.ofNat 32 v ^^^ BitVec.ofNat 32 n; if x = 0 then 1 else x
  { s with lfsr := (List.range 67).foldl (fun l n => sset 1 l n (one n)) s.lfsr }

/-- HEAT_SEED: the physical function writes `value`. -/
def execHeatSeed (s : State) : Host.Outcome State Fault Refusal := .next (if s.ev.vd = 0 then seedHeat s s.ev.value else s)

/-- A write of HEAT_EPOCH halves every counter. -/
def halveHeat (s : State) : State :=
  { s with heat := s.heat.filterMap fun p => if p.2 / 2 = 0 then none else some (p.1, p.2 / 2) }

/-- HEAT_EPOCH: the physical function writes. -/
def execHeatEpoch (s : State) : Host.Outcome State Fault Refusal := .next (if s.ev.vd = 0 then halveHeat s else s)

/-! ### Virtual devices (R398) -/

/-- A virtual device is held: its resident contexts are pre-empted with REASON 5. -/
def holdVd (s : State) (vd : Nat) : State :=
  let v := vdOf s vd
  if v.state = 1 || v.state = 2 then
    (vdCtxs s vd).foldl (fun s a => preemptCtx s a 5) (modVd s vd fun v => { v with state := 3 })
  else s

/-- A held virtual device goes on: held events first. -/
def releaseVd (s : State) (vd : Nat) : State :=
  if (vdOf s vd).state = 3 then drain (modVd s vd fun v => { v with state := 2 }) vd else s

/-- A write of VD_PART of function `v`. (Log 77 DEDUCED.) -/
def writeVdPart (s : State) (v x : Nat) : State :=
  let s := { s with vdPart := sset 0 s.vdPart v (bitsOf x 0 3 + bitsOf x 8 2 * 2 ^ 8) }
  if bitsOf x 8 2 = 0 then releaseVd s v else holdVd s v

/-- VD_HOLD: the physical function writes `value`, with HOLD or PAUSE set, to VD_PART of function `id`. -/
def execVdHold (s : State) : Host.Outcome State Fault Refusal :=
  .next (if s.ev.vd = 0 && s.ev.id < 64 && bitsOf s.ev.value 8 2 ≠ 0 then writeVdPart s s.ev.id s.ev.value else s)

/-- VD_RELEASE: the physical function writes `value`, with HOLD and PAUSE clear, to VD_PART of function `id`. -/
def execVdRelease (s : State) : Host.Outcome State Fault Refusal :=
  .next (if s.ev.vd = 0 && s.ev.id < 64 && bitsOf s.ev.value 8 2 = 0 then writeVdPart s s.ev.id s.ev.value else s)

/-- SRIOV_ENABLE: function `vd` is enabled, with its registers at reset values. (Log 77 DEDUCED.) -/
def execSriovEnable (s : State) : Host.Outcome State Fault Refusal :=
  .next (if 1 ≤ s.ev.vd && s.ev.vd < 64 && (vdOf s s.ev.vd).state = 0 then { s with vds := sput s.vds s.ev.vd (Vd.reset 1 0) } else s)

/-! ### Other registers (R351, R353, R380, R397, R400, R402) -/

/-- A ring's LOG2 register takes 0 and 4 to 16. -/
def log2Ok (v : Nat) : Bool := v == 0 || (4 ≤ v && v ≤ 16)

/-- A ring's BASE without bits 4:0. -/
def ringBase (v : Nat) : DWord := BitVec.ofNat 64 (v / 32 * 32)

/-- A write of RNG_CTL: an OWNER outside the partition's range is ignored. (Log 76 DEDUCED.) -/
def writeRngCtl (s : State) (vd v : Nat) : State :=
  let n := (vdOf s vd).rngSel
  if asidIn s (vdHpart s vd) (bitsOf v 0 13) then
    { s with slots := sput s.slots n { sget RngSlot.blank s.slots n with owner := bitsOf v 0 13, en := v.testBit 13 } }
  else s

/-- A write of a register that each virtual device holds, at offset `o`. (Log 76 DEDUCED.) -/
def writeLow (s : State) (vd o v : Nat) : State :=
  let d := BitVec.ofNat 64 v
  match o with
  | 0x10 => writeCtlchain s vd v
  | 0x18 => writeCtltail s vd v
  | 0x20 => if asidIn s (vdHpart s vd) (bitsOf v 0 13) then modVd s vd fun x => { x with xlatSel := bitsOf v 0 13 } else s
  | 0x28 => { s with xlatCad := sset 0 s.xlatCad (vdOf s vd).xlatSel d }
  | 0x30 => { s with xlatPt := sset 0 s.xlatPt (vdOf s vd).xlatSel d }
  | 0x38 => writeShoot s vd v
  | 0x48 => modVd s vd fun x => { x with shootPg := d }
  | 0x60 => drain (modVd s vd fun x => { x with evrBase := ringBase v }) vd
  | 0x68 => if log2Ok v then drain (modVd s vd fun x => { x with evrLog2 := v }) vd else s
  | 0x70 => writeEvrHead s vd v
  | 0x80 => if v = 0 then modVd s vd fun x => { x with evLost := 0 } else s
  | 0x88 => if v = 0 then modVd s vd fun x => { x with evStale := 0 } else s
  | 0x100 => modVd s vd fun x => { x with fqBase := ringBase v }
  | 0x108 => if log2Ok v then modVd s vd fun x => { x with fqLog2 := v } else s
  | 0x110 => writeFqHead s vd v
  | 0x120 => answerFault s vd v
  | 0x200 => modVd s vd fun x => { x with rngSel := bitsOf v 0 12 }
  | 0x208 => writeRng s (vdOf s vd).rngSel fun x => { x with key := d }
  | 0x210 => writeRng s (vdOf s vd).rngSel fun x => { x with nxt := d }
  | 0x218 => writeRngCtl s vd v
  | _ => s

/-- A write of word `w` of arena record `n`: a counter is reset by writing 0, and the free sectors are what the driver gives.
(Log 15 DESIGN CHOICE.) -/
def writeArena (s : State) (n w v : Nat) : State :=
  let a := sget Arena.zero s.arenas n
  let put := fun (a : Arena) => { s with arenas := sput s.arenas n a }
  match w with
  | 0 => if v = 0 then put { a with rawblk := 0 } else s
  | 1 => if v = 0 then put { a with fullflt := 0 } else s
  | 2 => if v = 0 then put { a with chkfail := 0 } else s
  | _ => put { a with freesect := BitVec.ofNat 32 v }

/-! ### Requests from outside (R8, R16, R17, R347, R348) -/

/-- A request that reaches a base die or the pool gateway with everything resolved (R16): its frame, key identifier, HEAT and COMP.
(Log 78 DESIGN CHOICE.) -/
def directTr (s : State) (tier frame : Nat) : Tr :=
  { ua := 0, tier := tier, frame := frame, keyid := s.ev.member, heat := s.ev.gang.testBit 0, comp := tier == 0 && s.ev.gang.testBit 1
    oa := 0, tenant := s.ev.asid, hv := false }

/-- The pieces of `n` bytes at byte `a` of a tier. -/
def directPieces (s : State) (tier a n : Nat) : List Piece :=
  (pieces a n).map fun p => ⟨directTr s tier (p.1 / 65536), p.1, p.2⟩

/-- Step 1 of R17: the bytes from `seq` of object `id` of tenant `asid` are in extent. A request with KEYID 0 that names no object
is the driver's own. (Log 78 DESIGN CHOICE.) -/
def directOk (s : State) (n : Nat) : Bool :=
  if 2 ^ 24 ≤ s.ev.id then s.ev.member == 0 else inExtent (cadEntry s s.ev.asid s.ev.id) s.ev.seq n

/-- What the requester gets: the bytes, or for a request that is not served free bytes, poisoned; a KEY_ALIAS is a context fault.
(Log 78 DESIGN CHOICE.) -/
def directReply (r : State × Except Flt (List PByte)) (src n : Nat) : State :=
  match r with
  | (s, .ok l) => { s with hostReply := l.map (·.1), hostPoison := l.any (·.2) }
  | (s, .error f) =>
    let s := { s with hostReply := freeBytes s n, hostPoison := true, fresh := s.fresh + n }
    match f with
    | .key => ctxFault s s.ev.asid 1 src
    | .page _ _ => s

/-- What becomes of a write that is not served. -/
def directDone (r : State × Except Flt Unit) (src : Nat) : State :=
  match r with
  | (s, .error .key) => ctxFault s s.ev.asid 1 src
  | (s, _) => s

/-- A page migration through pool port `row` − 1: 64 KiB between HBM frame `addr` / 65536 and pool frame `value`, with `flag` from HBM
to the pool. (Log 78 DESIGN CHOICE.) -/
def migratePage (s : State) : State :=
  let rq : Req := ⟨s.ev.asid, 1000000, 1000000, 48 + s.ev.row⟩
  let hbm := directPieces s 0 (s.ev.addr / 65536 * 65536) 65536
  let pool := directPieces s 2 (s.ev.value * 65536) 65536
  if !directOk s 65536 || !frameOk 0 (s.ev.addr / 65536) || !frameOk 2 s.ev.value || pathDown s 2 then s
  else
    match readReq s rq (if s.ev.flag then hbm else pool) with
    | (s, .error f) => directDone (s, .error f) 13
    | (s, .ok l) => directDone (writeReq s rq (if s.ev.flag then pool else hbm) l) 13

/-- HOST_LINK_REQUEST: with `row` 0 the host reads `value` bytes of HBM at `addr`, or with `flag` writes `bytes`, through port 48;
with `row` 1 to 4 a pool port migrates a page. `asid`, `id` and `seq` give the tenant, the object and the byte in it, `member` the
key identifier, and bits 0 and 1 of `gang` HEAT and COMP. (Log 78 DESIGN CHOICE.) -/
def execHostLinkRequest (s : State) : Host.Outcome State Fault Refusal :=
  let n := if s.ev.flag then s.ev.bytes.length else s.ev.value
  let rq : Req := ⟨s.ev.asid, 1000000, 1000000, 48⟩
  let ps := directPieces s 0 s.ev.addr n
  if 1 ≤ s.ev.row && s.ev.row ≤ 4 then .next (migratePage s)
  else if s.ev.row ≠ 0 || hbmSize < s.ev.addr + n then .next s
  else if !directOk s n then
    .next (if s.ev.flag then s else directReply (s, .error (.page ⟨0x80, 2, 0, s.ev.seq⟩ [])) 12 n)
  else if s.ev.flag then .next (directDone (writeReq s rq ps (s.ev.bytes.map fun b => (b, false))) 12)
  else .next (directReply (readReq s rq ps) 12 n)

/-- REMOTE_ACCESS: a peer reads `value` bytes of object `id` of tenant `asid` at `addr`, or with `flag` writes `bytes`, over link
group `row`. It is checked under this device's own tables; where they do not serve it no access is made.
(Log 78 DESIGN CHOICE.) -/
def execRemoteAccess (s : State) : Host.Outcome State Fault Refusal :=
  let rq : Req := ⟨s.ev.asid, 1000000, 1000000, 53 + s.ev.row % 3⟩
  if s.ev.flag then
    match objWrite s rq s.ev.id s.ev.addr s.ev.bytes false with
    | (s, .ok _) => .next s
    | (s, .error .key) => .next (ctxFault s s.ev.asid 1 14)
    | (s, .error _) => .next s
  else
    match objRead s rq s.ev.id s.ev.addr s.ev.value false with
    | (s, .ok (bs, p)) => .next { s with hostReply := bs, hostPoison := p }
    | (s, .error .key) => .next (ctxFault s s.ev.asid 1 14)
    | (s, .error _) =>
      .next { s with hostReply := freeBytes s s.ev.value, hostPoison := true, fresh := s.fresh + s.ev.value }

/-! ### What a read of the register window gives (R397) -/

/-- Registers that each virtual device holds. -/
def readLow (s : State) (vd o : Nat) : Nat :=
  let v := vdOf s vd
  let r := sget RngSlot.blank s.slots v.rngSel
  match o with
  | 0x0 => vd + vdHpart s vd * 2 ^ 8
  | 0x8 => v.gen
  | 0x10 => v.ctlchain
  | 0x20 => v.xlatSel
  | 0x28 => (sget 0 s.xlatCad v.xlatSel).toNat
  | 0x30 => (sget 0 s.xlatPt v.xlatSel).toNat
  | 0x40 => v.shootBusy.toNat
  | 0x48 => v.shootPg.toNat
  | 0x60 => v.evrBase.toNat
  | 0x68 => v.evrLog2
  | 0x70 => v.evrHead
  | 0x78 => v.evrTail
  | 0x80 => v.evLost
  | 0x88 => v.evStale
  | 0x100 => v.fqBase.toNat
  | 0x108 => v.fqLog2
  | 0x110 => v.fqHead
  | 0x118 => v.fqTail
  | 0x200 => v.rngSel
  | 0x208 => r.key.toNat
  | 0x210 => r.nxt.toNat
  | 0x218 => r.owner + r.en.toNat * 2 ^ 13
  | _ => 0

/-- Registers of the device. -/
def readHigh (s : State) (o : Nat) : Nat :=
  if o < 0x1000 + 8 * 56 then (sget (BitVec.ofNat 64 (2 ^ 64 - 1)) s.conn ((o - 0x1000) / 8)).toNat
  else if o < 0x1200 then 0
  else if o < 0x1240 then (sget 0 s.partReq ((o - 0x1200) / 8)).toNat
  else if o < 0x1280 then (sget 0 s.partAsid ((o - 0x1240) / 8)).toNat
  else if o = 0x1400 then s.heatCtl
  else if o = 0x1430 then s.connViol
  else if o = 0x1440 then s.domainId
  else if o = 0x1480 then s.startCtl
  else if o = 0x1488 then s.bootStat
  else if o = 0x1490 then s.stretchCnt
  else if 0x1800 ≤ o && o < 0x1A00 then sget 0 s.vdPart ((o - 0x1800) / 8)
  else if 0x2000 ≤ o then
    let a := sget Arena.zero s.arenas ((o - 0x2000) / 32)
    match (o - 0x2000) / 8 % 4 with
    | 0 => a.rawblk.toNat
    | 1 => a.fullflt.toNat
    | 2 => a.chkfail.toNat
    | _ => a.freesect.toNat
  else 0

/-- The register at offset `o` of the window of virtual device `vd`. -/
def readReg (s : State) (vd o : Nat) : Nat := if o < 0x1000 then readLow s vd o else if vd = 0 then readHigh s o else 0

end Sys2Proof.Machine
end

