-- ==== Sys2Proof/Machine/Links.lean ====
section
/-! DEFINITION. The links' states and the stretching of the arithmetic clock (R403, R404, R410). -/

namespace Sys2Proof.Machine

/-! ### Links (R403) -/

/-- The full width of a link: 16 lanes of the host link and the pool ports, 8 of a Stolybin link. -/
def fullWidth (n : Nat) : Nat := if n ≤ 4 then 16 else 8

/-- A link trains to this width. -/
def widthOk (n lanes : Nat) : Bool := lanes == fullWidth n || lanes == fullWidth n / 2 || lanes == fullWidth n / 4

/-- The link, Down where it is not listed. (Log 4 DESIGN CHOICE.) -/
def linkOf (s : State) (n : Nat) : Link := sget ⟨0, 0⟩ s.links n

/-- The state that a training to `lanes` gives: Up at full width, Degraded at a reduced one, Down at none. -/
def trained (n lanes : Nat) : Link :=
  if lanes = fullWidth n then ⟨2, lanes⟩ else if widthOk n lanes then ⟨1, lanes⟩ else ⟨0, 0⟩

/-- The running virtual devices. -/
def runningVds (s : State) : List Nat := (s.vds.filter fun p => p.2.state == 2).map (·.1)

/-- The arbiter's source of a link (R27). (Log 36 DEDUCED.) -/
def linkSrc (n : Nat) : Nat := if n = 0 then 12 else if n ≤ 4 then 13 else 14

/-- A link takes a state. -/
def setLink (s : State) (n : Nat) (l : Link) : State := { s with links := sset ⟨0, 0⟩ s.links n l }

/-- The LINK event of a link's new state, to every running virtual device. (Log 75 DESIGN CHOICE.) -/
def linkEvent (s : State) (n : Nat) : State :=
  let l := linkOf s n
  (runningVds s).foldl (fun s vd => present s (linkSrc n) vd 5 0 n (Config.linkStateCode l.state).toNat l.lanes) s

/-- LINK_TRAINED: link `id`, Down until now, has trained to `value` lanes. -/
def execLinkTrained (s : State) : Host.Outcome State Fault Refusal :=
  let n := s.ev.id
  if n ≤ 22 && (linkOf s n).state = 0 && widthOk n s.ev.value then .next (linkEvent (setLink s n (trained n s.ev.value)) n)
  else .next s

/-- FLIT_CRC_FAIL: a flit or packet fails its CRC and is sent again from the replay buffer, in order: nothing changes. -/
def execFlitCrcFail (s : State) : Host.Outcome State Fault Refusal := .next s

/-- LINK_RETRY_TIMEOUT: link `id` has retried for 1 ms, or lanes have failed; it retrains, to `value` lanes or Down.
(Log 79 DEDUCED.) -/
def execLinkRetryTimeout (s : State) : Host.Outcome State Fault Refusal :=
  let n := s.ev.id
  if n ≤ 22 && (linkOf s n).state = 2 && s.ev.value ≠ fullWidth n then .next (setLink s n (trained n s.ev.value)) else .next s

/-- LINK_RETRAIN_DONE: the retrain of link `id` ends with `value` lanes. -/
def execLinkRetrainDone (s : State) : Host.Outcome State Fault Refusal :=
  let n := s.ev.id
  if n ≤ 22 && (linkOf s n).state ≠ 0 then .next (linkEvent (setLink s n (trained n s.ev.value)) n) else .next s

/-! ### Clock stretching (R410) -/

/-- SUPPLY_SAG: the clock of compute die `id` is stretched; the episode is counted. -/
def execSupplySag (s : State) : Host.Outcome State Fault Refusal :=
  if s.ev.id < 8 && sget 0 s.stretch s.ev.id = 0 then
    .next { s with stretch := sset 0 s.stretch s.ev.id 1, stretchCnt := (s.stretchCnt + 1) % 2 ^ 64 }
  else .next s

/-- STRETCH_LONG: the stretch of die `id` has lasted 1 ms; a POWER event goes to every running virtual device. -/
def execStretchLong (s : State) : Host.Outcome State Fault Refusal :=
  if sget 0 s.stretch s.ev.id = 1 then
    .next ((runningVds s).foldl (fun s vd => present s 15 vd 6 0 0 0 0) { s with stretch := sset 0 s.stretch s.ev.id 2 })
  else .next s

/-- SUPPLY_RECOVERY: the clock of die `id` is back at its nominal period. -/
def execSupplyRecovery (s : State) : Host.Outcome State Fault Refusal :=
  .next { s with stretch := sset 0 s.stretch s.ev.id 0 }

end Sys2Proof.Machine
end

