-- ==== Sys2Proof/Machine/MaskOps.lean ====
section
/-! DEFINITION. MASKOP: masks, broadcasts and uniform reads (R122 to R124). -/

namespace Sys2Proof.Machine

/-- The body of MOVS: a per-thread write of the low half of a uniform register; it runs on an offset core (R123). -/
def bodyMovs (d : PReg) (a : SReg) (cx : Cx) (s : State) : Res :=
  let x : Uses := { reads := uname a, writes := [.x d], data := [], tagged := false }
  withOperands cx x (commit cx x fun s =>
    .ok (modUnit s cx.u fun w => cx.act.foldl (fun w t => setX w t d (BitVec.truncate 32 (getU w a)) 0) w)) s

/-- MOVS vD, sA. -/
def execMovs (d : PReg) (a : SReg) (s : State) : Host.Outcome State Fault Refusal := issue 4 false (bodyMovs d a) s

/-- The body of UREADF: only the lowest active thread reads A. -/
def bodyUreadf (d : Fin 64) (a : PReg) (cx : Cx) (s : State) : Res :=
  let x : Uses := { reads := [.x a], writes := [.u d.val], data := [], tagged := false }
  let t := lowest cx.act
  guardNames cx x (fun s =>
    match replaySrcs cx [a] s with
    | .error e => .error e
    | .ok s =>
      guardPoison { cx with act := [t] } x (commit cx x fun s =>
        .ok (modUnit s cx.u fun w => setS w d.val ((getX w t a).setWidth 64))) s) s

/-- UREADF sD, A. -/
def execUreadf (d : Fin 64) (a : PReg) (s : State) : Host.Outcome State Fault Refusal := issue 4 true (bodyUreadf d a) s

/-- MPOP sD, mA. -/
def execMpop (d : Fin 64) (a : Fin 16) (s : State) : Host.Outcome State Fault Refusal :=
  issue 4 true (bodyUni [mname a] [.u d.val] fun _ w => setS w d.val (BitVec.ofNat 64 (popc (getM w a.val)))) s

/-- The least set bit from `p` up; 128 where there is none. -/
def findBit (m : QWord) (p : Nat) : Nat := ((List.range 128).find? fun i => p ≤ i && m.getLsbD i).getD 128

/-- MFIND sD, mA, B. -/
def execMfind (d : Fin 64) (a : Fin 16) (b : USrc) (s : State) : Host.Outcome State Fault Refusal :=
  issue (usrcLen b) true (bodyUni (mname a :: usrcName b) [.u d.val] fun _ w =>
    setS w d.val (BitVec.ofNat 64 (findBit (getM w a.val) ((getUSrc w b).toNat % 128)))) s

/-- The body of a mask function of two masks. -/
def bodyMask2 (d a b : Fin 16) (g : QWord → QWord → QWord) : Cx → State → Res :=
  bodyUni [mname a, mname b] [mname d] fun _ w => writeMask w d.val (g (getM w a.val) (getM w b.val))

/-- MAND mD, mA, mB. -/
def execMand (d a b : Fin 16) (s : State) : Host.Outcome State Fault Refusal := issue 4 true (bodyMask2 d a b fun x y => x &&& y) s

/-- MOR mD, mA, mB. -/
def execMor (d a b : Fin 16) (s : State) : Host.Outcome State Fault Refusal := issue 4 true (bodyMask2 d a b fun x y => x ||| y) s

/-- MXOR mD, mA, mB. -/
def execMxor (d a b : Fin 16) (s : State) : Host.Outcome State Fault Refusal := issue 4 true (bodyMask2 d a b fun x y => x ^^^ y) s

/-- MACT mD: the set of active threads. -/
def mact (d : Fin 16) (s : State) : Host.Outcome State Fault Refusal :=
  issue 4 true (bodyUni [] [mname d] fun cx w => writeMask w d.val (BitVec.ofNat 128 (maskOf cx.act))) s

/-- MACT m0. -/
def execMact0 (s : State) : Host.Outcome State Fault Refusal := mact 0 s

/-- MACT m1. -/
def execMact1 (s : State) : Host.Outcome State Fault Refusal := mact 1 s

/-- MACT m2. -/
def execMact2 (s : State) : Host.Outcome State Fault Refusal := mact 2 s

/-- MACT m3. -/
def execMact3 (s : State) : Host.Outcome State Fault Refusal := mact 3 s

/-- MACT m4. -/
def execMact4 (s : State) : Host.Outcome State Fault Refusal := mact 4 s

/-- MACT m5. -/
def execMact5 (s : State) : Host.Outcome State Fault Refusal := mact 5 s

/-- MACT m6. -/
def execMact6 (s : State) : Host.Outcome State Fault Refusal := mact 6 s

/-- MACT m7. -/
def execMact7 (s : State) : Host.Outcome State Fault Refusal := mact 7 s

/-- MACT m8. -/
def execMact8 (s : State) : Host.Outcome State Fault Refusal := mact 8 s

/-- MACT m9. -/
def execMact9 (s : State) : Host.Outcome State Fault Refusal := mact 9 s

/-- MACT m10. -/
def execMact10 (s : State) : Host.Outcome State Fault Refusal := mact 10 s

/-- MACT m11. -/
def execMact11 (s : State) : Host.Outcome State Fault Refusal := mact 11 s

/-- MACT m12. -/
def execMact12 (s : State) : Host.Outcome State Fault Refusal := mact 12 s

/-- MACT m13. -/
def execMact13 (s : State) : Host.Outcome State Fault Refusal := mact 13 s

/-- MACT m14. -/
def execMact14 (s : State) : Host.Outcome State Fault Refusal := mact 14 s

/-- MACT m15. -/
def execMact15 (s : State) : Host.Outcome State Fault Refusal := mact 15 s

end Sys2Proof.Machine
end

