-- ==== Sys2Proof/Machine/Starts.lean ====
section
/-! DEFINITION. Cold and warm starts, and writes of the register window (R397, R405 to R408). -/

namespace Sys2Proof.Machine

/-- Every link but the host link is Down, and trains afresh. (Log 4 DESIGN CHOICE.) -/
def linksDown (s : State) : Store Link := [(0, linkOf s 0)]

/-- The bytes of a table of memory that lie outside the device: host, pool and fabric memory. -/
def outsideOf {α : Type} (l : Store α) : Store α := sbelow (sfrom l (2 ^ 64)) (4 * 2 ^ 64)

/-! ### Cold start (R405, R406, R408) -/

/-- BOOT_STAT from PHASE and ERR. -/
def bootStatOf (phase err : Nat) : Nat := phase + err * 16

/-- A firmware image's fields (R405). -/
structure Image where
  magic : Nat
  modulus : List Byte
  signature : List Byte
  body : List Byte
  deriving DecidableEq, Repr

/-- The image that bytes hold. -/
def imageOf (b : List Byte) : Image :=
  { magic := fieldAt b 0 4, modulus := (b.drop 0x10).take 384, signature := (b.drop 0x190).take 384
    body := (b.drop 0x310).take (fieldAt b 8 8) }

/-- The error that stops a cold start in step 2, if any. (Log 37 DEDUCED, log 79 DEDUCED.) -/
def imageError (m : Image) : Nat :=
  if m.magic ≠ 0x39564B44 then 1
  else if Config.fusedKeyHash ≠ some (sha256 m.modulus) then 2
  else if pssOk m.modulus m.signature (sha256 m.body) then 0
  else 3

/-- The device at power-on, before the start has ended: nothing is held, and only what lies outside it remains.
(Log 3 DESIGN CHOICE.) -/
def powerOn (s : State) (boot : Nat) : State :=
  { State.reset with
    mem := outsideOf s.mem, memPoison := outsideOf s.memPoison, links := linksDown s, bootStat := boot, absentCores := s.absentCores, absentOff := s.absentOff
    devices := s.devices, irqs := s.irqs
    ev := s.ev, agenda := s.agenda, fresh := s.fresh, nextId := s.nextId }

/-- COLD_START: the host supplies the image `bytes`; with `flag` HBM trains. (Log 79 DEDUCED.) -/
def execColdStart (s : State) : Host.Outcome State Fault Refusal :=
  let m := imageOf s.ev.bytes
  let err := imageError m
  if err ≠ 0 then .next (powerOn s (bootStatOf 2 err))
  else if !s.ev.flag then .next (powerOn s (bootStatOf 4 4))
  else .next { powerOn s 15 with image := some (sha256 m.body) }

/-! ### Warm start (R406, R407) -/

/-- REG := 0 in the header of a registered chain. -/
def unregister (s : State) (ch : Nat) : State :=
  match peek s (chainOf s ch).asid (chainOf s ch).cap.object (chainOf s ch).cap.cursor 4 with
  | some b => (chainPut s ch 0 (toBytes 4 (ofBytes b % 2 ^ 31))).1
  | none => s

/-- A virtual device takes a function-level reset, and its registers their reset values. -/
def restartVd (s : State) (vd : Nat) : State :=
  let s := resetVd s vd
  modVd s vd fun v => if v.state = 0 then v else Vd.reset 1 v.gen

/-- Step 5 with CLEAR: HBM is zero, every frame unclaimed, the counters and the arenas are cleared. -/
def clearDevice (s : State) : State :=
  { s with
    mem := outsideOf s.mem, memPoison := outsideOf s.memPoison, tags := [], frameKeys := [], heat := [], arenas := [], blocks := [], failed := [] }

/-- REG := 0 in the header of a virtual device's control chain, which lies in host memory (R315). -/
def unregisterCtl (s : State) (vd : Nat) : State :=
  let a := (vdOf s vd).ctlchain
  if a = 0 then s else hostPut s a (toBytes 4 (ofBytes (hostBytes s a 4) % 2 ^ 31))

/-- Events presented before the start are accepted before its resets (R401). -/
def acceptAll : Nat → State → State
  | 0, s => s
  | n + 1, s => acceptAll n (acceptEvent s)

/-- What every warm start clears or keeps (R407). -/
def restart (s : State) : State :=
  let s := { acceptAll s.arbiter.length s with arbiter := [] }
  let s := (s.chains.map (·.1)).foldl unregister s
  let s := (s.vds.map (·.1)).foldl unregisterCtl s
  let s := (s.vds.map (·.1)).foldl restartVd s
  let s := ((s.ctxs.filter fun p => p.2.state != .destroyed).map (·.1)).foldl destroyCtx s
  { s with
    chains := [], units := [], groups := [], launches := [], kernels := [], gangs := [], gangParts := [], portables := []
    tokens := [], waitingFaults := [], xlatCad := [], xlatPt := [], tlb1 := [], tlb2 := [], windows := [], slots := []
    lfsr := [], connViol := 0, stretchCnt := 0, offPtr := [], slotPtr := [], sampPtr := [], cyc := [], time := 0, links := linksDown s }

/-- A device that is ready takes a warm start. (Log 79 DEDUCED.) -/
def warmStart (s : State) (v : Nat) : State :=
  let s := { s with startCtl := bitsOf v 0 2 }
  if s.bootStat = 15 && v.testBit 0 then
    let s := restart s
    if v.testBit 1 then clearDevice s else s
  else s

/-- WARM_START: the physical function writes `value` to START_CTL. -/
def execWarmStart (s : State) : Host.Outcome State Fault Refusal := .next (if s.ev.vd = 0 then warmStart s s.ev.value else s)

/-! ### Writes of the register window (R397) -/

/-- A write of a register of the device, at offset `o`. (Log 76 DEDUCED.) -/
def writeHigh (s : State) (o v : Nat) : State :=
  let d := BitVec.ofNat 64 v
  if o < 0x1000 + 8 * 56 then { s with conn := sset (BitVec.ofNat 64 (2 ^ 64 - 1)) s.conn ((o - 0x1000) / 8) d }
  else if o < 0x1200 then s
  else if o < 0x1240 then { s with partReq := sset 0 s.partReq ((o - 0x1200) / 8) d }
  else if o < 0x1280 then
    { s with partAsid := sset 0 s.partAsid ((o - 0x1240) / 8) (BitVec.ofNat 64 (bitsOf v 0 13 + bitsOf v 16 13 * 2 ^ 16)) }
  else if o = 0x1400 then { s with heatCtl := bitsOf v 0 4 + bitsOf v 8 1 * 2 ^ 8 }
  else if o = 0x1408 then seedHeat s v
  else if o = 0x1410 then halveHeat s
  else if o = 0x1420 then clearKey s v
  else if o = 0x1430 then { s with connViol := v }
  else if o = 0x1440 then { s with domainId := bitsOf v 0 12 }
  else if o = 0x1480 then warmStart s v
  else if o < 0x1800 then s
  else if o < 0x1A00 then writeVdPart s ((o - 0x1800) / 8) v
  else if o < 0x2000 then s
  else writeArena s ((o - 0x2000) / 32) ((o - 0x2000) / 8 % 4) v

/-- A write to the register window of virtual device `vd`. (Log 76 DEDUCED.) -/
def writeReg (s : State) (vd o v : Nat) : State :=
  if (vdOf s vd).state = 0 || o % 8 ≠ 0 || 0x10000 ≤ o then s
  else if o < 0x1000 then writeLow s vd o v
  else if vd = 0 then writeHigh s o v
  else s

/-- REGISTER_WRITE: virtual device `vd` writes `value` at offset `addr` of its register window. -/
def execRegisterWrite (s : State) : Host.Outcome State Fault Refusal :=
  .next (writeReg s s.ev.vd s.ev.addr (s.ev.value % 2 ^ 64))

end Sys2Proof.Machine
end

