-- ==== Sys2Proof/Machine/Uniform.lean ====
section
/-! DEFINITION. The uniform integer instructions: UARITH, UMINMAX, ULOGIC, UBITS and UCMP (R119 to R121). -/

namespace Sys2Proof.Machine

/-- Uniform IADD sD, sA, B (R120). -/
def execUarithIadd (d a : SReg) (b : USrc) (s : State) : Host.Outcome State Fault Refusal :=
  uniform d a b aluAdd s

/-- Uniform ISUB sD, sA, B (R120). -/
def execUarithIsub (d a : SReg) (b : USrc) (s : State) : Host.Outcome State Fault Refusal :=
  uniform d a b aluSub s

/-- Uniform IMUL sD, sA, B (R120). -/
def execUarithImul (d a : SReg) (b : USrc) (s : State) : Host.Outcome State Fault Refusal :=
  uniform d a b aluMul s

/-- Uniform IMULH.i sD, sA, B (R120). -/
def execUarithImulhI (d a : SReg) (b : USrc) (s : State) : Host.Outcome State Fault Refusal :=
  uniform d a b aluMulhI s

/-- Uniform IMULH.n sD, sA, B (R120). -/
def execUarithImulhN (d a : SReg) (b : USrc) (s : State) : Host.Outcome State Fault Refusal :=
  uniform d a b aluMulhN s

/-- Uniform IADDS.i sD, sA, B (R120). -/
def execUarithIaddsI (d a : SReg) (b : USrc) (s : State) : Host.Outcome State Fault Refusal :=
  uniform d a b aluAddsI s

/-- Uniform IADDS.n sD, sA, B (R120). -/
def execUarithIaddsN (d a : SReg) (b : USrc) (s : State) : Host.Outcome State Fault Refusal :=
  uniform d a b aluAddsN s

/-- Uniform IABSD sD, sA, B (R120). -/
def execUarithIabsd (d a : SReg) (b : USrc) (s : State) : Host.Outcome State Fault Refusal :=
  uniform d a b aluAbsd s

/-- Uniform IMIN.i sD, sA, B (R120). -/
def execUminmaxIminI (d a : SReg) (b : USrc) (s : State) : Host.Outcome State Fault Refusal :=
  uniform d a b aluMinI s

/-- Uniform IMIN.n sD, sA, B (R120). -/
def execUminmaxIminN (d a : SReg) (b : USrc) (s : State) : Host.Outcome State Fault Refusal :=
  uniform d a b aluMinN s

/-- Uniform IMAX.i sD, sA, B (R120). -/
def execUminmaxImaxI (d a : SReg) (b : USrc) (s : State) : Host.Outcome State Fault Refusal :=
  uniform d a b aluMaxI s

/-- Uniform IMAX.n sD, sA, B (R120). -/
def execUminmaxImaxN (d a : SReg) (b : USrc) (s : State) : Host.Outcome State Fault Refusal :=
  uniform d a b aluMaxN s

/-- Uniform IDIV.i sD, sA, B (R120). -/
def execUminmaxIdivI (d a : SReg) (b : USrc) (s : State) : Host.Outcome State Fault Refusal :=
  uniform d a b aluDivI s

/-- Uniform IDIV.n sD, sA, B (R120). -/
def execUminmaxIdivN (d a : SReg) (b : USrc) (s : State) : Host.Outcome State Fault Refusal :=
  uniform d a b aluDivN s

/-- Uniform IREM.i sD, sA, B (R120). -/
def execUminmaxIremI (d a : SReg) (b : USrc) (s : State) : Host.Outcome State Fault Refusal :=
  uniform d a b aluRemI s

/-- Uniform IREM.n sD, sA, B (R120). -/
def execUminmaxIremN (d a : SReg) (b : USrc) (s : State) : Host.Outcome State Fault Refusal :=
  uniform d a b aluRemN s

/-- Uniform AND sD, sA, B (R120). -/
def execUlogicAnd (d a : SReg) (b : USrc) (s : State) : Host.Outcome State Fault Refusal :=
  uniform d a b aluAnd s

/-- Uniform OR sD, sA, B (R120). -/
def execUlogicOr (d a : SReg) (b : USrc) (s : State) : Host.Outcome State Fault Refusal :=
  uniform d a b aluOr s

/-- Uniform XOR sD, sA, B (R120). -/
def execUlogicXor (d a : SReg) (b : USrc) (s : State) : Host.Outcome State Fault Refusal :=
  uniform d a b aluXor s

/-- Uniform ANDN sD, sA, B (R120). -/
def execUlogicAndn (d a : SReg) (b : USrc) (s : State) : Host.Outcome State Fault Refusal :=
  uniform d a b aluAndn s

/-- Uniform SHL sD, sA, B (R120). -/
def execUlogicShl (d a : SReg) (b : USrc) (s : State) : Host.Outcome State Fault Refusal :=
  uniform d a b aluShl s

/-- Uniform SHR sD, sA, B (R120). -/
def execUlogicShr (d a : SReg) (b : USrc) (s : State) : Host.Outcome State Fault Refusal :=
  uniform d a b aluShr s

/-- Uniform SAR sD, sA, B (R120). -/
def execUlogicSar (d a : SReg) (b : USrc) (s : State) : Host.Outcome State Fault Refusal :=
  uniform d a b aluSar s

/-- Uniform ROL sD, sA, B (R120). -/
def execUlogicRol (d a : SReg) (b : USrc) (s : State) : Host.Outcome State Fault Refusal :=
  uniform d a b aluRol s

/-- Uniform POPC sD, sA (R120). -/
def execUbitsPopc (d a : SReg) (s : State) : Host.Outcome State Fault Refusal :=
  uniform1 d a aluPopc s

/-- Uniform CLZ sD, sA (R120). -/
def execUbitsClz (d a : SReg) (s : State) : Host.Outcome State Fault Refusal :=
  uniform1 d a aluClz s

/-- Uniform BREV sD, sA (R120). -/
def execUbitsBrev (d a : SReg) (s : State) : Host.Outcome State Fault Refusal :=
  uniform1 d a aluBrev s

/-- Uniform BFX.i sD, sA, B (R120). -/
def execUbitsBfxI (d a : SReg) (b : USrc) (s : State) : Host.Outcome State Fault Refusal :=
  uniform d a b aluBfxI s

/-- Uniform BFX.n sD, sA, B (R120). -/
def execUbitsBfxN (d a : SReg) (b : USrc) (s : State) : Host.Outcome State Fault Refusal :=
  uniform d a b aluBfxN s

/-- The body of a uniform BFI: D is read too. -/
def bodyUBfi (d a : SReg) (b : USrc) (cx : Cx) (s : State) : Res :=
  if onOffset (unitOf s cx.u) then trapAll cx s cOffsetIllegal
  else
    bodyUni (uname a ++ usrcName b ++ uname d) (uname d)
      (fun _ w => setU w d (aluBfi (getU w d) (getU w a) (getUSrc w b))) cx s

/-- Uniform BFI sD, sA, B (R120). -/
def execUbitsBfi (d a : SReg) (b : USrc) (s : State) : Host.Outcome State Fault Refusal :=
  issue (usrcLen b) true (bodyUBfi d a b) s

/-- Uniform PERMB sD, sA, B (R120). -/
def execUbitsPermb (d a : SReg) (b : USrc) (s : State) : Host.Outcome State Fault Refusal :=
  uniform d a b aluPermb64 s

/-- Uniform MOV sD, B (R120). -/
def execUbitsMov (d : SReg) (b : USrc) (s : State) : Host.Outcome State Fault Refusal :=
  uniform d .z b (fun _ y => y) s

/-- UCMP.EQ sD, sA, B (R119). -/
def execUcmpEq (d a : SReg) (b : USrc) (s : State) : Host.Outcome State Fault Refusal :=
  compareU d a b condEq s

/-- UCMP.NE sD, sA, B (R119). -/
def execUcmpNe (d a : SReg) (b : USrc) (s : State) : Host.Outcome State Fault Refusal :=
  compareU d a b condNe s

/-- UCMP.LT.i sD, sA, B (R119). -/
def execUcmpLtI (d a : SReg) (b : USrc) (s : State) : Host.Outcome State Fault Refusal :=
  compareU d a b condLtI s

/-- UCMP.LE.i sD, sA, B (R119). -/
def execUcmpLeI (d a : SReg) (b : USrc) (s : State) : Host.Outcome State Fault Refusal :=
  compareU d a b condLeI s

/-- UCMP.LT.n sD, sA, B (R119). -/
def execUcmpLtN (d a : SReg) (b : USrc) (s : State) : Host.Outcome State Fault Refusal :=
  compareU d a b condLtN s

/-- UCMP.LE.n sD, sA, B (R119). -/
def execUcmpLeN (d a : SReg) (b : USrc) (s : State) : Host.Outcome State Fault Refusal :=
  compareU d a b condLeN s

/-- UCMP.TEST sD, sA, B (R119). -/
def execUcmpTest (d a : SReg) (b : USrc) (s : State) : Host.Outcome State Fault Refusal :=
  compareU d a b condTest s

/-- UCMP.NTEST sD, sA, B (R119). -/
def execUcmpNtest (d a : SReg) (b : USrc) (s : State) : Host.Outcome State Fault Refusal :=
  compareU d a b condNtest s

end Sys2Proof.Machine
end

