-- ==== Sys2Proof/Machine/Dispatch.lean ====
section
/-! DEFINITION. The dispatch: one arm per instruction and event, each one direct call of its meaning. -/

namespace Sys2Proof.Machine

/-- The effect of one instruction or event. -/
def exec (i : Instr) (s : State) : Host.Outcome State Fault Refusal :=
  match i with
  | .compactIadd d b => Sys2Proof.Machine.execCompactIadd d b s
  | .compactIsub d b => Sys2Proof.Machine.execCompactIsub d b s
  | .compactAnd d b => Sys2Proof.Machine.execCompactAnd d b s
  | .compactOr d b => Sys2Proof.Machine.execCompactOr d b s
  | .compactXor d b => Sys2Proof.Machine.execCompactXor d b s
  | .compactShl d b => Sys2Proof.Machine.execCompactShl d b s
  | .compactShr d b => Sys2Proof.Machine.execCompactShr d b s
  | .compactMov d b => Sys2Proof.Machine.execCompactMov d b s
  | .compactFadd d b => Sys2Proof.Machine.execCompactFadd d b s
  | .compactFfma d b => Sys2Proof.Machine.execCompactFfma d b s
  | .compactFmul d b => Sys2Proof.Machine.execCompactFmul d b s
  | .compactFmax d b => Sys2Proof.Machine.execCompactFmax d b s
  | .compactFmin d b => Sys2Proof.Machine.execCompactFmin d b s
  | .compactImul d b => Sys2Proof.Machine.execCompactImul d b s
  | .compactHadd2 d b => Sys2Proof.Machine.execCompactHadd2 d b s
  | .compactMovi d n => Sys2Proof.Machine.execCompactMovi d n s
  | .iadd d a b => Sys2Proof.Machine.execIadd d a b s
  | .isub d a b => Sys2Proof.Machine.execIsub d a b s
  | .imul d a b => Sys2Proof.Machine.execImul d a b s
  | .imulhI d a b => Sys2Proof.Machine.execImulhI d a b s
  | .imulhN d a b => Sys2Proof.Machine.execImulhN d a b s
  | .iaddsI d a b => Sys2Proof.Machine.execIaddsI d a b s
  | .iaddsN d a b => Sys2Proof.Machine.execIaddsN d a b s
  | .iabsd d a b => Sys2Proof.Machine.execIabsd d a b s
  | .iminI d a b => Sys2Proof.Machine.execIminI d a b s
  | .iminN d a b => Sys2Proof.Machine.execIminN d a b s
  | .imaxI d a b => Sys2Proof.Machine.execImaxI d a b s
  | .imaxN d a b => Sys2Proof.Machine.execImaxN d a b s
  | .idivI d a b => Sys2Proof.Machine.execIdivI d a b s
  | .idivN d a b => Sys2Proof.Machine.execIdivN d a b s
  | .iremI d a b => Sys2Proof.Machine.execIremI d a b s
  | .iremN d a b => Sys2Proof.Machine.execIremN d a b s
  | .and d a b => Sys2Proof.Machine.execAnd d a b s
  | .or d a b => Sys2Proof.Machine.execOr d a b s
  | .xor d a b => Sys2Proof.Machine.execXor d a b s
  | .andn d a b => Sys2Proof.Machine.execAndn d a b s
  | .shl d a b => Sys2Proof.Machine.execShl d a b s
  | .shr d a b => Sys2Proof.Machine.execShr d a b s
  | .sar d a b => Sys2Proof.Machine.execSar d a b s
  | .rol d a b => Sys2Proof.Machine.execRol d a b s
  | .popc d a => Sys2Proof.Machine.execPopc d a s
  | .clz d a => Sys2Proof.Machine.execClz d a s
  | .brev d a => Sys2Proof.Machine.execBrev d a s
  | .bfxI d a b => Sys2Proof.Machine.execBfxI d a b s
  | .bfxN d a b => Sys2Proof.Machine.execBfxN d a b s
  | .bfi d a b => Sys2Proof.Machine.execBfi d a b s
  | .permb d a b => Sys2Proof.Machine.execPermb d a b s
  | .mov d b => Sys2Proof.Machine.execMov d b s
  | .imad d a b => Sys2Proof.Machine.execImad d a b s
  | .imadw d a b => Sys2Proof.Machine.execImadw d a b s
  | .isel d a b => Sys2Proof.Machine.execIsel d a b s
  | .lea d a b => Sys2Proof.Machine.execLea d a b s
  | .icmpEq m a b => Sys2Proof.Machine.execIcmpEq m a b s
  | .icmpNe m a b => Sys2Proof.Machine.execIcmpNe m a b s
  | .icmpLtI m a b => Sys2Proof.Machine.execIcmpLtI m a b s
  | .icmpLeI m a b => Sys2Proof.Machine.execIcmpLeI m a b s
  | .icmpLtN m a b => Sys2Proof.Machine.execIcmpLtN m a b s
  | .icmpLeN m a b => Sys2Proof.Machine.execIcmpLeN m a b s
  | .icmpTest m a b => Sys2Proof.Machine.execIcmpTest m a b s
  | .icmpNtest m a b => Sys2Proof.Machine.execIcmpNtest m a b s
  | .capadd d a b => Sys2Proof.Machine.execCapadd d a b s
  | .capset d a b => Sys2Proof.Machine.execCapset d a b s
  | .capnar d a b => Sys2Proof.Machine.execCapnar d a b s
  | .caprm d a b => Sys2Proof.Machine.execCaprm d a b s
  | .capget d a b => Sys2Proof.Machine.execCapget d a b s
  | .capchk d a b => Sys2Proof.Machine.execCapchk d a b s
  | .capmov d a => Sys2Proof.Machine.execCapmov d a s
  | .caplen d a => Sys2Proof.Machine.execCaplen d a s
  | .uarithIadd d a b => Sys2Proof.Machine.execUarithIadd d a b s
  | .uarithIsub d a b => Sys2Proof.Machine.execUarithIsub d a b s
  | .uarithImul d a b => Sys2Proof.Machine.execUarithImul d a b s
  | .uarithImulhI d a b => Sys2Proof.Machine.execUarithImulhI d a b s
  | .uarithImulhN d a b => Sys2Proof.Machine.execUarithImulhN d a b s
  | .uarithIaddsI d a b => Sys2Proof.Machine.execUarithIaddsI d a b s
  | .uarithIaddsN d a b => Sys2Proof.Machine.execUarithIaddsN d a b s
  | .uarithIabsd d a b => Sys2Proof.Machine.execUarithIabsd d a b s
  | .uminmaxIminI d a b => Sys2Proof.Machine.execUminmaxIminI d a b s
  | .uminmaxIminN d a b => Sys2Proof.Machine.execUminmaxIminN d a b s
  | .uminmaxImaxI d a b => Sys2Proof.Machine.execUminmaxImaxI d a b s
  | .uminmaxImaxN d a b => Sys2Proof.Machine.execUminmaxImaxN d a b s
  | .uminmaxIdivI d a b => Sys2Proof.Machine.execUminmaxIdivI d a b s
  | .uminmaxIdivN d a b => Sys2Proof.Machine.execUminmaxIdivN d a b s
  | .uminmaxIremI d a b => Sys2Proof.Machine.execUminmaxIremI d a b s
  | .uminmaxIremN d a b => Sys2Proof.Machine.execUminmaxIremN d a b s
  | .ulogicAnd d a b => Sys2Proof.Machine.execUlogicAnd d a b s
  | .ulogicOr d a b => Sys2Proof.Machine.execUlogicOr d a b s
  | .ulogicXor d a b => Sys2Proof.Machine.execUlogicXor d a b s
  | .ulogicAndn d a b => Sys2Proof.Machine.execUlogicAndn d a b s
  | .ulogicShl d a b => Sys2Proof.Machine.execUlogicShl d a b s
  | .ulogicShr d a b => Sys2Proof.Machine.execUlogicShr d a b s
  | .ulogicSar d a b => Sys2Proof.Machine.execUlogicSar d a b s
  | .ulogicRol d a b => Sys2Proof.Machine.execUlogicRol d a b s
  | .ubitsPopc d a => Sys2Proof.Machine.execUbitsPopc d a s
  | .ubitsClz d a => Sys2Proof.Machine.execUbitsClz d a s
  | .ubitsBrev d a => Sys2Proof.Machine.execUbitsBrev d a s
  | .ubitsBfxI d a b => Sys2Proof.Machine.execUbitsBfxI d a b s
  | .ubitsBfxN d a b => Sys2Proof.Machine.execUbitsBfxN d a b s
  | .ubitsBfi d a b => Sys2Proof.Machine.execUbitsBfi d a b s
  | .ubitsPermb d a b => Sys2Proof.Machine.execUbitsPermb d a b s
  | .ubitsMov d b => Sys2Proof.Machine.execUbitsMov d b s
  | .ucmpEq d a b => Sys2Proof.Machine.execUcmpEq d a b s
  | .ucmpNe d a b => Sys2Proof.Machine.execUcmpNe d a b s
  | .ucmpLtI d a b => Sys2Proof.Machine.execUcmpLtI d a b s
  | .ucmpLeI d a b => Sys2Proof.Machine.execUcmpLeI d a b s
  | .ucmpLtN d a b => Sys2Proof.Machine.execUcmpLtN d a b s
  | .ucmpLeN d a b => Sys2Proof.Machine.execUcmpLeN d a b s
  | .ucmpTest d a b => Sys2Proof.Machine.execUcmpTest d a b s
  | .ucmpNtest d a b => Sys2Proof.Machine.execUcmpNtest d a b s
  | .movs d a => Sys2Proof.Machine.execMovs d a s
  | .ureadf d a => Sys2Proof.Machine.execUreadf d a s
  | .mpop d a => Sys2Proof.Machine.execMpop d a s
  | .mfind d a b => Sys2Proof.Machine.execMfind d a b s
  | .mand d a b => Sys2Proof.Machine.execMand d a b s
  | .mor d a b => Sys2Proof.Machine.execMor d a b s
  | .mxor d a b => Sys2Proof.Machine.execMxor d a b s
  | .fadd d a b => Sys2Proof.Machine.execFadd d a b s
  | .fsub d a b => Sys2Proof.Machine.execFsub d a b s
  | .fmul d a b => Sys2Proof.Machine.execFmul d a b s
  | .ffma d a b => Sys2Proof.Machine.execFfma d a b s
  | .fmin d a b => Sys2Proof.Machine.execFmin d a b s
  | .fmax d a b => Sys2Proof.Machine.execFmax d a b s
  | .fscale d a b => Sys2Proof.Machine.execFscale d a b s
  | .fcopys d a b => Sys2Proof.Machine.execFcopys d a b s
  | .fcmpEq m a b => Sys2Proof.Machine.execFcmpEq m a b s
  | .fcmpNe m a b => Sys2Proof.Machine.execFcmpNe m a b s
  | .fcmpLt m a b => Sys2Proof.Machine.execFcmpLt m a b s
  | .fcmpLe m a b => Sys2Proof.Machine.execFcmpLe m a b s
  | .fcmpUnord m a b => Sys2Proof.Machine.execFcmpUnord m a b s
  | .fcmpOrd m a b => Sys2Proof.Machine.execFcmpOrd m a b s
  | .fcmpIsnan m a => Sys2Proof.Machine.execFcmpIsnan m a s
  | .fcmpIsinf m a => Sys2Proof.Machine.execFcmpIsinf m a s
  | .frcp d a => Sys2Proof.Machine.execFrcp d a s
  | .frsq d a => Sys2Proof.Machine.execFrsq d a s
  | .fsqrt d a => Sys2Proof.Machine.execFsqrt d a s
  | .fexp2 d a => Sys2Proof.Machine.execFexp2 d a s
  | .flog2 d a => Sys2Proof.Machine.execFlog2 d a s
  | .ftanh d a => Sys2Proof.Machine.execFtanh d a s
  | .fdiv d a b => Sys2Proof.Machine.execFdiv d a b s
  | .frint d a => Sys2Proof.Machine.execFrint d a s
  | .hadd2 d a b => Sys2Proof.Machine.execHadd2 d a b s
  | .hsub2 d a b => Sys2Proof.Machine.execHsub2 d a b s
  | .hmul2 d a b => Sys2Proof.Machine.execHmul2 d a b s
  | .hfma2 d a b => Sys2Proof.Machine.execHfma2 d a b s
  | .hmin2 d a b => Sys2Proof.Machine.execHmin2 d a b s
  | .hmax2 d a b => Sys2Proof.Machine.execHmax2 d a b s
  | .dot2 d a b => Sys2Proof.Machine.execDot2 d a b s
  | .badd2 d a b => Sys2Proof.Machine.execBadd2 d a b s
  | .bsub2 d a b => Sys2Proof.Machine.execBsub2 d a b s
  | .bmul2 d a b => Sys2Proof.Machine.execBmul2 d a b s
  | .bfma2 d a b => Sys2Proof.Machine.execBfma2 d a b s
  | .bmin2 d a b => Sys2Proof.Machine.execBmin2 d a b s
  | .bmax2 d a b => Sys2Proof.Machine.execBmax2 d a b s
  | .bdot2 d a b => Sys2Proof.Machine.execBdot2 d a b s
  | .cvt d a b => Sys2Proof.Machine.execCvt d a b s
  | .cvpack d a b => Sys2Proof.Machine.execCvpack d a b s
  | .cvunpk d a b => Sys2Proof.Machine.execCvunpk d a b s
  | .cvi d a b => Sys2Proof.Machine.execCvi d a b s
  | .cvsat d a b => Sys2Proof.Machine.execCvsat d a b s
  | .shfl d a b => Sys2Proof.Machine.execShfl d a b s
  | .shflx d a b => Sys2Proof.Machine.execShflx d a b s
  | .wredf op d a => Sys2Proof.Machine.execWredf op d a s
  | .wredi op d a => Sys2Proof.Machine.execWredi op d a s
  | .wscanf op excl d a => Sys2Proof.Machine.execWscanf op excl d a s
  | .wscani op excl d a => Sys2Proof.Machine.execWscani op excl d a s
  | .vote op d a => Sys2Proof.Machine.execVote op d a s
  | .matchT op d a => Sys2Proof.Machine.execMatchT op d a s
  | .sleep n => Sys2Proof.Machine.execSleep n s
  | .trap lit => Sys2Proof.Machine.execTrap lit s
  | .bra a t => Sys2Proof.Machine.execBra a t s
  | .brv a t => Sys2Proof.Machine.execBrv a t s
  | .bru a t => Sys2Proof.Machine.execBru a t s
  | .call a t => Sys2Proof.Machine.execCall a t s
  | .calli a lit => Sys2Proof.Machine.execCalli a lit s
  | .join a => Sys2Proof.Machine.execJoin a s
  | .elect d a => Sys2Proof.Machine.execElect d a s
  | .bri a lit => Sys2Proof.Machine.execBri a lit s
  | .rgnent d => Sys2Proof.Machine.execRgnent d s
  | .monument n => Sys2Proof.Machine.execMonument n s
  | .rdctl d c => Sys2Proof.Machine.execRdctl d c s
  | .wrctl c a => Sys2Proof.Machine.execWrctl c a s
  | .rdcyc d => Sys2Proof.Machine.execRdcyc d s
  | .rdcycTime d => Sys2Proof.Machine.execRdcycTime d s
  | .rdwt d => Sys2Proof.Machine.execRdwt d s
  | .wtarm a => Sys2Proof.Machine.execWtarm a s
  | .bararr d lv => Sys2Proof.Machine.execBararr d lv s
  | .barwait lv a => Sys2Proof.Machine.execBarwait lv a s
  | .barqry d lv => Sys2Proof.Machine.execBarqry d lv s
  | .ld la sz c a d disp => Sys2Proof.Machine.execLd la sz c a d disp s
  | .ldx la sz c a d disp => Sys2Proof.Machine.execLdx la sz c a d disp s
  | .ldq la c a d disp => Sys2Proof.Machine.execLdq la c a d disp s
  | .st sz c a d disp => Sys2Proof.Machine.execSt sz c a d disp s
  | .stq c a d disp => Sys2Proof.Machine.execStq c a d disp s
  | .cld d c a disp => Sys2Proof.Machine.execCld d c a disp s
  | .cst d c a disp => Sys2Proof.Machine.execCst d c a disp s
  | .lda la sz c a d disp sc => Sys2Proof.Machine.execLda la sz c a d disp sc s
  | .stl sz c a d disp sc => Sys2Proof.Machine.execStl sz c a d disp sc s
  | .atom la sz c a d disp op sc => Sys2Proof.Machine.execAtom la sz c a d disp op sc s
  | .atoms la sz c a d disp op sc => Sys2Proof.Machine.execAtoms la sz c a d disp op sc s
  | .fence k sc => Sys2Proof.Machine.execFence k sc s
  | .lds la sz a d disp => Sys2Proof.Machine.execLds la sz a d disp s
  | .sts sz a d disp => Sys2Proof.Machine.execSts sz a d disp s
  | .pref xlat sz c a disp => Sys2Proof.Machine.execPref xlat sz c a disp s
  | .qbind d a mode => Sys2Proof.Machine.execQbind d a mode s
  | .qfree d n => Sys2Proof.Machine.execQfree d n s
  | .qpeek d a => Sys2Proof.Machine.execQpeek d a s
  | .qremote d a n => Sys2Proof.Machine.execQremote d a n s
  | .dwinit a n => Sys2Proof.Machine.execDwinit a n s
  | .dwwait a n => Sys2Proof.Machine.execDwwait a n s
  | .dwadd a n => Sys2Proof.Machine.execDwadd a n s
  | .rdrop d => Sys2Proof.Machine.execRdrop d s
  | .rpin d => Sys2Proof.Machine.execRpin d s
  | .runpin d => Sys2Proof.Machine.execRunpin d s
  | .rqry d a => Sys2Proof.Machine.execRqry d a s
  | .rclr d => Sys2Proof.Machine.execRclr d s
  | .tcfg d b => Sys2Proof.Machine.execTcfg d b s
  | .tld la spm ta td stride disp => Sys2Proof.Machine.execTld la spm ta td stride disp s
  | .tldt la spm ta td stride disp => Sys2Proof.Machine.execTldt la spm ta td stride disp s
  | .tst la spm ta td stride disp => Sys2Proof.Machine.execTst la spm ta td stride disp s
  | .tzeroTile la td => Sys2Proof.Machine.execTzeroTile la td s
  | .tzeroAcc la td => Sys2Proof.Machine.execTzeroAcc la td s
  | .mma la fmt acc tb ta td => Sys2Proof.Machine.execMma la fmt acc tb ta td s
  | .scacc la pair acc tb ta td => Sys2Proof.Machine.execScacc la pair acc tb ta td s
  | .acst la fmt spm ta td stride disp => Sys2Proof.Machine.execAcst la fmt spm ta td stride disp s
  | .acld la fmt spm ta td stride disp => Sys2Proof.Machine.execAcld la fmt spm ta td stride disp s
  | .cpy la d a => Sys2Proof.Machine.execCpy la d a s
  | .cpyTile la d a => Sys2Proof.Machine.execCpyTile la d a s
  | .cpyout la d a => Sys2Proof.Machine.execCpyout la d a s
  | .cpyoutTile la d a => Sys2Proof.Machine.execCpyoutTile la d a s
  | .cpyr la d a => Sys2Proof.Machine.execCpyr la d a s
  | .cpyrQ la d a => Sys2Proof.Machine.execCpyrQ la d a s
  | .cpyg la d a => Sys2Proof.Machine.execCpyg la d a s
  | .cpygTile la d a => Sys2Proof.Machine.execCpygTile la d a s
  | .bseal d => Sys2Proof.Machine.execBseal d s
  | .bwait n => Sys2Proof.Machine.execBwait n s
  | .btest d n => Sys2Proof.Machine.execBtest d n s
  | .chapp d a st => Sys2Proof.Machine.execChapp d a st s
  | .chtail la a => Sys2Proof.Machine.execChtail la a s
  | .chwait a n => Sys2Proof.Machine.execChwait a n s
  | .chseq d a => Sys2Proof.Machine.execChseq d a s
  | .kvwin d a => Sys2Proof.Machine.execKvwin d a s
  | .kvcommit a => Sys2Proof.Machine.execKvcommit a s
  | .kvabort a => Sys2Proof.Machine.execKvabort a s
  | .kvlen d a => Sys2Proof.Machine.execKvlen d a s
  | .smpl d a st => Sys2Proof.Machine.execSmpl d a st s
  | .mact0 => Sys2Proof.Machine.execMact0 s
  | .mact1 => Sys2Proof.Machine.execMact1 s
  | .mact2 => Sys2Proof.Machine.execMact2 s
  | .mact3 => Sys2Proof.Machine.execMact3 s
  | .mact4 => Sys2Proof.Machine.execMact4 s
  | .mact5 => Sys2Proof.Machine.execMact5 s
  | .mact6 => Sys2Proof.Machine.execMact6 s
  | .mact7 => Sys2Proof.Machine.execMact7 s
  | .mact8 => Sys2Proof.Machine.execMact8 s
  | .mact9 => Sys2Proof.Machine.execMact9 s
  | .mact10 => Sys2Proof.Machine.execMact10 s
  | .mact11 => Sys2Proof.Machine.execMact11 s
  | .mact12 => Sys2Proof.Machine.execMact12 s
  | .mact13 => Sys2Proof.Machine.execMact13 s
  | .mact14 => Sys2Proof.Machine.execMact14 s
  | .mact15 => Sys2Proof.Machine.execMact15 s
  | .nop => Sys2Proof.Machine.execNop s
  | .yield => Sys2Proof.Machine.execYield s
  | .waitla => Sys2Proof.Machine.execWaitla s
  | .tret => Sys2Proof.Machine.execTret s
  | .tretSkip => Sys2Proof.Machine.execTretSkip s
  | .xdone => Sys2Proof.Machine.execXdone s
  | .edone => Sys2Proof.Machine.execEdone s
  | .ret => Sys2Proof.Machine.execRet s
  | .mdrop0 => Sys2Proof.Machine.execMdrop0 s
  | .mdrop1 => Sys2Proof.Machine.execMdrop1 s
  | .mdrop2 => Sys2Proof.Machine.execMdrop2 s
  | .mdrop3 => Sys2Proof.Machine.execMdrop3 s
  | .mdrop4 => Sys2Proof.Machine.execMdrop4 s
  | .mdrop5 => Sys2Proof.Machine.execMdrop5 s
  | .mdrop6 => Sys2Proof.Machine.execMdrop6 s
  | .mdrop7 => Sys2Proof.Machine.execMdrop7 s
  | .mdrop8 => Sys2Proof.Machine.execMdrop8 s
  | .mdrop9 => Sys2Proof.Machine.execMdrop9 s
  | .mdrop10 => Sys2Proof.Machine.execMdrop10 s
  | .mdrop11 => Sys2Proof.Machine.execMdrop11 s
  | .mdrop12 => Sys2Proof.Machine.execMdrop12 s
  | .mdrop13 => Sys2Proof.Machine.execMdrop13 s
  | .mdrop14 => Sys2Proof.Machine.execMdrop14 s
  | .mdrop15 => Sys2Proof.Machine.execMdrop15 s
  | .exit => Sys2Proof.Machine.execExit s
  | .tmaskOff => Sys2Proof.Machine.execTmaskOff s
  | .tmaskOn => Sys2Proof.Machine.execTmaskOn s
  | .barFile => Sys2Proof.Machine.execBarFile s
  | .barCore => Sys2Proof.Machine.execBarCore s
  | .barSlice => Sys2Proof.Machine.execBarSlice s
  | .barCluster => Sys2Proof.Machine.execBarCluster s
  | .qunbind0 => Sys2Proof.Machine.execQunbind0 s
  | .qunbind1 => Sys2Proof.Machine.execQunbind1 s
  | .qunbind2 => Sys2Proof.Machine.execQunbind2 s
  | .qunbind3 => Sys2Proof.Machine.execQunbind3 s
  | .qunbind4 => Sys2Proof.Machine.execQunbind4 s
  | .qunbind5 => Sys2Proof.Machine.execQunbind5 s
  | .qunbind6 => Sys2Proof.Machine.execQunbind6 s
  | .qunbind7 => Sys2Proof.Machine.execQunbind7 s
  | .rtag => Sys2Proof.Machine.execRtag s
  | .loadDataArrival => Sys2Proof.Machine.execLoadDataArrival s
  | .tileOpComplete => Sys2Proof.Machine.execTileOpComplete s
  | .copyTransfer => Sys2Proof.Machine.execCopyTransfer s
  | .followOnCommand => Sys2Proof.Machine.execFollowOnCommand s
  | .batchComplete => Sys2Proof.Machine.execBatchComplete s
  | .wakeConditionMet => Sys2Proof.Machine.execWakeConditionMet s
  | .sleepDeadline => Sys2Proof.Machine.execSleepDeadline s
  | .warpTimer => Sys2Proof.Machine.execWarpTimer s
  | .rasRefillDone => Sys2Proof.Machine.execRasRefillDone s
  | .preemptionRequest => Sys2Proof.Machine.execPreemptionRequest s
  | .vectorWaitExpiry => Sys2Proof.Machine.execVectorWaitExpiry s
  | .exitBudgetOverrun => Sys2Proof.Machine.execExitBudgetOverrun s
  | .tmaskBoundExpiry => Sys2Proof.Machine.execTmaskBoundExpiry s
  | .rejoinTimeout => Sys2Proof.Machine.execRejoinTimeout s
  | .switchedOut => Sys2Proof.Machine.execSwitchedOut s
  | .resumeWarp => Sys2Proof.Machine.execResumeWarp s
  | .contextFault => Sys2Proof.Machine.execContextFault s
  | .resetAlone => Sys2Proof.Machine.execResetAlone s
  | .resetComplete => Sys2Proof.Machine.execResetComplete s
  | .sliceEnd => Sys2Proof.Machine.execSliceEnd s
  | .watchdog => Sys2Proof.Machine.execWatchdog s
  | .migrationStop => Sys2Proof.Machine.execMigrationStop s
  | .migrationTimeout => Sys2Proof.Machine.execMigrationTimeout s
  | .kernelLoad => Sys2Proof.Machine.execKernelLoad s
  | .translationComplete => Sys2Proof.Machine.execTranslationComplete s
  | .kernelUnload => Sys2Proof.Machine.execKernelUnload s
  | .lazyPageBound => Sys2Proof.Machine.execLazyPageBound s
  | .placeWorkGroup => Sys2Proof.Machine.execPlaceWorkGroup s
  | .chainEntryRead => Sys2Proof.Machine.execChainEntryRead s
  | .nodeDispatch => Sys2Proof.Machine.execNodeDispatch s
  | .nodeAgeing => Sys2Proof.Machine.execNodeAgeing s
  | .nodeComplete => Sys2Proof.Machine.execNodeComplete s
  | .binEntry => Sys2Proof.Machine.execBinEntry s
  | .gangArm => Sys2Proof.Machine.execGangArm s
  | .gangAck => Sys2Proof.Machine.execGangAck s
  | .gangGo => Sys2Proof.Machine.execGangGo s
  | .gangTimeout => Sys2Proof.Machine.execGangTimeout s
  | .gangAbort => Sys2Proof.Machine.execGangAbort s
  | .sampleRequest => Sys2Proof.Machine.execSampleRequest s
  | .rngRingRefill => Sys2Proof.Machine.execRngRingRefill s
  | .eventAccept => Sys2Proof.Machine.execEventAccept s
  | .faultRecordPost => Sys2Proof.Machine.execFaultRecordPost s
  | .ctxreg => Sys2Proof.Machine.execCtxreg s
  | .chreg => Sys2Proof.Machine.execChreg s
  | .ctxdestroy => Sys2Proof.Machine.execCtxdestroy s
  | .attest => Sys2Proof.Machine.execAttest s
  | .ctlchain => Sys2Proof.Machine.execCtlchain s
  | .ctltail => Sys2Proof.Machine.execCtltail s
  | .shoot => Sys2Proof.Machine.execShoot s
  | .shootdownComplete => Sys2Proof.Machine.execShootdownComplete s
  | .fqAnswer => Sys2Proof.Machine.execFqAnswer s
  | .evrHead => Sys2Proof.Machine.execEvrHead s
  | .fqHead => Sys2Proof.Machine.execFqHead s
  | .fkrClear => Sys2Proof.Machine.execFkrClear s
  | .heatSeed => Sys2Proof.Machine.execHeatSeed s
  | .heatEpoch => Sys2Proof.Machine.execHeatEpoch s
  | .rngKeyWrite => Sys2Proof.Machine.execRngKeyWrite s
  | .vdHold => Sys2Proof.Machine.execVdHold s
  | .vdRelease => Sys2Proof.Machine.execVdRelease s
  | .warmStart => Sys2Proof.Machine.execWarmStart s
  | .registerWrite => Sys2Proof.Machine.execRegisterWrite s
  | .functionLevelReset => Sys2Proof.Machine.execFunctionLevelReset s
  | .sriovEnable => Sys2Proof.Machine.execSriovEnable s
  | .coldStart => Sys2Proof.Machine.execColdStart s
  | .linkTrained => Sys2Proof.Machine.execLinkTrained s
  | .flitCrcFail => Sys2Proof.Machine.execFlitCrcFail s
  | .linkRetryTimeout => Sys2Proof.Machine.execLinkRetryTimeout s
  | .linkRetrainDone => Sys2Proof.Machine.execLinkRetrainDone s
  | .supplySag => Sys2Proof.Machine.execSupplySag s
  | .stretchLong => Sys2Proof.Machine.execStretchLong s
  | .illegalEncoding => Sys2Proof.Machine.execIllegalEncoding s
  | .gangMemberDone => Sys2Proof.Machine.execGangMemberDone s
  | .gangMemberReset => Sys2Proof.Machine.execGangMemberReset s
  | .supplyRecovery => Sys2Proof.Machine.execSupplyRecovery s
  | .hostLinkRequest => Sys2Proof.Machine.execHostLinkRequest s
  | .remoteAccess => Sys2Proof.Machine.execRemoteAccess s
  | .migrationResume => Sys2Proof.Machine.execMigrationResume s

end Sys2Proof.Machine
end

