-- ==== Sys2Proof/Machine/Turn.lean ====
section
/-! DEFINITION. What the device does next: the event that comes, or the unit that issues, and how an instruction comes to stand
where it is fetched (R79, R80, R151, R281, R283, R285). -/

namespace Sys2Proof.Machine

/-! ### Events and issues -/

/-- The row of the opcode table is an event, which no word encodes. -/
def isEvent (i : Instr) : Bool := (words i).isNone

/-- An event that names a unit. -/
def unitArg (u : Nat) : EvArg := { EvArg.none with unit := u }

/-- An item of the agenda without writes from outside. -/
def Item.of (i : Instr) (a : EvArg) : Item := ⟨i, a, [], [], [], none⟩

/-- The item by which unit `u` issues: an instruction stands for the one that the unit fetches. -/
def issueItem (u : Nat) : Item := Item.of .nop (unitArg u)

/-- Unit `u` fetches at its lowest ready PC and runs the instruction it decodes (R79, R80, R151). A fetch that does not succeed
traps or faults; bytes that are no instruction run ILLEGAL_ENCODING. -/
def fetchRun (s : State) (u : Nat) : Host.Outcome State Fault Refusal :=
  let w := unitOf s u
  let act := activeThreads w
  match fetchInsn s w (lowPc w act) with
  | (s, .error b) => .next (restCores (fetchStop s u (lowPc w act) act b))
  | (s, .ok bs) =>
    match decode bs with
    | .ok (i, _) => Sys2Proof.Machine.exec i s
    | .error _ => Sys2Proof.Machine.exec .illegalEncoding { s with ev := unitArg u }

/-- An issue slot of the partition or offset core of unit `u` comes: the unit in turn of those that share it issues, where one
may (R281, R285). A timer that is due comes before a cause that the threads carry, which then meets INH = 1: the spec orders the two
nowhere (R159). (Log 103 DESIGN CHOICE.) -/
def issueUnit (s : State) (u : Nat) : Host.Outcome State Fault Refusal :=
  let u := turnUnit s u
  let w := unitOf s u
  if !canIssue s w then .next (restCores s)
  else
    let s := { s with turn := u }
    match beforeIssue s w with
    | some i => Sys2Proof.Machine.exec i { s with ev := unitArg u }
    | none => if (carriers w).isEmpty then fetchRun s u else .next (restCores (takeCarried s u))

/-- What the host and other devices write outside the device: host, pool and fabric memory alone.
(Log 1 DESIGN CHOICE, log 80 DESIGN CHOICE.) -/
def writeOutside (s : State) (l : List (Nat × List Byte)) : State :=
  l.foldl (fun s p => if 2 ^ 64 ≤ p.1 && p.1 + p.2.length ≤ 4 * 2 ^ 64 then putBytes s p.1 p.2 false else s) s

/-- A device whose start has failed takes only a new cold start (R408). (Log 79 DEDUCED.) -/
def accepts_ (s : State) (i : Instr) : Bool := s.bootStat == 15 || i == .coldStart

/-- From here on the governors of their tenants hold these contexts, where that changes (R263). (Log 86 DEDUCED.) -/
def setGoverned (s : State) (l : Option (List Nat)) : State := { s with governed := l.getD s.governed }

/-- One item of the agenda: an event, before which the pointer of an offset core that issues nothing has returned to 0 (R285), or the
issue of a unit. (Log 1 DESIGN CHOICE, log 80 DESIGN CHOICE.) -/
def runItem (s : State) (e : Item) : Host.Outcome State Fault Refusal :=
  let s := setGoverned (e.parity.foldl parityError (e.errors.foldl strike (writeOutside s e.outside))) e.governed
  if !accepts_ s e.event then .next s
  else if isEvent e.event then Sys2Proof.Machine.exec e.event { restCores s with ev := e.arg }
  else issueUnit s e.arg.unit

/-! ### What comes next where the agenda is empty

The spec fixes no order between the device's units and engines; the agenda gives any. Where it is empty the device goes on
by itself in the order below. -/

/-- The first unit with a property, as an item. -/
def unitItem (s : State) (f : Nat → Warp → Option Item) : Option Item := s.units.findSome? fun p => f p.1 p.2

/-- The item of a record or an event that waits for the arbiter. -/
def arbiterItem (s : State) : Option Item :=
  if (nextEvent s).isSome then some (Item.of .eventAccept EvArg.none)
  else if s.waitingFaults.any fun f => fqRoom (vdOf s f.vd) then some (Item.of .faultRecordPost EvArg.none)
  else none

/-- A wait that is over, or data that comes back. -/
def arrivalItem (s : State) (u : Nat) (w : Warp) : Option Item :=
  if mayWake w && ctxRuns s w.asid && (wokenWait s u).isSome then some (Item.of .wakeConditionMet (unitArg u))
  else if w.stat = .resident then
    match w.pends.find? fun p => !p.arrived && !p.faulted with
    | some p => some (Item.of .loadDataArrival { unitArg u with id := p.id })
    | none =>
      match w.tops with
      | o :: _ => some (Item.of .tileOpComplete { unitArg u with id := o.id })
      | [] => none
  else none

/-- A row of a copy, a follow-on command, or a batch whose copies have ended. -/
def copyItem (s : State) (u : Nat) (w : Warp) : Option Item :=
  match w.copies.findSome? fun c => (c.rows.find? fun r => copyReady s w c r && !creditWaits s u c).map fun r => (c.id, r) with
  | some (id, r) => some (Item.of .copyTransfer { unitArg u with id := id, row := r })
  | none =>
    match w.copies.find? (followReady s w) with
    | some c => some (Item.of .followOnCommand { unitArg u with id := c.id })
    | none =>
      match w.batches.find? fun b => !b.complete && b.copies.isEmpty with
      | some b => some (Item.of .batchComplete { unitArg u with value := b.num })
      | none => none

/-- A context that a switch or a reset has finished. -/
def contextItem (s : State) : Option Item :=
  s.ctxs.findSome? fun p =>
    if p.2.state = .resetting then some (Item.of .resetComplete { EvArg.none with asid := p.1 })
    else if p.2.state = .switchingOut && allOut s p.1 then some (Item.of .switchedOut { EvArg.none with asid := p.1 })
    else none

/-- The next unit to issue after the one that issued last. -/
def nextUnit (s : State) : Option Nat :=
  let l := (s.units.filter fun p => canIssue s p.2 && firstInTurn s p.1 p.2).map (·.1)
  (l.find? (s.turn < ·)).or l.head?

/-- An entry that a chain engine may read, run or complete. -/
def chainItem (s : State) (ch : Nat) (c : Chain) : Option Item :=
  let a := { EvArg.none with chain := ch }
  if !engineOn s c then none
  else
    let tail := match peek s c.asid c.cap.object (c.cap.cursor + 0xC) 4 with
      | some b => ofBytes b
      | none => c.next
    let blocked := (entryOf c c.next).any fun e => e.token.isSome || e.fixed.isSome
    if (heldCompletion c).isSome || (nextSettled c).isSome || (tail ≠ c.next && !blocked) then some (Item.of .chainEntryRead a)
    else
      let go := fun (e : Entry) => e.token.isNone && e.fixed.isNone
      match c.engine with
      | 2 => (c.entries.find? fun e => e.state == .ready && go e).map fun e => Item.of .binEntry { a with seq := e.seq }
      | 3 => if (offered c).isSome && mayServe s ch then some (Item.of .sampleRequest a) else none
      | _ =>
        (c.entries.findSome? fun e =>
          if e.state == .running && go e && eKind e == 1 && eClass e ≤ 1 then
            if (sfind s.launches e.launch).isSome && launchDone s e.launch then some (Item.of .nodeComplete { a with seq := e.seq })
            else none
          else if e.state == .running && go e && eKind e == 1 && requestDone s c e then some (Item.of .nodeComplete { a with seq := e.seq })
          else if e.state == .running && go e && eKind e == 2 && mayPlace s c.asid then some (Item.of .nodeDispatch { a with seq := e.seq })
          else none)

/-- Where a launch's next group or thread is placed: an instance that has room for it, and from which no pinned or pending value
holds it back (R307), a free offset-core context, or the places that a gang part keeps, once GO has come (R324). -/
def nextPlace (s : State) (ln : Nat) (l : Launch) : Option Loc :=
  if l.offThreads then offsetPlace s l.asid
  else if let some p := gangPartOf s ln then (if p.2.started then some Loc.zero else none)
  else (instances l.level).find? fun p => (seatGroup s ln p).isSome

/-- A launch with groups or threads to place, and the place. -/
def placeItem (s : State) : Option Item :=
  s.launches.findSome? fun p =>
    if mayPlace s p.2.asid && p.2.placed < p.2.groups then
      (nextPlace s p.1 p.2).map fun l => Item.of .placeWorkGroup { EvArg.none with id := p.1, loc := l }
    else none

/-- A node that the graph engine may dispatch (R321). -/
def dispatchItem (s : State) : Option Item :=
  (readyNodes s).findSome? fun p =>
    if mayDispatch s p.2 && findsPlace s p.1 p.2 then
      let l := match (entryRecord s (chainOf s p.1) p.2).2 with
        | .ok (some r) => (nodePlace s (nodeLaunch (chainOf s p.1) p.1 p.2 r)).getD Loc.zero
        | _ => Loc.zero
      some (Item.of .nodeDispatch { EvArg.none with chain := p.1, seq := p.2.seq, loc := l })
    else none

/-- The next control entry of a virtual device. (Log 67 DEDUCED.) -/
def ctlItem (s : State) (vd : Nat) : Option Item :=
  (ctlEntry s vd).bind fun e =>
    let a := { EvArg.none with vd := vd }
    if eHold e && ctlPasses s vd e then none
    else
      match eKind e with
      | 0x20 => some (Item.of .ctxreg a)
      | 0x21 => some (Item.of .chreg a)
      | 0x22 => some (Item.of .ctxdestroy a)
      | 0x23 => some (Item.of .attest a)
      | _ => some (Item.of .chainEntryRead { a with flag := true })

/-- A unit that only waits for time: vectoring, sleep, or ejected threads that do not come back. -/
def timeItem (s : State) (u : Nat) (w : Warp) : Option Item :=
  match w.vec with
  | some v => if v.expired then none else some (Item.of .vectorWaitExpiry (unitArg u))
  | none =>
    if mayWake w && w.waits.any fun x => x.kind == 10 then some (Item.of .sleepDeadline (unitArg u))
    else if waitsRejoin w then some (Item.of .rejoinTimeout { unitArg u with value := (ctxOf s w.asid).rejoinLimit })
    else none

/-- The limit of a warp's rejoin wait is reached (R279). -/
def rejoinItem (s : State) (u : Nat) (w : Warp) : Option Item :=
  if waitsRejoin w && (ctxOf s w.asid).rejoinLimit ≤ w.rejoinWait then some (Item.of .rejoinTimeout (unitArg u)) else none

/-- A ring of the random engine to fill (R380), or a shootdown to complete (R344). -/
def serviceItem (s : State) : Option Item :=
  (s.vds.findSome? fun p => if p.2.shootBusy then some (Item.of .shootdownComplete { EvArg.none with vd := p.1 }) else none)
    <|> (s.slots.findSome? fun p => if p.2.en && p.2.ring.length < 16 then some (Item.of .rngRingRefill { EvArg.none with id := p.1 }) else none)

/-- A moment of TIME has come: a migration's deadline (R301), a slice's end (R262), a gang's timeout (R324), a node's next level
(R321). -/
def dueItem (s : State) : Option Item :=
  (s.ctxs.findSome? fun p =>
    let a := { EvArg.none with asid := p.1 }
    if (p.2.migration.any fun d => d ≤ s.time) && anyUnstopped s p.1 then some (Item.of .migrationTimeout a)
    else if p.2.state = .resident && p.2.slice ≠ 0 && p.2.sliceStart + p.2.slice * 1000 ≤ s.time then some (Item.of .sliceEnd a)
    else none)
    <|> (s.gangs.findSome? fun p =>
      if p.2.state = .arming && p.2.deadline ≤ s.time then some (Item.of .gangTimeout { EvArg.none with gang := p.1 }) else none)
    <|> (s.chains.findSome? fun p =>
      if p.2.engine = 1 then
        (p.2.entries.find? fun e => e.state == .ready && e.prio < 7 && e.agedAt + 1000000 ≤ s.time).map fun e =>
          Item.of .nodeAgeing { EvArg.none with chain := p.1, seq := e.seq }
      else none)

/-- A warp, a group or a class 1 thread that can resume (R246, R255, R269). -/
def resumeItem (s : State) (u : Nat) (w : Warp) : Option Item :=
  if w.stat = .resident then none
  else
    match Sys2Proof.Machine.execResumeWarp { s with ev := unitArg u } with
    | .next t => if (unitOf t u).stat = .resident then some (Item.of .resumeWarp (unitArg u)) else none
    | .fault _ => none
    | .refused _ => none

/-- A switched-out context with engine work alone, which is selected again (R246). -/
def selectItem (s : State) : Option Item :=
  s.ctxs.findSome? fun p =>
    if p.2.state = .switchedOut && selectable s p.1 && noUnitOut s p.1 then some (Item.of .resumeWarp { EvArg.none with asid := p.1 })
    else none

/-- What the device does next of itself. (Log 1 DESIGN CHOICE.) -/
def nextItem (s : State) : Option Item :=
  (arbiterItem s)
    <|> (unitItem s (arrivalItem s))
    <|> (unitItem s (copyItem s))
    <|> (serviceItem s)
    <|> (contextItem s)
    <|> (dueItem s)
    <|> (unitItem s (resumeItem s))
    <|> (selectItem s)
    <|> (unitItem s (rejoinItem s))
    <|> (s.chains.findSome? fun p => chainItem s p.1 p.2)
    <|> (placeItem s)
    <|> (dispatchItem s)
    <|> (s.vds.findSome? fun p => ctlItem s p.1)
    <|> ((nextUnit s).map issueItem)
    <|> (unitItem s (timeItem s))

/-- Nothing is to be done: time passes, and as no context issues the pointers of the offset cores return to 0 (R285).
(Log 9 DEDUCED.) -/
def idle (s : State) : State := { tick s 0 0 with offPtr := [] }

/-- One turn of the device. (Log 1 DESIGN CHOICE.) -/
def turn (s : State) : Host.Outcome State Fault Refusal :=
  match s.agenda with
  | e :: r => runItem { s with agenda := r } e
  | [] =>
    match nextItem s with
    | some e => runItem s e
    | none => .next (idle s)

/-! ### Where an instruction stands -/

/-- The place in memory of the byte at which unit `u` fetches next, where it may issue at once and `n` bytes lie in one page. -/
def fetchPlace (s : State) (u n : Nat) : Option Nat :=
  let w := unitOf s u
  let pc := lowPc w (activeThreads w)
  let off := pc - codeObjBase s w
  if canIssue s w && (beforeIssue s w).isNone && (carriers w).isEmpty && off % 65536 + n ≤ 65536 && s.bootStat == 15 then
    match fetchCheck s w pc n, lookup s w.asid (getC w 0 9).object off n with
    | .ok _, .ok k =>
      match trOf s k off false true with
      | .ok t => some (physOf t off)
      | .error _ => none
    | _, _ => none
  else none

/-- The unit that would issue next. -/
def nextIssuer (s : State) : Nat := turnUnit s (if canIssue s (unitOf s s.turn) then s.turn else (nextUnit s).getD 0)

/-- The HBM bytes of a small loaded program: a Cadastre with object 1 at unified address 0, page tables that map its first
page to frame 16, and the code at that frame. -/
def loadedMem (code : List Byte) : Store Byte :=
  let ptr := fun (t : Nat) => toBytes 8 (1 + t)
  [(0x10010, toBytes 16 (2 ^ 127 + 65536 * 2 ^ 64)), (0x20000, ptr 0x21000), (0x21000, ptr 0x22000), (0x22000, ptr 0x23000),
   (0x23000, ptr 0x24000), (0x24000, toBytes 8 (7 + 16 * 2 ^ 24)), (0x100000, code)].foldl (fun m p => ssetMany 0 m p.1 p.2) []

/-- The loaded program's context 1, whose pages these are. -/
def loadedCtx : Ctx := { Ctx.blank with state := .resident }

/-- Its warp: one live thread at the code's first byte, all registers, tiles and accumulators, and k1 over the code. -/
def loadedWarp : Warp :=
  { Warp.blank with
    grp := 1, asid := 1, stat := .resident, base := 96, ntiles := 8, naccs := 4, live := 1
    regs := { Regs.zero with k := [(1, mkCap 0 1 1 (rR + rX) 4096 0 4 0 true)] } }

/-- The loaded program on a device after reset. (Log 1 DESIGN CHOICE.) -/
def install (s : State) (code : List Byte) : State :=
  { s with
    mem := loadedMem code
    xlatCad := sset 0 s.xlatCad 1 0x10000
    xlatPt := sset 0 s.xlatPt 1 0x20000
    ctxs := sput s.ctxs 1 loadedCtx
    launches := sput s.launches 1 { Launch.blank with asid := 1, kernel := 1, base := 96, ntiles := 8, naccs := 4, groups := 1, warps := 1, threads := 1, placed := 1 }
    groups := sput s.groups 1 { Group.blank with launch := 1, asid := 1, stat := .running, members := [1], cores := [(0, 0, 0)] }
    units := sput s.units 1 loadedWarp
    bootStat := 15
    governed := []
    turn := 1
    agenda := [issueItem 1] }

/-- The state in which the next turn fetches and runs the instruction whose bytes are `code`: they stand where the unit in turn
fetches, or where no unit can issue a loaded program stands there. (Log 1 DESIGN CHOICE.) -/
def placeCode (s : State) (code : List Byte) : State :=
  match fetchPlace s (nextIssuer s) code.length with
  | some a => { putBytes s a code false with agenda := [issueItem (nextIssuer s)] }
  | none => install s code

end Sys2Proof.Machine
end

