-- ==== Sys2Proof/Safety.lean ====
section
/-! DEFINITION. The terms in which claims about the machine are made: a unit in its turn, the unit as its instruction's own
effect finds it, when named operands serve, what an issue keeps, and the canonical form of memory. -/

namespace Sys2Proof.Machine

/-! ### A unit in its turn -/

/-- Unit `s.turn` is `w`, and at least one thread of it is active (R151). -/
def InTurn (s : State) (w : Warp) : Prop := sfind s.units s.turn = some w ∧ activeThreads w ≠ []

/-- At this issue nothing but the instruction's own effect happens: no tagged register is to be replayed or pinned (R70, R71),
no pre-emption is held back that the issue could let go (R173, R254, R255), and no woken queue stall ends (R208). -/
def Calm (w : Warp) : Prop := w.recipes = [] ∧ w.heldPre = none ∧ ∀ x ∈ w.waits, x.flags ≠ 2

/-- The end of an issue that leaves the unit so changes only counts of it: every elastic value that stands in the file has a
row (R307), no pre-emption is held back, no woken queue stall ends, and the unit does not wait on translation faults alone
(R303). -/
def Settled (w : Warp) : Prop :=
  (∀ r ∈ w.recipes, r.st = .valid → r.row.isSome) ∧ w.heldPre = none ∧ (∀ x ∈ w.waits, x.flags ≠ 2) ∧ allOnStub w = false

/-- The unit as an instruction of `len` bytes finds it: operations beyond their window have completed (R97), and the active
threads' PCs stand after the instruction (R151). -/
def atIssue (w : Warp) (len : Nat) : Warp :=
  setPcs (settleDue w (activeThreads w)) (activeThreads w) (lowPc w (activeThreads w) + len)

/-- Every condition of R95 and R185 on the registers that an instruction names is met, none of them is a queue port, and none
that it writes is elastic. -/
def operandsOk (v : Warp) (act : List Nat) (x : Uses) : Prop :=
  nameCheck v x = none ∧ ((x.reads ++ x.writes).any (·.isQ)) = false ∧ (x.writes.any (·.elasticIn v)) = false
    ∧ poisonCheck v act x = none

/-! ### What an issue keeps -/

/-- A unit without what an instruction that writes registers alone may change: the register files, the windows, the counts of
a routine and of a held pre-emption, and what the passing of time counts. -/
def lessRegs (w : Warp) : Warp :=
  { w with
    regs := Regs.zero, pends := [], tops := [], routine := none, tmaskClk := 0, resumeGuard := false, wtime := 0
    rejoinWait := 0, yield := [], noEject := [] }

/-- The unit differs from `v` at most in its register files, its windows, counts, and the calls that it notes as met again (R271): its
PC table, marks, stacks, modes, trap shadows, shapes, ports and all else are those of `v`. -/
def unitKept (v x : Warp) : Prop := lessRegs x = lessRegs v

/-- A unit without what the passing of time counts. -/
def lessTime (w : Warp) : Warp := { w with wtime := 0, rejoinWait := 0, yield := [] }

/-- Every unit but the one in turn differs at most in what the passing of time counts. -/
def otherUnitsKept (s t : State) : Prop := ∀ u, u ≠ s.turn → lessTime (unitOf t u) = lessTime (unitOf s u)

/-- The state without its units, its contexts, the round-robin pointers, the clocks and the model's own
counters. -/
def lessUnits (s : State) : State :=
  { s with units := [], ctxs := [], offPtr := [], slotPtr := [], cyc := [], time := 0, fresh := 0, nextId := 0 }

/-- Outside the units, only the watchdog's count, the round-robin pointers, the clocks and the model's own
counters differ: every byte of memory, its tags and marks, scratchpads, groups, contexts, chains, queues and registers of the
device are those of `s`. -/
def deviceKept (s t : State) : Prop :=
  lessUnits t = lessUnits s ∧ ∀ a, { ctxOf t a with idle := 0 } = { ctxOf s a with idle := 0 }

/-- A state that an instruction of the unit in turn leaves, where it writes registers of its own unit alone: `v` is the unit as
the instruction found it. -/
def onlyRegs (s : State) (v : Warp) (t : State) : Prop :=
  unitKept v (unitOf t s.turn) ∧ otherUnitsKept s t ∧ deviceKept s t

/-! ### Register results -/

/-- What a thread's registers read after `v` is written to `d` (R54): z takes nothing, and a write to y0 pushes y0's old value
to y1. -/
def afterWrite {α : Type} (get : PReg → α) (d : PReg) (v : α) (r : PReg) : α :=
  match d with
  | .z => get r
  | .tid => get r
  | .q _ => get r
  | .y n => if r = .y n then v else if n = 0 ∧ r = .y 1 then get (.y 0) else get r
  | d => if r = d then v else get r

/-- Every register file but the per-thread registers is the same. -/
def otherFilesKept (a b : Regs) : Prop := b = { a with x := b.x, xp := b.xp }

/-- The instruction of `len` bytes writes `f t` to D in each active thread `t`, and nothing else but the PCs of these threads,
which stand after it. -/
def WritesX (s : State) (w : Warp) (len : Nat) (d : PReg) (f : Nat → Word) (t : State) : Prop :=
  let v := atIssue w len
  let x := unitOf t s.turn
  (∀ i < 128, ∀ r, getX x i r = if i ∈ activeThreads w then afterWrite (getX v i) d (f i) r else getX v i r)
    ∧ (∀ i < 128, ∀ r, poisonX x i r = if i ∈ activeThreads w then afterWrite (poisonX v i) d 0 r else poisonX v i r)
    ∧ otherFilesKept v.regs x.regs
    ∧ onlyRegs s v t

/-- The instruction writes `val` to s register D, or nothing where D is z. -/
def WritesU (s : State) (w : Warp) (len : Nat) (d : SReg) (val : DWord) (t : State) : Prop :=
  let v := atIssue w len
  let x := unitOf t s.turn
  (∀ n : Fin 64, getS x n = if d = .s n then val else getS v n)
    ∧ (∀ n : Fin 64, sget 0 x.regs.sp n = if d = .s n then 0 else sget 0 v.regs.sp n)
    ∧ x.regs = { v.regs with s := x.regs.s, sp := x.regs.sp }
    ∧ onlyRegs s v t

/-- A unit without its marks and PCs as well: a JOIN may have released parked threads. -/
def lessJoins (w : Warp) : Warp := { lessRegs w with marks := [], pcs := [] }

/-- The instruction writes `val` to mask register `m`. Threads parked at a JOIN may go on (R124, R167); a thread that is not
parked keeps its mark, and its PC as the issue left it. -/
def WritesM (s : State) (w : Warp) (len : Nat) (m : Fin 16) (val : QWord) (t : State) : Prop :=
  let v := atIssue w len
  let x := unitOf t s.turn
  (∀ k : Fin 16, getM x k = if k = m then val else getM v k)
    ∧ (∀ k : Fin 16, sget 0 x.regs.mp k = if k = m then 0 else sget 0 v.regs.mp k)
    ∧ x.regs = { v.regs with m := x.regs.m, mp := x.regs.mp }
    ∧ lessJoins x = lessJoins v
    ∧ (∀ i, (∀ k, getMark v i ≠ .parked k) → getMark x i = getMark v i ∧ getPc x i = getPc v i)
    ∧ otherUnitsKept s t ∧ deviceKept s t

/-- The instruction writes capability `f t` to c register `d` in each active thread `t`. -/
def WritesC (s : State) (w : Warp) (len : Nat) (d : Fin 16) (f : Nat → Cap) (t : State) : Prop :=
  let v := atIssue w len
  let x := unitOf t s.turn
  (∀ i < 128, ∀ k : Fin 16, getC x i k = if i ∈ activeThreads w ∧ k = d then f i else getC v i k)
    ∧ (∀ i < 128, ∀ k : Fin 16, poisonC x i k = if i ∈ activeThreads w ∧ k = d then 0 else poisonC v i k)
    ∧ x.regs = { v.regs with c := x.regs.c, cp := x.regs.cp }
    ∧ onlyRegs s v t

/-! ### Completion -/

/-- What an instruction reads in field order and writes. -/
def usesOf (reads writes : List RName) : Uses := { reads := reads, writes := writes, data := [], tagged := false }

/-- The float environment of thread `i` of the unit's next instruction: its PC, the thread and RMODE. -/
def envAt (w : Warp) (i : Nat) : FEnv := ⟨lowPc w (activeThreads w), i, w.rmode⟩

/-- Wherever its operands serve, instruction `i` of `len` bytes, in the turn of a calm unit `w`, answers a next state in which D
holds `val w v t` in each active thread `t`, where `v` is the unit at issue. -/
def computesX (i : Instr) (len : Nat) (reads : List RName) (d : PReg) (val : Warp → Warp → Nat → Word) : Prop :=
  ∀ s w, InTurn s w → Calm w → operandsOk (atIssue w len) (activeThreads w) (usesOf reads [.x d]) →
    ∃ t, exec i s = .next t ∧ WritesX s w len d (val w (atIssue w len)) t

/-- D := g(A, B) in every active thread, whatever the registers. -/
def computes2 (mk : PReg → PReg → Src → Instr) (g : FEnv → Word → Word → Word) : Prop :=
  ∀ d a b, computesX (mk d a b) (srcLen b) (.x a :: srcName b) d fun w v t => g (envAt w t) (getX v t a) (getSrc v t b)

/-- D := g(A) in every active thread. -/
def computes1 (mk : PReg → PReg → Instr) (g : FEnv → Word → Word) : Prop :=
  ∀ d a, computesX (mk d a) 4 [.x a] d fun w v t => g (envAt w t) (getX v t a)

/-- D := g(D, A, B) in every active thread. -/
def computes3 (mk : PReg → PReg → Src → Instr) (g : FEnv → Word → Word → Word → Word) : Prop :=
  ∀ d a b, computesX (mk d a b) (srcLen b) (.x a :: srcName b ++ [.x d]) d fun w v t =>
    g (envAt w t) (getX v t d) (getX v t a) (getSrc v t b)

/-- The compact form DA := g(DA, B) in every active thread (R82). -/
def computesCompact (mk : PReg → PReg → Instr) (g : FEnv → Word → Word → Word) : Prop :=
  ∀ d b, computesX (mk d b) 2 [.x d, .x b] d fun w v t => g (envAt w t) (getX v t d) (getX v t b)

/-- Bit t of mD := cond(A, B) for every active thread t; the other bits keep their values (R55). -/
def comparesX (i : Instr) (len : Nat) (m : Fin 16) (a : PReg) (b : Src) (cond : Word → Word → Bool) : Prop :=
  ∀ s w, InTurn s w → Calm w → operandsOk (atIssue w len) (activeThreads w) (usesOf (.x a :: srcName b) [mname m]) →
    ∃ t val, exec i s = .next t ∧ WritesM s w len m val t
      ∧ ∀ k < 128, val.getLsbD k = if k ∈ activeThreads w then cond (getX (atIssue w len) k a) (getSrc (atIssue w len) k b)
          else (getM (atIssue w len) m).getLsbD k

/-- sD := `val v`, on a SIMT core, where the operands serve; `v` is the unit at issue. -/
def computesS (i : Instr) (len : Nat) (reads : List RName) (d : SReg) (val : Warp → Warp → DWord) : Prop :=
  ∀ s w, InTurn s w → Calm w → w.off = none → operandsOk (atIssue w len) (activeThreads w) (usesOf reads (uname d)) →
    ∃ t, exec i s = .next t ∧ WritesU s w len d (val w (atIssue w len)) t

/-- sD := g(sA, B) (R120). -/
def computesU (mk : SReg → SReg → USrc → Instr) (g : DWord → DWord → DWord) : Prop :=
  ∀ d a b, computesS (mk d a b) (usrcLen b) (uname a ++ usrcName b) d fun _ v => g (getU v a) (getUSrc v b)

/-- mD := `val w v`, where the operands serve. -/
def computesM (i : Instr) (len : Nat) (reads : List RName) (m : Fin 16) (val : Warp → Warp → QWord) : Prop :=
  ∀ s w, InTurn s w → Calm w → operandsOk (atIssue w len) (activeThreads w) (usesOf reads [mname m]) →
    ∃ t, exec i s = .next t ∧ WritesM s w len m (val w (atIssue w len)) t

/-- cD := g(cA, B) in every active thread, where D may be written (R112), A is tagged where that is asked for, and no thread
traps with CAP_BOUNDS. -/
def computesC (i : Instr) (d a : Fin 16) (b : Src) (tagged : Bool) (g : Cap → Word → Option Cap) : Prop :=
  ∀ s w, InTurn s w → Calm w → (d.val < 7 ∨ (d = 7 ∧ a = 7 ∧ w.routine.isSome)) →
    operandsOk (atIssue w (srcLen b)) (activeThreads w) (usesOf (.c a.val :: srcName b) [.c d.val]) →
    (tagged = true → ∀ t ∈ activeThreads w, (getC (atIssue w (srcLen b)) t a.val).tag = true) →
    ∀ f : Nat → Cap, (∀ t ∈ activeThreads w,
      g (getC (atIssue w (srcLen b)) t a.val) (getSrc (atIssue w (srcLen b)) t b) = some (f t)) →
    ∃ t, exec i s = .next t ∧ WritesC s w (srcLen b) d f t

/-- D := g(cA, B) in every active thread, where A is tagged where that is asked for. -/
def computesCX (i : Instr) (d : PReg) (a : Fin 16) (b : Src) (tagged : Bool) (g : Cap → Word → Word) : Prop :=
  ∀ s w, InTurn s w → Calm w →
    operandsOk (atIssue w (srcLen b)) (activeThreads w) (usesOf (.c a.val :: srcName b) [.x d]) →
    (tagged = true → ∀ t ∈ activeThreads w, (getC (atIssue w (srcLen b)) t a.val).tag = true) →
    ∃ t, exec i s = .next t
      ∧ WritesX s w (srcLen b) d (fun t => g (getC (atIssue w (srcLen b)) t a.val) (getSrc (atIssue w (srcLen b)) t b)) t

/-- D := g(participants in rising index, their A values, own thread) in every active thread, on a SIMT core (R146). -/
def computesCross (i : Instr) (len : Nat) (reads : List RName) (d : PReg) (val : Warp → Warp → List Nat → Nat → Word) : Prop :=
  ∀ s w, InTurn s w → Calm w → w.off = none → operandsOk (atIssue w len) (activeThreads w) (usesOf reads [.x d]) →
    ∃ t, exec i s = .next t
      ∧ WritesX s w len d (val w (atIssue w len) ((List.range 128).filter fun k => decide (k ∈ activeThreads w))) t

/-- The control word of a conversion that RTAG prefixes meets no condition of R145, and the register that holds it is not poisoned
where it is read (R67, R142). -/
def tagCwOk (v : Warp) (act : List Nat) (i : Instr) : Prop :=
  ∀ f d a b, convOf i = some (f, d, a, b) →
    cwCause v f d a b (getSrc v (lowest act) b) = none ∧ poisonCheck v [lowest act] (usesOf (srcName b) []) = none

/-! ### Instructions whose own effect is stated as a state -/

/-- The state in which the own effect of the instruction in turn, of `len` bytes, begins (R97, R151). -/
def begun (s : State) (len : Nat) : State := beginIssue s (cxOf s s.turn len)

/-- The PC of the instruction in turn. -/
def pcNow (w : Warp) : Nat := lowPc w (activeThreads w)

/-- The unit neither runs on an offset core nor runs a routine (R154, R187, R217). -/
def Simt (w : Warp) : Prop := w.off = none ∧ w.routine = none

/-- Every live thread is active: no MASK_PARTIAL (R154). -/
def AllActive (w : Warp) : Prop := ∀ t ∈ liveThreads w, t ∈ activeThreads w

/-- A unit without what the end of an issue counts: the room left in windows, the clk of a routine and of a held pre-emption,
and what the passing of time counts (R77, R96, R252, R254). -/
def lessCounts (w : Warp) : Warp :=
  { w with
    pends := w.pends.map fun p => { p with left := 0, performed := false }
    tops := w.tops.map fun o => { o with left := 0 }
    routine := w.routine.map fun r => { r with count := 0 }
    tmaskClk := 0, resumeGuard := false, wtime := 0, rejoinWait := 0, yield := [], noEject := [] }

/-- `t` is the state `b` at the end of an issue by unit `u`: the unit differs in counts, the others in what the passing of
time counts, and the device in clocks and the model's own counters. -/
def EndsAs (u : Nat) (b t : State) : Prop :=
  lessCounts (unitOf t u) = lessCounts (unitOf b u)
    ∧ (∀ v, v ≠ u → lessTime (unitOf t v) = lessTime (unitOf b v)) ∧ deviceKept b t

/-- The instruction answers a next state, which is `b` at the end of the issue. -/
def completes (i : Instr) (s : State) (b : State) : Prop := ∃ t, exec i s = .next t ∧ EndsAs s.turn b t

/-- The instruction's own effect is `f` on the unit in turn, and nothing else. -/
def changesUnit (i : Instr) (s : State) (len : Nat) (f : Warp → Warp) : Prop := completes i s (modUnit (begun s len) s.turn f)

/-! ### Values that statements name -/

/-- An f32 is a NaN (R29): all ones in the exponent, and a fraction. -/
def nanF (x : Word) : Bool := x.extractLsb' 23 8 == 0xFF && x.extractLsb' 0 23 != 0

/-- An f32 that is no NaN, by its place in the order of values: −0 and +0 are equal. -/
def orderF (x : Word) : Int := if x.getLsbD 31 then -((x.extractLsb' 0 31).toNat : Int) else (x.extractLsb' 0 31).toNat

/-- An f32 that is neither a NaN nor an infinity. -/
def finF (x : Word) : Prop := x.extractLsb' 23 8 ≠ 0xFF

/-- The value of a finite f32 (R29). -/
def valF (x : Word) : ℚ :=
  (if x.getLsbD 31 then -1 else 1)
    * (if x.extractLsb' 23 8 = 0 then ((x.extractLsb' 0 23).toNat : ℚ) * 2 ^ (-149 : ℤ)
      else ((2 ^ 23 + (x.extractLsb' 0 23).toNat : ℕ) : ℚ) * 2 ^ (((x.extractLsb' 23 8).toNat : ℤ) - 150))

/-- A NaN with the top bit of its fraction set (R44). -/
def quietF (x : Word) : Word := x ||| 0x00400000

/-- `r` is the exact value `x`, which is not 0, rounded to f32 under `mode` (R37 to R39). Beyond the largest finite value, 2^128 − 2^104, the
overflow row of f32 decides: the candidate above that value is 2^128. -/
def roundedTo (mode : Mode) (x : ℚ) (r : Word) : Prop :=
  if (2 : ℚ) ^ 128 - 2 ^ 104 < |x| then
    let toInf : Bool :=
      match mode with
      | .rne => (2 : ℚ) ^ 128 - 2 ^ 103 ≤ |x|
      | .rna => (2 : ℚ) ^ 128 - 2 ^ 103 ≤ |x|
      | .rtz => false
      | .rto => false
      | .rup => 0 < x
      | .rdn => x < 0
    r = (if x < 0 then 0x80000000 else 0) ||| if toInf then 0x7F800000 else 0x7F7FFFFF
  else
    finF r ∧ r.getLsbD 31 = decide (x < 0) ∧
      match mode with
      | .rne => ∀ y, finF y → |x - valF r| ≤ |x - valF y|
          ∧ (valF y ≠ valF r → |x - valF y| = |x - valF r| → r.getLsbD 0 = false)
      | .rna => ∀ y, finF y → |x - valF r| ≤ |x - valF y| ∧ (|x - valF y| = |x - valF r| → |valF y| ≤ |valF r|)
      | .rtz => |valF r| ≤ |x| ∧ ∀ y, finF y → |valF y| ≤ |x| → |valF y| ≤ |valF r|
      | .rup => x ≤ valF r ∧ ∀ y, finF y → x ≤ valF y → valF r ≤ valF y
      | .rdn => valF r ≤ x ∧ ∀ y, finF y → valF y ≤ x → valF y ≤ valF r
      | .rto => valF r = x ∨ r.getLsbD 0 = true ∧ ∀ y, finF y →
          valF y ≠ x ∧ ¬(x < valF y ∧ valF y < valF r) ∧ ¬(valF r < valF y ∧ valF y < x)

/-- The integer reduction of R149 over values, from its identity. -/
def reduceI (op : RedI) (l : List Word) : Word :=
  match op with
  | .add => l.sum
  | .minI => BitVec.ofInt 32 ((l.map BitVec.toInt).foldl min (2 ^ 31 - 1))
  | .maxI => BitVec.ofInt 32 ((l.map BitVec.toInt).foldl max (-2 ^ 31))
  | .minN => BitVec.ofNat 32 ((l.map BitVec.toNat).foldl min (2 ^ 32 - 1))
  | .maxN => BitVec.ofNat 32 ((l.map BitVec.toNat).foldl max 0)
  | .and => l.foldl (fun x y => x &&& y) (BitVec.allOnes 32)
  | .or => l.foldl (fun x y => x ||| y) 0
  | .xor => l.foldl (fun x y => x ^^^ y) 0

/-- The instruction context of a float reduction: its PC and RMODE alone count. -/
def cxRed (w : Warp) : Cx := { u := 0, pc := pcNow w, len := 4, act := [], rmode := w.rmode, id := 0 }

/-- The lower register of a pair whose registers all exist: vN or oN with N even. -/
def evenPair (d : PReg) : Prop := (∃ n : Fin 96, d = .v n ∧ n.val % 2 = 0) ∨ ∃ n : Fin 8, d = .o n ∧ n.val % 2 = 0

/-- The instruction writes the halves of `f t` to D and D + 1 in each active thread, and nothing else. -/
def WritesPair (s : State) (w : Warp) (len : Nat) (d : PReg) (f : Nat → Nat) (t : State) : Prop :=
  let v := atIssue w len
  let x := unitOf t s.turn
  (∀ i < 128, ∀ r, getX x i r =
      if i ∈ activeThreads w ∧ r = d then BitVec.ofNat 32 (f i % 2 ^ 32)
      else if i ∈ activeThreads w ∧ r = pnext d 1 then BitVec.ofNat 32 (f i / 2 ^ 32 % 2 ^ 32)
      else getX v i r)
    ∧ otherFilesKept v.regs x.regs
    ∧ onlyRegs s v t

/-- Memory, its tags and its poison marks are the same. -/
def memoryKept (s t : State) : Prop := t.mem = s.mem ∧ t.tags = s.tags ∧ t.memPoison = s.memPoison

/-- The capability reaches plain memory: an object of kind 00 or 10, and no speculative window. -/
def plainCap (c : Cap) : Prop := (c.kind = 0 ∨ c.kind = 2) ∧ c.rights.testBit 7 = false

/-- The bytes that a write of `n` bytes through a plain capability stores to. -/
def writePlaces (s : State) (w : Warp) (c : Cap) (ea n : Nat) : List Nat :=
  match (xlateAll s (reqOf w) c.object (ea + n) true false (pieces ea n)).2 with
  | .ok ps => ps.flatMap fun p => (List.range p.len).map fun i => physOf p.tr p.off + i
  | .error _ => []

/-- The bytes that the threads of a list store to, one after another; `f` is one thread's access (R184). -/
def storePlaces (f : Nat → State → State × Except Bad Unit) (u : Nat) (c : Fin 16) (a : PReg) (disp : Int) (n : Nat) :
    List Nat → State → List Nat
  | [], _ => []
  | t :: ts, s =>
    writePlaces s (unitOf s u) (getC (unitOf s u) t c.val) (eaOf (unitOf s u) c a disp t).toNat n
      ++ storePlaces f u c a disp n ts (f t s).1

/-- Byte `o` of a group's scratchpad allocation on a core; 0 without one. -/
def spmByte (s : State) (g : Nat) (c : Nat × Nat × Nat) (o : Nat) : Byte :=
  match allocAt (groupOf s g) c with
  | some a => sget 0 a.bytes o
  | none => 0

/-- The local checks of R181 find no cause in any active thread. -/
def accessOk (s : State) (v : Warp) (act : List Nat) (c : Fin 16) (a : PReg) (disp : Int) (n : Nat) (need : Need) : Prop :=
  ∀ t ∈ act, localCheck s v (getC v t c.val) (eaOf v c a disp t) n need.rights need.kinds need.align = none

/-- Every active thread's `n` bytes lie in the unit's scratchpad allocation (R182). -/
def spmOk (s : State) (v : Warp) (act : List Nat) (a : PReg) (disp : Int) (n align : Nat) : Prop :=
  ∃ al, allocAt (groupOf s v.grp) (homeCore s v) = some al
    ∧ ∀ t ∈ act, 0 ≤ soOf v a disp t ∧ soOf v a disp t + n ≤ al.size ∧ soOf v a disp t % align = 0

/-- Memory at issue as a memory instruction finds it: the atomics and acquires of its threads have completed (R186). -/
def begunMem (s : State) (len : Nat) : State := afterAtomics (cxOf s s.turn len) (begun s len)

/-- The access of active thread `k` of a memory instruction, in state `m`, after those of the threads `pre` and before those of `post`
(R184): it goes through a capability of kind 00 without a window, and its `n` bytes are the one piece `q`, of no heat view, which
reaches its port and whose block, in a compressed page, passes its check. -/
def servedAt (s : State) (w : Warp) (len : Nat) (f : Nat → State → State × Except Bad Unit) (c : Fin 16) (a : PReg) (disp : Int) (n : Nat)
    (wr : Bool) (pre : List Nat) (k : Nat) (post : List Nat) (m : State) (q : Piece) : Prop :=
  let v := unitOf m s.turn
  let cap := getC v k c.val
  let ea := (eaOf v c a disp k).toNat
  activeThreads w = pre ++ k :: post ∧ eachThread f pre (begunMem s len) = .ok (m, []) ∧ plainCap cap ∧ cap.kind = 0
    ∧ (xlateAll m (reqOf v) cap.object (ea + n) wr false (pieces ea n)).2 = .ok [q]
    ∧ connOk m (reqOf v) (portOf q.tr q.off) = true ∧ q.tr.hv = false ∧ badBlock m q.tr q.off = false

/-- The unit as a memory instruction finds it. -/
def atIssueMem (w : Warp) (len : Nat) : Warp := settleAtomics (atIssue w len) (activeThreads w)

/-- No condition of R215 and R217 stops an engine instruction of the unit. -/
def EngineOk (w : Warp) : Prop := Simt w ∧ AllActive w

/-- What the copy engine asks of a copy at acceptance (R231): no condition holds. -/
def copyServes (s : State) (v : Warp) (cx : Cx) (x : CopyReq) : Prop :=
  let e := matEnv v cx.pc cx.rmode
  descBad x.f x.g x.desc = false
    ∧ (x.f = 2 → x.g = 1 → ∀ z, portEntry s v (dPort x.desc) = some z → dBytes x.desc ≤ z)
    ∧ followBad v e (dFollow x.desc) = none ∧ convertBad x.desc = false ∧ copyTileBad v e x.f x.g x.n x.desc = false
    ∧ (x.f ≠ 1 → ∀ c ∈ (if x.f = 3 then x.src else [x.src.headD Cap.null]), copySrcCheck s v x c = none)
    ∧ copyDstCheck s v x = none ∧ (dDwen x.desc = true → dDwoff x.desc % 8 = 0) ∧ copySpmBad s v x = false
    ∧ (x.f = 2 → x.g = 1 → portOk s v (dPort x.desc) true = true)

/-- The chain header that a chain instruction reads through `c`: it is valid for the context, and `b` is the state after the
read (R237, R313). -/
def chainServes (s : State) (v : Warp) (c : Cap) (h : Header) (b : State) : Prop :=
  localCheck s v c c.cursor 64 (rR + rW) 0b0001 64 = none ∧ h.ok v.asid = true
    ∧ ∃ bs q, capRead s v c c.cursor 64 = (b, .ok (bs, q)) ∧ headerOf bs = h

/-- The operand of a window instruction names no reserved bit and a slot of the context's own (R239, R388, R393). -/
def slotServes (s : State) (v : Warp) (a : Fin 64) (fields : List (Nat × Nat)) : Prop :=
  strayBits (getS v a.val).toNat fields = false ∧ slotOk s ((getS v a.val).toNat % 4096) v.asid = true

/-! ### Exceptions and events -/

/-- Warp `x` is `v` after it has entered its trap handler: the PC, the cause and the threads are saved, the registers that held
them are in the shadow, TM and INH are set, and the active threads stand at the handler (R157, R158). -/
def Entered (v x : Warp) (pc : Nat) (act mask : List Nat) (info handler : Nat) : Prop :=
  getS x 61 = BitVec.ofNat 64 pc ∧ getS x 62 = BitVec.ofNat 64 info
    ∧ (∀ k < 128, (getM x 15).getLsbD k = decide (k ∈ mask))
    ∧ x.shadow61 = getS v 61 ∧ x.shadow62 = getS v 62 ∧ x.shadow15 = getM v 15
    ∧ x.tm = true ∧ x.inh = true ∧ (∀ k < 128, x.handler.testBit k = decide (k ∈ act))
    ∧ (∀ k, getPc x k = if k ∈ act then handler % 2 ^ 57 else getPc v k)
    ∧ (∀ n : Fin 64, n.val ≠ 61 → n.val ≠ 62 → getS x n = getS v n) ∧ (∀ n : Fin 16, n.val ≠ 15 → getM x n = getM v n)
    ∧ x.marks = v.marks ∧ x.ras = v.ras ∧ x.live = v.live

/-- In a warp on a SIMT core, outside routines and the handler, of a kernel with a handler at offset `h`, instruction `i` traps
with a cause, the threads for which the condition held, and INFO, and changes no byte of memory. -/
def trapsTo (i : Instr) (s : State) (w : Warp) (cause : Nat) (mask : List Nat) (info : Nat) : Prop :=
  InTurn s w → Calm w → Simt w → w.inh = false → ∀ h, (launchOfUnit s w).handler = some h →
    ∃ t, exec i s = .next t ∧ memoryKept s t ∧ otherUnitsKept s t
      ∧ Entered w (unitOf t s.turn) (pcNow w) (activeThreads w) mask (cause + info * 2 ^ 8) (codeBase s w + h)

/-- Nothing but unit `u` differs. -/
def onlyUnit (s t : State) (u : Nat) : Prop :=
  { t with units := [] } = { s with units := [] } ∧ ∀ v, v ≠ u → unitOf t v = unitOf s v

/-- An instruction that the unit in turn would run meets no bound, timer or carried trap first (R78, R159, R252, R254, R281). -/
def Issues (s : State) (w : Warp) : Prop := canIssue s w = true ∧ beforeIssue s w = none ∧ carriers w = []

/-! ### The canonical form of memory -/

/-- Memory, its tags and its poison marks are in canonical form. -/
def memoryOk (s : State) : Bool := Memory.wf s.mem && Store.wf false s.tags && Store.wf false s.memPoison

end Sys2Proof.Machine
end

