-- ==== Sys2Proof/Certificates/Slice0/Obligations.lean ====
section
/-! DEFINITION. The statements for the provers. -/

open Sys2Proof Sys2Proof.Machine

/-! ### Per-thread integer instructions -/

/-- R114: IARITH. R115: IMINMAX. A zero divisor gives the quotient 0xFFFF_FFFF and the dividend as remainder; −2^31 by −1
gives −2^31 and 0; else the quotient is truncated toward zero. -/
def Obligations.IntegerArithmeticComputes : Prop :=
  (computes2 .iadd (fun _ a b => a + b)
     ∧ computes2 .isub (fun _ a b => a - b)
     ∧ computes2 .imul (fun _ a b => a * b)
     ∧ computes2 .imulhI (fun _ a b => BitVec.ofInt 32 (a.toInt * b.toInt / 2 ^ 32))
     ∧ computes2 .imulhN (fun _ a b => BitVec.ofNat 32 (a.toNat * b.toNat / 2 ^ 32))
     ∧ computes2 .iaddsI (fun _ a b => BitVec.ofInt 32 (max (-2 ^ 31) (min (2 ^ 31 - 1) (a.toInt + b.toInt))))
     ∧ computes2 .iaddsN (fun _ a b => BitVec.ofNat 32 (min (2 ^ 32 - 1) (a.toNat + b.toNat)))
     ∧ computes2 .iabsd (fun _ a b => BitVec.ofInt 32 |a.toInt - b.toInt|))
  ∧ (computes2 .iminI (fun _ a b => BitVec.ofInt 32 (min a.toInt b.toInt))
       ∧ computes2 .iminN (fun _ a b => BitVec.ofNat 32 (min a.toNat b.toNat))
       ∧ computes2 .imaxI (fun _ a b => BitVec.ofInt 32 (max a.toInt b.toInt))
       ∧ computes2 .imaxN (fun _ a b => BitVec.ofNat 32 (max a.toNat b.toNat))
       ∧ computes2 .idivI (fun _ a b => if b.toInt = 0 then 0xFFFFFFFF
           else if a.toInt = -2 ^ 31 ∧ b.toInt = -1 then BitVec.ofInt 32 (-2 ^ 31)
           else BitVec.ofInt 32 (a.toInt.tdiv b.toInt))
       ∧ computes2 .idivN (fun _ a b => if b.toNat = 0 then 0xFFFFFFFF else BitVec.ofNat 32 (a.toNat / b.toNat))
       ∧ computes2 .iremI (fun _ a b => if b.toInt = 0 then a
           else if a.toInt = -2 ^ 31 ∧ b.toInt = -1 then 0
           else BitVec.ofInt 32 (a.toInt - a.toInt.tdiv b.toInt * b.toInt))
       ∧ computes2 .iremN (fun _ a b => if b.toNat = 0 then a else BitVec.ofNat 32 (a.toNat - a.toNat / b.toNat * b.toNat)))

/-- R116: LOGIC. The shift count is B[4:0]; ROL by 0 returns A. -/
def Obligations.LogicComputesItsFunction : Prop :=
  computes2 .and (fun _ a b => a &&& b)
    ∧ computes2 .or (fun _ a b => a ||| b)
    ∧ computes2 .xor (fun _ a b => a ^^^ b)
    ∧ computes2 .andn (fun _ a b => a &&& ~~~b)
    ∧ computes2 .shl (fun _ a b => a <<< (b.extractLsb' 0 5).toNat)
    ∧ computes2 .shr (fun _ a b => a >>> (b.extractLsb' 0 5).toNat)
    ∧ computes2 .sar (fun _ a b => BitVec.ofInt 32 (a.toInt / 2 ^ (b.extractLsb' 0 5).toNat))
    ∧ computes2 .rol (fun _ a b => a.rotateLeft (b.extractLsb' 0 5).toNat)

/-- R117: BITS, with P = B[4:0], N = min(B[13:8], 32) and w = min(N, 32 − P). -/
def Obligations.BitsComputesItsFunction : Prop :=
  computes1 .popc (fun _ a => BitVec.ofNat 32 ((List.range 32).countP fun i => a.getLsbD i))
    ∧ computes1 .clz (fun _ a => BitVec.ofNat 32 (((List.range 32).takeWhile fun i => !a.getMsbD i).length))
    ∧ computes1 .brev (fun _ a => a.reverse)
    ∧ computes2 .bfxI (fun _ a b =>
        let p := (b.extractLsb' 0 5).toNat
        let w := min (min (b.extractLsb' 8 6).toNat 32) (32 - p)
        ((a >>> p).setWidth w).signExtend 32)
    ∧ computes2 .bfxN (fun _ a b =>
        let p := (b.extractLsb' 0 5).toNat
        let w := min (min (b.extractLsb' 8 6).toNat 32) (32 - p)
        ((a >>> p).setWidth w).setWidth 32)
    ∧ computes3 .bfi (fun _ d a b =>
        let p := (b.extractLsb' 0 5).toNat
        let w := min (min (b.extractLsb' 8 6).toNat 32) (32 - p)
        let f := (BitVec.ofNat 32 (2 ^ w - 1)) <<< p
        (d &&& ~~~f) ||| ((a <<< p) &&& f))
    ∧ computes2 .permb (fun _ a b =>
        let x := fun i =>
          let s := b.extractLsb' (4 * i) 4
          let y := a.extractLsb' (8 * (s.extractLsb' 0 2).toNat) 8
          if s.getLsbD 2 then 0x00#8 else if s.getLsbD 3 then (if y.getLsbD 7 then 0xFF#8 else 0x00#8) else y
        x 3 ++ x 2 ++ x 1 ++ x 0)
    ∧ (∀ d b, computesX (.mov d b) (srcLen b) (srcName b) d fun _ v t => getSrc v t b)

/-- R118: IMISC. IMADW multiplies and adds natural numbers over the pair D, D + 1, both halves of which are written. -/
def Obligations.ImiscComputesItsFunction : Prop :=
  computes3 .imad (fun _ d a b => a * b + d)
    ∧ computes3 .isel (fun _ d a b => if d ≠ 0 then a else b)
    ∧ computes2 .lea (fun _ a b => a + (b <<< 2))
    ∧ ∀ d a b s w, InTurn s w → Calm w →
        operandsOk (atIssue w (srcLen b)) (activeThreads w) (usesOf (.x a :: srcName b ++ [.x d, .x (pnext d 1)]) [.x d, .x (pnext d 1)]) →
        ((∃ n : Fin 96, d = .v n ∧ n.val % 2 = 0) ∨ ∃ n : Fin 8, d = .o n ∧ n.val % 2 = 0) →
        ∃ t, exec (.imadw d a b) s = .next t ∧ onlyRegs s (atIssue w (srcLen b)) t
          ∧ otherFilesKept (atIssue w (srcLen b)).regs (unitOf t s.turn).regs
          ∧ ∀ i < 128, ∀ r, getX (unitOf t s.turn) i r =
              let v := atIssue w (srcLen b)
              let p := (getX v i a).toNat * (getSrc v i b).toNat + (getX v i (pnext d 1)).toNat * 2 ^ 32 + (getX v i d).toNat
              if i ∈ activeThreads w ∧ r = d then BitVec.ofNat 32 (p % 2 ^ 32)
              else if i ∈ activeThreads w ∧ r = pnext d 1 then BitVec.ofNat 32 (p / 2 ^ 32 % 2 ^ 32)
              else getX v i r

/-- R81, R82: the compact forms. -/
def Obligations.CompactFormsCompute : Prop :=
  computesCompact .compactIadd (fun _ a b => a + b)
    ∧ computesCompact .compactIsub (fun _ a b => a - b)
    ∧ computesCompact .compactAnd (fun _ a b => a &&& b)
    ∧ computesCompact .compactOr (fun _ a b => a ||| b)
    ∧ computesCompact .compactXor (fun _ a b => a ^^^ b)
    ∧ computesCompact .compactShl (fun _ a b => a <<< (b.extractLsb' 0 5).toNat)
    ∧ computesCompact .compactShr (fun _ a b => a >>> (b.extractLsb' 0 5).toNat)
    ∧ computesCompact .compactFadd fAdd
    ∧ computesCompact .compactFmul fMul
    ∧ computesCompact .compactFmax (fun _ => fMax)
    ∧ computesCompact .compactFmin (fun _ => fMin)
    ∧ computesCompact .compactImul (fun _ a b => a * b)
    ∧ computesCompact .compactHadd2 (pAdd .f16)
    ∧ (∀ d b, computesX (.compactFfma d b) 2 [.x (.y 0), .x b, .x d] d fun w v t =>
        fFma (envAt w t) (getX v t (.y 0)) (getX v t b) (getX v t d))
    ∧ (∀ d b, computesX (.compactMov d b) 2 [.x b] d fun _ v t => getX v t b)
    ∧ ∀ d n, computesX (.compactMovi d n) 2 [] d fun _ _ _ => BitVec.ofInt 32 n.toInt

/-- R119: ICMP. R119: UCMP. -/
def Obligations.IntegerComparisonsWriteTheirResult : Prop :=
  (∀ m a b,
     comparesX (.icmpEq m a b) (srcLen b) m a b (fun x y => decide (x = y))
       ∧ comparesX (.icmpNe m a b) (srcLen b) m a b (fun x y => decide (x ≠ y))
       ∧ comparesX (.icmpLtI m a b) (srcLen b) m a b (fun x y => decide (x.toInt < y.toInt))
       ∧ comparesX (.icmpLeI m a b) (srcLen b) m a b (fun x y => decide (x.toInt ≤ y.toInt))
       ∧ comparesX (.icmpLtN m a b) (srcLen b) m a b (fun x y => decide (x.toNat < y.toNat))
       ∧ comparesX (.icmpLeN m a b) (srcLen b) m a b (fun x y => decide (x.toNat ≤ y.toNat))
       ∧ comparesX (.icmpTest m a b) (srcLen b) m a b (fun x y => decide (x &&& y ≠ 0))
       ∧ comparesX (.icmpNtest m a b) (srcLen b) m a b (fun x y => decide (x &&& y = 0)))
  ∧ (let cond := fun (mk : SReg → SReg → USrc → Instr) (c : DWord → DWord → Prop) [∀ x y, Decidable (c x y)] =>
       computesU mk fun x y => if c x y then 1 else 0
     cond .ucmpEq (fun x y => x = y)
       ∧ cond .ucmpNe (fun x y => x ≠ y)
       ∧ cond .ucmpLtI (fun x y => x.toInt < y.toInt)
       ∧ cond .ucmpLeI (fun x y => x.toInt ≤ y.toInt)
       ∧ cond .ucmpLtN (fun x y => x.toNat < y.toNat)
       ∧ cond .ucmpLeN (fun x y => x.toNat ≤ y.toNat)
       ∧ cond .ucmpTest (fun x y => x &&& y ≠ 0)
       ∧ cond .ucmpNtest (fun x y => x &&& y = 0))

/-! ### Uniform and mask instructions -/

/-- R120: the uniform integer forms carry the functions of R114 to R117 to 64 bits. -/
def Obligations.UniformFormsCompute : Prop :=
  computesU .uarithIadd (fun a b => a + b)
    ∧ computesU .uarithIsub (fun a b => a - b)
    ∧ computesU .uarithImul (fun a b => a * b)
    ∧ computesU .uarithImulhI (fun a b => BitVec.ofInt 64 (a.toInt * b.toInt / 2 ^ 64))
    ∧ computesU .uarithImulhN (fun a b => BitVec.ofNat 64 (a.toNat * b.toNat / 2 ^ 64))
    ∧ computesU .uarithIaddsI (fun a b => BitVec.ofInt 64 (max (-2 ^ 63) (min (2 ^ 63 - 1) (a.toInt + b.toInt))))
    ∧ computesU .uarithIaddsN (fun a b => BitVec.ofNat 64 (min (2 ^ 64 - 1) (a.toNat + b.toNat)))
    ∧ computesU .uarithIabsd (fun a b => BitVec.ofInt 64 |a.toInt - b.toInt|)
    ∧ computesU .uminmaxIminI (fun a b => BitVec.ofInt 64 (min a.toInt b.toInt))
    ∧ computesU .uminmaxIminN (fun a b => BitVec.ofNat 64 (min a.toNat b.toNat))
    ∧ computesU .uminmaxImaxI (fun a b => BitVec.ofInt 64 (max a.toInt b.toInt))
    ∧ computesU .uminmaxImaxN (fun a b => BitVec.ofNat 64 (max a.toNat b.toNat))
    ∧ computesU .uminmaxIdivI (fun a b => if b.toInt = 0 then BitVec.allOnes 64
        else if a.toInt = -2 ^ 63 ∧ b.toInt = -1 then BitVec.ofInt 64 (-2 ^ 63)
        else BitVec.ofInt 64 (a.toInt.tdiv b.toInt))
    ∧ computesU .uminmaxIdivN (fun a b => if b.toNat = 0 then BitVec.allOnes 64 else BitVec.ofNat 64 (a.toNat / b.toNat))
    ∧ computesU .uminmaxIremI (fun a b => if b.toInt = 0 then a
        else if a.toInt = -2 ^ 63 ∧ b.toInt = -1 then 0
        else BitVec.ofInt 64 (a.toInt - a.toInt.tdiv b.toInt * b.toInt))
    ∧ computesU .uminmaxIremN (fun a b => if b.toNat = 0 then a else BitVec.ofNat 64 (a.toNat - a.toNat / b.toNat * b.toNat))
    ∧ computesU .ulogicAnd (fun a b => a &&& b)
    ∧ computesU .ulogicOr (fun a b => a ||| b)
    ∧ computesU .ulogicXor (fun a b => a ^^^ b)
    ∧ computesU .ulogicAndn (fun a b => a &&& ~~~b)
    ∧ computesU .ulogicShl (fun a b => a <<< (b.extractLsb' 0 6).toNat)
    ∧ computesU .ulogicShr (fun a b => a >>> (b.extractLsb' 0 6).toNat)
    ∧ computesU .ulogicSar (fun a b => BitVec.ofInt 64 (a.toInt / 2 ^ (b.extractLsb' 0 6).toNat))
    ∧ computesU .ulogicRol (fun a b => a.rotateLeft (b.extractLsb' 0 6).toNat)
    ∧ (∀ d a, computesS (.ubitsPopc d a) 4 (uname a) d fun _ v =>
        BitVec.ofNat 64 ((List.range 64).countP fun i => (getU v a).getLsbD i))
    ∧ (∀ d a, computesS (.ubitsClz d a) 4 (uname a) d fun _ v =>
        BitVec.ofNat 64 (((List.range 64).takeWhile fun i => !(getU v a).getMsbD i).length))
    ∧ (∀ d a, computesS (.ubitsBrev d a) 4 (uname a) d fun _ v => (getU v a).reverse)
    ∧ computesU .ubitsBfxI (fun a b =>
        let p := (b.extractLsb' 0 6).toNat
        let w := min (min (b.extractLsb' 8 7).toNat 64) (64 - p)
        ((a >>> p).setWidth w).signExtend 64)
    ∧ computesU .ubitsBfxN (fun a b =>
        let p := (b.extractLsb' 0 6).toNat
        let w := min (min (b.extractLsb' 8 7).toNat 64) (64 - p)
        ((a >>> p).setWidth w).setWidth 64)
    ∧ (∀ d a b, computesS (.ubitsBfi d a b) (usrcLen b) (uname a ++ usrcName b ++ uname d) d fun _ v =>
        let p := ((getUSrc v b).extractLsb' 0 6).toNat
        let w := min (min ((getUSrc v b).extractLsb' 8 7).toNat 64) (64 - p)
        let f := (BitVec.ofNat 64 (2 ^ w - 1)) <<< p
        (getU v d &&& ~~~f) ||| ((getU v a <<< p) &&& f))
    ∧ computesU .ubitsPermb (fun a b =>
        let x := fun i =>
          let s := b.extractLsb' (4 * i) 4
          if s.getLsbD 3 then 0x00#8 else a.extractLsb' (8 * (s.extractLsb' 0 3).toNat) 8
        x 7 ++ x 6 ++ x 5 ++ x 4 ++ x 3 ++ x 2 ++ x 1 ++ x 0)
    ∧ ∀ d b, computesS (.ubitsMov d b) (usrcLen b) (usrcName b) d fun _ v => getUSrc v b

/-- R123: MASKOP. MOVS writes each active thread; UREADF reads the lowest one; the mask functions replace all 128 bits.
R123: MACT writes the set of active threads. -/
def Obligations.MaskopComputesItsFunction : Prop :=
  ((∀ d a, computesX (.movs d a) 4 (uname a) d fun _ v _ => (getU v a).setWidth 32)
     ∧ (∀ (d : Fin 64) a s w, InTurn s w → Calm w → w.off = none →
         nameCheck (atIssue w 4) (usesOf [.x a] [.u d.val]) = none → (RName.x a).isQ = false →
         poisonX (atIssue w 4) (lowest (activeThreads w)) a = 0 →
         ∃ t, exec (.ureadf d a) s = .next t
           ∧ WritesU s w 4 (.s d) ((getX (atIssue w 4) (lowest (activeThreads w)) a).setWidth 64) t)
     ∧ (∀ d a, computesS (.mpop d a) 4 [mname a] (.s d) fun _ v =>
         BitVec.ofNat 64 ((List.range 128).countP fun i => (getM v a).getLsbD i))
     ∧ (∀ d a b, computesS (.mfind d a b) (usrcLen b) (mname a :: usrcName b) (.s d) fun _ v =>
         match (List.range 128).find? fun i => decide (((getUSrc v b).extractLsb' 0 7).toNat ≤ i) && (getM v a).getLsbD i with
         | some i => BitVec.ofNat 64 i
         | none => 128)
     ∧ (∀ d a b, computesM (.mand d a b) 4 [mname a, mname b] d fun _ v => getM v a &&& getM v b)
     ∧ (∀ d a b, computesM (.mor d a b) 4 [mname a, mname b] d fun _ v => getM v a ||| getM v b)
     ∧ (∀ d a b, computesM (.mxor d a b) 4 [mname a, mname b] d fun _ v => getM v a ^^^ getM v b))
  ∧ (let act := fun i (m : Fin 16) =>
       ∀ s w, InTurn s w → Calm w → w.off = none →
         ∃ t val, exec i s = .next t ∧ WritesM s w 4 m val t ∧ ∀ k < 128, val.getLsbD k = decide (k ∈ activeThreads w)
     act .mact0 0 ∧ act .mact1 1 ∧ act .mact2 2 ∧ act .mact3 3 ∧ act .mact4 4 ∧ act .mact5 5 ∧ act .mact6 6 ∧ act .mact7 7
       ∧ act .mact8 8 ∧ act .mact9 9 ∧ act .mact10 10 ∧ act .mact11 11 ∧ act .mact12 12 ∧ act .mact13 13 ∧ act .mact14 14
       ∧ act .mact15 15)

/-! ### Float, conversion, cross-thread and capability instructions -/

/-- R134 to R141: the float functions of one destination write the value of their function. What the values of FARITH are is
stated in FloatResultsAreRoundedOnce. -/
def Obligations.FloatFunctionsCompute : Prop :=
  computes2 .fadd fAdd ∧ computes2 .fsub fSub ∧ computes2 .fmul fMul ∧ computes2 .fmin (fun _ => fMin)
    ∧ computes2 .fmax (fun _ => fMax) ∧ computes2 .fscale fScale
    ∧ computes2 .fcopys (fun _ a b => b.extractLsb' 31 1 ++ a.extractLsb' 0 31)
    ∧ computes3 .ffma (fun e d a b => fFma e a b d)
    ∧ computes1 .frcp fRcp ∧ computes1 .frsq fRsq ∧ computes1 .fsqrt fSqrt ∧ computes1 .fexp2 fExp2 ∧ computes1 .flog2 fLog2
    ∧ computes1 .ftanh fTanh ∧ computes2 .fdiv fDiv ∧ computes1 .frint fRint
    ∧ computes2 .hadd2 (pAdd .f16) ∧ computes2 .hsub2 (pSub .f16) ∧ computes2 .hmul2 (pMul .f16)
    ∧ computes2 .hmin2 (fun _ => pMin .f16) ∧ computes2 .hmax2 (fun _ => pMax .f16)
    ∧ computes3 .hfma2 (fun e d a b => pFma .f16 e a b d) ∧ computes3 .dot2 (fun e d a b => pDot .f16 e a b d)
    ∧ computes2 .badd2 (pAdd .bf16) ∧ computes2 .bsub2 (pSub .bf16) ∧ computes2 .bmul2 (pMul .bf16)
    ∧ computes2 .bmin2 (fun _ => pMin .bf16) ∧ computes2 .bmax2 (fun _ => pMax .bf16)
    ∧ computes3 .bfma2 (fun e d a b => pFma .bf16 e a b d) ∧ computes3 .bdot2 (fun e d a b => pDot .bf16 e a b d)

/-- R37, R38, R39, R43, R44, R135, R136: the values of FARITH. FADD, FSUB, FMUL and FFMA round the exact value once under RMODE, FSCALE too; an
exact zero is −0 under RDN alone, but where both terms are zeros of one sign; the first NaN in the order A, B, D is quieted; opposite
infinities, and 0 × ∞, generate the NaN of R43. FMIN and FMAX give one of their operands: the other one where just one is a NaN, A
quieted where both are, −0 below +0. -/
def Obligations.FloatResultsAreRoundedOnce : Prop :=
  let sign : Word := 0x80000000
  let inf := fun (x : Word) => x &&& 0x7FFFFFFF = 0x7F800000
  let zero := fun (e : FEnv) => if e.mode = .rdn then sign else 0
  let made := fun (e : FEnv) => BitVec.ofNat 32 (0x7FC00000 + originHash e.pc * 128 + e.t)
  (∀ e a b, finF a → finF b →
      (valF a + valF b ≠ 0 → roundedTo e.mode (valF a + valF b) (fAdd e a b))
        ∧ (valF a + valF b = 0 → fAdd e a b = if a = b then a else zero e)
        ∧ (valF a - valF b ≠ 0 → roundedTo e.mode (valF a - valF b) (fSub e a b))
        ∧ (valF a - valF b = 0 → fSub e a b = if a = b ^^^ sign then a else zero e)
        ∧ (valF a * valF b ≠ 0 → roundedTo e.mode (valF a * valF b) (fMul e a b))
        ∧ (valF a * valF b = 0 → fMul e a b = (a ^^^ b) &&& sign))
    ∧ (∀ e a b d, finF a → finF b → finF d →
      (valF a * valF b + valF d ≠ 0 → roundedTo e.mode (valF a * valF b + valF d) (fFma e a b d))
        ∧ (valF a * valF b + valF d = 0 → fFma e a b d = if valF d = 0 ∧ d = (a ^^^ b) &&& sign then d else zero e))
    ∧ (∀ e a b,
      (finF a → valF a ≠ 0 → roundedTo e.mode (valF a * 2 ^ b.toInt) (fScale e a b))
        ∧ (finF a → valF a = 0 → fScale e a b = a) ∧ (inf a → fScale e a b = a) ∧ (nanF a = true → fScale e a b = quietF a))
    ∧ (∀ e a b,
      (nanF a = true → fAdd e a b = quietF a ∧ fSub e a b = quietF a ∧ fMul e a b = quietF a)
        ∧ (nanF a = false → nanF b = true → fAdd e a b = quietF b ∧ fSub e a b = quietF b ∧ fMul e a b = quietF b))
    ∧ (∀ e a b d,
      (nanF a = true → fFma e a b d = quietF a) ∧ (nanF a = false → nanF b = true → fFma e a b d = quietF b)
        ∧ (nanF a = false → nanF b = false → nanF d = true → fFma e a b d = quietF d))
    ∧ (∀ e a b, inf a → nanF b = false →
      (fAdd e a b = if b = a ^^^ sign then made e else a)
        ∧ (fAdd e b a = if b = a ^^^ sign then made e else a)
        ∧ (fSub e a b = if b = a then made e else a)
        ∧ (fMul e a b = if b &&& 0x7FFFFFFF = 0 then made e else ((a ^^^ b) &&& sign) ||| 0x7F800000)
        ∧ fMul e b a = fMul e a b)
    ∧ (∀ e a b d, inf a → nanF b = false → nanF d = false →
      let p := ((a ^^^ b) &&& sign) ||| 0x7F800000
      fFma e a b d = (if b &&& 0x7FFFFFFF = 0 ∨ d = p ^^^ sign then made e else p) ∧ fFma e b a d = fFma e a b d)
    ∧ (∀ e a b d, finF a → finF b → inf d → fFma e a b d = d)
    ∧ ∀ a b,
      (nanF a = false → nanF b = false →
        (fMin a b = a ∨ fMin a b = b) ∧ (fMax a b = a ∨ fMax a b = b)
          ∧ orderF (fMin a b) = min (orderF a) (orderF b) ∧ orderF (fMax a b) = max (orderF a) (orderF b)
          ∧ (a ≠ b → orderF a = orderF b → fMin a b = sign ∧ fMax a b = 0))
        ∧ (nanF a = true → nanF b = false → fMin a b = b ∧ fMax a b = b)
        ∧ (nanF a = false → nanF b = true → fMin a b = a ∧ fMax a b = a)
        ∧ (nanF a = true → nanF b = true → fMin a b = quietF a ∧ fMax a b = quietF a)

/-- R137: FCMP. -/
def Obligations.FcmpComparesActiveThreads : Prop :=
  (∀ m a b,
    comparesX (.fcmpEq m a b) (srcLen b) m a b (fun x y => !nanF x && !nanF y && decide (orderF x = orderF y))
      ∧ comparesX (.fcmpNe m a b) (srcLen b) m a b (fun x y => nanF x || nanF y || decide (orderF x ≠ orderF y))
      ∧ comparesX (.fcmpLt m a b) (srcLen b) m a b (fun x y => !nanF x && !nanF y && decide (orderF x < orderF y))
      ∧ comparesX (.fcmpLe m a b) (srcLen b) m a b (fun x y => !nanF x && !nanF y && decide (orderF x ≤ orderF y))
      ∧ comparesX (.fcmpUnord m a b) (srcLen b) m a b (fun x y => nanF x || nanF y)
      ∧ comparesX (.fcmpOrd m a b) (srcLen b) m a b (fun x y => !(nanF x || nanF y)))
    ∧ ∀ m a,
      comparesX (.fcmpIsnan m a) 4 m a (.reg .z) (fun x _ => nanF x)
        ∧ comparesX (.fcmpIsinf m a) 4 m a (.reg .z) (fun x _ => x.extractLsb' 0 31 == 0x7F800000)

/-- R142 to R145: a conversion whose control word traps nothing writes the converted value, to a register or to a pair. The
control word is the literal, or the register's value in the lowest active thread. -/
def Obligations.ConversionsConvert : Prop :=
  let conv := fun (mk : PReg → PReg → Src → Instr) (f : CvtFn) =>
    ∀ d a b s w c, InTurn s w → Calm w →
      c = getSrc (atIssue w (srcLen b)) (lowest (activeThreads w)) b →
      cvtReserved f c d a = false → cvtFormat f c = false →
      operandsOk (atIssue w (srcLen b)) [lowest (activeThreads w)] (usesOf (srcName b) []) →
      operandsOk (atIssue w (srcLen b)) (activeThreads w)
        (usesOf ((funCvt f d a b c).reads.map .x) ((funCvt f d a b c).writes.map .x)) →
      let v := atIssue w (srcLen b)
      let val := fun i => cvtValue f (envAt w i) c
        ((getX v i a).toNat + if cvtWideSrc f c then (getX v i (pnext a 1)).toNat * 2 ^ 32 else 0)
        (if f == .pack then getX v i d else 0)
      (cvtWideDst f c = false → ∃ t, exec (mk d a b) s = .next t ∧ WritesX s w (srcLen b) d (fun i => (val i).truncate 32) t)
        ∧ (cvtWideDst f c = true → evenPair d →
          ∃ t, exec (mk d a b) s = .next t ∧ WritesPair s w (srcLen b) d (fun i => (val i).toNat) t)
  conv .cvt .cvt ∧ conv .cvpack .pack ∧ conv .cvunpk .unpk ∧ conv .cvi .cvi ∧ conv .cvsat .sat

/-- R146 to R150: the operations across the participants, given in rising index. -/
def Obligations.CrossThreadFunctionsCompute : Prop :=
  (∀ d a b, computesCross (.shfl d a b) (srcLen b) (.x a :: srcName b) d fun _ v p t =>
      let u := ((getSrc v t b).extractLsb' 0 7).toNat
      getX v (if u ∈ p then u else t) a)
    ∧ (∀ d a b, computesCross (.shflx d a b) (srcLen b) (.x a :: srcName b) d fun _ v p t =>
      let u := t ^^^ ((getSrc v t b).extractLsb' 0 7).toNat
      getX v (if u ∈ p then u else t) a)
    ∧ (∀ op d a, computesCross (.wredi op d a) 4 [.x a] d fun _ v p _ => reduceI op (p.map fun u => getX v u a))
    ∧ (∀ op d a, computesCross (.wredf op d a) 4 [.x a] d fun w v p _ => redF op (cxRed w) p (p.map fun u => getX v u a))
    ∧ (∀ op ex d a, computesCross (.wscani op ex d a) 4 [.x a] d fun _ v p t =>
      reduceI op ((p.filter fun u => if ex then decide (u < t) else decide (u ≤ t)).map fun u => getX v u a))
    ∧ (∀ op ex d a, computesCross (.wscanf op ex d a) 4 [.x a] d fun w v p t =>
      let q := p.filter fun u => if ex then decide (u < t) else decide (u ≤ t)
      redF op (cxRed w) q (q.map fun u => getX v u a))
    ∧ (∀ d a, computesCross (.vote .all d a) 4 [.x a] d fun _ v p _ => if ∀ u ∈ p, getX v u a ≠ 0 then 1 else 0)
    ∧ (∀ d a, computesCross (.vote .any d a) 4 [.x a] d fun _ v p _ => if ∃ u ∈ p, getX v u a ≠ 0 then 1 else 0)
    ∧ (∀ d a, computesCross (.vote .uni d a) 4 [.x a] d fun _ v p t => if ∀ u ∈ p, getX v u a = getX v t a then 1 else 0)
    ∧ (∀ d a, computesCross (.vote .count d a) 4 [.x a] d fun _ v p _ =>
      BitVec.ofNat 32 (p.countP fun u => decide (getX v u a ≠ 0)))
    ∧ (∀ d a, computesCross (.matchT .leader d a) 4 [.x a] d fun _ v p t =>
      BitVec.ofNat 32 ((p.filter fun u => decide (getX v u a = getX v t a)).headD 0))
    ∧ (∀ d a, computesCross (.matchT .count d a) 4 [.x a] d fun _ v p t =>
      BitVec.ofNat 32 (p.filter fun u => decide (getX v u a = getX v t a)).length)
    ∧ ∀ d a, computesCross (.matchT .rank d a) 4 [.x a] d fun _ v p t =>
      BitVec.ofNat 32 (p.filter fun u => decide (getX v u a = getX v t a ∧ u < t)).length

/-- R112, R125 to R129: the capability functions. R125, R126, R336: what each capability function makes of a capability.
CAPADD moves the cursor or clears the tag, CAPSET sets the cursor, CAPRM takes rights away, and CAPNAR gives bounds that
hold [CURSOR, CURSOR + n) within the old ones; every other field is the same. -/
def Obligations.CapabilityFunctionsCompute : Prop :=
  ((∀ d a b, computesC (.capadd d a b) d a b true fun c v => some (capAdd c v))
     ∧ (∀ d a b, computesC (.capset d a b) d a b true fun c v => some (capSet c v))
     ∧ (∀ d a b, computesC (.capnar d a b) d a b true fun c v => narrowed c v.toNat)
     ∧ (∀ d a b, computesC (.caprm d a b) d a b true fun c v => some (capRm c v))
     ∧ (∀ d a, computesC (.capmov d a) d a (.reg .z) false fun c _ => some c)
     ∧ (∀ d a b, computesCX (.capget d a b) d a b false capGet)
     ∧ (∀ d a b, computesCX (.capchk d a b) d a b false capChk)
     ∧ ∀ d a, computesCX (.caplen d a) d a (.reg .z) true fun c _ =>
         BitVec.ofInt 32 (max 0 (min (2 ^ 32 - 1) ((c.high : Int) - c.low))))
  ∧ (let same := fun (x y : Cap) => x.object = y.object ∧ x.tenant = y.tenant ∧ x.kind = y.kind ∧ x.top = y.top
     let bounds := fun (x y : Cap) => x.exp = y.exp ∧ x.lowM = y.lowM ∧ x.highM = y.highM
     (∀ c b, same (capAdd c b) c ∧ bounds (capAdd c b) c ∧ (capAdd c b).rights = c.rights ∧
         if 0 ≤ (c.cursor : Int) + b.toInt ∧ (c.cursor : Int) + b.toInt < 2 ^ 40 then
           ((capAdd c b).cursor : Int) = c.cursor + b.toInt ∧ (capAdd c b).tag = c.tag
         else (capAdd c b).bits = c.bits ∧ (capAdd c b).tag = false)
       ∧ (∀ c b, same (capSet c b) c ∧ bounds (capSet c b) c ∧ (capSet c b).rights = c.rights ∧ (capSet c b).cursor = b.toNat
         ∧ (capSet c b).tag = c.tag)
       ∧ (∀ c b, same (capRm c b) c ∧ bounds (capRm c b) c ∧ (capRm c b).cursor = c.cursor ∧ (capRm c b).tag = c.tag
         ∧ ∀ k < 8, (capRm c b).rights.testBit k = (c.rights.testBit k && !b.getLsbD k))
       ∧ ∀ c n r, n < 2 ^ 32 → narrowed c n = some r → same r c ∧ r.rights = c.rights ∧ r.cursor = c.cursor ∧ r.tag = c.tag
         ∧ c.low ≤ r.low ∧ r.low ≤ c.cursor ∧ c.cursor + n ≤ r.high ∧ r.high ≤ c.high)

/-! ### Memory -/

/-- R180 to R189, R194: a load whose operands serve, that no local check stops and whose accesses are all served completes: each
active thread has a pending result for its destination registers, in the order of R184, and no byte of memory changes. R189: where a
thread's bytes lie in one piece of an object, through a capability of kind 00 without a window, its values are those of memory's bytes
there, extended by the sign for LDX and by zeros else. -/
def Obligations.LoadsComplete : Prop :=
  let load := fun (i : Instr) (len la n : Nat) (sx acq : Bool) (c : Fin 16) (a d : PReg) (disp : Int) (need : Need) =>
    ∀ s w b, InTurn s w → Calm w →
      operandsOk (atIssueMem w len) (activeThreads w) (usesOf [.c c.val, .x a] ((loadRegs d n).map .x)) →
      accessOk (begunMem s len) (atIssueMem w len) (activeThreads w) c a disp n need →
      eachThread (loadThread (cxOf s s.turn len) i la ⟨d, n, sx, acq⟩ c a disp) (activeThreads w) (begunMem s len) = .ok (b, []) →
      blockRemote (cxOf s s.turn len) n b = b →
      completes i s b ∧ memoryKept s b ∧ b.groups = s.groups
        ∧ ∃ ps, (unitOf b s.turn).pends = (atIssueMem w len).pends ++ ps ∧ ps.map (·.thread) = activeThreads w
          ∧ (∀ p ∈ ps, p.pc = pcNow w ∧ p.left = la ∧ p.dests.map (·.reg) = (loadRegs d n).map pnum)
          ∧ ∀ pre k post m q, servedAt s w len (loadThread (cxOf s s.turn len) i la ⟨d, n, sx, acq⟩ c a disp) c a disp n false pre k post m q →
            ∀ p ∈ ps, p.thread = k → p.dests.map (fun x => (x.reg, x.val))
              = ((loadRegs d n).map pnum).zip (loadWords n sx (memBytes s (physOf q.tr q.off) n))
  (∀ la sz c a d disp, load (.ld la sz c a d disp) (optLen disp) la.val (sizeBytes sz) false false c a d (dispOf disp) needLoad)
    ∧ (∀ la sz c a d disp, load (.ldx la sz c a d disp) (optLen disp) la.val (sizeBytes sz) true false c a d (dispOf disp) needLoad)
    ∧ (∀ la c a d disp, load (.ldq la c a d disp) (optLen disp) la.val 16 false false c a d (dispOf disp) needLoad)
    ∧ ∀ la sz c a d disp sc, load (.lda la sz c a d disp sc) 8 la.val (sizeBytes sz) false true c a d disp.toInt
        (needLda (sizeBytes sz))

/-- R185 to R191, R194: a store whose operands serve, that no local check stops and whose accesses are all served completes, and
changes no byte of memory but those it stores to. R191: where a thread's bytes lie in one piece of an object, through a capability of
kind 00 without a window, they become the bytes of its X[D], but for those that a later thread stores to. -/
def Obligations.StoresComplete : Prop :=
  let store := fun (i : Instr) (len n : Nat) (c : Fin 16) (a d : PReg) (disp : Int) (need : Need) =>
    ∀ s w b, InTurn s w → Calm w → (inExit w = false ∨ c = 7) → (RName.x d).isQ = false →
      operandsOk (atIssueMem w len) (activeThreads w) (storeUses [.c c.val] a ((storeRegs d n).map .x)).1 →
      accessOk (begunMem s len) (atIssueMem w len) (activeThreads w) c a disp n need →
      eachThread (storeThread (cxOf s s.turn len) d n c a disp) (activeThreads w) (begunMem s len) = .ok (b, []) →
      let f := storeThread (cxOf s s.turn len) d n c a disp
      completes i s b
        ∧ ((∀ t ∈ activeThreads w, plainCap (getC (atIssueMem w len) t c.val)) →
          (∀ p, p ∉ storePlaces f s.turn c a disp n (activeThreads w) (begunMem s len) → memByte b p = memByte s p)
            ∧ ∀ pre k post m q, servedAt s w len f c a disp n true pre k post m q → ∀ j < n,
              physOf q.tr q.off + j ∉ storePlaces f s.turn c a disp n post (f k m).1 →
              memByte b (physOf q.tr q.off + j) = (storeBytes (atIssueMem w len) k d n).getD j 0)
  (∀ sz c a d disp, store (.st sz c a d disp) (optLen disp) (sizeBytes sz) c a d (dispOf disp) needStore)
    ∧ (∀ c a d disp, store (.stq c a d disp) (optLen disp) 16 c a d (dispOf disp) needStore)
    ∧ ∀ sz c a d disp sc, store (.stl sz c a d disp sc) 8 (sizeBytes sz) c a d disp.toInt (needStl (sizeBytes sz))

/-- R192, R193, R343: a CLD whose operands serve, that no local check stops and whose accesses are all served completes: it writes a
capability in each active thread and no byte of memory. A CST of the same kind completes: it stores 16 bytes for each. In one active
thread, through a capability of kind 00 without a window in its own tenant, CLD answers a next state with the capability that memory
holds in c[D], its tag kept where TENANT and the top bits allow it; CST answers one whose memory is that with the capability of c[D]
stored. -/
def Obligations.CapabilityLoadsAndStoresComplete : Prop :=
  ((∀ d c a disp s w b, InTurn s w → Calm w → d.val < 7 →
       operandsOk (atIssueMem w (optLen disp)) (activeThreads w) (usesOf [.c c.val, .x a] [.c d.val]) →
       accessOk (begunMem s (optLen disp)) (atIssueMem w (optLen disp)) (activeThreads w) c a (dispOf disp) 16 needCld →
       eachThread (cldThread (cxOf s s.turn (optLen disp)) d c a (dispOf disp)) (activeThreads w) (begunMem s (optLen disp)) = .ok (b, []) →
       completes (.cld d c a disp) s b ∧ memoryKept s b
         ∧ (∀ i r, getX (unitOf b s.turn) i r = getX (atIssueMem w (optLen disp)) i r)
         ∧ ∀ i < 128, ∀ k < 8, (i ∉ activeThreads w ∨ k ≠ d.val) →
           getC (unitOf b s.turn) i k = getC (atIssueMem w (optLen disp)) i k)
     ∧ ∀ d c a disp s w b, InTurn s w → Calm w → (inExit w = false ∨ c = 7) →
       operandsOk (atIssueMem w (optLen disp)) (activeThreads w) (storeUses [.c c.val] a [.c d.val]).1 →
       accessOk (begunMem s (optLen disp)) (atIssueMem w (optLen disp)) (activeThreads w) c a (dispOf disp) 16 needCst →
       eachThread (cstThread (cxOf s s.turn (optLen disp)) d c a (dispOf disp)) (activeThreads w) (begunMem s (optLen disp)) = .ok (b, []) →
       completes (.cst d c a disp) s b
         ∧ ((∀ t ∈ activeThreads w, plainCap (getC (atIssueMem w (optLen disp)) t c.val)) → ∀ p,
           p ∉ storePlaces (cstThread (cxOf s s.turn (optLen disp)) d c a (dispOf disp)) s.turn c a (dispOf disp) 16
             (activeThreads w) (begunMem s (optLen disp)) →
           memByte b p = memByte s p))
  ∧ (let ready := fun (s : State) (w : Warp) (k : Nat) => InTurn s w ∧ Calm w ∧ activeThreads w = [k]
     let plain := fun (w : Warp) (c : Cap) => c.kind = 0 ∧ c.rights.testBit 7 = false ∧ c.tenant = w.asid
     (∀ (d c : Fin 16) a disp s w k m x p, ready s w k → d.val < 7 →
         let n := optLen disp
         let v := atIssueMem w n
         let q := getC v k c.val
         operandsOk v [k] (usesOf [.c c.val, .x a] [.c d.val]) → accessOk (begunMem s n) v [k] c a (dispOf disp) 16 needCld → plain v q →
         objReadCap (begunMem s n) (reqOf v) q.object (eaOf v c a (dispOf disp) k).toNat = (m, .ok (x, p)) →
         ∃ t, exec (.cld d c a disp) s = .next t ∧ getC (unitOf t s.turn) k d.val = cldCap w.asid x ∧ memoryKept s t)
       ∧ ∀ (d c : Fin 16) a disp s w k m, ready s w k → (inExit w = false ∨ c = 7) →
         let n := optLen disp
         let v := atIssueMem w n
         let q := getC v k c.val
         operandsOk v [k] (storeUses [.c c.val] a [.c d.val]).1 → accessOk (begunMem s n) v [k] c a (dispOf disp) 16 needCst → plain v q →
         objWriteCap (begunMem s n) (reqOf v) q.object (eaOf v c a (dispOf disp) k).toNat (getC v k d.val) false = (m, .ok ()) →
         ∃ t, exec (.cst d c a disp) s = .next t ∧ memoryKept m t)

/-- R195 to R198: an atomic whose operands serve and whose accesses are all served completes; each active thread has a
pending result, and no byte changes but those that the atomic names. Where a thread's bytes lie in one piece of an object, through a
capability of kind 00 without a window, the value that they held is the thread's pending result, and they become the new value, but
for those that a later thread names; an atomic on a scratchpad does so with the bytes of the place that its address names. R195: new =
f(old, x), and what CAS leaves alone. -/
def Obligations.AtomicsComplete : Prop :=
  (let uses := fun (op : AtomOp) (c : Fin 16) (a d : PReg) (n : Nat) =>
     ({ reads := (atomUses [.c c.val] a op d n).reads, writes := (atomRegs op d n).map .x, data := (atomUses [.c c.val] a op d n).data
        tagged := false } : Uses)
   let new := fun (w : Warp) (k : Nat) (op : AtomOp) (d : PReg) (n : Nat) (old : List Byte) =>
     match atomNew op n ⟨pcNow w, k, w.rmode⟩ (ofBytes old) (atomOperand (atIssueMem w 8) k op d n).1
         (atomOperand (atIssueMem w 8) k op d n).2 with
     | some x => toBytes n x
     | none => old
   let result := fun (p : Pend) (d : PReg) (n : Nat) (old : List Byte) => p.dests.map (fun x => (x.reg, x.val))
     = (((atomDst d n).filter (· != .z)).map pnum).zip (loadWords n false old)
   let pending := fun (w : Warp) (v : Warp) (la : Nat) (ps : List Pend) => v.pends = (atIssueMem w 8).pends ++ ps
     ∧ ps.map (·.thread) = activeThreads w ∧ ∀ p ∈ ps, p.atomic = true ∧ p.left = la
   (∀ la sz c a d disp op sc s w b, InTurn s w → Calm w → (inExit w = false ∨ c = 7) →
     let n := sizeBytes sz
     let f := atomThread (cxOf s s.turn 8) (.atom la sz c a d disp op sc) la.val op d n c a disp.toInt
     operandsOk (atIssueMem w 8) (activeThreads w) (uses op c a d n) →
     accessOk (begunMem s 8) (atIssueMem w 8) (activeThreads w) c a disp.toInt n ⟨rR + rW + rAT, 0b0001, n⟩ →
     eachThread f (activeThreads w) (begunMem s 8) = .ok (b, []) →
     completes (.atom la sz c a d disp op sc) s b
       ∧ ∃ ps, pending w (unitOf b s.turn) la.val ps
         ∧ ((∀ t ∈ activeThreads w, plainCap (getC (atIssueMem w 8) t c.val)) →
           (∀ p, p ∉ storePlaces f s.turn c a disp.toInt n (activeThreads w) (begunMem s 8) → memByte b p = memByte s p)
             ∧ ∀ pre k post m q, servedAt s w 8 f c a disp.toInt n true pre k post m q →
               let old := memBytes m (physOf q.tr q.off) n
               (∀ p ∈ ps, p.thread = k → result p d n old)
                 ∧ ∀ j < n, physOf q.tr q.off + j ∉ storePlaces f s.turn c a disp.toInt n post (f k m).1 →
                   memByte b (physOf q.tr q.off + j) = (new w k op d n old).getD j 0))
     ∧ ∀ la sz c a d disp op sc s w b, c.val ≠ 0 → InTurn s w → Calm w → (inExit w = false ∨ c = 7) →
       let n := sizeBytes sz
       let v := atIssueMem w 8
       let f := atomThread (cxOf s s.turn 8) (.atoms la sz c a d disp op sc) la.val op d n c a disp.toInt
       let core := fun k => placeCore s v (eaOf v c a disp.toInt k).toNat
       let o := fun k => (eaOf v c a disp.toInt k).toNat % 2 ^ 19
       let apart := fun k core' p => core k = core' → p < o k ∨ o k + n ≤ p
       operandsOk v (activeThreads w) (uses op c a d n) →
       accessOk (begunMem s 8) v (activeThreads w) c a disp.toInt n ⟨rR + rW + rAT, 0b0010, n⟩ →
       eachThread f (activeThreads w) (begunMem s 8) = .ok (b, []) →
       completes (.atoms la sz c a d disp op sc) s b ∧ memoryKept s b
         ∧ (∀ core' p, (∀ k ∈ activeThreads w, apart k core' p) → spmByte b w.grp core' p = spmByte s w.grp core' p)
         ∧ ∃ ps, pending w (unitOf b s.turn) la.val ps
           ∧ ∀ pre k post m, activeThreads w = pre ++ k :: post → eachThread f pre (begunMem s 8) = .ok (m, []) →
             let old := (List.range n).map fun j => spmByte m w.grp (core k) (o k + j)
             (∀ p ∈ ps, p.thread = k → result p d n old)
               ∧ ∀ j < n, (∀ h ∈ post, apart h (core k) (o k + j)) →
                 spmByte b w.grp (core k) (o k + j) = (new w k op d n old).getD j 0)
  ∧ (∀ n e old cmp x, (n = 4 ∨ n = 8) → old < 2 ^ (8 * n) → x < 2 ^ (8 * n) →
       atomNew .swap n e old cmp x = some x
         ∧ atomNew .cas n e old cmp x = (if old = cmp then some x else none)
         ∧ atomNew .add n e old cmp x = some ((old + x) % 2 ^ (8 * n))
         ∧ atomNew .and n e old cmp x = some (old &&& x)
         ∧ atomNew .or n e old cmp x = some (old ||| x)
         ∧ atomNew .xor n e old cmp x = some (old ^^^ x)
         ∧ atomNew .minN n e old cmp x = some (min old x)
         ∧ atomNew .maxN n e old cmp x = some (max old x)
         ∧ atomNew .minI n e old cmp x =
           some (if (BitVec.ofNat (8 * n) old).toInt ≤ (BitVec.ofNat (8 * n) x).toInt then old else x)
         ∧ atomNew .maxI n e old cmp x =
           some (if (BitVec.ofNat (8 * n) old).toInt ≤ (BitVec.ofNat (8 * n) x).toInt then x else old))

/-- R182, R189, R202: LDS gives each active thread a pending result with its bytes of the scratchpad; that the data is there at once
(p.arrived) is the model's choice, log entry 44. R191,
R202: STS stores each active thread's bytes in the scratchpad, and no other byte. R198: an ATOMS on the local scratchpad
(C = 0) completes; it changes no byte of memory, and none of the scratchpad but those it names. -/
def Obligations.ScratchpadAccessesComplete : Prop :=
  (∀ la sz a d disp s w, InTurn s w → Calm w → w.off = none →
     operandsOk (atIssueMem w (optLen disp)) (activeThreads w) (usesOf [.x a] ((loadRegs d (sizeBytes sz)).map .x)) →
     spmOk (begunMem s (optLen disp)) (atIssueMem w (optLen disp)) (activeThreads w) a (dispOf disp) (sizeBytes sz) 1 →
     ∃ t ps, exec (.lds la sz a d disp) s = .next t
       ∧ lessCounts (unitOf t s.turn)
         = lessCounts { atIssueMem w (optLen disp) with pends := (atIssueMem w (optLen disp)).pends ++ ps }
       ∧ otherUnitsKept s t ∧ deviceKept s t
       ∧ ps.map (·.thread) = activeThreads w
       ∧ ∀ p ∈ ps, p.arrived = true ∧ p.pc = pcNow w ∧ p.dests.map (fun x => (x.reg, x.val)) =
           ((loadRegs d (sizeBytes sz)).map pnum).zip (loadWords (sizeBytes sz) false ((List.range (sizeBytes sz)).map fun k =>
             spmByte s w.grp (homeCore s w) ((soOf (atIssueMem w (optLen disp)) a (dispOf disp) p.thread).toNat + k))))
  ∧ (∀ sz a d disp s w, InTurn s w → Calm w → w.off = none → inExit w = false → (RName.x d).isQ = false →
       operandsOk (atIssueMem w (optLen disp)) (activeThreads w) (storeUses [] a ((storeRegs d (sizeBytes sz)).map .x)).1 →
       spmOk (begunMem s (optLen disp)) (atIssueMem w (optLen disp)) (activeThreads w) a (dispOf disp) (sizeBytes sz) 1 →
       let v := atIssueMem w (optLen disp)
       let o := fun k => (soOf v a (dispOf disp) k).toNat
       ∃ t, exec (.sts sz a d disp) s = .next t ∧ memoryKept s t ∧ lessCounts (unitOf t s.turn) = lessCounts v
         ∧ (∀ p, (∀ k ∈ activeThreads w, ¬(o k ≤ p ∧ p < o k + sizeBytes sz)) →
           spmByte t w.grp (homeCore s w) p = spmByte s w.grp (homeCore s w) p)
         ∧ ∀ k ∈ activeThreads w, (∀ j ∈ activeThreads w, j ≠ k → o j + sizeBytes sz ≤ o k ∨ o k + sizeBytes sz ≤ o j) →
           ∀ i < sizeBytes sz, spmByte t w.grp (homeCore s w) (o k + i) = (storeBytes v k d (sizeBytes sz)).getD i 0)
  ∧ (∀ la sz (c : Fin 16) a d disp op sc s w, InTurn s w → Calm w → w.off = none → inExit w = false → c.val = 0 →
       operandsOk (atIssueMem w 8) (activeThreads w)
         { reads := (atomUses [] a op d (sizeBytes sz)).reads, writes := (atomRegs op d (sizeBytes sz)).map .x
           data := (atomUses [] a op d (sizeBytes sz)).data, tagged := false } →
       spmOk (begunMem s 8) (atIssueMem w 8) (activeThreads w) a disp.toInt (sizeBytes sz) (sizeBytes sz) →
       ∃ t, exec (.atoms la sz c a d disp op sc) s = .next t ∧ memoryKept s t
         ∧ ∀ p, (∀ k ∈ activeThreads w, ¬((soOf (atIssueMem w 8) a disp.toInt k).toNat ≤ p
             ∧ p < (soOf (atIssueMem w 8) a disp.toInt k).toNat + sizeBytes sz)) →
           spmByte t w.grp (homeCore s w) p = spmByte s w.grp (homeCore s w) p)

/-- R199 to R204: FENCE completes the active threads' outstanding loads and atomics, PREF changes no register and no byte, whatever
its operands hold. -/
def Obligations.FencesAndPrefetchesComplete : Prop :=
  (∀ k sc s w, InTurn s w → Calm w →
      changesUnit (.fence k sc) s 4 (fun v => landWhere v fun p => (activeThreads w).contains p.thread)
        ∧ ∀ t, exec (.fence k sc) s = .next t → ∀ p ∈ (unitOf t s.turn).pends, p.thread ∈ activeThreads w → p.faulted = true)
    ∧ ∀ x sz c a disp s w, InTurn s w → Calm w →
      nameCheck (atIssueMem w (optLen disp)) (usesOf [.c c.val, .x a] []) = none → (RName.x a).isQ = false →
      ∃ b, completes (.pref x sz c a disp) s b ∧ memoryKept s b ∧ b.groups = s.groups
        ∧ unitOf b s.turn = atIssueMem w (optLen disp)

/-- R339, R343, R347, R402: a read of an object whose pieces all translate, pass the key registry and reach their ports
gives the bytes of memory at their places in order, and changes no byte. R191, R343, R350: a write of an object's bytes
that lie in one piece stores them there, clears the tags of the granules it touches, and changes no other byte, tag or
mark. R351: a read that meets a block whose check fails comes poisoned, and a write of part of such a block is dropped and leaves
it so. -/
def Obligations.ObjectAccessesMoveTheirBytes : Prop :=
  (∀ s rq obj off n ft s1 s2 ps, xlateAll s rq obj (off + n) false ft (pieces off n) = (s1, .ok ps) → keyAll s1 rq ps = some s2 →
     (∀ p ∈ ps, connOk s rq (portOf p.tr p.off) = true ∧ p.tr.hv = false ∧ badBlock s p.tr p.off = false) →
     (objRead s rq obj off n ft).2 = .ok (ps.flatMap fun p => memBytes s (physOf p.tr p.off) p.len,
         ps.any fun p => (sgetMany false s.memPoison (physOf p.tr p.off) p.len).any id)
       ∧ memoryKept s (objRead s rq obj off n ft).1)
  ∧ (∀ s rq obj off bs q s1 s2 p, xlateAll s rq obj (off + bs.length) true false (pieces off bs.length) = (s1, .ok [p]) →
       keyAll s1 rq [p] = some s2 → connOk s rq (portOf p.tr p.off) = true → compFull s2 rq.asid p.tr p.off bs = false →
       p.len = bs.length → badBlock s p.tr p.off = false →
       ∃ t, objWrite s rq obj off bs q = (t, .ok ())
         ∧ (∀ a, memByte t a =
             if physOf p.tr p.off ≤ a ∧ a < physOf p.tr p.off + bs.length then bs.getD (a - physOf p.tr p.off) 0 else memByte s a)
         ∧ (∀ a, sget false t.memPoison a =
             if physOf p.tr p.off ≤ a ∧ a < physOf p.tr p.off + bs.length then q else sget false s.memPoison a)
         ∧ ∀ g, sget false t.tags g =
             if physOf p.tr p.off / 16 ≤ g ∧ g < (physOf p.tr p.off + bs.length + 15) / 16 then false else sget false s.tags g)
  ∧ (∀ s rq obj off n ft s1 s2 ps, xlateAll s rq obj (off + n) false ft (pieces off n) = (s1, .ok ps) → keyAll s1 rq ps = some s2 →
       (∃ p ∈ ps, connOk s rq (portOf p.tr p.off) = true ∧ badBlock s p.tr p.off = true) →
       ∃ bs, (objRead s rq obj off n ft).2 = .ok (bs, true))
  ∧ ∀ s rq obj off bs q s1 s2 p, xlateAll s rq obj (off + bs.length) true false (pieces off bs.length) = (s1, .ok [p]) →
      keyAll s1 rq [p] = some s2 → connOk s rq (portOf p.tr p.off) = true → p.len = bs.length → bs.length < 2048 →
      badBlock s p.tr p.off = true →
      ∃ t, objWrite s rq obj off bs q = (t, .ok ()) ∧ memoryKept s t ∧ badBlock t p.tr p.off = true

/-! ### Queue ports and datum words -/

/-- R91, R207, R208: a per-thread function that names queue ports completes with the state that serving its active threads
one after another gives, where each pop finds an entry and each push a credit. R310, R382: a pop takes the first 4 bytes
of the entry at HEAD, or the oldest number of a random ring, and nothing where there is none. -/
def Obligations.PortFormsServeThreadsInOrder : Prop :=
  (∀ i len f s w b, InTurn s w → Calm w → Simt w → (∀ s, exec i s = perThread len f s) →
     (f.reads ++ f.writes).all (·.noQ) = false →
     nameCheck (atIssue w len) (f.uses false) = none → (f.uses false).writes.any (·.elasticIn (atIssue w len)) = false →
     poisonCheck (atIssue w len) (activeThreads w) (f.uses false) = none →
     (∀ p ∈ portsOf (f.uses false).reads, portOk (begun s len) (atIssue w len) p false = true) →
     (∀ p ∈ portsOf (f.uses false).writes, portOk (begun s len) (atIssue w len) p true = true) →
     serve (cxOf s s.turn len) f (activeThreads w) (begun s len) = .ok b → Settled (unitOf b s.turn) → completes i s b)
  ∧ ((∀ s u p d bs q, (getPort (unitOf s u) p).mode ≠ 4 → portDesc s (unitOf s u) (getPort (unitOf s u) p) = some d → d.head ≠ d.tail →
         spmRead s (unitOf s u).grp (portCore s (unitOf s u) (getPort (unitOf s u) p)) (d.base + d.head % d.count * d.size : Nat) 4
           = some (bs, q) →
         ∃ t, popPort s u p = some (t, BitVec.ofNat 32 (ofBytes bs), q)
           ∧ memoryKept s t ∧ t.units = s.units
           ∧ t = putDesc s (unitOf s u).grp (portCore s (unitOf s u) (getPort (unitOf s u) p)) (getPort (unitOf s u) p).offset
               { d with head := (d.head + 1) % 2 ^ 32, used := d.used + 1 })
       ∧ (∀ s u p d, (getPort (unitOf s u) p).mode ≠ 4 → portDesc s (unitOf s u) (getPort (unitOf s u) p) = some d → d.head = d.tail →
         popPort s u p = none)
       ∧ ∀ s u p r v rest, (getPort (unitOf s u) p).mode = 4 → sfind s.slots (getPort (unitOf s u) p).offset = some r → r.ring = v :: rest →
         ∃ t, popPort s u p = some (t, v.truncate 32, false)
           ∧ sfind t.slots (getPort (unitOf s u) p).offset = some { r with ring := rest, nxt := r.nxt + 1 })

/-- R205, R206, R311: QBIND on a valid descriptor, or on an enabled random slot of the context's own, binds the port.
R206, R312: QUNBIND leaves its port unbound and every other as it was, and changes no register and no byte of memory. -/
def Obligations.PortsBindAndUnbind : Prop :=
  ((∀ d a s w q, InTurn s w → Calm w → Simt w → operandsOk (atIssue w 4) (activeThreads w) (usesOf [.u a.val] []) →
       descAt (begun s 4) w.grp (homeCore (begun s 4) (atIssue w 4)) (bitsOf (getS (atIssue w 4) a.val).toNat 0 19) = some q →
       ∃ t, exec (.qbind d a .recv) s = .next t ∧ memoryKept s t
         ∧ getPort (unitOf t s.turn) d.val =
           { mode := 1, place := 0, offset := bitsOf (getS (atIssue w 4) a.val).toNat 0 19, request := 0, credits := 0 })
     ∧ (∀ d a s w q, InTurn s w → Calm w → Simt w → operandsOk (atIssue w 4) (activeThreads w) (usesOf [.u a.val] []) →
       descAt (begun s 4) w.grp (homeCore (begun s 4) (atIssue w 4)) (bitsOf (getS (atIssue w 4) a.val).toNat 0 19) = some q →
       0 < bitsOf (getS (atIssue w 4) a.val).toNat 32 11 → bitsOf (getS (atIssue w 4) a.val).toNat 32 11 ≤ q.count →
       completes (.qbind d a .send) s (bindSend (begun s 4) s.turn d.val 2 0 (bitsOf (getS (atIssue w 4) a.val).toNat 0 19)
         (bitsOf (getS (atIssue w 4) a.val).toNat 32 11)))
     ∧ ∀ a s w, InTurn s w → Calm w → Simt w → operandsOk (atIssue w 4) (activeThreads w) (usesOf [.u a.val] []) →
       slotOk s ((getS (atIssue w 4) a.val).toNat % 4096) w.asid = true →
       ∃ t, exec (.qbind 4 a .rng) s = .next t ∧ memoryKept s t
         ∧ getPort (unitOf t s.turn) 4 =
           { mode := 4, place := 0, offset := (getS (atIssue w 4) a.val).toNat % 4096, request := 0, credits := 0 })
  ∧ (let un := fun i (k : Fin 8) => ∀ s w, InTurn s w → Calm w → Simt w →
       ∃ t, exec i s = .next t ∧ memoryKept s t
         ∧ (∀ p, getPort (unitOf t s.turn) p = if p = k.val then Port.unbound else getPort w p)
         ∧ (unitOf t s.turn).regs = (atIssue w 4).regs
     un .qunbind0 0 ∧ un .qunbind1 1 ∧ un .qunbind2 2 ∧ un .qunbind3 3 ∧ un .qunbind4 4 ∧ un .qunbind5 5 ∧ un .qunbind6 6
       ∧ un .qunbind7 7)

/-- R205 to R209, R337: QFREE on a receiving port returns credits, QREMOTE binds a port to a descriptor of another core's
scratchpad, and QPEEK reads what R209 gives each thread by its rank among the active ones. -/
def Obligations.QueueFunctionsComplete : Prop :=
  (∀ d n s w, InTurn s w → Calm w → Simt w → operandsOk (atIssue w (ssrcLen n)) (activeThreads w) (usesOf (ssrcName n) []) →
      (getPort w d.val).mode = 1 →
      let v := atIssue w (ssrcLen n)
      let c := portCore s v (getPort w d.val)
      let used := match spmWord s w.grp c ((getPort w d.val).offset + 16) with
        | some x => bitsOf x 16 11
        | none => 0
      completes (.qfree d n) s (addFree (begun s (ssrcLen n)) w.grp c (getPort w d.val).offset
        (min (bitsOf (getSSrc v n).toNat 0 11) used) true))
    ∧ (∀ d a n s w q, InTurn s w → Calm w → Simt w →
      operandsOk (atIssue w (ssrcLen n)) [lowest (activeThreads w)] (usesOf (.c a.val :: ssrcName n) []) →
      let v := atIssue w (ssrcLen n)
      let c := getC v (lowest (activeThreads w)) a.val
      let k := bitsOf (getSSrc v n).toNat 0 11
      remoteCheck (begun s (ssrcLen n)) v c = none →
      descAt s w.grp (((placesOf (groupOf s w.grp) w.loc.cluster)[c.cursor / 2 ^ 19]?).getD (0, 0, 0)) (c.cursor % 2 ^ 19) = some q →
      0 < k → k ≤ q.count →
      completes (.qremote d a n) s (bindSend (begun s (ssrcLen n)) s.turn d.val 3 (c.cursor / 2 ^ 19) (c.cursor % 2 ^ 19) k))
    ∧ ∀ d a s w, InTurn s w → Calm w → Simt w → operandsOk (atIssue w 4) (activeThreads w) (usesOf [] [.x d]) →
      (peekPort (begun s 4) (atIssue w 4) a.val 0).isSome →
      ∃ t, exec (.qpeek d a) s = .next t ∧ WritesX s w 4 d
        (fun i => (peekPort (begun s 4) (atIssue w 4) a.val ((activeThreads w).idxOf i)).getD 0) t

/-- R210, R329, R330: DWINIT writes generation 0, the target and a count of 0; DWADD adds bytes; DWWAIT completes where the
generation has been reached. Each touches that word of the scratchpad alone. -/
def Obligations.DatumWordsCount : Prop :=
  let on := fun (i : Instr) (n : SSrc) (a : Fin 64) (ok : Nat → Prop) (new : Nat → Nat → Nat) =>
    ∀ s w x, InTurn s w → Calm w → Simt w →
      operandsOk (atIssue w (ssrcLen n)) (activeThreads w) (usesOf (.u a.val :: ssrcName n) []) →
      let v := atIssue w (ssrcLen n)
      let o := bitsOf (getS v a.val).toNat 0 19
      let y := (getSSrc v n).toNat
      ok y → o % 8 = 0 → spmWord s w.grp (homeCore s w) o = some x →
      ∃ t, exec i s = .next t ∧ memoryKept s t ∧ lessCounts (unitOf t s.turn) = lessCounts v
        ∧ spmWord t w.grp (homeCore s w) o = some (new x y % 2 ^ 64)
        ∧ ∀ p, ¬(o ≤ p ∧ p < o + 8) → spmByte t w.grp (homeCore s w) p = spmByte s w.grp (homeCore s w) p
  (∀ a n, on (.dwinit a n) n a (fun y => y % 2 ^ 24 ≠ 0) fun _ y => y % 2 ^ 24 * 2 ^ 24)
    ∧ (∀ a n, on (.dwadd a n) n a (fun _ => True) fun x y => datumAdd x (y % 2 ^ 24))
    ∧ ∀ a n s w x, InTurn s w → Calm w → Simt w →
      operandsOk (atIssue w (ssrcLen n)) (activeThreads w) (usesOf (.u a.val :: ssrcName n) []) →
      bitsOf (getS (atIssue w (ssrcLen n)) a.val).toNat 0 19 % 8 = 0 →
      spmWord s w.grp (homeCore s w) (bitsOf (getS (atIssue w (ssrcLen n)) a.val).toNat 0 19) = some x →
      datumDone x ((getSSrc (atIssue w (ssrcLen n)) n).toNat % 2 ^ 16) = true →
      completes (.dwwait a n) s (begun s (ssrcLen n))

/-! ### Recipes -/

/-- R69, R212, R213: RDROP drops the VALID values it names, RPIN pins a standing value, RUNPIN makes a pinned value that
is not STALE droppable again. R53, R213, R214: RQRY writes the code of the entry, RCLR removes the entries named, so that
their registers read 0. No entry may depend on what is written (R71). -/
def Obligations.RecipeInstructionsManageEntries : Prop :=
  ((∀ d s w, InTurn s w → Settled w → recipeName (atIssue w 4) d true false = none →
       changesUnit (.rdrop d) s 4 fun v => (namedRegs v d).foldl (fun v n => modRecipe v n (dropRecipe v)) v)
     ∧ (∀ d s w, InTurn s w → Settled w → recipeName (atIssue w 4) d false false = none →
       (∀ n ∈ namedRegs (atIssue w 4) d, ∀ r, recipeOf (atIssue w 4) n = some r → r.st ≠ .dropped) →
       ∃ t, exec (.rpin d) s = .next t ∧ memoryKept s t
         ∧ ∀ n ∈ namedRegs (atIssue w 4) d, ∀ r, recipeOf (atIssue w 4) n = some r →
           recipeOf (unitOf t s.turn) n = some { r with st := .pinned })
     ∧ ∀ d s w, InTurn s w → Settled w → recipeName (atIssue w 4) d false false = none →
       (∀ r ∈ w.recipes, r.row.isSome) →
       ∃ t, exec (.runpin d) s = .next t ∧ memoryKept s t
         ∧ ∀ n ∈ namedRegs (atIssue w 4) d, ∀ r, recipeOf (atIssue w 4) n = some r →
           recipeOf (unitOf t s.turn) n = some (if r.st = .pinned ∧ r.stale = false then { r with st := .valid } else r))
  ∧ ((∀ d a s w, InTurn s w → Settled w → recipeName (atIssue w 4) a false true = none →
         operandsOk (atIssue w 4) (activeThreads w) (usesOf [] [.x d]) →
         (∀ r ∈ w.recipes, cwDoubt (atIssue w 4) [pnum d] r = [] ∧ ∀ f, formOf (atIssue w 4) r = some f → pnum d ∉ formNums f) →
         ∃ t, exec (.rqry d a) s = .next t ∧ WritesX s w 4 d (fun _ =>
           match a.bind fun n => recipeOf (atIssue w 4) n.val with
           | none => 0
           | some r => BitVec.ofNat 32 ((match r.st with
               | .valid => 1
               | .dropped => 2
               | .pinned => 3) + (if r.stale then 4 else 0) + 8 * r.depth)) t)
       ∧ ∀ d s w, InTurn s w → Settled w → recipeName (atIssue w 4) d true false = none →
         (∀ r ∈ w.recipes, cwDoubt (atIssue w 4) (namedRegs (atIssue w 4) d) r = []
           ∧ ∀ n ∈ namedRegs (atIssue w 4) d, ∀ f, formOf (atIssue w 4) r = some f → n ∉ formNums f) →
         ∃ t, exec (.rclr d) s = .next t ∧ memoryKept s t
           ∧ ∀ n ∈ namedRegs (atIssue w 4) d, recipeOf (unitOf t s.turn) n = none
             ∧ ∀ i, ∀ k : Fin 96, k.val = n → w.base ≤ n → getX (unitOf t s.turn) i (.v k) = 0)

/-- R66, R67, R68, R92: an RTAG pair that every condition of R67 allows executes the tagged instruction for every live thread and
records its entry; a tagged load waits for the atomics of its threads and passes the checks of its access first. That the entry's PC is
that of the tagged instruction (r.pc = pcNow w + 4) is the model's reading, log entry 33: R66 gives an entry no PC of its own. -/
def Obligations.RtagRecordsItsRecipe : Prop :=
  ∀ s w m g b bs i rest f, InTurn s w → Calm w →
    let len := 4 + lengthOf (peekHalf s w (pcNow w + 4))
    let cx := cxOf s s.turn len
    fetchInsn (begun s len) (atIssue w len) (pcNow w + 4) = (m, .ok bs) → decode bs = .ok (i, rest) →
    unitOf m s.turn = atIssue w len →
    tagReserved (atIssue w len) i = false → tagCwOk (atIssue w len) (activeThreads w) i →
    w.off = none → AllActive w → recipeForm (lowReg (atIssue w len)) i = some f → tagOk (atIssue w len) f = true →
    g = (if f.load.isSome then afterAtomics cx m else m) →
    let v := unitOf g s.turn
    nameCheck v (tagUses f) = none → ((tagUses f).reads.any (·.isQ)) = false → (RName.x f.dst).isQ = false →
    poisonCheck v (activeThreads w) (tagUses f) = none →
    tagAccess cx i (tagRun cx i f bs) g = .ok b → Settled (unitOf b s.turn) →
    completes .rtag s b
      ∧ ∃ r, recipeOf (unitOf b s.turn) (pnum f.dst) = some r ∧ r.insn = ofBytes (bs.take 4) ∧ r.lit = ofBytes (bs.drop 4)
        ∧ r.pc = pcNow w + 4 ∧ r.rmode = w.rmode ∧ r.depth = newDepth v f.regs ∧ r.st = .valid ∧ r.stale = false

/-! ### The matrix engine -/

/-- R60, R61, R218: TCFG writes the shape of a tile or an accumulator. -/
def Obligations.TcfgWritesTheShape : Prop :=
  ∀ d b s w, InTurn s w → Calm w → w.off = none → operandsOk (atIssue w (ssrcLen b)) (activeThreads w) (usesOf (ssrcName b) []) →
    let x := (getSSrc (atIssue w (ssrcLen b)) b).toNat % 2 ^ 32
    (d.val < 8 → tileBad w d.val = false → tshpBad x = false →
        changesUnit (.tcfg d b) s (ssrcLen b) fun v => { v with tshp := sset 0x2FFF v.tshp d.val x })
      ∧ (8 ≤ d.val → d.val < 12 → accBad w d.val = false → ashpBad x = false →
        changesUnit (.tcfg d b) s (ssrcLen b) fun v => { v with ashp := sset 0xFFF v.ashp (d.val - 8) x })

/-- R216, R222 to R226: TZERO, MMA and SCACC start an operation whose result is the new contents of their destination, to be
written when its window is over; operations that it depends on complete first (R98). -/
def Obligations.TileComputationsStart : Prop :=
  let start := fun (i : Instr) (s : State) (w : Warp) (la : Fin 16) (reads : List Nat) (td : Fin 16) (x : Warp → TileWrite) =>
    copyBlocks w reads [td.val] = false →
    changesUnit i s 4 fun v =>
      let v := scoreboard v reads [td.val]
      { v with tops := v.tops ++ [⟨s.nextId, reads, [td.val], la.val, [x v]⟩] }
  (∀ la td s w, InTurn s w → Calm w → EngineOk w → tileBad w td.val = false →
      start (.tzeroTile la td) s w la [] td fun _ => ⟨false, td.val, [], [], [], []⟩)
    ∧ (∀ la td s w, InTurn s w → Calm w → EngineOk w → accBad w td.val = false →
      start (.tzeroAcc la td) s w la [] td fun _ => ⟨true, td.val - 8, [], [], [], []⟩)
    ∧ (∀ la fmt acc tb ta td s w, InTurn s w → Calm w → EngineOk w → fmt.val < 6 → ¬(fmt.val = 5 ∧ acc = true) →
      accBad w td.val = false → tileBad w ta.val = false → tileBad w tb.val = false →
      mmaBad (matEnv w (pcNow w) w.rmode) fmt.val ta.val tb.val (td.val - 8) = false →
      start (.mma la fmt acc tb ta td) s w la (ta.val :: tb.val :: if acc then [td.val] else []) td fun v =>
        mmaWrite v (matEnv w (pcNow w) w.rmode) fmt.val acc tb.val ta.val (td.val - 8))
    ∧ ∀ la pair acc tb ta td s w, InTurn s w → Calm w → EngineOk w → accBad w td.val = false → accBad w ta.val = false →
      tileBad w tb.val = false →
      scaccBad (matEnv w (pcNow w) w.rmode) pair.val tb.val (ta.val - 8) (td.val - 8) = false →
      start (.scacc la pair acc tb ta td) s w la (ta.val :: tb.val :: if acc then [td.val] else []) td fun v =>
        scaccWrite v (matEnv w (pcNow w) w.rmode) pair.val acc tb.val (ta.val - 8) (td.val - 8)

/-- R219 to R221, R227, R228: tile and accumulator loads and stores whose rows pass the checks and are all served complete. A
load starts an operation that writes its destination, and changes no byte of memory. -/
def Obligations.TileTransfersComplete : Prop :=
  let v8 := fun w => atIssue w 8
  let ready := fun (s : State) (w : Warp) (spm : Bool) (ta : Fin 16) (reads writes : List Nat) =>
    InTurn s w ∧ Calm w ∧ EngineOk w ∧ operandsOk (v8 w) [lowLive w] (usesOf (rowsName spm ta) []) ∧ copyBlocks w reads writes = false
  let after := fun (s : State) (reads writes : List Nat) => modUnit (begun s 8) s.turn fun v => scoreboard v reads writes
  let loads := fun (i : Instr) (s : State) (w : Warp) (la : Fin 16) (td : Fin 16) (r : Rows)
      (x : Warp → List (List PByte) → TileWrite) =>
    ∀ b rs, rowsCheck (begun s 8) (v8 w) r rR 0b1111 = none → readRows s.turn r r.rows 0 (after s [] [td.val]) = (b, .ok rs) →
      completes i s (modUnit b s.turn fun v =>
        { v with tops := v.tops ++ [⟨s.nextId, [], [td.val], la.val, [x (unitOf b s.turn) rs]⟩] }) ∧ memoryKept s b
  (∀ la spm ta td st disp s w, ready s w spm ta [] [td.val] → tileBad w td.val = false →
      let x := shapeOf (getTshp w td.val)
      loads (.tld la spm ta td st disp) s w la td (rowsOf (v8 w) spm ta st disp x.rows x.rb) fun _ rs => tileOfRows td.val x rs)
    ∧ (∀ la spm ta td st disp s w, ready s w spm ta [] [td.val] → tileBad w td.val = false →
      let x := shapeOf (getTshp w td.val)
      tldtBad x = false →
      loads (.tldt la spm ta td st disp) s w la td (rowsOf (v8 w) spm ta st disp x.cols ((x.rows * x.w + 7) / 8))
        fun _ rs => tileTransposed td.val x rs)
    ∧ (∀ la fmt spm ta td st disp s w, ready s w spm ta [] [td.val] → accFmtOk fmt.val = true → accBad w td.val = false →
      let e := matEnv w (pcNow w) w.rmode
      let f := fmtOf fmt.val
      let d := td.val - 8
      loads (.acld la fmt spm ta td st disp) s w la td
        (rowsOf (v8 w) spm ta st disp (e.acc d).1 ((e.acc d).2 * (f.width / 8))) fun v rs =>
          accFrom v d (e.acc d).1 (e.acc d).2 (fun i j => (acldElem e f (rs.getD i []) i j).1)
            fun i j => (acldElem e f (rs.getD i []) i j).2)
    ∧ (∀ la spm ta td st disp s w b, ready s w spm ta [td.val] [] → tileBad w td.val = false →
      let x := shapeOf (getTshp w td.val)
      let r := rowsOf (v8 w) spm ta st disp x.rows x.rb
      let v := scoreboard (v8 w) [td.val] []
      rowsCheck (begun s 8) (v8 w) r rW 0b1011 = none →
      (∀ i < x.rows, ∀ k < x.rb, tilePoison v td.val (i * 64 + k) = false) →
      writeRows s.turn r 0 ((List.range x.rows).map (tstRow v td.val x)) (after s [td.val] []) = (b, .ok ()) →
      completes (.tst la spm ta td st disp) s b)
    ∧ ∀ la fmt spm ta td st disp s w b, ready s w spm ta [td.val] [] → accFmtOk fmt.val = true → accBad w td.val = false →
      let e := matEnv w (pcNow w) w.rmode
      let f := fmtOf fmt.val
      let d := td.val - 8
      let r := rowsOf (v8 w) spm ta st disp (e.acc d).1 ((e.acc d).2 * (f.width / 8))
      let v := scoreboard (v8 w) [td.val] []
      rowsCheck (begun s 8) (v8 w) r rW 0b1011 = none →
      (∀ i < (e.acc d).1, ∀ j < (e.acc d).2, accPoison v d i j = false) →
      writeRows s.turn r 0 ((List.range (e.acc d).1).map (acstRow v e f d (e.acc d).2)) (after s [td.val] []) = (b, .ok ()) →
      completes (.acst la fmt spm ta td st disp) s b

/-! ### Copies and batches -/

/-- R216, R229 to R232: a copy that passes R231, and whose tile no earlier copy holds, is accepted: the operations on its tile
complete first, and it joins the warp's copies with what it captured, in no batch, every row still to move; no byte of memory
changes. -/
def Obligations.CopiesAreAccepted : Prop :=
  let copy := fun (mk : Fin 16 → Fin 64 → Fin 16 → Instr) (f g : Nat) =>
    ∀ la d a s w, InTurn s w → Calm w → EngineOk w →
      let v := atIssue w 4
      let x := copyReq v f g d a
      let cx := cxOf s s.turn 4
      poisonCheck v [lowLive w] (usesOf ((List.range 4).map fun i => .u (d.val + i)) []) = none →
      poisonCheck v (if f = 3 then activeThreads w else [lowLive w])
        (usesOf (.c a.val :: if f = 2 && g = 0 then [.c (dRcap x.desc)] else []) []) = none →
      let c := copyOf cx v x (if f = 3 then a.val else 0) none
      copyServes (begun s 4) v cx x → copyBlocks v (copyTiles c).1 (copyTiles c).2 = false →
      changesUnit (mk la d a) s 4 fun v =>
        let v := scoreboard v (copyTiles c).1 (copyTiles c).2
        { v with copies := v.copies ++ [c] }
  copy .cpy 0 0 ∧ copy .cpyTile 0 1 ∧ copy .cpyout 1 0 ∧ copy .cpyoutTile 1 1 ∧ copy .cpyr 2 0 ∧ copy .cpyrQ 2 1
    ∧ copy .cpyg 3 0 ∧ copy .cpygTile 3 1

/-- R235, R236: BSEAL gives the unsealed copies the number of the seal counter and raises it; BWAIT completes on a complete
batch; BTEST writes completeness in bit 0 and poison in bit 1. -/
def Obligations.BatchesSealAndTest : Prop :=
  (∀ d s w, InTurn s w → Calm w → EngineOk w → operandsOk (atIssue w 4) [lowLive w] (usesOf [] [.u d.val]) → sealFull w = false →
      ∃ t, exec (.bseal d) s = .next t ∧ memoryKept s t
        ∧ getS (unitOf t s.turn) d.val = BitVec.ofNat 64 w.sealCtr
        ∧ (unitOf t s.turn).sealCtr = (w.sealCtr + 1) % 2 ^ 16
        ∧ (unitOf t s.turn).copies = w.copies.map (fun c => if c.batch.isNone then { c with batch := some w.sealCtr } else c)
        ∧ (∀ n : Fin 64, n ≠ d → getS (unitOf t s.turn) n = getS (atIssue w 4) n))
    ∧ (∀ n s w, InTurn s w → Calm w → EngineOk w → operandsOk (atIssue w (ssrcLen n)) (activeThreads w) (usesOf (ssrcName n) []) →
      let x := (getSSrc (atIssue w (ssrcLen n)) n).toNat % 2 ^ 16
      notSealed w x = false → batchDone w x = true → completes (.bwait n) s (begun s (ssrcLen n)))
    ∧ ∀ d n s w, InTurn s w → Calm w → EngineOk w →
      operandsOk (atIssue w (ssrcLen n)) (activeThreads w) (usesOf (ssrcName n) [.u d.val]) →
      let x := (getSSrc (atIssue w (ssrcLen n)) n).toNat % 2 ^ 16
      notSealed w x = false →
      ∃ t, exec (.btest d n) s = .next t ∧ WritesU s w (ssrcLen n) (.s d) (BitVec.ofNat 64
        ((if batchDone w x then 1 else 0) + if ((batchOf w x).map (·.poison)).getD false then 2 else 0)) t

/-! ### Chains and windows -/

/-- R237, R238, R244, R313 to R316: CHAPP and SMPL on a chain with room write their entry at slot RESV and answer RESV;
CHTAIL makes TAIL RESV; CHWAIT completes on a sequence number that is done; CHSEQ reads DONE. R238, R315: a wait for
sequence number n is over where (DONE − n) mod 2^32 lies below 2^31, and a chain is full where (RESV − DONE − 1) mod 2^32
equals its number of entries. -/
def Obligations.ChainInstructionsComplete : Prop :=
  (let ops := fun (w : Warp) (len : Nat) (reads writes : List RName) => operandsOk (atIssue w len) [lowLive w] (usesOf reads writes)
   (∀ d a st s w h b b', InTurn s w → Calm w → EngineOk w → ops w 8 [.c a.val, .c st.val] [.u d.val] →
       let v := atIssue w 8
       let c := getC v (lowLive w) a.val
       let g := getC v (lowLive w) st.val
       chainServes (begun s 8) v c h b → localCheck b v g g.cursor 64 rR 0b1111 16 = none → h.full = false →
       localCheck b v c ((c.cursor + slotAt h h.resv : Nat) : Int) 64 (rR + rW) 0b0001 64 = none →
       (appendEntry v w.rmode c g h false b = (b', .ok ()) →
         completes (.chapp d a st) s (modUnit b' s.turn fun v => setS v d.val (BitVec.ofNat 64 h.resv)))
       ∧ (h.engine = 3 → h.cluster = w.loc.cluster → appendEntry v w.rmode c g h true b = (b', .ok ()) →
         completes (.smpl d a st) s (modUnit b' s.turn fun v => setS v d.val (BitVec.ofNat 64 h.resv))))
     ∧ (∀ la a s w h b b', InTurn s w → Calm w → EngineOk w → ops w 4 [.c a.val] [] →
       let v := atIssue w 4
       let c := getC v (lowLive w) a.val
       chainServes (begun s 4) v c h b → capWrite b v c (c.cursor + 12) (toBytes 4 h.resv) false = (b', .ok ()) →
       completes (.chtail la a) s b')
     ∧ (∀ a n s w h b, InTurn s w → Calm w → EngineOk w → ops w (ssrcLen n) (.c a.val :: ssrcName n) [] →
       let v := atIssue w (ssrcLen n)
       chainServes (begun s (ssrcLen n)) v (getC v (lowLive w) a.val) h b →
       seqDone h.done ((getSSrc v n).toNat % 2 ^ 32) = true → completes (.chwait a n) s b ∧ memoryKept s b)
     ∧ ∀ d a s w h b, InTurn s w → Calm w → EngineOk w → ops w 4 [.c a.val] [.u d.val] →
       let v := atIssue w 4
       chainServes (begun s 4) v (getC v (lowLive w) a.val) h b →
       completes (.chseq d a) s (modUnit b s.turn fun v => setS v d.val (BitVec.ofNat 64 h.done)) ∧ memoryKept s b)
  ∧ ((∀ done n, seqDone done n = true ↔ (((done : Int) - n) % 2 ^ 32 < 2 ^ 31))
       ∧ ∀ h : Header, h.resv < 2 ^ 32 → h.done < 2 ^ 32 →
         (h.full = true ↔ ((h.resv : Int) - h.done - 1) % 2 ^ 32 = 2 ^ h.log2n))

/-- R239 to R243, R388 to R395: the window instructions. KVLEN reads the length, last number, state and position of a slot;
KVABORT closes a window and keeps its length; KVCOMMIT closes it with the accepted positions added; KVWIN opens one. -/
def Obligations.WindowInstructionsComplete : Prop :=
  let ops := fun (w : Warp) (reads writes : List RName) => operandsOk (atIssue w 4) [lowLive w] (usesOf reads writes)
  (∀ d a s w, InTurn s w → Calm w → EngineOk w → ops w [.u a.val] [.u d.val] → slotServes s (atIssue w 4) a [(0, 12)] →
      let x := windowOf s ((getS (atIssue w 4) a.val).toNat % 4096)
      ∃ t, exec (.kvlen d a) s = .next t ∧ WritesU s w 4 (.s d) (BitVec.ofNat 64
        (x.len % 2 ^ 32 + x.last * 2 ^ 32 + (if x.isOpen then 1 else 0) * 2 ^ 48 + if x.isOpen then x.pos * 2 ^ 52 else 0)) t)
    ∧ (∀ a s w b, InTurn s w → Calm w → EngineOk w → ops w [.u a.val] [] → slotServes s (atIssue w 4) a [(0, 12), (16, 12)] →
      let x := (getS (atIssue w 4) a.val).toNat
      let m := modUnit (begun s 4) s.turn fun v => closeWin v (liveThreads v)
      isOpenAs s x = true → (w.copies.any (copyThrough (windowOf s (x % 4096)).kv.object)) = false →
      abortWindow m (reqOf (unitOf m s.turn)) (x % 4096) = (b, .ok ()) →
      completes (.kvabort a) s b ∧ (windowOf b (x % 4096)).isOpen = false
        ∧ (windowOf b (x % 4096)).len = (windowOf s (x % 4096)).len ∧ (windowOf b (x % 4096)).pages = []
        ∧ ∀ k, k ≠ x % 4096 → windowOf b k = windowOf s k)
    ∧ (∀ a s w b, InTurn s w → Calm w → EngineOk w → ops w [.u a.val] [] →
      slotServes s (atIssue w 4) a [(0, 12), (16, 12), (32, 5)] →
      let x := (getS (atIssue w 4) a.val).toNat
      let k := bitsOf x 32 5
      let m := modUnit (begun s 4) s.turn fun v => closeWin v (liveThreads v)
      isOpenAs s x = true → k ≤ (windowOf s (x % 4096)).pos + 1 →
      (∀ p ∈ s.units, p.2.asid = w.asid → (p.2.copies.any (partlyReads (windowOf s (x % 4096)))) = false) →
      (w.copies.any (copyThrough (windowOf s (x % 4096)).kv.object)) = false →
      commitWindow (unitOf m s.turn) (x % 4096) k m = (b, .ok ()) →
      completes (.kvcommit a) s b ∧ (windowOf b (x % 4096)).isOpen = false
        ∧ (windowOf b (x % 4096)).len = (windowOf s (x % 4096)).len + k)
    ∧ ∀ d a s w g b b', InTurn s w → Calm w → EngineOk w → ops w [.c d.val, .u a.val] [] →
      slotServes s (atIssue w 4) a [(0, 12), (16, 12), (32, 4), (40, 7), (48, 3)] →
      let v := atIssue w 4
      let x := (getS v a.val).toNat
      let c := getC v (lowLive w) d.val
      bitsOf x 48 3 ≠ 7 → localCheck (begun s 4) v c c.cursor 64 rR 0b0001 16 = none →
      readGranules v c 4 c.cursor (begun s 4) = (b, .ok g) → openWindow (cxOf s s.turn 4) x g b = .ok b' →
      completes (.kvwin d a) s b' ∧ (windowOf b' (x % 4096)).isOpen = true ∧ (windowOf b' (x % 4096)).last = bitsOf x 16 12
        ∧ (windowOf b' (x % 4096)).len = (windowOf s (x % 4096)).len ∧ (windowOf b' (x % 4096)).pos = bitsOf x 32 4

/-! ### Control flow -/

/-- R151, R164, R165: the branches. A taken thread goes to its target, another active one past the instruction, and no other
moves, where the branch ejects no thread. BRA takes the threads of a mask, BRV those whose A is not 0, BRU all or none. -/
def Obligations.BranchesMoveTheirThreads : Prop :=
  let moves := fun (i : Instr) (s : State) (w : Warp) (len : Nat) (taken : Nat → Prop) (tgt : Nat → Nat) =>
    ∃ t, exec i s = .next t ∧ deviceKept s t ∧ otherUnitsKept s t
      ∧ (∀ k, (k ∈ activeThreads w → taken k → getPc (unitOf t s.turn) k = tgt k)
        ∧ (k ∈ activeThreads w → ¬taken k → getPc (unitOf t s.turn) k = (pcNow w + len) % 2 ^ 57)
        ∧ (k ∉ activeThreads w → getPc (unitOf t s.turn) k = getPc w k))
      ∧ (unitOf t s.turn).marks = w.marks ∧ (unitOf t s.turn).ras = w.ras
  let stays := fun (s : State) (w : Warp) (len : Nat) (tgts : Nat → Nat) =>
    ejectSet (begun s len) s.turn (pcNow w) ((activeThreads w).map fun k => (k, tgts k)) = none
  (∀ (m : Fin 16) g s w, InTurn s w → Calm w → operandsOk (atIssue w (targetLen g)) (activeThreads w) (usesOf [mname m] []) →
      let bit := fun k => (getM (atIssue w (targetLen g)) m.val).getLsbD k
      stays s w (targetLen g) (fun k => if bit k then targetPc (pcNow w) g else pcNow w + targetLen g) →
      moves (.bra (some m) g) s w (targetLen g) (fun k => bit k = true) fun _ => targetPc (pcNow w) g)
    ∧ (∀ g s w, InTurn s w → Calm w →
      moves (.bra none g) s w (targetLen g) (fun _ => True) fun _ => targetPc (pcNow w) g)
    ∧ (∀ a g s w, InTurn s w → Calm w → operandsOk (atIssue w (targetLen g)) (activeThreads w) (usesOf [.x a] []) →
      let on := fun k => a = .z ∨ getX (atIssue w (targetLen g)) k a ≠ 0
      (a ≠ .z → stays s w (targetLen g) fun k =>
        if getX (atIssue w (targetLen g)) k a ≠ 0 then targetPc (pcNow w) g else pcNow w + targetLen g) →
      moves (.brv a g) s w (targetLen g) on fun _ => targetPc (pcNow w) g)
    ∧ (∀ a g s w, InTurn s w → Calm w → operandsOk (atIssue w (targetLen g)) (activeThreads w) (usesOf (uname a) []) →
      moves (.bru a g) s w (targetLen g) (fun _ => a = .z ∨ getU (atIssue w (targetLen g)) a ≠ 0) fun _ => targetPc (pcNow w) g)
    ∧ ∀ a lit s w, InTurn s w → Calm w → operandsOk (atIssue w (optLen lit)) (activeThreads w) (usesOf [.x a] []) →
      let v := atIssue w (optLen lit)
      let tgt := fun k => indirect (codeBase s v) (getX v k a) lit
      (∀ k ∈ activeThreads w, tgt k % 2 = 0) → stays s w (optLen lit) (fun k => (tgt k % 2 ^ 57).toNat) →
      moves (.bri a lit) s w (optLen lit) (fun _ => True) fun k => (tgt k % 2 ^ 57).toNat

/-- R74, R164 to R166: CALL and CALLI push the address after them on each taken thread's stack, where fewer than four entries
are on chip, and go to the target; RET pops and goes to the popped address. That RET refills at once, within its own step, a stack
that its pop empties while it has spilled entries is the model's reading, log entry 25: R286 lets RET complete without that wait. -/
def Obligations.CallsPushAndReturnsPop : Prop :=
  let room := fun (w : Warp) k => (getRas w k).chip.length < 4 ∧ ((getRas w k).chip = [] → (getRas w k).spilled = 0)
  let calls := fun (i : Instr) (s : State) (w : Warp) (len : Nat) (taken : Nat → Prop) (tgt : Nat → Nat) =>
    ∃ t, exec i s = .next t ∧ deviceKept s t ∧ otherUnitsKept s t
      ∧ ∀ k, (k ∈ activeThreads w → taken k → getPc (unitOf t s.turn) k = tgt k
          ∧ getRas (unitOf t s.turn) k = ⟨(getRas w k).chip ++ [BitVec.ofNat 64 (pcNow w + len)], (getRas w k).spilled⟩)
        ∧ (k ∈ activeThreads w → ¬taken k → getPc (unitOf t s.turn) k = (pcNow w + len) % 2 ^ 57
          ∧ getRas (unitOf t s.turn) k = getRas w k)
        ∧ (k ∉ activeThreads w → getPc (unitOf t s.turn) k = getPc w k ∧ getRas (unitOf t s.turn) k = getRas w k)
  let stays := fun (s : State) (w : Warp) (len : Nat) (tgts : Nat → Nat) =>
    ejectSet (begun s len) s.turn (pcNow w) ((activeThreads w).map fun k => (k, tgts k)) = none
  (∀ (m : Fin 16) g s w, InTurn s w → Calm w → operandsOk (atIssue w (targetLen g)) (activeThreads w) (usesOf [mname m] []) →
      let bit := fun k => (getM (atIssue w (targetLen g)) m.val).getLsbD k
      stays s w (targetLen g) (fun k => if bit k then targetPc (pcNow w) g else pcNow w + targetLen g) →
      (∀ k ∈ activeThreads w, bit k = true → room w k) →
      calls (.call (some m) g) s w (targetLen g) (fun k => bit k = true) fun _ => targetPc (pcNow w) g)
    ∧ (∀ g s w, InTurn s w → Calm w → (∀ k ∈ activeThreads w, room w k) →
      calls (.call none g) s w (targetLen g) (fun _ => True) fun _ => targetPc (pcNow w) g)
    ∧ (∀ a lit s w, InTurn s w → Calm w → operandsOk (atIssue w (optLen lit)) (activeThreads w) (usesOf [.x a] []) →
      let v := atIssue w (optLen lit)
      let tgt := fun k => indirect (codeBase s v) (getX v k a) lit
      (∀ k ∈ activeThreads w, tgt k % 2 = 0 ∧ room w k) → stays s w (optLen lit) (fun k => (tgt k % 2 ^ 57).toNat) →
      calls (.calli a lit) s w (optLen lit) (fun _ => True) fun k => (tgt k % 2 ^ 57).toNat)
    ∧ (∀ s w, InTurn s w → Calm w → (∀ k ∈ activeThreads w, (getRas w k).chip ≠ [] ∧ rasTop w k % 2 = 0) →
      let b := refillNow s.turn (activeThreads w) (modUnit (begun s 4) s.turn fun v => moveTo
        ((activeThreads w).foldl (fun v k => setRas v k (rasDrop (getRas v k))) v) ((activeThreads w).map fun k => (k, rasTop w k)))
      Settled (unitOf b s.turn) → completes .ret s b)
    ∧ ∀ s w, InTurn s w → Calm w → (∀ k ∈ activeThreads w, (getRas w k).chip ≠ [] ∧ rasTop w k % 2 = 0
        ∧ (1 < (getRas w k).chip.length ∨ (getRas w k).spilled = 0)) →
      ∃ t, exec .ret s = .next t ∧ deviceKept s t ∧ otherUnitsKept s t
        ∧ ∀ k, (k ∈ activeThreads w → getPc (unitOf t s.turn) k = rasTop w k % 2 ^ 57
            ∧ getRas (unitOf t s.turn) k = ⟨(getRas w k).chip.dropLast, (getRas w k).spilled⟩)
          ∧ (k ∉ activeThreads w → getPc (unitOf t s.turn) k = getPc w k ∧ getRas (unitOf t s.turn) k = getRas w k)

/-- R167: JOIN parks the active threads, and releases them all once every live thread of the mask has come, where no thread waits on
a lazily bound page (R303). R168, R170:
MDROP clears the active threads' bits of its mask; ELECT names the lowest active thread in an s register and in a mask. -/
def Obligations.JoinsDropsAndElectionsComplete : Prop :=
  (∀ (a : Fin 16) s w, InTurn s w → Calm w → w.off = none → operandsOk (atIssue w 4) (activeThreads w) (usesOf [mname a] []) →
     (∀ k ∈ liveThreads w, getMark w k ≠ .blocked true) →
     let here := fun k => k ∈ activeThreads w ∨ ((∃ m, getMark w k = .parked m) ∧ getPc w k = pcNow w % 2 ^ 57)
     let all := ∀ k ∈ liveThreads w, (getM w a.val).getLsbD k = true → here k
     ∃ t, exec (.join a) s = .next t ∧ deviceKept s t ∧ otherUnitsKept s t
       ∧ (all → ∀ k ∈ liveThreads w, here k → getMark (unitOf t s.turn) k = .ready
         ∧ getPc (unitOf t s.turn) k = (pcNow w + 4) % 2 ^ 57)
       ∧ (¬all → ∀ k ∈ activeThreads w, getMark (unitOf t s.turn) k = .parked a.val ∧ getPc (unitOf t s.turn) k = pcNow w % 2 ^ 57)
       ∧ ∀ k ∈ liveThreads w, ¬here k → getMark (unitOf t s.turn) k = getMark w k ∧ getPc (unitOf t s.turn) k = getPc w k)
  ∧ (let drop := fun i (m : Fin 16) => ∀ s w, InTurn s w → Calm w → w.off = none →
       ∃ t val, exec i s = .next t ∧ WritesM s w 4 m val t
         ∧ ∀ k < 128, val.getLsbD k = ((getM (atIssue w 4) m).getLsbD k && decide (k ∉ activeThreads w))
     (drop .mdrop0 0 ∧ drop .mdrop1 1 ∧ drop .mdrop2 2 ∧ drop .mdrop3 3 ∧ drop .mdrop4 4 ∧ drop .mdrop5 5 ∧ drop .mdrop6 6
       ∧ drop .mdrop7 7 ∧ drop .mdrop8 8 ∧ drop .mdrop9 9 ∧ drop .mdrop10 10 ∧ drop .mdrop11 11 ∧ drop .mdrop12 12
       ∧ drop .mdrop13 13 ∧ drop .mdrop14 14 ∧ drop .mdrop15 15)
       ∧ (∀ d s w, InTurn s w → Calm w → Simt w →
         ∃ t, exec (.elect d none) s = .next t ∧ WritesU s w 4 (.s d) (BitVec.ofNat 64 (lowest (activeThreads w))) t)
       ∧ ∀ d (m : Fin 16) s w, InTurn s w → Calm w → Simt w →
         ∃ t, exec (.elect d (some m)) s = .next t ∧ deviceKept s t ∧ otherUnitsKept s t
           ∧ getS (unitOf t s.turn) d.val = BitVec.ofNat 64 (lowest (activeThreads w))
           ∧ (∀ k < 128, (getM (unitOf t s.turn) m.val).getLsbD k = decide (k = lowest (activeThreads w)))
           ∧ (∀ n : Fin 64, n ≠ d → getS (unitOf t s.turn) n = getS (atIssue w 4) n)
           ∧ (∀ n : Fin 16, n ≠ m → getM (unitOf t s.turn) n = getM (atIssue w 4) n)
           ∧ ∀ i r, getX (unitOf t s.turn) i r = getX (atIssue w 4) i r)

/-- R169, R268: EXIT of a warp all of whose live threads are active, with no copy in flight, ends it: it is no unit and no
member of its group, and the group is Done with its last member. -/
def Obligations.ExitEndsTheWarp : Prop :=
  ∀ s w, InTurn s w → Calm w → Simt w → AllActive w → w.copies = [] →
    ∃ t, exec .exit s = .next t ∧ memoryKept s t ∧ sfind t.units s.turn = none
      ∧ (∀ u, u ≠ s.turn → lessTime (unitOf t u) = lessTime (unitOf s u))
      ∧ ∀ g, sfind s.groups w.grp = some g →
        ∃ g', sfind t.groups w.grp = some g' ∧ g'.members = g.members.filter (· != s.turn)
          ∧ (g'.members = [] → g'.stat = .done)

/-! ### Barriers -/

/-- R177 to R179, R326, R327: the last arrival at a barrier completes its generation and goes on; BARARR arrives and reads the
generation, BARWAIT goes on once it is over, and BARQRY reads generation and count. -/
def Obligations.BarriersComplete : Prop :=
  let here := fun (s : State) (w : Warp) (lv : Nat) (b : Bar) =>
    (groupOf s w.grp).bars.find? (fun x => x.is lv (barInst (launchOfUnit s w).level lv w.loc)) = some b
  let last := fun i lv => ∀ s w b, InTurn s w → Calm w → EngineOk w → here s w lv b → s.turn ∉ b.arrived → b.count + 1 = b.n →
    ∃ t, exec i s = .next t ∧ memoryKept s t ∧ otherUnitsKept s t
      ∧ here t w lv { b with gen := (b.gen + 1) % 2 ^ 32, count := 0, arrived := [] }
      ∧ (∀ k, getPc (unitOf t s.turn) k = getPc (atIssue w 4) k) ∧ (unitOf t s.turn).marks = w.marks
  (last .barFile 0 ∧ last .barCore 1 ∧ last .barSlice 2 ∧ last .barCluster 3)
    ∧ (∀ d lv s w b, InTurn s w → Calm w → EngineOk w → here s w (barCode lv) b → s.turn ∉ b.arrived →
      ∃ t, exec (.bararr d lv) s = .next t ∧ memoryKept s t ∧ otherUnitsKept s t
        ∧ getS (unitOf t s.turn) d.val = BitVec.ofNat 64 b.gen ∧ here t w (barCode lv) (b.arrive s.turn))
    ∧ (∀ lv a s w, InTurn s w → Calm w → EngineOk w → operandsOk (atIssue w 4) (activeThreads w) (usesOf [.u a.val] []) →
      (barOf s w (barCode lv)).gen ≠ (getS (atIssue w 4) a.val).toNat % 2 ^ 32 →
      changesUnit (.barwait lv a) s 4 fun v => closeWin v (liveThreads v))
    ∧ ∀ d lv s w, InTurn s w → Calm w → EngineOk w →
      ∃ t, exec (.barqry d lv) s = .next t ∧ deviceKept s t ∧ otherUnitsKept s t
        ∧ getS (unitOf t s.turn) d.val
          = BitVec.ofNat 64 ((barOf s w (barCode lv)).gen * 2 ^ 32 + (barOf s w (barCode lv)).count)

/-! ### Waiting, control registers and timers -/

/-- R156: NOP changes nothing, YIELD puts the unit behind the ready units beside it, WAITLA completes the active threads'
pending results, and SLEEP blocks the active threads until a moment of TIME, where no thread waits on a lazily bound page (R303). -/
def Obligations.WaitsComplete : Prop :=
  (∀ s w, InTurn s w → Calm w → completes .nop s (begun s 4))
    ∧ (∀ s w, InTurn s w → Calm w → ∃ t, exec .yield s = .next t ∧ EndsAs s.turn (begun s 4) t
      ∧ ∀ u, u ∈ (unitOf t s.turn).yield ↔ u ∈ rivals (begun s 4) s.turn (atIssue w 4) ∧ u ≠ s.turn)
    ∧ (∀ s w, InTurn s w → Calm w → changesUnit .waitla s 4 (fun v => closeWin v (activeThreads w))
      ∧ ∀ t, exec .waitla s = .next t → ∀ p ∈ (unitOf t s.turn).pends, p.thread ∈ activeThreads w → p.faulted = true)
    ∧ ∀ n s w, InTurn s w → Calm w → Simt w → operandsOk (atIssue w (ssrcLen n)) (activeThreads w) (usesOf (ssrcName n) []) →
      let x := (getSSrc (atIssue w (ssrcLen n)) n).toNat % 2 ^ 32
      (x = 0 → completes (.sleep n) s (begun s (ssrcLen n)))
        ∧ (x ≠ 0 → (∀ k ∈ liveThreads w, getMark w k ≠ .blocked true) →
          changesUnit (.sleep n) s (ssrcLen n) (sleepUntil (cxOf s s.turn (ssrcLen n)) (s.time + x)))

/-- R63, R77, R171, R174, R175: RDCTL reads a control register, RDCYC, RDCYC.time and RDWT a counter into a pair, RGNENT the
region of the instruction after it. -/
def Obligations.CountersAndControlRegistersRead : Prop :=
  let pair := fun (mk : PReg → Instr) (val : State → Warp → Nat) =>
    ∀ d s w, InTurn s w → Calm w → evenPair d → operandsOk (atIssue w 4) (activeThreads w) (usesOf [] [.x d, .x (pnext d 1)]) →
      ∃ t, exec (mk d) s = .next t ∧ WritesPair s w 4 d (fun _ => val s w % 2 ^ 64) t
  (∀ d (c : BitVec 12) s w, InTurn s w → Calm w → w.off = none → operandsOk (atIssue w 4) (activeThreads w) (usesOf [] [.x d]) →
      counterHalf c.toNat = none → (c = 0x40 → ∀ k ∈ activeThreads w, (getRas w k).chip ≠ [] ∨ (getRas w k).spilled = 0) →
      ∃ t, exec (.rdctl d c) s = .next t ∧ WritesX s w 4 d
        (fun k => BitVec.ofNat 32 (ctlValue s w (setPcs (atIssue w 4) (activeThreads w) (pcNow w)) k c.toNat)) t)
    ∧ (∀ (n : Fin 96) (c : BitVec 12) k s w, InTurn s w → Calm w → w.off = none →
      operandsOk (atIssue w 4) (activeThreads w) (usesOf [] [.x (.v n)]) → counterHalf c.toNat = some (k, false) →
      ∃ t, exec (.rdctl (.v n) c) s = .next t ∧ deviceKept s t
        ∧ ∀ i ∈ activeThreads w, getX (unitOf t s.turn) i (.v n) = BitVec.ofNat 32 (counterOf s w k)
          ∧ sget none (unitOf t s.turn).latch (k * 128 + i) = some (BitVec.ofNat 32 (counterOf s w k / 2 ^ 32)))
    ∧ (∀ d (c : BitVec 12) k s w, InTurn s w → Calm w → w.off = none → operandsOk (atIssue w 4) (activeThreads w) (usesOf [] [.x d]) →
      counterHalf c.toNat = some (k, true) →
      ∃ t, exec (.rdctl d c) s = .next t ∧ WritesX s w 4 d
        (fun i => (sget none w.latch (k * 128 + i)).getD (BitVec.ofNat 32 (counterOf s w k / 2 ^ 32))) t)
    ∧ pair .rdcyc (fun s w => sget 0 s.cyc (dieOf w.loc)) ∧ pair .rdcycTime (fun s _ => s.time)
    ∧ pair .rdwt (fun s w => (ownerOf s w).wtime)
    ∧ ∀ d s w, InTurn s w → Calm w → EngineOk w → operandsOk (atIssue w 4) (activeThreads w) (usesOf [] [.x d]) →
      changesUnit (.rgnent d) s 4 fun v => (activeThreads w).foldl
        (fun v k => setX v k d (BitVec.ofNat 32 (regionId s w (pcNow w + 4))) 0) (closeWin v (liveThreads v))

/-- R35, R60 to R63, R78, R173, R174, R176: WRCTL writes RMODE, a shape, or the timer in two halves; WTARM arms the timer a
number of clk ahead or disarms it; TMASK writes TM inside the handler. -/
def Obligations.ControlRegistersWrite : Prop :=
  (∀ (c : BitVec 12) a s w, InTurn s w → Calm w → w.off = none →
      operandsOk (atIssue w (srcLen a)) [lowest (activeThreads w)] (usesOf (srcName a) []) →
      let x := getSrc (atIssue w (srcLen a)) (lowest (activeThreads w)) a
      ctlBad c.toNat x.toNat = none →
      changesUnit (.wrctl c a) s (srcLen a) (fun v => writeCtl v c.toNat x.toNat))
    ∧ (∀ w v, v < 2 ^ 32 →
      (writeCtl w 0x020 v).rmode = v ∧ (∀ n < 8, getTshp (writeCtl w (0x030 + n) v) n = v)
        ∧ (∀ n < 4, getAshp (writeCtl w (0x038 + n) v) n = v) ∧ (writeCtl w 0x052 v).wtcmp = w.wtcmp
        ∧ ∀ u, u < 2 ^ 32 → (writeCtl (writeCtl w 0x052 u) 0x053 v).wtcmp = v * 2 ^ 32 + u)
    ∧ (∀ a s w, InTurn s w → Calm w → Simt w →
      operandsOk (atIssue w (srcLen a)) [lowest (activeThreads w)] (usesOf (srcName a) []) →
      let x := getSrc (atIssue w (srcLen a)) (lowest (activeThreads w)) a
      changesUnit (.wtarm a) s (srcLen a) (fun v => { v with wtcmp := if x = 0 then 0 else (v.wtime + x.toNat) % 2 ^ 64 }))
    ∧ (∀ s w, InTurn s w → Calm w → Simt w → w.inh = true → changesUnit .tmaskOff s 4 fun v => { v with tm := false })
    ∧ ∀ s w, InTurn s w → Calm w → Simt w → w.inh = true → changesUnit .tmaskOn s 4 fun v => { v with tm := true }


/-! ### Exceptions, routines and monuments -/

/-- R157, R158, R160, R161: TRAP enters the warp's handler with cause SOFT and its literal as INFO; with no handler, or inside
it, the work group ends. TRET gives back what the entry saved and goes to s61; with its skip bit, past the instruction there. -/
def Obligations.TrapsEnterTheHandlerAndReturn : Prop :=
  let mine := fun (w : Warp) => ∀ k ∈ threadsOf w.handler, isLive w k = true → k ∈ activeThreads w
  (∀ lit s w, trapsTo (.trap lit) s w 0x0E (activeThreads w) (lit.getD 0).toNat)
    ∧ (∀ lit s w, InTurn s w → Calm w → Simt w → (w.inh = true ∨ (launchOfUnit s w).handler = none) →
      (groupOf s w.grp).stat = .running →
      ∃ t, exec (.trap lit) s = .next t ∧ (groupOf t w.grp).stat = .ended ∧ (groupOf t w.grp).members = []
        ∧ (groupOf t w.grp).status = (if w.inh then 3 else 2) ∧ (groupOf t w.grp).cause = 0x0E
        ∧ (groupOf t w.grp).pc = pcNow w - codeBase s w ∧ ∀ p ∈ t.units, p.2.grp = w.grp → p.2.stat = .ended ∧ p.2.copies ≠ [])
    ∧ (∀ s w, InTurn s w → Calm w → Simt w → w.inh = true → mine w → (getS w 61).toNat % 2 = 0 →
      ∃ t, exec .tret s = .next t ∧ memoryKept s t ∧ otherUnitsKept s t
        ∧ (unitOf t s.turn).tm = false ∧ (unitOf t s.turn).inh = false ∧ getS (unitOf t s.turn) 61 = w.shadow61
        ∧ getS (unitOf t s.turn) 62 = w.shadow62 ∧ getM (unitOf t s.turn) 15 = w.shadow15
        ∧ (∀ n : Fin 64, n.val ≠ 61 → n.val ≠ 62 → getS (unitOf t s.turn) n = getS w n)
        ∧ (∀ k, getPc (unitOf t s.turn) k = if k ∈ activeThreads w then (getS w 61).toNat % 2 ^ 57 else getPc w k)
        ∧ (unitOf t s.turn).marks = w.marks ∧ (unitOf t s.turn).ras = w.ras)
    ∧ ∀ s w m n, InTurn s w → Calm w → Simt w → w.inh = true → mine w → (getS w 61).toNat % 2 = 0 →
      let b := modUnit (begun s 4) s.turn fun v => closeWin v (activeThreads w)
      lenAt b (unitOf b s.turn) ((getS w 61).toNat % 2 ^ 57) = (m, .ok n) →
      completes .tretSkip s (modUnit m s.turn fun v => setPcs
        { setM (setS (setS v 61 v.shadow61) 62 v.shadow62) 15 v.shadow15 with tm := false, inh := false, handler := 0 }
        (activeThreads w) ((getS w 61).toNat % 2 ^ 57 + n))

/-- R95, R154, R157, R158, R165, R169, R174, R181, R185: trap conditions, each with its cause, the threads for which it held and
INFO: RESERVED_FIELD, ELASTIC_WRITE, QUEUE_UNBOUND, POISON_READ, CAP_TAG, the causes of an access, MASK_PARTIAL, EXIT_DIVERGED,
ROUTINE, FORMAT, TILE_SHAPE and MISALIGN. That a class 1 thread which runs what an offset core may not ends its group, with status 2
and cause 0x10, is the model's reading, log entries 18 and 54: R320 gives the trap alone. -/
def Obligations.TrapConditionsAreTaken : Prop :=
  let fine := fun (w : Warp) (reads writes : List RName) => nameCheck w (usesOf reads writes) = none
    ∧ ((reads ++ writes).any (·.isQ)) = false ∧ (writes.any (·.elasticIn w)) = false
  let split := fun (w : Warp) => ∃ k ∈ liveThreads w, k ∉ activeThreads w
  (∀ d a b s w, (RName.x d).beyond w = true → trapsTo (.iadd d a b) s w 0x02 (activeThreads w) 0)
    ∧ (∀ (n : Fin 96) a b s w, nameCheck w (usesOf (.x a :: srcName b) [.x (.v n)]) = none → isElastic w n.val = true →
      ((RName.x a :: srcName b).any (·.isQ)) = false → trapsTo (.iadd (.v n) a b) s w 0x09 (activeThreads w) 0)
    ∧ (∀ d (p : Fin 8) s w, nameCheck w (usesOf [.x (.q p)] [.x d]) = none → (RName.x d).isQ = false →
      (RName.x d).elasticIn w = false → (getPort w p.val).mode = 0 →
      trapsTo (.mov d (.reg (.q p))) s w 0x0F (activeThreads w) 0)
    ∧ (∀ d a s w, fine w [.x a] [.x d] → (∃ k ∈ activeThreads w, poisonX (atIssue w 4) k a ≠ 0) →
      trapsTo (.popc d a) s w 0x0A ((activeThreads w).filter fun k => poisonX (atIssue w 4) k a != 0) (pnum a))
    ∧ (∀ (d a : Fin 16) b s w, d.val < 7 → operandsOk (atIssue w (srcLen b)) (activeThreads w) (usesOf (.c a.val :: srcName b) [.c d.val]) →
      (∃ k ∈ activeThreads w, (getC w k a.val).tag = false) →
      trapsTo (.capadd d a b) s w 0x03 ((activeThreads w).filter fun k => !(getC w k a.val).tag) 0)
    ∧ (∀ la sz c a d disp s w cause bad,
      operandsOk (atIssueMem w (optLen disp)) (activeThreads w) (usesOf [.c c.val, .x a] ((loadRegs d (sizeBytes sz)).map .x)) →
      let chk := fun k => localCheck s (atIssueMem w (optLen disp)) (getC w k c.val) (eaOf (atIssueMem w (optLen disp)) c a (dispOf disp) k)
        (sizeBytes sz) needLoad.rights needLoad.kinds needLoad.align
      bad = ((activeThreads w).filter fun k => chk k == some cause) → bad ≠ [] →
      (∀ k ∈ activeThreads w, ∀ x, chk k = some x → cause ≤ x) →
      trapsTo (.ld la sz c a d disp) s w cause bad 0)
    ∧ (∀ s w, split w → trapsTo .barFile s w 0x07 (activeThreads w) 0 ∧ trapsTo .barCluster s w 0x07 (activeThreads w) 0
      ∧ trapsTo .exit s w 0x0C (activeThreads w) 0
      ∧ (∀ la td, tileBad w td.val = false → trapsTo (.tzeroTile la td) s w 0x07 (activeThreads w) 0)
      ∧ (∀ d a, trapsTo (.kvlen d a) s w 0x07 (activeThreads w) 0)
      ∧ ∀ d, trapsTo (.bseal d) s w 0x07 (activeThreads w) 0)
    ∧ (∀ s w, trapsTo .tmaskOff s w 0x13 (activeThreads w) 0 ∧ trapsTo .tmaskOn s w 0x13 (activeThreads w) 0
      ∧ trapsTo .tret s w 0x13 (activeThreads w) 0 ∧ trapsTo .tretSkip s w 0x13 (activeThreads w) 0
      ∧ trapsTo .xdone s w 0x13 (activeThreads w) 0 ∧ trapsTo .edone s w 0x13 (activeThreads w) 0)
    ∧ (∀ v s w, 16 ≤ v.toNat → trapsTo (.wrctl 0x020 (.lit v)) s w 0x02 (activeThreads w) 0)
    ∧ (∀ v s w, v.toNat < 16 → 6 ≤ v.toNat % 8 → trapsTo (.wrctl 0x020 (.lit v)) s w 0x15 (activeThreads w) 0)
    ∧ (∀ v s w, 2 ^ 12 ≤ v.toNat → trapsTo (.wrctl 0x038 (.lit v)) s w 0x08 (activeThreads w) 0)
    ∧ (∀ a s w, operandsOk (atIssue w 4) (activeThreads w) (usesOf [.x a] []) →
      let odd := (activeThreads w).filter fun k => decide (indirect (codeBase s w) (getX (atIssue w 4) k a) none % 2 = 1)
      odd ≠ [] → trapsTo (.bri a none) s w 0x06 odd 0 ∧ trapsTo (.calli a none) s w 0x06 odd 0)
    ∧ ∀ i s w o, i ∈ [Instr.barFile, .tret, .tmaskOn, .xdone, .edone, .bseal 0, .ubitsMov (.s 0) (.lit 0), .rpin (some 0)] →
      InTurn s w → Calm w → 0 < w.base → w.off = some o → o.parent = none → (groupOf s w.grp).stat = .running →
      ∃ t, exec i s = .next t ∧ (groupOf t w.grp).stat = .ended ∧ (groupOf t w.grp).status = 2
        ∧ (groupOf t w.grp).cause = 0x10

/-- R162, R163, R172, R252, R255: XDONE of an exit routine ends the save and takes the warp off its slot; EDONE of an entry
routine goes on with the resume, where the warp takes the PC table of its header; MONUMENT changes nothing where no stop is
pending, else the warp stops there; a MONUMENT that the kernel's table does not list changes nothing (log 98, the model's choice). -/
def Obligations.RoutinesEndAndMonumentsStop : Prop :=
  (∀ s w r, InTurn s w → Calm w → w.off = none → w.routine = some r → r.exit = true →
      (∀ k ∈ threadsOf r.threads, k ∈ activeThreads w) →
      ∃ b, completes .xdone s b ∧ (unitOf b s.turn).regs = Regs.zero ∧ (unitOf b s.turn).routine = none
        ∧ (unitOf b s.turn).reason = r.reason
        ∧ ((unitOf b s.turn).stat = .outCtx ∨ (unitOf b s.turn).stat = .outAlone))
    ∧ (∀ s w r lo, InTurn s w → Calm w → w.off = none → w.routine = some r → r.exit = false →
      (∀ k ∈ threadsOf r.threads, k ∈ activeThreads w) →
      lo = (match (regionsOf s (atIssue w 4)).find? fun q => q.id == r.region with
        | some q => liveOut q
        | none => []) →
      let m := modUnit (begun s 4) s.turn (endEntry lo r)
      (unitOf m s.turn).pcs = r.pcs ∧ (unitOf m s.turn).marks = r.marks ∧ (unitOf m s.turn).waits = r.waits
        ∧ (unitOf m s.turn).routine = none
        ∧ (∀ k ∈ threadsOf r.threads, (getC (unitOf m s.turn) k 7).tag = false)
        ∧ (Settled (unitOf (finishResume m s.turn) s.turn) → completes .edone s (finishResume m s.turn)))
    ∧ (∀ n s w, InTurn s w → Calm w →
      (monumentStops s w (activeThreads w) = false ∨ (monumentsOf s (atIssue w 4))[n.toNat]? = none) →
      completes (.monument n) s (begun s 4))
    ∧ ∀ n s w x, InTurn s w → Calm w → monumentStops s w (activeThreads w) = true → w.copies = [] →
      (monumentsOf s (atIssue w 4))[n.toNat]? = some x →
      completes (.monument n) s
        (stopAtMonument (modUnit (begun s 4) s.turn fun v => closeWin v (liveThreads v)) s.turn n.toNat x)

/-! ### What comes to a waiting unit, and the copy engine -/

/-- R75, R78, R96, R156, R189, R216, R232, R233, R286, R332, R335: arriving data is marked, and written where its window is
over; a tile operation or a batch completes; a return address comes back; a wait that is over lets its threads go on; a sleep
ends at its deadline; the warp timer traps; a row of a copy is moved; a follow-on command ends its copy. -/
def Obligations.WaitingUnitsGoOn : Prop :=
  let at_ := fun (s : State) (w : Warp) => sfind s.units s.ev.unit = some w
  (∀ s w, at_ s w → w.stat = .resident → w.vec = none →
      ∃ t, exec .loadDataArrival s = .next t ∧ onlyUnit s t s.ev.unit
        ∧ (∀ p ∈ (unitOf t s.ev.unit).pends, p.id = s.ev.id → p.faulted = true ∨ (p.arrived = true ∧ p.left ≠ 0))
        ∧ ((∀ p ∈ w.pends, p.id = s.ev.id → p.left ≠ 0) → (unitOf t s.ev.unit).regs = w.regs))
    ∧ (∀ s w, at_ s w →
      ∃ t, exec .tileOpComplete s = .next t ∧ onlyUnit s t s.ev.unit ∧ (∀ o ∈ (unitOf t s.ev.unit).tops, o.id ≠ s.ev.id)
        ∧ (unitOf t s.ev.unit).regs.x = w.regs.x ∧ (unitOf t s.ev.unit).regs.s = w.regs.s
        ∧ (unitOf t s.ev.unit).pcs = w.pcs)
    ∧ (∀ s w m bs q, at_ s w → w.stat = .resident → isLive w s.ev.row = true → (getRas w s.ev.row).chip = [] →
      0 < (getRas w s.ev.row).spilled →
      let c := getC w s.ev.row 6
      let a := spillAddr c (getRas w s.ev.row).spilled
      localCheck s w c a 8 rR 0b1111 1 = none → capRead s w c a.toNat 8 = (m, .ok (bs, q)) →
      ∃ t, exec .rasRefillDone s = .next t ∧ memoryKept s t
        ∧ getRas (unitOf t s.ev.unit) s.ev.row = ⟨[BitVec.ofNat 64 (ofBytes bs)], (getRas w s.ev.row).spilled - 1⟩)
    ∧ (∀ s w x, at_ s w → mayWake w = true → ctxRuns s w.asid = true → wokenWait s s.ev.unit = some x →
      let pc := (if x.kind = 7 ∨ x.kind = 9 then x.pc else x.pc + x.len) % 2 ^ 57
      (¬(x.kind = 1 ∧ x.flags = 1) → x.kind ≠ 3 → x.kind ≠ 4 →
        ∃ t, exec .wakeConditionMet s = .next t ∧ onlyUnit s t s.ev.unit
          ∧ (unitOf t s.ev.unit).waits = w.waits.filter (· != x) ∧ (unitOf t s.ev.unit).regs = w.regs
          ∧ ∀ k, (getMark (unitOf t s.ev.unit) k = if k ∈ threadsOf x.threads ∧ isLive w k = true then .ready else getMark w k)
            ∧ getPc (unitOf t s.ev.unit) k = if k ∈ threadsOf x.threads ∧ isLive w k = true then pc else getPc w k)
      ∧ (x.kind = 3 ∨ x.kind = 4 →
        ∃ t, exec .wakeConditionMet s = .next t ∧ onlyUnit s t s.ev.unit ∧ (unitOf t s.ev.unit).pcs = w.pcs
          ∧ ∀ k, getMark (unitOf t s.ev.unit) k = if k ∈ threadsOf x.mask ∧ isLive w k = true then .ready else getMark w k))
    ∧ (∀ s w x, at_ s w → mayWake w = true → (w.waits.find? fun x => x.kind == 10) = some x →
      ∃ t, exec .sleepDeadline s = .next t ∧ s.time ≤ t.time ∧ x.value ≤ t.time
        ∧ onlyUnit (reachTime s x.value) t s.ev.unit
        ∧ (unitOf t s.ev.unit).waits = w.waits.filter (· != x) ∧ (unitOf t s.ev.unit).regs = w.regs
        ∧ ∀ k, (getMark (unitOf t s.ev.unit) k = if k ∈ threadsOf x.threads ∧ isLive w k = true then .ready else getMark w k)
          ∧ getPc (unitOf t s.ev.unit) k
            = if k ∈ threadsOf x.threads ∧ isLive w k = true then (x.pc + x.len) % 2 ^ 57 else getPc w k)
    ∧ (∀ s w h, at_ s w → timerDue s w = true → w.routine = none → w.inh = false → (launchOfUnit s w).handler = some h →
      dependents w shadowNums = [] →
      ∃ t, exec .warpTimer s = .next t ∧ onlyUnit s t s.ev.unit ∧ (unitOf t s.ev.unit).wtcmp = 0
        ∧ Entered w (unitOf t s.ev.unit) (pcNow w) (activeThreads w) (activeThreads w) 0x0D (codeBase s w + h))
    ∧ (∀ s w c m l s1 s2 p q, at_ s w → (w.copies.find? fun c => c.id == s.ev.id) = some c → copyReady s w c s.ev.row = true →
      m = modUnit (advanced s w.asid) s.ev.unit (fun v => copyBegin v c) → p = partOf c s.ev.row →
      copyRow (unitOf m s.ev.unit) c s.ev.row p.src m = (s1, l, none) →
      copyPut s.ev.unit c { p with src := l } (copyConvert c l) s1 = (s2, q, none) →
      ∃ t, exec .copyTransfer s = .next t
        ∧ t = reap s.ev.unit (copyDone s.ev.unit c q (q.lost || (copyConvert c l).any (·.2)) s2)
        ∧ ∀ x ∈ (unitOf t s.ev.unit).copies, x.id = c.id → s.ev.row ∉ x.rows)
    ∧ (∀ s w c, at_ s w → (w.copies.find? fun c => c.id == s.ev.id) = some c → followReady s w c = true →
      ∃ t, exec .followOnCommand s = .next t ∧ onlyUnit (advanced s w.asid) t s.ev.unit
        ∧ (∀ x ∈ (unitOf t s.ev.unit).copies, x.id ≠ c.id)
        ∧ (w.stat ≠ .ended → (unitOf t s.ev.unit).regs.x = w.regs.x))
    ∧ ∀ s w, at_ s w →
      ∃ t, exec .batchComplete s = .next t ∧ onlyUnit s t s.ev.unit ∧ (unitOf t s.ev.unit).regs = w.regs
        ∧ (∀ b ∈ (unitOf t s.ev.unit).batches, b.num = s.ev.value → b.copies = [] → b.complete = true)
        ∧ (unitOf t s.ev.unit).batches.map (fun b => (b.num, b.copies)) = w.batches.map (fun b => (b.num, b.copies))

/-! ### Contexts -/

/-- R246, R247, R251, R252, R254, R255, R261 to R263, R279: a context fault, reset alone, pre-emption, the bounds of vectoring,
routines, held requests and rejoins, the end of a switch, a resume, a time slice and the watchdog. That a fault of a context which is
already faulted changes nothing is the model's reading, log entry 20; so are the time that a watchdog item names and what it counts,
with the contexts that their governors hold (s.governed), log entry 86; and the counts of the exit budget, the TMASK bound and the
rejoin limit, log entry 55. -/
def Obligations.ContextsChangeState : Prop :=
  let live := fun (x : CState) => x = .created ∨ x = .ready ∨ x = .resident ∨ x = .switchingOut ∨ x = .switchedOut
  (∀ s, 1 ≤ s.ev.value → s.ev.value ≤ 5 →
      (live (ctxOf s s.ev.asid).state →
        ∃ t e, exec .contextFault s = .next t ∧ (ctxOf t s.ev.asid).state = .faulted ∧ (ctxOf t s.ev.asid).fcause = s.ev.value
          ∧ t.arbiter = s.arbiter ++ [e] ∧ e.typ = 4 ∧ e.asid = s.ev.asid ∧ e.a = s.ev.value
          ∧ e.vd = (ctxOf s s.ev.asid).vd ∧ t.units = s.units)
        ∧ (¬live (ctxOf s s.ev.asid).state →
          ∃ t, exec .contextFault s = .next t ∧ (ctxOf t s.ev.asid).state = (ctxOf s s.ev.asid).state
            ∧ t.arbiter = s.arbiter ∧ t.units = s.units ∧ memoryKept s t))
    ∧ (∀ s, (ctxOf s s.ev.asid).state = .resetting →
      ∃ t, exec .resetAlone s = .next t ∧ (∀ p ∈ t.units, p.2.asid ≠ s.ev.asid)
        ∧ (∀ p ∈ t.groups, p.2.asid = s.ev.asid → p.2.stat ≠ .running ∧ p.2.stat ≠ .out)
        ∧ (∀ p ∈ t.gangParts, p.2.asid ≠ s.ev.asid) ∧ ∀ k ∈ t.tokens, k.asid ≠ s.ev.asid)
    ∧ (∀ s, (ctxOf s s.ev.asid).state = .resetting →
      ∃ t, exec .resetComplete s = .next t ∧ (∀ p ∈ t.units, p.2.asid ≠ s.ev.asid)
        ∧ ((ctxOf s s.ev.asid).dying = false → (ctxOf t s.ev.asid).state = .ready)
        ∧ ((ctxOf s s.ev.asid).dying = true → (ctxOf t s.ev.asid).state = .destroyed ∧ ∀ p ∈ t.chains, p.2.asid ≠ s.ev.asid))
    ∧ (∀ s, s.ev.value = 1 ∨ s.ev.value = 5 →
      ((ctxOf s s.ev.asid).state = .resident →
        ∃ m, exec .preemptionRequest s = .next ((ctxUnits m s.ev.asid).foldl (preemptUnit s.ev.value) m)
          ∧ (ctxOf m s.ev.asid).state = .switchingOut ∧ (ctxOf m s.ev.asid).reason = s.ev.value ∧ m.units = s.units)
        ∧ ((ctxOf s s.ev.asid).state ≠ .resident → exec .preemptionRequest s = .next s))
    ∧ (∀ s w v, sfind s.units s.ev.unit = some w → w.vec = some v → v.expired = false →
      exec .vectorWaitExpiry s
        = .next (tryVector (modUnit s s.ev.unit fun w => { w with vec := some ⟨v.reason, true⟩ }) s.ev.unit))
    ∧ (∀ s w r, sfind s.units s.ev.unit = some w → w.routine = some r → r.exit = true →
      (ctxOf s w.asid).exitBudget ≤ r.count + s.ev.value →
      ∃ t, exec .exitBudgetOverrun s = .next t ∧ (unitOf t s.ev.unit).routine = none ∧ (unitOf t s.ev.unit).regs = Regs.zero
        ∧ (unitOf t s.ev.unit).stat ≠ .resident ∧ (unitOf t s.ev.unit).reason = r.reason
        ∧ ∀ u, u ≠ s.ev.unit → unitOf t u = unitOf s u)
    ∧ (∀ s w r, sfind s.units s.ev.unit = some w → w.heldPre = some r → w.tm = true → w.routine = none → w.stat = .resident →
      w.resumeGuard = false → w.vec = none → (ctxOf s w.asid).tmaskBound ≤ w.tmaskClk + s.ev.value →
      exec .tmaskBoundExpiry s = .next (startVector (modUnit s s.ev.unit fun w => { w with heldPre := none }) s.ev.unit r))
    ∧ (∀ s w, sfind s.units s.ev.unit = some w → waitsRejoin w = true →
      (ctxOf s w.asid).rejoinLimit ≤ w.rejoinWait + s.ev.value →
      exec .rejoinTimeout s = .next (vectorUnit s s.ev.unit 4))
    ∧ (∀ s m, (ctxOf s s.ev.asid).state = .switchingOut → allOut s s.ev.asid = true →
      m = (ctxUnits s s.ev.asid).foldl (fun s p => stopEjected s p.1) s →
      let n := (runningGroups m s.ev.asid).foldl groupOut m
      ((ctxOf n s.ev.asid).state = .switchingOut →
        ∃ t e, exec .switchedOut s = .next t ∧ (ctxOf t s.ev.asid).state = .switchedOut ∧ t.arbiter = n.arbiter ++ [e]
          ∧ e.typ = 2 ∧ e.asid = s.ev.asid ∧ t.units = n.units)
        ∧ ((ctxOf n s.ev.asid).state ≠ .switchingOut → exec .switchedOut s = .next n))
    ∧ (∀ s w, sfind s.units s.ev.unit = some w →
      (w.stat = .outAlone → w.off = none → (ctxOf s w.asid).state = .resident →
        exec .resumeWarp s = .next (resumeAlone s s.ev.unit)
          ∧ ∀ b c, warpReady s s.ev.unit = true → takeSlot s.ev.unit [w.loc] s = some b → keepContexts s.ev.unit b = some c →
            exec .resumeWarp s = .next (startResume c s.ev.unit) ∧ (unitOf c s.ev.unit).stat = .resident)
        ∧ (w.stat = .outCtx → w.off = none → ((ctxOf s w.asid).state = .resident ∨ selectable s w.asid = true) →
          exec .resumeWarp s = .next (resumeGroup s w.grp))
        ∧ ∀ o l r, w.stat = .outCtx → w.off = some o → o.parent = none → (ctxOf s w.asid).state = .resident →
          freeContexts s w.asid w.loc = l :: r →
          ∃ t, exec .resumeWarp s = .next t ∧ memoryKept s t ∧ (unitOf t s.ev.unit).loc = l
            ∧ (unitOf t s.ev.unit).stat = .resident ∧ (unitOf t s.ev.unit).regs = w.regs)
    ∧ (∀ s, sfind s.units s.ev.unit = none → selectable s s.ev.asid = true → noUnitOut s s.ev.asid = true →
      ∃ t, exec .resumeWarp s = .next t ∧ (ctxOf t s.ev.asid).state = .ready ∧ t.units = s.units)
    ∧ (∀ s c m, c = ctxOf s s.ev.asid → c.state = .resident → c.slice ≠ 0 →
      m = modCtx (reachTime s (c.sliceStart + c.slice * 1000)) s.ev.asid
        (fun c => { c with sliceStart := c.sliceStart + c.slice * 1000 }) →
      (otherReady m s.ev.asid = false → exec .sliceEnd s = .next m)
        ∧ (otherReady m s.ev.asid = true → exec .sliceEnd s = .next (preemptCtx m s.ev.asid 2))
        ∧ c.sliceStart + c.slice * 1000 ≤ m.time ∧ m.units = s.units)
    ∧ ∀ s c, c = ctxOf s s.ev.asid → c.state = .resident → c.watchdog ≠ 0 → waitsFault s s.ev.asid = false →
      s.governed.contains s.ev.asid = false →
      ∃ t, exec .watchdog s = .next t ∧ t.units = s.units ∧ (ctxOf t s.ev.asid).idle = c.idle + s.ev.value
        ∧ (c.watchdog * 1000 < c.idle + s.ev.value → (ctxOf t s.ev.asid).state = .faulted ∧ (ctxOf t s.ev.asid).fcause = 4)
        ∧ (c.idle + s.ev.value ≤ c.watchdog * 1000 → (ctxOf t s.ev.asid).state = .resident ∧ memoryKept s t)

/-! ### Rings, fault records and control chains -/

/-- R26, R27, R315, R318, R355, R356, R396, R399 to R401: the arbiter's next event is delivered to its ring where that takes it, and
held where it does not; a fault record is posted, or waits where its queue is full; a function-level reset is done when it is
accepted, and so is the interrupt of a control completion; a write of a ring's head re-arms it; an answer is taken by its token; a
control chain is registered and published, and its entries run and complete in order. That an answer to another virtual device's token
is ignored and counted is the model's reading, log entry 61; so are the completion of a held entry by its checks alone and descriptors
of any alignment, log entry 67. -/
def Obligations.RingsRecordsAndControlChainsServe : Prop :=
  let vdAt := fun (s : State) (vd : Nat) (v : Vd) => sfind s.vds vd = some v
  (∀ s e v, nextEvent s = some e → e.what = .entry → v = vdOf s e.vd → v.state ≠ 3 → firstHeld e.vd s.holding = none →
      v.lostSince = 0 →
      let x := { e with gen := v.gen }
      ∃ t, exec .eventAccept s = .next t ∧ t.arbiter = s.arbiter.erase e ∧ t.arbPos = s.arbPos + 1 ∧ t.units = s.units
        ∧ (evrRoom v = true → t.holding = s.holding ∧ (vdOf t e.vd).evrTail = (v.evrTail + 1) % 2 ^ 32
          ∧ hostBytes t (v.evrBase.toNat + 32 * (v.evrTail % 2 ^ v.evrLog2)) 32 = eventBytes x)
        ∧ (evrRoom v = false → t.holding = s.holding ++ [x] ∧ (vdOf t e.vd).evrTail = v.evrTail))
    ∧ (∀ s e f v, nextEvent s = some e → e.what = .record f → v = vdOf s f.vd →
      ∃ t, exec .eventAccept s = .next t ∧ t.arbiter = s.arbiter.erase e ∧ t.units = s.units
        ∧ (fqRoom v = true → (∀ g ∈ s.waitingFaults, g.vd ≠ f.vd) → t.waitingFaults = s.waitingFaults
          ∧ (vdOf t f.vd).fqTail = (v.fqTail + 1) % 2 ^ 32
          ∧ hostBytes t (v.fqBase.toNat + 32 * (v.fqTail % 2 ^ v.fqLog2)) 32
            = toBytes 8 f.w0.toNat ++ toBytes 8 f.w1.toNat ++ toBytes 8 f.w2.toNat ++ toBytes 8 f.w3.toNat)
        ∧ (fqRoom v = false ∨ (∃ g ∈ s.waitingFaults, g.vd = f.vd) → t.waitingFaults = s.waitingFaults ++ [f] ∧ memoryKept s t))
    ∧ (∀ s e n, nextEvent s = some e → e.what = .irq n →
      ∃ t, exec .eventAccept s = .next t ∧ t.arbiter = s.arbiter.erase e ∧ t.irqs = (e.vd, n) :: s.irqs ∧ t.units = s.units
        ∧ memoryKept s t)
    ∧ (∀ s e v, nextEvent s = some e → e.what = .reset → v = vdOf s e.vd → v.state ≠ 0 →
      ∃ t, exec .eventAccept s = .next t ∧ (vdOf t e.vd).state = 1 ∧ (vdOf t e.vd).gen = (v.gen + 1) % 2 ^ 32
        ∧ (vdOf t e.vd).evrBase = 0 ∧ (vdOf t e.vd).fqBase = 0)
    ∧ (∀ s f v, (s.waitingFaults.find? fun f => fqRoom (vdOf s f.vd)) = some f → v = vdOf s f.vd →
      ∃ t, exec .faultRecordPost s = .next t ∧ t.waitingFaults = s.waitingFaults.erase f
        ∧ (vdOf t f.vd).fqTail = (v.fqTail + 1) % 2 ^ 32 ∧ t.units = s.units
        ∧ hostBytes t (v.fqBase.toNat + 32 * (v.fqTail % 2 ^ v.fqLog2)) 32
          = toBytes 8 f.w0.toNat ++ toBytes 8 f.w1.toNat ++ toBytes 8 f.w2.toNat ++ toBytes 8 f.w3.toNat)
    ∧ (∀ s v, vdAt s s.ev.vd v →
      (∃ t, exec .evrHead s = .next t ∧ (vdOf t s.ev.vd).evrHead = s.ev.value % 2 ^ 32 ∧ t.units = s.units
        ∧ (firstHeld s.ev.vd s.holding = none → (vdOf t s.ev.vd).evrArmed = true ∧ memoryKept s t))
      ∧ ∃ t, exec .fqHead s = .next t ∧ (vdOf t s.ev.vd).fqHead = s.ev.value % 2 ^ 32 ∧ (vdOf t s.ev.vd).fqArmed = true
        ∧ t.units = s.units ∧ memoryKept s t)
    ∧ (∀ s k, (s.tokens.find? fun t => t.num == s.ev.value % 2 ^ 32 && (ctxOf s t.asid).vd == s.ev.vd) = some k →
      exec .fqAnswer s = .next (answerToken s k (s.ev.value.testBit 32)))
    ∧ (∀ s, (∀ k ∈ s.tokens, k.num = s.ev.value % 2 ^ 32 → (ctxOf s k.asid).vd ≠ s.ev.vd) →
      exec .fqAnswer s = .next { s with answersIgnored := s.answersIgnored + 1 })
    ∧ (∀ s v, vdAt s s.ev.vd v →
      let h := headerOf (hostBytes s s.ev.value 64)
      (s.ev.value ≠ 0 → s.ev.value % 64 = 0 → ctlHeaderOk h = true →
        ∃ t, exec .ctlchain s = .next t ∧ (vdOf t s.ev.vd).ctlchain = s.ev.value ∧ (vdOf t s.ev.vd).ctlTail = 1
          ∧ (vdOf t s.ev.vd).ctlNext = 1 ∧ t.units = s.units
          ∧ hostBytes t s.ev.value 24 = toBytes 4 (h.ctl + 2 ^ 31) ++ toBytes 4 0 ++ toBytes 4 1 ++ toBytes 4 1 ++ toBytes 4 0
            ++ toBytes 4 0)
      ∧ (s.ev.value = 0 ∨ s.ev.value % 64 ≠ 0 ∨ ctlHeaderOk h = false →
        ∃ t, exec .ctlchain s = .next t ∧ (vdOf t s.ev.vd).ctlchain = 0 ∧ memoryKept s t)
      ∧ ∃ t, exec .ctltail s = .next t ∧ (vdOf t s.ev.vd).ctlTail = s.ev.value % 2 ^ 32 ∧ memoryKept s t ∧ t.units = s.units)
    ∧ (∀ s e c d, ctlEntry s s.ev.vd = some e → eHold e = false → ctlCheck s s.ev.vd e = .ok (c, d) →
      let ends := fun (r : State × Nat) => finishCtl r.1 s.ev.vd e r.2
      (eKind e = 0x20 → exec .ctxreg s = .next (ends (registerCtx s s.ev.vd c)))
        ∧ (eKind e = 0x21 → exec .chreg s = .next (ends (registerChain s s.ev.vd c)))
        ∧ (eKind e = 0x22 → exec .ctxdestroy s = .next (ends (unregisterCtx s s.ev.vd c)))
        ∧ (eKind e = 0x23 → exec .attest s = .next (ends (attest s c e))))
    ∧ (∀ s e st, ctlEntry s s.ev.vd = some e → ctlCheck s s.ev.vd e = .error st →
      (eKind e = 0x20 → exec .ctxreg s = .next (finishCtl s s.ev.vd e st))
        ∧ (eKind e = 0x21 → exec .chreg s = .next (finishCtl s s.ev.vd e st))
        ∧ (eKind e = 0x22 → exec .ctxdestroy s = .next (finishCtl s s.ev.vd e st))
        ∧ (eKind e = 0x23 → exec .attest s = .next (finishCtl s s.ev.vd e st)))
    ∧ (∀ s e, s.ev.flag = true → ctlEntry s s.ev.vd = some e → (eKind e < 0x20 ∨ 0x23 < eKind e) →
      exec .chainEntryRead s = .next (finishCtl s s.ev.vd e 7))
    ∧ (∀ s vd e st v, vdAt s vd v → (vdOf (finishCtl s vd e st) vd).ctlNext = (e.seq + 1) % 2 ^ 32
      ∧ hostBytes (finishCtl s vd e st) (v.ctlchain + 0x10) 4 = toBytes 4 e.seq
      ∧ ∃ x, (finishCtl s vd e st).arbiter.getLast? = some x ∧ x.what = .irq 2 ∧ x.vd = vd)
    ∧ ∀ s vd c m bs q, objRead s (reqEngine c.tenant) c.object c.cursor 32 false = (m, .ok (bs, q)) →
      descOk m (fieldAt bs 0 8) (fieldAt bs 8 8) (fieldAt bs 16 8) = true →
      (registerCtx s vd c).2 = 0
        ∧ let x := ctxOf (registerCtx s vd c).1 (bitsOf (fieldAt bs 0 8) 0 13)
          x.state = .ready ∧ x.vd = vd ∧ x.hpart = bitsOf (fieldAt bs 0 8) 16 3
            ∧ x.exitBudget = (if bitsOf (fieldAt bs 0 8) 32 16 = 0 then 8192 else bitsOf (fieldAt bs 0 8) 32 16)
            ∧ x.watchdog = bitsOf (fieldAt bs 16 8) 0 32

/-! ### The register window, and requests from outside -/

/-- R8, R344, R347, R348, R353, R380 to R382, R396 to R398, R402: shootdowns, frame keys, heat, random slots, holding, releasing,
resetting and enabling virtual devices, register writes, and requests of the host and of peers. The form of the host's, migration's and
peers' requests (objects from 2^24 on, ports 48 to 55, the key and the bytes in the event) is the model's choice, log entry 78; so are
the offsets that are no multiple of 8 and are ignored, log entry 76, and the event of a reset and the VD_GEN 0 of a device that SR-IOV
enables, log entry 77. -/
def Obligations.RegisterWindowWritesActAsGiven : Prop :=
  let vdAt := fun (s : State) (vd : Nat) (v : Vd) => sfind s.vds vd = some v
  let mine := fun (s : State) (v : Nat) => asidIn s (vdHpart s s.ev.vd) (bitsOf v 0 13)
  (∀ s v, vdAt s s.ev.vd v →
      (mine s s.ev.value = true →
        ∃ t, exec .shoot s = .next t ∧ (vdOf t s.ev.vd).shootBusy = true ∧ memoryKept s t ∧ t.units = s.units
          ∧ (vdOf t s.ev.vd).shoot = s.ev.value % 2 ^ 37 + v.shootPg.toNat * 2 ^ 64)
        ∧ (mine s s.ev.value = false → exec .shoot s = .next s))
    ∧ (∀ s v, vdAt s s.ev.vd v → v.shootBusy = true →
      ∃ t, exec .shootdownComplete s = .next t ∧ (vdOf t s.ev.vd).shootBusy = false ∧ memoryKept s t ∧ t.units = s.units
        ∧ ∀ p ∈ t.tlb1 ++ t.tlb2, ∀ e ∈ p.2, e.asid = bitsOf v.shoot 0 13 →
          (bitsOf v.shoot 13 24 = 0xFFFFFF ∨ e.obj = bitsOf v.shoot 13 24) →
          bitsOf v.shoot 105 23 ≠ 0
            ∧ ¬(bitsOf v.shoot 64 41 ≤ e.upage ∧ e.upage < bitsOf v.shoot 64 41 + bitsOf v.shoot 105 23))
    ∧ (∀ s, s.ev.vd = 0 → keyedFrame (bitsOf s.ev.value 32 2) (bitsOf s.ev.value 0 28) = true →
      let a := tierBase (bitsOf s.ev.value 32 2) + bitsOf s.ev.value 0 28 * 65536
      ∃ t, exec .fkrClear s = .next t ∧ t.units = s.units
        ∧ sget none t.frameKeys (bitsOf s.ev.value 32 2 * 2 ^ 28 + bitsOf s.ev.value 0 28) = none
        ∧ ∀ p, memByte t p = if a ≤ p ∧ p < a + 65536 then 0 else memByte s p)
    ∧ (∀ s, s.ev.vd = 0 →
      (∃ t, exec .heatSeed s = .next t ∧ memoryKept s t ∧ ∀ n < 67, sget 1 t.lfsr n =
        let x := BitVec.ofNat 32 s.ev.value ^^^ BitVec.ofNat 32 n
        if x = 0 then 1 else x)
      ∧ ∃ t, exec .heatEpoch s = .next t ∧ memoryKept s t
        ∧ t.heat = (s.heat.map fun p => (p.1, p.2 / 2)).filter fun p => p.2 != 0)
    ∧ (∀ s, s.ev.vd ≠ 0 → exec .fkrClear s = .next s ∧ exec .heatSeed s = .next s ∧ exec .heatEpoch s = .next s
      ∧ exec .vdHold s = .next s ∧ exec .vdRelease s = .next s ∧ exec .warmStart s = .next s)
    ∧ (∀ s n x, n = (vdOf s s.ev.vd).rngSel → x = sget RngSlot.blank s.slots n →
      let key := if s.ev.flag then x.key else BitVec.ofNat 64 s.ev.value
      let nxt := if s.ev.flag then BitVec.ofNat 64 s.ev.value else x.nxt
      ∃ t r, exec .rngKeyWrite s = .next t ∧ memoryKept s t ∧ sfind t.slots n = some r ∧ r.key = key ∧ r.nxt = nxt
        ∧ r.ring = ((List.range 16).map fun i => rngWord key (nxt + BitVec.ofNat 64 i)) ∧ r.owner = x.owner ∧ r.en = x.en)
    ∧ (∀ s x, sfind s.slots s.ev.id = some x →
      ∃ t r, exec .rngRingRefill s = .next t ∧ memoryKept s t ∧ sfind t.slots s.ev.id = some r ∧ r.key = x.key ∧ r.nxt = x.nxt
        ∧ r.ring = ((List.range 16).map fun i => rngWord x.key (x.nxt + BitVec.ofNat 64 i)))
    ∧ (∀ s v, s.ev.vd = 0 → s.ev.id < 64 → vdAt s s.ev.id v →
      (bitsOf s.ev.value 8 2 ≠ 0 → v.state = 1 ∨ v.state = 2 →
        ∃ m, exec .vdHold s = .next ((vdCtxs m s.ev.id).foldl (fun s a => preemptCtx s a 5) m) ∧ (vdOf m s.ev.id).state = 3
          ∧ sget 0 m.vdPart s.ev.id = bitsOf s.ev.value 0 3 + bitsOf s.ev.value 8 2 * 2 ^ 8 ∧ m.units = s.units)
        ∧ (bitsOf s.ev.value 8 2 = 0 → v.state = 3 →
          ∃ t, exec .vdRelease s = .next t ∧ (vdOf t s.ev.id).state = 2 ∧ t.units = s.units
            ∧ sget 0 t.vdPart s.ev.id = bitsOf s.ev.value 0 3))
    ∧ (∀ s, (s.ev.addr % 8 ≠ 0 ∨ 0x10000 ≤ s.ev.addr ∨ (s.ev.vd ≠ 0 ∧ 0x1000 ≤ s.ev.addr)) → exec .registerWrite s = .next s)
    ∧ (∀ s n, (vdOf s 0).state ≠ 0 → s.ev.vd = 0 →
      (n < 56 → s.ev.addr = 0x1000 + 8 * n → ∃ t, exec .registerWrite s = .next t ∧ readReg t 0 s.ev.addr = s.ev.value % 2 ^ 64
        ∧ memoryKept s t ∧ t.units = s.units)
        ∧ (n < 8 → s.ev.addr = 0x1200 + 8 * n → ∃ t, exec .registerWrite s = .next t ∧ readReg t 0 s.ev.addr = s.ev.value % 2 ^ 64
          ∧ memoryKept s t ∧ t.units = s.units))
    ∧ (∀ s v, vdAt s s.ev.vd v → v.state ≠ 0 →
      (s.ev.addr = 0x48 → ∃ t, exec .registerWrite s = .next t ∧ readReg t s.ev.vd 0x48 = s.ev.value % 2 ^ 64 ∧ memoryKept s t)
        ∧ (s.ev.addr = 0x100 → ∃ t, exec .registerWrite s = .next t
          ∧ readReg t s.ev.vd 0x100 = s.ev.value % 2 ^ 64 / 32 * 32 ∧ memoryKept s t)
        ∧ (s.ev.addr = 0x200 → ∃ t, exec .registerWrite s = .next t ∧ readReg t s.ev.vd 0x200 = s.ev.value % 2 ^ 12
          ∧ memoryKept s t)
        ∧ ∃ t e, exec .functionLevelReset s = .next t ∧ t.arbiter = s.arbiter ++ [e] ∧ e.what = .reset ∧ e.vd = s.ev.vd
          ∧ { t with arbiter := s.arbiter } = s)
    ∧ (∀ s, (vdOf s 0).state ≠ 0 → s.ev.vd = 0 → s.ev.addr = 0x1480 →
      exec .registerWrite s = .next (warmStart s (s.ev.value % 2 ^ 64)))
    ∧ (∀ s, 1 ≤ s.ev.vd → s.ev.vd < 64 → (vdOf s s.ev.vd).state = 0 →
      ∃ t, exec .sriovEnable s = .next t ∧ memoryKept s t ∧ t.units = s.units
        ∧ ∀ v, vdOf t v = if v = s.ev.vd then Vd.reset 1 0 else vdOf s v)
    ∧ (∀ s n, n = (if s.ev.flag then s.ev.bytes.length else s.ev.value) → s.ev.row = 0 → s.ev.addr + n ≤ hbmSize →
      2 ^ 24 ≤ s.ev.id → s.ev.member = 0 → s.ev.gang % 4 = 0 → pieces s.ev.addr n = [(s.ev.addr, n)] →
      connOk s ⟨s.ev.asid, 1000000, 1000000, 48⟩ (8 * (s.ev.addr / 65536 / 2 ^ 20 % 8) + s.ev.addr / 256 % 8) = true →
      (sget none s.frameKeys (s.ev.addr / 65536) = none ∨ sget none s.frameKeys (s.ev.addr / 65536) = some 0) →
      ∃ t, exec .hostLinkRequest s = .next t ∧ t.units = s.units
        ∧ (s.ev.flag = true → ∀ p, memByte t p =
          if s.ev.addr ≤ p ∧ p < s.ev.addr + n then s.ev.bytes.getD (p - s.ev.addr) 0 else memByte s p)
        ∧ (s.ev.flag = false → t.hostReply = memBytes s s.ev.addr n ∧ memoryKept s t))
    ∧ (∀ s n rq ps, n = (if s.ev.flag then s.ev.bytes.length else s.ev.value) → s.ev.row = 0 → s.ev.addr + n ≤ hbmSize →
      directOk s n = true → rq = ⟨s.ev.asid, 1000000, 1000000, 48⟩ → ps = directPieces s 0 s.ev.addr n →
      (∀ t, s.ev.flag = true → writeReq s rq ps (s.ev.bytes.map fun b => (b, false)) = (t, .ok ()) →
        exec .hostLinkRequest s = .next t ∧ t.units = s.units)
        ∧ ∀ t l, s.ev.flag = false → readReq s rq ps = (t, .ok l) →
          exec .hostLinkRequest s = .next { t with hostReply := l.map (·.1), hostPoison := l.any (·.2) } ∧ memoryKept s t)
    ∧ (∀ s rq l m t, 1 ≤ s.ev.row → s.ev.row ≤ 4 → directOk s 65536 = true → frameOk 0 (s.ev.addr / 65536) = true →
      frameOk 2 s.ev.value = true → pathDown s 2 = false → rq = ⟨s.ev.asid, 1000000, 1000000, 48 + s.ev.row⟩ →
      let hbm := directPieces s 0 (s.ev.addr / 65536 * 65536) 65536
      let pool := directPieces s 2 (s.ev.value * 65536) 65536
      readReq s rq (if s.ev.flag then hbm else pool) = (m, .ok l) →
      writeReq m rq (if s.ev.flag then pool else hbm) l = (t, .ok ()) → exec .hostLinkRequest s = .next t ∧ t.units = s.units)
    ∧ (∀ s m bs q, s.ev.flag = false →
      objRead s ⟨s.ev.asid, 1000000, 1000000, 53 + s.ev.row % 3⟩ s.ev.id s.ev.addr s.ev.value false = (m, .ok (bs, q)) →
      exec .remoteAccess s = .next { m with hostReply := bs, hostPoison := q } ∧ memoryKept s m)
    ∧ ∀ s m, s.ev.flag = true →
      objWrite s ⟨s.ev.asid, 1000000, 1000000, 53 + s.ev.row % 3⟩ s.ev.id s.ev.addr s.ev.bytes false = (m, .ok ()) →
      exec .remoteAccess s = .next m ∧ m.units = s.units

/-! ### Starts, links and power -/

/-- R403, R405 to R408, R410: a cold start stops with its phase and error or leaves the device ready; a warm start ends every unit
and destroys every context, and with CLEAR zeroes HBM; links train, retry and retrain; the clock is stretched and counted. That every link
is Down after a start is the model's choice, log entry 4; that host, pool and fabric bytes outlast one, log entry 3; that a LINK event
goes to every Running device, log entry 75; the PHASE of an image error and the lanes at a retry timeout, log entry 79. The clause of a
start that succeeds rests on Config.fusedKeyHash, which is free: no image is known to pass its check, so that clause has no witness. -/
def Obligations.StartsLinksAndPowerActAsGiven : Prop :=
  (∀ s, let m := imageOf s.ev.bytes
      (imageError m ≠ 0 → ∃ t, exec .coldStart s = .next t ∧ t.bootStat = 2 + 16 * imageError m ∧ t.units = [] ∧ t.ctxs = [])
        ∧ (imageError m = 0 → s.ev.flag = false → ∃ t, exec .coldStart s = .next t ∧ t.bootStat = 4 + 16 * 4 ∧ t.units = [])
        ∧ (imageError m = 0 → s.ev.flag = true →
          ∃ t, exec .coldStart s = .next t ∧ t.bootStat = 15 ∧ t.image = some (sha256 m.body) ∧ t.units = [] ∧ t.ctxs = []
            ∧ (∀ a, memByte t a = if 2 ^ 64 ≤ a ∧ a < 4 * 2 ^ 64 then memByte s a else 0)
            ∧ ∀ n, 0 < n → (linkOf t n).state = 0))
    ∧ (∀ m : Image, (imageError m = 1 ↔ m.magic ≠ 0x39564B44)
      ∧ (imageError m = 2 ↔ m.magic = 0x39564B44 ∧ Config.fusedKeyHash ≠ some (sha256 m.modulus))
      ∧ (imageError m = 0 ↔ m.magic = 0x39564B44 ∧ Config.fusedKeyHash = some (sha256 m.modulus)
        ∧ pssOk m.modulus m.signature (sha256 m.body) = true))
    ∧ (∀ s, s.ev.vd = 0 → s.bootStat = 15 → s.ev.value.testBit 0 = true →
      ∃ t, exec .warmStart s = .next t ∧ t.units = [] ∧ t.chains = [] ∧ t.groups = [] ∧ t.launches = [] ∧ t.tokens = []
        ∧ t.time = 0 ∧ (∀ a, (ctxOf t a).state = .destroyed) ∧ (∀ n, 0 < n → (linkOf t n).state = 0)
        ∧ (s.ev.value.testBit 1 = true → t.tags = [] ∧ t.frameKeys = [] ∧ t.heat = [] ∧ ∀ a < 2 ^ 64, memByte t a = 0))
    ∧ (∀ s n, n = s.ev.id → n ≤ 22 → (linkOf s n).state = 0 → widthOk n s.ev.value = true →
      ∃ t es, exec .linkTrained s = .next t ∧ memoryKept s t ∧ t.units = s.units
        ∧ linkOf t n = ⟨if s.ev.value = fullWidth n then 2 else 1, s.ev.value⟩ ∧ (∀ k, k ≠ n → linkOf t k = linkOf s k)
        ∧ t.arbiter = s.arbiter ++ es ∧ es.map (·.vd) = runningVds s ∧ ∀ e ∈ es, e.typ = 5 ∧ e.a = n ∧ e.c = s.ev.value)
    ∧ (∀ s n, n = s.ev.id → n ≤ 22 → (linkOf s n).state = 2 → s.ev.value ≠ fullWidth n →
      ∃ t, exec .linkRetryTimeout s = .next t ∧ memoryKept s t ∧ t.units = s.units
        ∧ linkOf t n = (if widthOk n s.ev.value then ⟨1, s.ev.value⟩ else ⟨0, 0⟩) ∧ ∀ k, k ≠ n → linkOf t k = linkOf s k)
    ∧ (∀ s n, n = s.ev.id → n ≤ 22 → (linkOf s n).state ≠ 0 →
      ∃ t es, exec .linkRetrainDone s = .next t ∧ memoryKept s t ∧ t.units = s.units
        ∧ linkOf t n = (if s.ev.value = fullWidth n then ⟨2, s.ev.value⟩ else if widthOk n s.ev.value then ⟨1, s.ev.value⟩ else ⟨0, 0⟩)
        ∧ t.arbiter = s.arbiter ++ es ∧ es.map (·.vd) = runningVds s ∧ ∀ e ∈ es, e.typ = 5 ∧ e.a = n)
    ∧ (∀ s, exec .flitCrcFail s = .next s)
    ∧ (∀ s, s.ev.id < 8 → sget 0 s.stretch s.ev.id = 0 →
      ∃ t, exec .supplySag s = .next t ∧ sget 0 t.stretch s.ev.id = 1 ∧ t.stretchCnt = (s.stretchCnt + 1) % 2 ^ 64
        ∧ { t with stretch := s.stretch, stretchCnt := s.stretchCnt } = s)
    ∧ (∀ s, sget 0 s.stretch s.ev.id = 1 →
      ∃ t es, exec .stretchLong s = .next t ∧ sget 0 t.stretch s.ev.id = 2 ∧ t.arbiter = s.arbiter ++ es
        ∧ es.map (·.vd) = runningVds s ∧ (∀ e ∈ es, e.typ = 6) ∧ { t with stretch := s.stretch, arbiter := s.arbiter } = s)
    ∧ ∀ s, ∃ t, exec .supplyRecovery s = .next t ∧ sget 0 t.stretch s.ev.id = 0 ∧ { t with stretch := s.stretch } = s

/-! ### Graphs, placement, binning and sampling -/

/-- R23, R58, R152, R267, R291, R316 to R324, R374, R381, R385: the engines read their chains; a node is dispatched, ages, and
completes with its groups; a BIN entry counts and releases; a sampler serves its request; a group is placed whole; a gang's part is placed
once GO has come. A class 1 thread's index is taken modulo 128, log entry 82, and it starts at the base of k1, log entry 83: both are
the model's readings. -/
def Obligations.ChainEnginesServeTheirEntries : Prop :=
  let entryAt := fun (s : State) (e : Entry) => entryOf (chainOf s s.ev.chain) s.ev.seq = some e
  let free := fun (e : Entry) => e.token = none ∧ e.fixed = none
  (∀ s c, s.ev.flag = false → sfind s.chains s.ev.chain = some c → engineOn s c = true →
      (∀ q st cause pc, heldCompletion c = some (q, st, cause, pc) →
        exec .chainEntryRead s = .next (finishEntry s s.ev.chain q st cause pc))
        ∧ (heldCompletion c = none →
          exec .chainEntryRead s = .next (readNext (settleChain (c.entries.length + 1) s s.ev.chain) s.ev.chain)))
    ∧ (∀ s e, entryAt s e → (chainOf s s.ev.chain).engine = 1 → mayPlace s (chainOf s s.ev.chain).asid = true → free e →
      (e.state = .ready → mayDispatch s e = true → exec .nodeDispatch s = .next (dispatch s s.ev.chain e s.ev.loc))
        ∧ (e.state = .running → eKind e = 2 → exec .nodeDispatch s = .next (runCopy s s.ev.chain e)))
    ∧ (∀ s ch e loc m r t u, (e.denied = false ∧ eKind e = 1 ∧ eClass e = 0) →
      entryRecord (advanced s (chainOf s ch).asid) (chainOf s ch) e = (m, .ok (some r)) →
      chainOf (advanced s (chainOf s ch).asid) ch = chainOf s ch →
      let l := nodeLaunch (chainOf s ch) ch e r
      launchStatus m l (nodeGroups e r) = none →
      (l.level = 7 → dispatch s ch e loc = armGang m ch e l.kernel)
        ∧ (l.level ≠ 7 → t = { m with nextId := m.nextId + 1, launches := sput m.launches m.nextId l } →
          placeGroup t m.nextId loc = some u →
          dispatch s ch e loc = modEntry t ch e.seq fun e => { e with state := .running, launch := m.nextId }))
    ∧ (∀ s e, entryAt s e → (chainOf s s.ev.chain).engine = 1 → e.state = .ready → e.prio < 7 →
      ∃ t x, exec .nodeAgeing s = .next t ∧ e.agedAt + 1000000 ≤ t.time ∧ s.time ≤ t.time ∧ t.units = s.units ∧ memoryKept s t
        ∧ entryAt { t with ev := s.ev } x ∧ x.prio = e.prio + 1 ∧ x.agedAt = e.agedAt + 1000000 ∧ x.state = .ready
        ∧ x.readyAt = e.readyAt)
    ∧ (∀ s e, entryAt s e → s.ev.flag = false → (chainOf s s.ev.chain).engine = 1 → e.state = .running → eKind e = 1 → free e →
      (∀ l, eClass e ≤ 1 → sfind s.launches e.launch = some l → l.placed = l.groups → l.finished = l.groups →
        (∀ p ∈ s.units, p.2.stat = .ended → (groupOf s p.2.grp).launch ≠ e.launch) →
        exec .nodeComplete s = .next (dropLaunch (finishEntry s s.ev.chain s.ev.seq l.status
          (if l.status = 2 ∨ l.status = 3 then l.cause else 0) (if l.status = 2 ∨ l.status = 3 then l.pc else 0)) e.launch))
        ∧ (2 ≤ eClass e → requestDone s (chainOf s s.ev.chain) e = true →
          exec .nodeComplete s = .next (finishEntry s s.ev.chain s.ev.seq 0 0 0)))
    ∧ (∀ s p, s.ev.flag = true → sfind s.gangParts s.ev.gang = some p → p.started = true → launchDone s p.launch = true →
      exec .nodeComplete s
        = .next (settleCtx (dropLaunch { s with gangParts := sdel s.gangParts s.ev.gang } p.launch) p.asid))
    ∧ (∀ s e b m k bs q t, entryAt s e → (chainOf s s.ev.chain).engine = 2 → engineOn s (chainOf s s.ev.chain) = true →
      e.state = .ready → free e → e.denied = false →
      b = makeResident (advanced s (chainOf s s.ev.chain).asid) (chainOf s s.ev.chain).asid →
      let c := chainOf b s.ev.chain
      let g := (granule e 2).bits.toNat
      objRead b (chainReq c) (granule e 1).object (granule e 1).cursor (4 * e.length) false = (m, .ok (bs, q)) →
      k = countItems (bitsOf g 0 16) (wordsOf 4 e.length bs) →
      objWrite m (chainReq c) (granule e 3).object (granule e 3).cursor (k.1.flatMap (toBytes 4)) false = (t, .ok ()) →
      exec .binEntry s = .next (finishEntry (releaseAll t c.asid k.1 (bitsOf g 16 16) (bitsOf g 32 32)) s.ev.chain e.seq
        (if k.2 then 10 else 0) 0 0))
    ∧ (∀ n items, (countItems n items).1.length = n ∧ (∀ d < n, (countItems n items).1.getD d 0 = items.count d)
      ∧ ((countItems n items).2 = true ↔ ∃ d ∈ items, n ≤ d))
    ∧ (∀ s e, offered (chainOf s s.ev.chain) = some e → mayServe s s.ev.chain = true →
      (e.denied = true → exec .sampleRequest s = .next (finishEntry s s.ev.chain e.seq 11 0 0))
        ∧ (e.denied = false → exec .sampleRequest s = .next (serveEntry
          (makeResident (advanced s (chainOf s s.ev.chain).asid) (chainOf s s.ev.chain).asid) s.ev.chain e)))
    ∧ (∀ s l t, sfind s.launches s.ev.id = some l → mayPlace s l.asid = true → l.placed < l.groups →
      gangPartOf s s.ev.id = none → (if l.offThreads then placeThread s s.ev.id s.ev.loc else placeGroup s s.ev.id s.ev.loc) = some t →
      exec .placeWorkGroup s = .next (makeResident t l.asid))
    ∧ (∀ s l g p, sfind s.launches s.ev.id = some l → mayPlace s l.asid = true → l.placed < l.groups →
      gangPartOf s s.ev.id = some (g, p) → exec .placeWorkGroup s = .next (if p.started then placePart s g p else s))
    ∧ (∀ s ln loc t, placeGroup s ln loc = some t →
      ∃ g, sfind t.groups s.nextId = some g ∧ g.launch = ln ∧ g.idx = (launchOf s ln).placed ∧ g.stat = .running
        ∧ g.members.length = (launchOf s ln).warps)
    ∧ ∀ s ln loc t, placeThread s ln loc = some t → sfind s.launches ln ≠ none →
      (launchOf t ln).placed = (launchOf s ln).placed + 1 ∧ memoryKept s t
        ∧ ∃ w, sfind t.units (s.nextId + 1) = some w ∧ liveThreads w = [(launchOf s ln).placed % 128]
          ∧ getPc w ((launchOf s ln).placed % 128) = codeBase t w % 2 ^ 57
          ∧ getS w 3 = BitVec.ofNat 64 (launchOf s ln).threads ∧ w.loc = { loc with part := 0 }

/-- R324, R325: a gang's member arms, is acknowledged, goes, times out, is aborted, reports and is reset; the first nonzero status is
the node's. How a member reserves (its part keeps the units and groups that GO places, which stand nowhere until then), and that it
acknowledges only where it has room for all of them, is the model's choice, log entry 69: R324 speaks of reserving alone. -/
def Obligations.GangsCommitOrAbort : Prop :=
  let gangAt := fun (s : State) (g : Gang) => sfind s.gangs s.ev.gang = some g
  (∀ s r m l t, mayPlace s s.ev.asid = true → capCovers s.ev.cap 384 rR 64 = true →
      (s.ev.value = s.domainId ∨ pathDown s 3 = false) → readRecord s (reqEngine s.ev.asid) s.ev.cap = (m, .ok r) →
      l = { launchFrom s.ev.asid r with member := s.ev.member } → (launchStatus m l l.groups).getD 0 = 0 →
      let armed := { m with nextId := m.nextId + 1, launches := sput m.launches m.nextId l }
      (reserveAll armed s.ev.gang m.nextId s.ev.value = some t →
        exec .gangArm s = .next t
          ∧ (∃ p, sfind t.gangParts s.ev.gang = some p ∧ p.launch = m.nextId ∧ p.asid = s.ev.asid ∧ p.leader = s.ev.value
            ∧ p.acked = true ∧ p.started = false)
          ∧ (∀ g ∈ t.groups, g.2.launch ≠ m.nextId) ∧ (launchOf t m.nextId).placed = l.placed ∧ memoryKept m t)
        ∧ (reserveAll armed s.ev.gang m.nextId s.ev.value = none → exec .gangArm s = .next m ∧ m.gangParts = s.gangParts))
    ∧ (∀ s, s.ev.value ≠ s.domainId → pathDown s 3 = true → exec .gangArm s = .next s)
    ∧ (∀ s g, gangAt s g → g.state = .arming → s.ev.member ∈ g.members →
      ∃ t x, exec .gangAck s = .next t ∧ gangAt { t with ev := s.ev } x ∧ s.ev.member ∈ x.acked ∧ (∀ k ∈ g.acked, k ∈ x.acked)
        ∧ x.state = (if ∀ k ∈ g.members, k = s.ev.member ∨ k ∈ g.acked then .running else .arming)
        ∧ { t with gangs := s.gangs } = s)
    ∧ (∀ s p b, sfind s.gangParts s.ev.gang = some p →
      b = { s with gangParts := smod s.gangParts s.ev.gang fun p => { p with started := true } } →
      (p.acked = true → p.started = false →
        (mayPlace s p.asid = true → exec .gangGo s = .next (placePart b s.ev.gang p))
          ∧ (mayPlace s p.asid = false → exec .gangGo s = .next b))
        ∧ (p.acked = false ∨ p.started = true → exec .gangGo s = .next s))
    ∧ (∀ s gang p l, sfind s.launches p.launch = some l → (p.groups.map (·.1)).Nodup →
      (launchOf (placePart s gang p) p.launch).placed = p.groups.length
        ∧ ∀ g ∈ p.groups, sfind (placePart s gang p).groups g.1 = some g.2)
    ∧ (∀ s g, gangAt s g → g.state = .arming →
      exec .gangTimeout s = .next (abortGang (reachTime s g.deadline) s.ev.gang g))
    ∧ (∀ s g, gangAt s g → g.state = .running → exec .gangMemberReset s = .next (abortGang s s.ev.gang g))
    ∧ (∀ s id g, sfind s.gangs id = some g →
      let m := { s with gangs := smod s.gangs id fun g => { g with state := .aborted } }
      (∃ x, sfind (abortGang s id g).gangs id = some x ∧ x.state = .aborted)
        ∧ (gangLives s g = false → abortGang s id g = retireKernel m g.asid g.kernel ∧ (abortGang s id g).chains = s.chains)
        ∧ (gangLives s g = true → abortGang s id g = retireKernel (finishEntry m g.chain g.seq 9 0 0) g.asid g.kernel))
    ∧ (∀ s p, sfind s.gangParts s.ev.gang = some p → (p.acked = true ∨ p.started = true) →
      exec .gangAbort s = .next (ctxFault { s with gangParts := sdel s.gangParts s.ev.gang } p.asid 5 0))
    ∧ (∀ s g, gangAt s g → g.state = .running → s.ev.member ∈ g.members → (∀ d ∈ g.done, d.1 ≠ s.ev.member) →
      let done := g.done ++ [(s.ev.member, s.ev.value)]
      ((∃ k ∈ g.members, ∀ d ∈ done, d.1 ≠ k) →
        ∃ t x, exec .gangMemberDone s = .next t ∧ gangAt { t with ev := s.ev } x ∧ x.done = done ∧ x.state = .running
          ∧ { t with gangs := s.gangs } = s)
        ∧ ((∀ k ∈ g.members, ∃ d ∈ done, d.1 = k) → gangLives s g = true →
          exec .gangMemberDone s = .next (retireKernel (finishEntry
            { s with gangs := smod (smod s.gangs s.ev.gang fun g => { g with done := done }) s.ev.gang fun g => { g with state := .done } }
            g.chain g.seq (firstStatus done) 0 0) g.asid g.kernel)))
    ∧ (∀ l, firstStatus l = 0 ↔ ∀ d ∈ l, d.2 = 0)
    ∧ ∀ a b x, x.2 ≠ 0 → (∀ d ∈ a, d.2 = 0) → firstStatus (a ++ x :: b) = x.2

/-! ### Kernels, lazy pages and migration -/

/-- R94, R95, R287, R288, R294 to R303, R412: a kernel is checked, translated, stamped and unloaded; a lazily bound page lets its threads
go on; a migration is asked for, fails at its limit, and places its groups on the target; bytes that are no instruction trap. The
translation is the model's own, log entry 38, and of the event only what one translator may choose is taken (that E is left off, and the
handler's code). That status 1 is looked for first, that the data object comes with the event and when an unload retires are the model's
readings, log entry 66; so are the lazy page, log entry 63, and a migration that fails and its rebuild, log entries 64 and 65. -/
def Obligations.KernelsLoadAndContextsMove : Prop :=
  (∀ s, s.ev.flag = false →
      let b := (peek s s.ev.asid s.ev.cap.object s.ev.cap.cursor 384).getD (zeros 384)
      let k1 := ((engineCap s (reqEngine s.ev.asid) s.ev.cap.object (s.ev.cap.cursor + 0x90)).2.toOption).getD Cap.null
      let st := loadStatus b k1 fun o n => (peek s s.ev.asid k1.object (k1.low + o) n).getD (zeros n)
      ∃ t k, exec .kernelLoad s = .next t ∧ sfind t.kernels (kernelKey s.ev.asid k1.object) = some k ∧ k.status = st
        ∧ k.state = (if st ≠ 0 then 2 else if fieldAt b 0x48 8 = deviceHash ∧ deviceHash ≠ 0 then 4 else 3)
        ∧ memoryKept s t ∧ t.units = s.units)
    ∧ (∀ b k1 code, (recordOk b k1 = false → loadStatus b k1 code = 1)
      ∧ (recordOk b k1 = true → loadStatus b k1 code ≠ 1))
    ∧ (∀ s, s.ev.flag = true →
      let b := (peek s s.ev.asid s.ev.cap.object s.ev.cap.cursor 384).getD (zeros 384)
      let k1 := ((engineCap s (reqEngine s.ev.asid) s.ev.cap.object (s.ev.cap.cursor + 0x90)).2.toOption).getD Cap.null
      loadStatus b k1 (fun o n => (peek s s.ev.asid k1.object (k1.low + o) n).getD (zeros n)) = 0 →
      (∀ m d, makeData s s.ev.asid s.ev.cap s.ev.id s.ev.value s.ev.bytes = some (m, d) →
        ∃ t k, exec .kernelLoad s = .next t ∧ sfind t.kernels (kernelKey s.ev.asid k1.object) = some k ∧ k.dataCap = d
          ∧ d.object = s.ev.id % 2 ^ 24 ∧ d.rights = rR + rW ∧ d.tag = true ∧ memoryKept m t)
        ∧ (makeData s s.ev.asid s.ev.cap s.ev.id s.ev.value s.ev.bytes = none → exec .kernelLoad s = .next s))
    ∧ (∀ s k k1, sget Kernel.blank s.kernels (kernelKey s.ev.asid s.ev.id) = k → k.state = 3 →
      k1 = ((engineCap s (reqEngine s.ev.asid) k.record.object (k.record.cursor + 0x90)).2.toOption).getD Cap.null →
      let own := ownTranslation s s.ev.asid k.record k1 s.ev.flag s.ev.bytes
      (∀ x m, own = some x →
        m = (objWrite (putRecord (reqEngine s.ev.asid) k.record (translatedFields x ++ [(0x48, toBytes 8 deviceHash)]) s)
          (reqEngine s.ev.asid) s.ev.id k1.low x.bytes false).1 →
        ∃ t q, exec .translationComplete s = .next t ∧ sfind t.kernels (kernelKey s.ev.asid s.ev.id) = some q ∧ q.state = 4
          ∧ q.record = k.record ∧ memoryKept m t ∧ t.units = s.units)
        ∧ (own = none → exec .translationComplete s = .next s))
    ∧ (∀ s k, sfind s.kernels (kernelKey s.ev.asid s.ev.id) = some k → k.state = 4 →
      ∃ t q, exec .kernelUnload s = .next t ∧ sfind t.kernels (kernelKey s.ev.asid s.ev.id) = some q ∧ t.units = s.units
        ∧ q.state = if kernelUsed s s.ev.asid s.ev.id then 5 else 6)
    ∧ (∀ s, ∃ t, exec .lazyPageBound s = .next t
      ∧ (s.ev.flag = false ∨ (bindPage s s.ev.asid s.ev.value s.ev.bytes).2 = true →
        ∀ k ∈ t.tokens, ¬(k.asid = s.ev.asid ∧ k.page = some s.ev.value))
      ∧ ∀ u w, sfind s.units u = some w → w.asid ≠ s.ev.asid → (∀ p ∈ s.units, p.1 = u → p.2.asid ≠ s.ev.asid) → unitOf t u = w)
    ∧ (∀ s u w p fail k, sfind s.units u = some w → w.routine = none → w.stat = .resident → k ∈ heldThreads w →
      getMark w k = .blocked true → touches (getPc w k) p = true →
      getMark (unitOf (unblock p fail s u) u) k = .ready
        ∧ ∀ c, fail = some c → sget 0 (unitOf (unblock p fail s u) u).carried k = carryOf c 0 false)
    ∧ (∀ s c, sfind s.ctxs s.ev.asid = some c →
      (∃ t, exec .migrationStop s = .next t ∧ (ctxOf t s.ev.asid).migration = some (s.time + s.ev.value * 1000)
        ∧ (ctxOf t s.ev.asid).state = c.state ∧ t.units = s.units ∧ memoryKept s t)
        ∧ ∀ d, c.migration = some d → anyUnstopped s s.ev.asid = true →
          ∃ t, exec .migrationTimeout s = .next t ∧ (ctxOf t s.ev.asid).migration = none ∧ (ctxOf t s.ev.asid).migFailed = true
            ∧ d ≤ t.time ∧ (∀ p ∈ t.portables, p.asid ≠ s.ev.asid) ∧ t.units = s.units ∧ memoryKept s t)
    ∧ (∀ s l t, sfind s.launches s.ev.id = some l → mayPlace s l.asid = true → l.placed < l.groups → l.offThreads = false →
      placeGroup s s.ev.id s.ev.loc = some t → canRebuild t s.ev.asid s.nextId = true →
      exec .migrationResume s = .next (makeResident (rebuildGroup t s.ev.asid s.nextId) l.asid))
    ∧ ∀ s w h m bs r, sfind s.units s.ev.unit = some w → mayFetch s s.ev.unit = true → Calm w → Simt w → w.inh = false →
      activeThreads w ≠ [] → (launchOfUnit s w).handler = some h →
      fetchInsn s w (pcNow w) = (m, .ok bs) → decode bs = .error r →
      ∃ t, exec .illegalEncoding s = .next t ∧ memoryKept s t
        ∧ Entered w (unitOf t s.ev.unit) (pcNow w) (activeThreads w) (activeThreads w) (rejectCause r) (codeBase m w + h)

/-! ### Steps, reset, encodings and memory -/

/-- R79, R80, R151: a step whose agenda begins with an issue slot fetches at the lowest ready PC of the unit in turn, and is `exec` of
the instruction that the bytes there decode to; the fetch changes no unit and no byte of memory. Bytes that are no instruction run
ILLEGAL_ENCODING. A step whose agenda begins with an event is `exec` of that event with its operands, the pointers of the offset cores
that issue nothing at 0 (R285) and the governed contexts as the item says (log entry 86). R408: after a failed start only
a cold start has an effect. The agenda is the model's own (log entry 1). -/
def Obligations.StepRunsTheDecodedInstruction : Prop :=
  (∀ s u v r w m bs, s.bootStat = 15 → s.agenda = issueItem u :: r → turnUnit { s with agenda := r } u = v →
      sfind s.units v = some w → Issues s w → fetchInsn { s with agenda := r, turn := v } w (pcNow w) = (m, .ok bs) →
      (∀ i n, decode bs = .ok (i, n) → step s = exec i m)
        ∧ (∀ e, decode bs = .error e → step s = exec .illegalEncoding { m with ev := unitArg v })
        ∧ memoryKept s m ∧ m.turn = v ∧ m.units = s.units ∧ m.agenda = r)
    ∧ (∀ s e r, s.bootStat = 15 → s.agenda = e :: r → e.outside = [] → e.errors = [] → e.parity = [] → isEvent e.event = true →
      step s = exec e.event { restCores { s with agenda := r, governed := e.governed.getD s.governed } with ev := e.arg })
    ∧ ∀ s e r, s.bootStat ≠ 15 → s.agenda = e :: r → e.outside = [] → e.errors = [] → e.parity = [] → e.event ≠ .coldStart →
      step s = .next { s with agenda := r, governed := e.governed.getD s.governed }

/-- R62, R77, R285, R347, R353, R397, R402: what reset leaves: each register of the window that has a reset value reads it, HBM and the heat
counters are 0, every LFSR holds 1, no frame is claimed, CYC and TIME are 0, and the round-robin pointers are 0. The model's state at
reset is that after a completed cold start of the full configuration (log entry 2, a design choice), so BOOT_STAT reads 15. -/
def Obligations.ResetStateIsAsGiven : Prop :=
  let s := State.reset
  (∀ i < 56, readReg s 0 (0x1000 + 8 * i) = 2 ^ 64 - 1)
    ∧ (∀ i < 8, readReg s 0 (0x1200 + 8 * i) = 0 ∧ readReg s 0 (0x1240 + 8 * i) = 0)
    ∧ (∀ i < 64, readReg s 0 (0x1800 + 8 * i) = 0) ∧ (∀ i, readReg s 0 (0x2000 + 8 * i) = 0)
    ∧ (∀ o ∈ [0x1400, 0x1430, 0x1440, 0x1490], readReg s 0 o = 0)
    ∧ (∀ o ∈ [0x10, 0x20, 0x40, 0x60, 0x68, 0x70, 0x78, 0x80, 0x88, 0x100, 0x108, 0x110, 0x118, 0x200, 0x208, 0x210, 0x218],
        readReg s 0 o = 0)
    ∧ readReg s 0 0x1488 = 15
    ∧ (∀ a, memByte s a = 0) ∧ (∀ k, sget 0 s.heat k = 0 ∧ sget 1 s.lfsr k = 1 ∧ sget none s.frameKeys k = none)
    ∧ (∀ d, sget 0 s.cyc d = 0) ∧ s.time = 0 ∧ (∀ k, sget 0 s.offPtr k = 0)
    ∧ s.tlb1 = [] ∧ s.tlb2 = [] ∧ s.windows = [] ∧ s.slots = [] ∧ s.units = [] ∧ s.ctxs = []
    ∧ (vdOf s 0).state = 1 ∧ ∀ n, n ≠ 0 → linkOf s n = ⟨0, 0⟩

/-- R79, R81, R84, R89, R93: the words that the spec writes out decode to the instructions it gives for them. -/
def Obligations.SpecWordsDecode : Prop :=
  let word := fun (w : Nat) (i : Instr) => decode (natLE 4 w) = .ok (i, 4)
  let long := fun (w l : Nat) (i : Instr) => decode (natLE 4 w ++ natLE 4 l) = .ok (i, 8)
  long 0xA0020407 0x7FFFFFF0 (.iaddsI (.v 4) (.v 4) (.lit 0x7FFFFFF0))
    ∧ word 0xA0C10609 (.idivN (.v 6) (.v 2) (.reg (.v 3)))
    ∧ long 0xC002870F 4 (.sar (.v 7) (.v 5) (.lit 4))
    ∧ word 0x60808915 (.lea (.v 9) (.v 1) (.reg (.v 2)))
    ∧ word 0x40208635 (.mpop 6 1)
    ∧ word 0xE0004335 .mact3
    ∧ word 0xC1C30849 (.fdiv (.v 8) (.v 6) (.reg (.v 7)))
    ∧ word 0x00000001 .nop

/-- R79 to R94: every well-formed instruction that is no event has an encoding, and the decoder gives it back from its bytes, whatever
follows them, with their number. -/
def Obligations.DecodeGivesBackEncoded : Prop :=
  (∀ i : Instr, i.wf = true → i.isEvent = false → (encode i).isSome)
    ∧ ∀ i bs r, encode i = some bs → decode (bs ++ r) = .ok (i, bs.length)

/-- R79 to R94: every instruction that the decoder gives is well-formed, no event, and encoded by the very bytes it was read from: no
two encodings name one instruction, and no bit is ignored. -/
def Obligations.DecodedIsEncodedByItsBytes : Prop :=
  ∀ bs i n, decode bs = .ok (i, n) → encode i = some (bs.take n) ∧ n ≤ bs.length

/-- At reset memory, its tags and its poison marks are in canonical form. -/
def Obligations.ResetMemoryIsCanonical : Prop := memoryOk State.reset = true

/-- Every step keeps memory, its tags and its poison marks in canonical form: keys rise strictly and no entry is equal to what an unlisted
key reads as. -/
def Obligations.StepsKeepMemoryCanonical : Prop :=
  ∀ s t, memoryOk s = true → step s = .next t → memoryOk t = true
end

