-- ==== Sys2Proof/Laws/Store.lean ====
section
/-! SUPPORT. Sparse tables: what reads give after writes, and that every write keeps the canonical form. -/

namespace Sys2Proof.Laws

open Sys2Proof.Machine

variable {α : Type}

/-! ### Reads after writes -/

theorem sget_eq_sfind (d : α) (l : Store α) (k : Nat) : sget d l k = (sfind l k).getD d := by
  induction l with
  | nil => rfl
  | cons p r ih =>
    obtain ⟨j, v⟩ := p
    simp only [sget, sfind]
    split
    · exact ih
    · split <;> rfl

theorem sfind_sfrom (l : Store α) {k j : Nat} (h : k ≤ j) : sfind (sfrom l k) j = sfind l j := by
  induction l with
  | nil => rfl
  | cons p r ih =>
    obtain ⟨i, v⟩ := p
    simp only [sfrom]
    by_cases hi : i < k
    · have hij : i < j := by omega
      simp [sfind, hi, hij, ih]
    · simp [hi]

theorem sfind_sfrom_below (l : Store α) {k j : Nat} (h : j < k) : sfind (sfrom l k) j = none := by
  induction l with
  | nil => rfl
  | cons p r ih =>
    obtain ⟨i, v⟩ := p
    simp only [sfrom]
    by_cases hi : i < k
    · simp [hi, ih]
    · have h1 : ¬ i < j := by omega
      have h2 : ¬ i = j := by omega
      simp [sfind, hi, h1, h2]

theorem sfind_sput (l : Store α) (k j : Nat) (v : α) : sfind (sput l k v) j = if j = k then some v else sfind l j := by
  induction l with
  | nil =>
    rcases Nat.lt_trichotomy k j with h | h | h
    · simp [sput, sfind, h, show j ≠ k by omega]
    · simp [sput, sfind, h]
    · simp [sput, sfind, show ¬ k < j by omega, show k ≠ j by omega, show j ≠ k by omega]
  | cons p r ih =>
    obtain ⟨i, w⟩ := p
    simp only [sput]
    rcases Nat.lt_trichotomy i k with h | h | h
    · simp only [h, if_true, sfind]
      by_cases hj : i < j
      · simp [hj, ih]
      · simp [hj, show j ≠ k by omega]
    · subst h
      simp only [Nat.lt_irrefl, if_false, if_true, sfind]
      by_cases hj : i < j
      · simp [hj, show j ≠ i by omega]
      · by_cases he : i = j
        · simp [he]
        · simp [hj, he, show j ≠ i by omega]
    · simp only [show ¬ i < k by omega, show i ≠ k by omega, if_false, sfind]
      rcases Nat.lt_trichotomy k j with g | g | g
      · simp [g, show j ≠ k by omega]
      · simp [g]
      · simp [show ¬ k < j by omega, show k ≠ j by omega, show j ≠ k by omega, show ¬ i < j by omega, show i ≠ j by omega]

theorem sfind_sdel (l : Store α) (k j : Nat) : sfind (sdel l k) j = if j = k then none else sfind l j := by
  induction l with
  | nil => simp [sdel, sfind]
  | cons p r ih =>
    obtain ⟨i, w⟩ := p
    simp only [sdel]
    rcases Nat.lt_trichotomy i k with h | h | h
    · simp only [h, if_true, sfind]
      by_cases hj : i < j
      · simp [hj, ih]
      · simp [hj, show j ≠ k by omega]
    · subst h
      simp only [Nat.lt_irrefl, if_false, if_true, sfind]
      by_cases hj : i < j
      · simp [hj, show j ≠ i by omega, sfind_sfrom r (show i + 1 ≤ j by omega)]
      · by_cases he : i = j
        · subst he
          simp [sfind_sfrom_below r (show i < i + 1 by omega)]
        · simp [hj, he, show j ≠ i by omega, sfind_sfrom_below r (show j < i + 1 by omega)]
    · simp only [show ¬ i < k by omega, show i ≠ k by omega, if_false, sfind]
      by_cases hj : j = k
      · subst hj
        simp [show ¬ i < j by omega, show i ≠ j by omega]
      · simp [hj]

theorem sfind_smod (l : Store α) (k j : Nat) (f : α → α) :
    sfind (smod l k f) j = if j = k then (sfind l k).map f else sfind l j := by
  induction l with
  | nil => simp [smod, sfind]
  | cons p r ih =>
    obtain ⟨i, w⟩ := p
    simp only [smod]
    rcases Nat.lt_trichotomy i k with h | h | h
    · simp only [h, if_true, sfind]
      by_cases hj : i < j
      · simp [hj, ih]
      · simp [hj, show j ≠ k by omega]
    · subst h
      simp only [Nat.lt_irrefl, if_false, if_true, sfind]
      by_cases hj : i < j
      · simp [hj, show j ≠ i by omega]
      · by_cases he : i = j
        · simp [he]
        · simp [hj, he, show j ≠ i by omega]
    · simp only [show ¬ i < k by omega, show i ≠ k by omega, if_false, sfind]
      by_cases hj : j = k
      · subst hj
        simp [show ¬ i < j by omega, show i ≠ j by omega]
      · simp [hj]

theorem sfind_map {β : Type} (f : α → β) (l : Store α) (k : Nat) :
    sfind (l.map fun p => (p.1, f p.2)) k = (sfind l k).map f := by
  induction l with
  | nil => rfl
  | cons p r ih =>
    obtain ⟨i, w⟩ := p
    simp only [List.map_cons, sfind]
    by_cases h : i < k
    · simp [h, ih]
    · by_cases e : i = k <;> simp [h, e]

theorem sfind_map_key {β : Type} (g : Nat → α → β) (l : Store α) (k : Nat) :
    sfind (l.map fun p => (p.1, g p.1 p.2)) k = (sfind l k).map (g k) := by
  induction l with
  | nil => rfl
  | cons p r ih =>
    obtain ⟨i, w⟩ := p
    simp only [List.map_cons, sfind]
    by_cases h : i < k
    · simp [h, ih]
    · by_cases e : i = k <;> simp [h, e]

@[simp] theorem sget_sput (d : α) (l : Store α) (k j : Nat) (v : α) :
    sget d (sput l k v) j = if j = k then v else sget d l j := by
  rw [sget_eq_sfind, sget_eq_sfind, sfind_sput]
  split <;> rfl

@[simp] theorem sget_sdel (d : α) (l : Store α) (k j : Nat) :
    sget d (sdel l k) j = if j = k then d else sget d l j := by
  rw [sget_eq_sfind, sget_eq_sfind, sfind_sdel]
  split <;> rfl

/-- A read after a write to the same key gives the value written; a write leaves every other key alone. -/
@[simp] theorem sget_sset [DecidableEq α] (d : α) (l : Store α) (k j : Nat) (v : α) :
    sget d (sset d l k v) j = if j = k then v else sget d l j := by
  unfold sset
  split
  · next h => subst h; simp
  · simp

theorem sget_smod (d : α) (l : Store α) (k j : Nat) (f : α → α) :
    sget d (smod l k f) j = if j = k then ((sfind l k).map f).getD d else sget d l j := by
  rw [sget_eq_sfind, sget_eq_sfind, sfind_smod]
  split <;> rfl

/-! ### Ranges -/

theorem sfind_sbelow_append (l m : Store α) (k j : Nat) (hj : k ≤ j) : sfind (sbelow l k ++ m) j = sfind m j := by
  induction l with
  | nil => rfl
  | cons p r ih =>
    obtain ⟨i, v⟩ := p
    simp only [sbelow]
    by_cases h : i < k
    · simp [h, sfind, show i < j by omega, ih]
    · simp [h]

/-- The first key of a table is at least `k`, or the table is empty. -/
def startsAt (k : Nat) : Store α → Prop
  | [] => True
  | (i, _) :: _ => k ≤ i

theorem sfind_startsAt {m : Store α} {k j : Nat} (hm : startsAt k m) (hj : j < k) : sfind m j = none := by
  cases m with
  | nil => rfl
  | cons p r =>
    obtain ⟨i, v⟩ := p
    have : k ≤ i := hm
    simp [sfind, show ¬ i < j by omega, show i ≠ j by omega]

theorem sfind_sbelow_append_lt (l : Store α) {m : Store α} {k j : Nat} (hm : startsAt k m) (hj : j < k) :
    sfind (sbelow l k ++ m) j = sfind l j := by
  induction l with
  | nil => simpa [sbelow, sfind] using sfind_startsAt hm hj
  | cons p r ih =>
    obtain ⟨i, v⟩ := p
    simp only [sbelow]
    by_cases h : i < k
    · simp [h, sfind, ih]
    · simp [h, sfind, show ¬ i < j by omega, show i ≠ j by omega, sfind_startsAt hm hj]

theorem startsAt_sfrom (l : Store α) (k : Nat) : startsAt k (sfrom l k) := by
  induction l with
  | nil => trivial
  | cons p r ih =>
    obtain ⟨i, v⟩ := p
    simp only [sfrom]
    by_cases h : i < k
    · simpa [h] using ih
    · simp [h, startsAt]; omega

theorem startsAt_mono {m : Store α} {k j : Nat} (h : startsAt k m) (hj : j ≤ k) : startsAt j m := by
  cases m with
  | nil => trivial
  | cons p r => exact Nat.le_trans hj h

theorem startsAt_listed_append [DecidableEq α] (d : α) (k : Nat) (vs : List α) {m : Store α} (hm : startsAt (k + vs.length) m) :
    startsAt k (listed d k vs ++ m) := by
  induction vs generalizing k with
  | nil => simpa [listed] using hm
  | cons v r ih =>
    have hm' : startsAt (k + 1 + r.length) m := by
      have e : k + 1 + r.length = k + (v :: r).length := by simp; omega
      rwa [e]
    simp only [listed]
    split
    · exact startsAt_mono (ih (k + 1) hm') (by omega)
    · simp [startsAt]

theorem sget_listed_append [DecidableEq α] (d : α) (k j : Nat) (vs : List α) {m : Store α} (hm : startsAt (k + vs.length) m) :
    sget d (listed d k vs ++ m) j = if k ≤ j ∧ j < k + vs.length then vs.getD (j - k) d else sget d m j := by
  induction vs generalizing k with
  | nil => simp [listed]
  | cons v r ih =>
    have e : k + 1 + r.length = k + (v :: r).length := by simp; omega
    have hm' : startsAt (k + 1 + r.length) m := by rwa [e]
    have hr := ih (k + 1) hm'
    have hlow : j < k + (v :: r).length → j ≤ k → sget d (listed d (k + 1) r ++ m) j = d := by
      intro _ hk
      rw [sget_eq_sfind, sfind_startsAt (startsAt_listed_append d (k + 1) r hm') (by omega)]; rfl
    simp only [listed]
    by_cases hjk : j = k
    · subst hjk
      have : j ≤ j ∧ j < j + (v :: r).length := by simp
      rw [if_pos this]
      split
      · next hv => simp only [Nat.sub_self, List.getD_cons_zero, hv]; exact hlow (by simp) (Nat.le_refl _)
      · simp [sget]
    · have step : sget d ((if v = d then listed d (k + 1) r else (k, v) :: listed d (k + 1) r) ++ m) j
          = if k < j then sget d (listed d (k + 1) r ++ m) j else d := by
        split
        · by_cases hk : k < j
          · simp [hk]
          · simp only [hk, if_false]
            exact hlow (by simp; omega) (by omega)
        · simp only [List.cons_append, sget]
          by_cases hk : k < j
          · simp [hk]
          · simp [hk, show k ≠ j by omega]
      rw [step]
      by_cases hk : k < j
      · rw [if_pos hk, hr]
        have hd : j - k = (j - (k + 1)) + 1 := by omega
        by_cases hin : j < k + (v :: r).length
        · rw [if_pos ⟨by omega, by omega⟩, if_pos ⟨by omega, hin⟩, hd, List.getD_cons_succ]
        · rw [if_neg (by omega), if_neg (by omega)]
      · rw [if_neg hk, if_neg (by omega)]
        rw [sget_eq_sfind, sfind_startsAt hm (by simp; omega)]; rfl

/-- A write of several values: each key of the range reads its value, every other key reads as before. -/
theorem sget_ssetMany [DecidableEq α] (d : α) (l : Store α) (k j : Nat) (vs : List α) :
    sget d (ssetMany d l k vs) j = if k ≤ j ∧ j < k + vs.length then vs.getD (j - k) d else sget d l j := by
  unfold ssetMany
  rw [List.append_assoc]
  have hm : startsAt (k + vs.length) (sfrom l (k + vs.length)) := startsAt_sfrom _ _
  by_cases hj : k ≤ j
  · rw [sget_eq_sfind, sfind_sbelow_append _ _ _ _ hj, ← sget_eq_sfind, sget_listed_append d k j vs hm]
    split
    · rfl
    · rw [sget_eq_sfind, sfind_sfrom _ (by omega), ← sget_eq_sfind]
  · rw [sget_eq_sfind, sfind_sbelow_append_lt l (startsAt_listed_append d k vs hm) (by omega), ← sget_eq_sfind,
      if_neg (by omega)]

/-- A cleared range reads as unlisted; every other key reads as before. -/
theorem sget_sclear (d : α) (l : Store α) (lo hi j : Nat) (h : lo ≤ hi) :
    sget d (sclear l lo hi) j = if lo ≤ j ∧ j < hi then d else sget d l j := by
  unfold sclear
  by_cases hj : lo ≤ j
  · rw [sget_eq_sfind, sfind_sbelow_append _ _ _ _ hj]
    by_cases hh : j < hi
    · rw [sfind_sfrom_below _ hh, if_pos ⟨hj, hh⟩]; rfl
    · rw [sfind_sfrom _ (by omega), ← sget_eq_sfind, if_neg (by omega)]
  · rw [sget_eq_sfind, sfind_sbelow_append_lt l (startsAt_mono (startsAt_sfrom l hi) h) (by omega), ← sget_eq_sfind,
      if_neg (by omega)]

/-! ### Several reads -/

theorem sread_eq (d : α) (l : Store α) (k n : Nat) (hl : startsAt k l) :
    sread d l k n = (List.range n).map fun i => sget d l (k + i) := by
  induction n generalizing l k with
  | zero => cases l <;> simp [sread]
  | succ n ih =>
    rw [List.range_succ_eq_map]
    cases l with
    | nil => simp [sread, sget, List.replicate_succ, List.map_const', Function.comp_def]
    | cons p r =>
      obtain ⟨j, v⟩ := p
      have hk : k ≤ j := hl
      simp only [sread, List.map_cons, List.map_map, Function.comp_def, Nat.add_zero]
      by_cases hj : j = k
      · subst hj
        simp only [if_true]
        rw [ih _ _ (startsAt_sfrom r (j + 1))]
        congr 1
        · simp [sget]
        · apply List.map_congr_left
          intro i _
          rw [sget_eq_sfind, sfind_sfrom r (by omega), ← sget_eq_sfind]
          simp only [sget, show j < j + i.succ by omega, if_true]
          congr 1; omega
      · simp only [hj, if_false]
        rw [ih ((j, v) :: r) (k + 1) (by show k + 1 ≤ j; omega)]
        congr 1
        · simp [sget, hj, show ¬ j < k by omega]
        · apply List.map_congr_left
          intro i _
          congr 1; omega

/-- Several reads are the reads of the keys one by one. -/
theorem sgetMany_eq (d : α) (l : Store α) (k n : Nat) : sgetMany d l k n = (List.range n).map fun i => sget d l (k + i) := by
  unfold sgetMany
  rw [sread_eq d _ k n (startsAt_sfrom l k)]
  apply List.map_congr_left
  intro i _
  rw [sget_eq_sfind, sfind_sfrom l (by omega), ← sget_eq_sfind]

@[simp] theorem sgetMany_length (d : α) (l : Store α) (k n : Nat) : (sgetMany d l k n).length = n := by simp [sgetMany_eq]

/-- Reading back what was just written gives the values written. -/
theorem sgetMany_ssetMany_same [DecidableEq α] (d : α) (l : Store α) (k : Nat) (vs : List α) :
    sgetMany d (ssetMany d l k vs) k vs.length = vs := by
  rw [sgetMany_eq]
  apply List.ext_getElem
  · simp
  · intro i h1 h2
    simp only [List.getElem_map, List.getElem_range, sget_ssetMany]
    rw [if_pos ⟨by omega, by omega⟩]
    simp [List.getD_eq_getElem?_getD, List.getElem?_eq_getElem h2]

/-! ### The canonical form -/

variable [DecidableEq α]

theorem wfFrom_mono {d : α} {lo lo' : Nat} {l : Store α} (h : Store.wfFrom d lo l = true) (hl : lo' ≤ lo) :
    Store.wfFrom d lo' l = true := by
  cases l with
  | nil => rfl
  | cons p r =>
    obtain ⟨k, v⟩ := p
    simp only [Store.wfFrom, Bool.and_eq_true, decide_eq_true_eq] at h ⊢
    exact ⟨⟨by omega, h.1.2⟩, h.2⟩

theorem wfFrom_sfrom {d : α} {lo : Nat} {l : Store α} (k : Nat) (h : Store.wfFrom d lo l = true) :
    Store.wfFrom d (max lo k) (sfrom l k) = true := by
  induction l generalizing lo with
  | nil => rfl
  | cons p r ih =>
    obtain ⟨j, v⟩ := p
    simp only [sfrom]
    by_cases hj : j < k
    · simp only [hj, if_true]
      have hr : Store.wfFrom d (j + 1) r = true := by
        simp only [Store.wfFrom, Bool.and_eq_true] at h; exact h.2
      have hlo : lo ≤ j := by
        simp only [Store.wfFrom, Bool.and_eq_true, decide_eq_true_eq] at h; exact h.1.1
      exact wfFrom_mono (ih hr) (by omega)
    · simp only [hj, if_false]
      simp only [Store.wfFrom, Bool.and_eq_true, decide_eq_true_eq] at h ⊢
      exact ⟨⟨by omega, h.1.2⟩, h.2⟩

theorem wfFrom_sdel {d : α} {lo : Nat} {l : Store α} (k : Nat) (h : Store.wfFrom d lo l = true) :
    Store.wfFrom d lo (sdel l k) = true := by
  induction l generalizing lo with
  | nil => rfl
  | cons p r ih =>
    obtain ⟨j, v⟩ := p
    simp only [Store.wfFrom, Bool.and_eq_true, decide_eq_true_eq] at h
    simp only [sdel]
    rcases Nat.lt_trichotomy j k with g | g | g
    · simp only [g, if_true, Store.wfFrom, Bool.and_eq_true, decide_eq_true_eq]
      exact ⟨h.1, ih h.2⟩
    · subst g
      simp only [Nat.lt_irrefl, if_false, if_true]
      exact wfFrom_mono (wfFrom_sfrom (j + 1) h.2) (by omega)
    · simp only [show ¬ j < k by omega, show j ≠ k by omega, if_false, Store.wfFrom, Bool.and_eq_true, decide_eq_true_eq]
      exact h

theorem wfFrom_sput {d : α} {lo : Nat} {l : Store α} {k : Nat} {v : α} (hv : v ≠ d) (hk : lo ≤ k)
    (h : Store.wfFrom d lo l = true) : Store.wfFrom d lo (sput l k v) = true := by
  induction l generalizing lo with
  | nil => simp [sput, Store.wfFrom, hv, hk]
  | cons p r ih =>
    obtain ⟨j, w⟩ := p
    simp only [Store.wfFrom, Bool.and_eq_true, decide_eq_true_eq] at h
    simp only [sput]
    rcases Nat.lt_trichotomy j k with g | g | g
    · simp only [g, if_true, Store.wfFrom, Bool.and_eq_true, decide_eq_true_eq]
      exact ⟨h.1, ih (by omega) h.2⟩
    · subst g
      simp only [Nat.lt_irrefl, if_false, if_true, Store.wfFrom, Bool.and_eq_true, decide_eq_true_eq]
      exact ⟨⟨hk, hv⟩, h.2⟩
    · simp only [show ¬ j < k by omega, show j ≠ k by omega, if_false, Store.wfFrom, Bool.and_eq_true, decide_eq_true_eq]
      exact ⟨⟨hk, hv⟩, ⟨by omega, h.1.2⟩, h.2⟩

theorem wf_sset {d : α} {l : Store α} (k : Nat) (v : α) (h : Store.wf d l = true) : Store.wf d (sset d l k v) = true := by
  unfold sset
  split
  · exact wfFrom_sdel k h
  · next hv => exact wfFrom_sput hv (Nat.zero_le k) h

theorem wf_sdel {d : α} {l : Store α} (k : Nat) (h : Store.wf d l = true) : Store.wf d (sdel l k) = true := wfFrom_sdel k h

theorem wf_sfrom {d : α} {l : Store α} (k : Nat) (h : Store.wf d l = true) : Store.wf d (sfrom l k) = true :=
  wfFrom_mono (wfFrom_sfrom k h) (Nat.zero_le _)

/-- A table below `k` followed by one in canonical form from `k` on. -/
theorem wfFrom_sbelow_append {d : α} {lo : Nat} {l m : Store α} {k : Nat} (hlo : lo ≤ k) (h : Store.wfFrom d lo l = true)
    (hm : Store.wfFrom d k m = true) : Store.wfFrom d lo (sbelow l k ++ m) = true := by
  induction l generalizing lo with
  | nil => exact wfFrom_mono hm hlo
  | cons p r ih =>
    obtain ⟨j, v⟩ := p
    simp only [Store.wfFrom, Bool.and_eq_true, decide_eq_true_eq] at h
    simp only [sbelow]
    by_cases g : j < k
    · simp only [g, if_true, List.cons_append, Store.wfFrom, Bool.and_eq_true, decide_eq_true_eq]
      exact ⟨h.1, ih (by omega) h.2⟩
    · simp only [g, if_false, List.nil_append]
      exact wfFrom_mono hm hlo

theorem wf_sbelow {d : α} {l : Store α} (k : Nat) (h : Store.wf d l = true) : Store.wf d (sbelow l k) = true := by
  have := wfFrom_sbelow_append (m := []) (Nat.zero_le k) h rfl
  simpa [Store.wf] using this

theorem wfFrom_listed_append {d : α} (k : Nat) (vs : List α) {m : Store α} (hm : Store.wfFrom d (k + vs.length) m = true) :
    Store.wfFrom d k (listed d k vs ++ m) = true := by
  induction vs generalizing k with
  | nil => simpa [listed] using hm
  | cons v r ih =>
    have e : k + 1 + r.length = k + (v :: r).length := by simp; omega
    have hr := ih (k + 1) (by rwa [e])
    simp only [listed]
    split
    · exact wfFrom_mono hr (by omega)
    · next hv =>
      simp only [List.cons_append, Store.wfFrom, Bool.and_eq_true, decide_eq_true_eq]
      exact ⟨⟨Nat.le_refl k, hv⟩, hr⟩

theorem wf_ssetMany {d : α} {l : Store α} (k : Nat) (vs : List α) (h : Store.wf d l = true) :
    Store.wf d (ssetMany d l k vs) = true := by
  unfold ssetMany
  rw [List.append_assoc]
  exact wfFrom_sbelow_append (Nat.zero_le k) h
    (wfFrom_listed_append k vs (wfFrom_mono (wfFrom_sfrom _ h) (Nat.le_max_right _ _)))

theorem wf_sclear {d : α} {l : Store α} (lo hi : Nat) (hh : lo ≤ hi) (h : Store.wf d l = true) :
    Store.wf d (sclear l lo hi) = true := by
  unfold sclear
  exact wfFrom_sbelow_append (Nat.zero_le lo) h (wfFrom_mono (wfFrom_sfrom hi h) (by omega))

/-- Two tables in canonical form that read alike are the same data. -/
theorem wfFrom_ext {d : α} {lo : Nat} {l m : Store α} (hl : Store.wfFrom d lo l = true) (hm : Store.wfFrom d lo m = true)
    (h : ∀ k, sget d l k = sget d m k) : l = m := by
  have lowRead : ∀ {n : Nat} {x : Store α}, Store.wfFrom d n x = true → ∀ k, k < n → sget d x k = d := by
    intro n x hx k hk
    cases x with
    | nil => rfl
    | cons p r =>
      obtain ⟨j, v⟩ := p
      simp only [Store.wfFrom, Bool.and_eq_true, decide_eq_true_eq] at hx
      simp [sget, show ¬ j < k by omega, show j ≠ k by omega]
  induction l generalizing lo m with
  | nil =>
    cases m with
    | nil => rfl
    | cons p r =>
      obtain ⟨j, v⟩ := p
      simp only [Store.wfFrom, Bool.and_eq_true, decide_eq_true_eq] at hm
      exact absurd (by simpa [sget] using (h j).symm) hm.1.2
  | cons p r ih =>
    obtain ⟨j, v⟩ := p
    simp only [Store.wfFrom, Bool.and_eq_true, decide_eq_true_eq] at hl
    cases m with
    | nil => exact absurd (by simpa [sget] using h j) hl.1.2
    | cons q t =>
      obtain ⟨i, u⟩ := q
      simp only [Store.wfFrom, Bool.and_eq_true, decide_eq_true_eq] at hm
      have hij : i = j := by
        rcases Nat.lt_trichotomy i j with g | g | g
        · exact absurd (by simpa [sget, show ¬ j < i by omega, show j ≠ i by omega] using (h i).symm) hm.1.2
        · exact g
        · exact absurd (by simpa [sget, show ¬ i < j by omega, show i ≠ j by omega] using h j) hl.1.2
      subst hij
      have hv : v = u := by simpa [sget] using h i
      subst hv
      rw [ih hl.2 hm.2]
      intro k
      by_cases hk : i < k
      · simpa [sget, hk] using h k
      · rw [lowRead hl.2 k (by omega), lowRead hm.2 k (by omega)]

theorem wf_ext {d : α} {l m : Store α} (hl : Store.wf d l = true) (hm : Store.wf d m = true)
    (h : ∀ k, sget d l k = sget d m k) : l = m := wfFrom_ext hl hm h

end Sys2Proof.Laws
end

