-- ==== Sys2Proof/Laws/Memory.lean ====
section
/-! SUPPORT. What accesses keep: reads change no byte, writes keep memory's canonical form, and neither changes a unit, a
context or a queue. -/

namespace Sys2Proof.Laws

open Sys2Proof.Machine

/-! ### The two relations -/

/-- The device without what a read may change: TLBs, frame keys, heat, counters of refused requests, free values used. -/
def lessAccess (s : State) : State :=
  { s with tlb1 := [], tlb2 := [], frameKeys := [], lfsr := [], heat := [], blocks := [], arenas := [], connViol := 0, fresh := 0 }

/-- The device without what a write of an object may change. -/
def lessMemory (s : State) : State := { lessAccess s with mem := [], tags := [], memPoison := [], failed := [] }

/-- The device without what a write through a capability may change: scratchpads and window pages, too. -/
def lessStorage (s : State) : State := { lessMemory s with groups := [], windows := [] }

/-- `t` is `s` after reads. -/
def readStep (s t : State) : Prop := lessAccess t = lessAccess s

/-- `t` is `s` after reads and writes of objects. -/
def writeStep (s t : State) : Prop := lessMemory t = lessMemory s ∧ (memoryOk s = true → memoryOk t = true)

/-- `t` is `s` after reads and writes through capabilities. -/
def storeStep (s t : State) : Prop := lessStorage t = lessStorage s ∧ (memoryOk s = true → memoryOk t = true)

theorem readStep_refl (s : State) : readStep s s := rfl

theorem readStep_trans {a b c : State} (h : readStep a b) (g : readStep b c) : readStep a c := g.trans h

theorem readStep_field {β : Type} {s t : State} (h : readStep s t) (f : State → β)
    (hf : ∀ s, f (lessAccess s) = f s := by intro s; rfl) : f t = f s := by rw [← hf t, h, hf s]

theorem readStep_kept {s t : State} (h : readStep s t) : memoryKept s t :=
  ⟨readStep_field h State.mem, readStep_field h State.tags, readStep_field h State.memPoison⟩

theorem memoryOk_of_kept {s t : State} (h : memoryKept s t) : memoryOk t = memoryOk s := by
  simp [memoryOk, h.1, h.2.1, h.2.2]

theorem writeStep_of_read {s t : State} (h : readStep s t) : writeStep s t :=
  ⟨by rw [lessMemory, h]; rfl, fun hm => (memoryOk_of_kept (readStep_kept h)).trans hm⟩

theorem writeStep_refl (s : State) : writeStep s s := ⟨rfl, id⟩

theorem writeStep_trans {a b c : State} (h : writeStep a b) (g : writeStep b c) : writeStep a c :=
  ⟨g.1.trans h.1, fun hm => g.2 (h.2 hm)⟩

theorem writeStep_field {β : Type} {s t : State} (h : writeStep s t) (f : State → β)
    (hf : ∀ s, f (lessMemory s) = f s := by intro s; rfl) : f t = f s := by rw [← hf t, h.1, hf s]

theorem storeStep_of_write {s t : State} (h : writeStep s t) : storeStep s t :=
  ⟨by rw [lessStorage, h.1]; rfl, h.2⟩

theorem storeStep_refl (s : State) : storeStep s s := ⟨rfl, id⟩

theorem storeStep_trans {a b c : State} (h : storeStep a b) (g : storeStep b c) : storeStep a c :=
  ⟨g.1.trans h.1, fun hm => g.2 (h.2 hm)⟩

theorem storeStep_field {β : Type} {s t : State} (h : storeStep s t) (f : State → β)
    (hf : ∀ s, f (lessStorage s) = f s := by intro s; rfl) : f t = f s := by rw [← hf t, h.1, hf s]

/-! ### Bytes, tags and marks -/

theorem memoryOk_iff (s : State) :
    memoryOk s = true ↔ Memory.wf s.mem = true ∧ Store.wf false s.tags = true ∧ Store.wf false s.memPoison = true := by
  simp [memoryOk, and_assoc]

theorem writeStep_putBytes (s : State) (a : Nat) (bs : List Byte) (p : Bool) : writeStep s (putBytes s a bs p) := by
  refine ⟨rfl, fun h => ?_⟩
  rw [memoryOk_iff] at h ⊢
  exact ⟨wf_ssetMany _ _ h.1, h.2.1, wf_ssetMany _ _ h.2.2⟩

theorem writeStep_putMarked (s : State) (a : Nat) (l : List PByte) : writeStep s (putMarked s a l) := by
  refine ⟨rfl, fun h => ?_⟩
  rw [memoryOk_iff] at h ⊢
  exact ⟨wf_ssetMany _ _ h.1, h.2.1, wf_ssetMany _ _ h.2.2⟩

theorem writeStep_clearTags (s : State) (a n : Nat) : writeStep s (clearTags s a n) := by
  refine ⟨rfl, fun h => ?_⟩
  rw [memoryOk_iff] at h ⊢
  exact ⟨h.1, wf_sclear _ _ (Nat.div_le_div_right (by omega)) h.2.1, h.2.2⟩

theorem writeStep_setTag (s : State) (k : Nat) (b : Bool) : writeStep s { s with tags := sset false s.tags k b } := by
  refine ⟨rfl, fun h => ?_⟩
  rw [memoryOk_iff] at h ⊢
  exact ⟨h.1, wf_sset _ _ h.2.1, h.2.2⟩

/-- A write of one byte table alone, as page table leaves are written. -/
theorem writeStep_putLeaf (s : State) (a : Nat) (bs : List Byte) : writeStep s { s with mem := ssetMany 0 s.mem a bs } := by
  refine ⟨rfl, fun h => ?_⟩
  rw [memoryOk_iff] at h ⊢
  exact ⟨wf_ssetMany _ _ h.1, h.2.1, h.2.2⟩

/-! ### Translation, keys and heat -/

theorem readStep_walkNow (s : State) (rq : Req) (obj off n : Nat) : readStep s (walkNow s rq obj off n).1 := by
  unfold walkNow
  split
  · rfl
  · split <;> rfl

theorem readStep_find (s : State) (rq : Req) (obj off n : Nat) : readStep s (find s rq obj off n).1 := by
  unfold find
  split
  · exact readStep_walkNow s rq obj off n
  · dsimp only
    split
    · rfl
    · split
      · rfl
      · exact readStep_trans (b := { s with fresh := s.fresh + 1 }) rfl (readStep_walkNow _ rq obj off n)

theorem readStep_xlate (s : State) (rq : Req) (obj off n : Nat) (wr ft : Bool) : readStep s (xlate s rq obj off n wr ft).1 := by
  have h := readStep_find s rq obj off n
  unfold xlate
  split <;> simp_all

theorem readStep_xlateFrom (s : State) (rq : Req) (obj e : Nat) (wr ft : Bool) (bad : Option Nat) (l : List (Nat × Nat)) :
    readStep s (xlateFrom s rq obj e wr ft bad l).1 := by
  induction l generalizing s bad with
  | nil => unfold xlateFrom; rfl
  | cons p r ih =>
    obtain ⟨o, m⟩ := p
    have h := readStep_xlate s rq obj o (e - o) wr ft
    unfold xlateFrom
    split
    · exact ih s bad
    · split
      · rename_i s' f heq
        rw [heq] at h
        have g := ih s' (some (o / 65536))
        split <;> rename_i heq' <;> rw [heq'] at g <;> exact readStep_trans h g
      · rename_i s' t heq
        rw [heq] at h
        have g := ih s' none
        split <;> rename_i heq' <;> rw [heq'] at g <;> exact readStep_trans h g

theorem readStep_xlateAll (s : State) (rq : Req) (obj e : Nat) (wr ft : Bool) (l : List (Nat × Nat)) :
    readStep s (xlateAll s rq obj e wr ft l).1 := readStep_xlateFrom s rq obj e wr ft none l

theorem readStep_keyStep {s t : State} {tr : Tr} (h : keyStep s tr = some t) : readStep s t := by
  unfold keyStep at h
  split at h
  · cases h; rfl
  · split at h
    · cases h; rfl
    · split at h
      · cases h; rfl
      · cases h

theorem readStep_keyAll {s t : State} {rq : Req} {l : List Piece} (h : keyAll s rq l = some t) : readStep s t := by
  induction l generalizing s with
  | nil => cases h; rfl
  | cons p r ih =>
    unfold keyAll at h
    split at h
    · split at h
      · cases h
      · rename_i s' hs
        exact readStep_trans (readStep_keyStep hs) (ih h)
    · exact ih h

theorem readStep_drawAt (s : State) (t : Tr) (off : Nat) : readStep s (drawAt s t off) := by
  unfold drawAt
  dsimp only
  split <;> rfl

theorem readStep_drawReached (s : State) (t : Tr) (off : Nat) : readStep s (drawReached s t off) := by
  unfold drawReached
  split
  · exact readStep_drawAt s t off
  · rfl

theorem readStep_drawHeat (s : State) (rq : Req) (t : Tr) (off : Nat) : readStep s (drawHeat s rq t off) := by
  unfold drawHeat
  split
  · rfl
  · split
    · exact readStep_drawAt s t off
    · split
      · exact readStep_trans (b := { s with fresh := s.fresh + 1 }) rfl (readStep_drawAt _ t off)
      · rfl

theorem readStep_compWrite (s : State) (asid : Nat) (t : Tr) (off : Nat) (bs : List Byte) : readStep s (compWrite s asid t off bs) := by
  unfold compWrite
  split <;> rfl

theorem readStep_countFail (s : State) (asid : Nat) (t : Tr) : readStep s (countFail s asid t) := rfl

theorem readStep_countViol (s : State) : readStep s (countViol s) := rfl

theorem readStep_countFull (s : State) (asid : Nat) (t : Tr) : readStep s (countFull s asid t) := rfl

theorem readStep_lostBytes (s : State) (n : Nat) : readStep s (lostBytes s n).1 := rfl

theorem readStep_readPiece (s : State) (rq : Req) (p : Piece) : readStep s (readPiece s rq p).1 := by
  unfold readPiece
  split
  · split
    · exact readStep_trans (readStep_trans (readStep_lostBytes s p.len) (readStep_drawReached _ p.tr p.off))
        (readStep_countFail _ rq.asid p.tr)
    · exact readStep_drawHeat s rq p.tr p.off
  · exact readStep_trans (readStep_lostBytes s p.len) (readStep_countViol _)

theorem readStep_readPieces (s : State) (rq : Req) (l : List Piece) : readStep s (readPieces s rq l).1 := by
  induction l generalizing s with
  | nil => rfl
  | cons p r ih => exact readStep_trans (readStep_readPiece s rq p) (ih _)

theorem writeStep_writePiece (s : State) (rq : Req) (c : Piece) (l : List PByte) : writeStep s (writePiece s rq c l) := by
  unfold writePiece
  split
  · split
    · exact writeStep_of_read (readStep_trans (readStep_drawReached s c.tr c.off) (readStep_countFail _ rq.asid c.tr))
    · exact writeStep_trans
        (writeStep_of_read (readStep_trans (readStep_drawHeat s rq c.tr c.off) (readStep_compWrite _ rq.asid c.tr c.off _)))
        (writeStep_trans (writeStep_putMarked _ _ _) (writeStep_clearTags _ _ c.len))
  · exact writeStep_of_read (readStep_countViol s)

theorem writeStep_writePieces (s : State) (rq : Req) (ps : List Piece) (l : List PByte) :
    writeStep s (writePieces s rq ps l) := by
  induction ps generalizing s l with
  | nil => exact writeStep_refl s
  | cons c r ih => exact writeStep_trans (writeStep_writePiece s rq c _) (ih _ _)

theorem writeStep_heal (s : State) (rq : Req) (ps : List Piece) : writeStep s (heal s rq ps) := ⟨rfl, fun h => h⟩

theorem readStep_heatAll (s : State) (rq : Req) (ps : List Piece) (full : Piece) : readStep s (heatAll s rq ps full) := by
  unfold heatAll
  induction ps generalizing s with
  | nil => rfl
  | cons c r ih =>
    rw [List.foldl_cons]
    refine readStep_trans ?_ (ih _)
    split
    · rfl
    · split
      · exact readStep_drawReached s c.tr c.off
      · exact readStep_drawHeat s rq c.tr c.off

/-- A COMP_FULL fault writes no byte. -/
theorem readStep_compFault (s : State) (rq : Req) (ps : List Piece) (c : Piece) : readStep s (compFault s rq ps c).1 :=
  readStep_trans (readStep_heatAll s rq ps c) (readStep_countFull _ rq.asid c.tr)

/-- Reads of translated pieces change no byte of memory. -/
theorem readStep_readReq (s : State) (rq : Req) (ps : List Piece) : readStep s (readReq s rq ps).1 := by
  unfold readReq
  split
  · rfl
  · rename_i hk
    exact readStep_trans (readStep_keyAll hk) (readStep_readPieces _ rq ps)

/-- Writes of translated pieces keep the canonical form. -/
theorem writeStep_writeReq (s : State) (rq : Req) (ps : List Piece) (l : List PByte) :
    writeStep s (writeReq s rq ps l).1 := by
  unfold writeReq
  split
  · exact writeStep_refl s
  · rename_i hk
    have h := readStep_keyAll hk
    split
    · exact writeStep_of_read (readStep_trans h (readStep_compFault _ rq ps _))
    · exact writeStep_trans (writeStep_of_read h) (writeStep_trans (writeStep_heal _ rq ps) (writeStep_writePieces _ rq ps l))

theorem writeStep_of_writeReq {s t : State} {rq : Req} {ps : List Piece} {l : List PByte} {r : Except Flt Unit}
    (h : writeReq s rq ps l = (t, r)) : writeStep s t := by
  have g := writeStep_writeReq s rq ps l
  rw [h] at g
  exact g

/-- What a request leaves behind where its instruction performs nothing is what a read may leave. -/
theorem readStep_keepCounts (s t : State) : readStep s (keepCounts s t) := rfl

/-! ### Accesses of objects -/

/-- A read of an object changes no byte of memory. -/
theorem readStep_objReadM (s : State) (rq : Req) (obj off n : Nat) (ft : Bool) : readStep s (objReadM s rq obj off n ft).1 := by
  have h := readStep_xlateAll s rq obj (off + n) false ft (pieces off n)
  unfold objReadM
  split <;> rename_i heq <;> rw [heq] at h
  · exact h
  · exact readStep_trans h (readStep_readReq _ rq _)

theorem readStep_objRead (s : State) (rq : Req) (obj off n : Nat) (ft : Bool) : readStep s (objRead s rq obj off n ft).1 := by
  have h := readStep_objReadM s rq obj off n ft
  unfold objRead
  split <;> rename_i heq <;> rw [heq] at h <;> exact h

/-- A write of an object keeps the canonical form. -/
theorem writeStep_objWriteM (s : State) (rq : Req) (obj off : Nat) (l : List PByte) :
    writeStep s (objWriteM s rq obj off l).1 := by
  have h := readStep_xlateAll s rq obj (off + l.length) true false (pieces off l.length)
  unfold objWriteM
  split <;> rename_i heq <;> rw [heq] at h
  · exact writeStep_of_read h
  · exact writeStep_trans (writeStep_of_read h) (writeStep_writeReq _ rq _ l)

theorem writeStep_objWrite (s : State) (rq : Req) (obj off : Nat) (bs : List Byte) (p : Bool) :
    writeStep s (objWrite s rq obj off bs p).1 := writeStep_objWriteM s rq obj off _

/-- An atomic update of an object keeps the canonical form. -/
theorem writeStep_objUpdate (s : State) (rq : Req) (obj off n : Nat) (f : List Byte → Option (List Byte)) :
    writeStep s (objUpdate s rq obj off n f).1 := by
  have h := readStep_xlateAll s rq obj (off + n) true false (pieces off n)
  unfold objUpdate
  split
  · rename_i heq; rw [heq] at h; exact writeStep_of_read h
  · rename_i heq; rw [heq] at h
    split
    · exact writeStep_of_read h
    · rename_i hk
      have hr := readStep_trans h (readStep_keyAll hk)
      dsimp only
      split
      · exact writeStep_of_read (readStep_trans hr (readStep_readPieces _ _ _))
      · split
        · exact writeStep_of_read (readStep_trans hr (readStep_compFault _ rq _ _))
        · exact writeStep_trans (writeStep_of_read hr) (writeStep_writePieces _ _ _ _)

/-- A read of a capability changes no byte of memory. -/
theorem readStep_objReadCap (s : State) (rq : Req) (obj off : Nat) : readStep s (objReadCap s rq obj off).1 := by
  have h := readStep_xlateAll s rq obj (off + 16) false false (pieces off 16)
  unfold objReadCap
  split <;> rename_i heq <;> rw [heq] at h
  · exact h
  · rename_i s1 ps
    have g := readStep_trans h (readStep_readReq s1 rq ps)
    split <;> rename_i heq' <;> rw [heq'] at g <;> exact g

/-- A write of a capability keeps the canonical form. -/
theorem writeStep_objWriteCap (s : State) (rq : Req) (obj off : Nat) (c : Cap) (p : Bool) :
    writeStep s (objWriteCap s rq obj off c p).1 := by
  have h := readStep_xlateAll s rq obj (off + 16) true false (pieces off 16)
  unfold objWriteCap
  split <;> rename_i heq <;> rw [heq] at h
  · exact writeStep_of_read h
  · rename_i s1 ps
    have g := writeStep_trans (writeStep_of_read h)
      (writeStep_writeReq s1 rq ps ((toBytes 16 c.bits.toNat).map fun b => (b, p)))
    split <;> rename_i heq' <;> rw [heq'] at g
    · exact g
    · split
      · split
        · exact writeStep_trans g (writeStep_setTag _ _ _)
        · exact g
      · exact g

theorem readStep_objTouch (s : State) (rq : Req) (obj off n : Nat) : readStep s (objTouch s rq obj off n).1 := by
  have h := readStep_xlateAll s rq obj (off + n) false false (pieces off n)
  unfold objTouch
  split <;> rename_i heq <;> rw [heq] at h <;> exact h

end Sys2Proof.Laws
end

