-- ==== Sys2Proof/Laws/Access.lean ====
section
/-! SUPPORT. What accesses through capabilities keep, and that every operation that writes memory keeps its canonical form. -/

namespace Sys2Proof.Laws

open Sys2Proof.Machine

/-! ### Reads through a capability -/

theorem readStep_readSegs (s : State) (rq : Req) (l : List WSeg) : readStep s (readSegs s rq l).1 := by
  induction l generalizing s with
  | nil => rfl
  | cons g r ih =>
    cases g with
    | byte v => exact ih s
    | req p => exact readStep_trans (readStep_readPiece s rq p) (ih _)

theorem readStep_windowData (s : State) (rq : Req) (x : Window) (off n : Nat) : readStep s (windowData s rq x off n).1 := by
  unfold windowData
  dsimp only
  split
  · rfl
  · rename_i hk
    exact readStep_trans (readStep_keyAll hk) (readStep_readSegs _ rq _)

theorem readStep_windowRead (s : State) (rq : Req) (x : Window) (off n : Nat) : readStep s (windowRead s rq x off n).1 := by
  unfold windowRead
  dsimp only
  have h := readStep_objReadM s rq x.kv.object off (min n (x.len * x.kvb - off)) false
  split
  · exact readStep_windowData s rq x off n
  · split <;> rename_i heq <;> rw [heq] at h
    · exact h
    · have g := readStep_windowData ‹State› rq x (off + min n (x.len * x.kvb - off)) (n - min n (x.len * x.kvb - off))
      split <;> rename_i heq' <;> rw [heq'] at g <;> exact readStep_trans h g

/-- A read through a capability changes no byte of memory, no scratchpad and no window. -/
theorem readStep_capReadM (s : State) (w : Warp) (c : Cap) (ea n : Nat) : readStep s (capReadM s w c ea n).1 := by
  unfold capReadM
  split
  · split <;> rfl
  · split
    · have h := readStep_objReadM s (reqOf w) (launchOfUnit s w).frames.object (frameOff s w + 0x4000 + ea) n false
      split <;> rename_i heq <;> rw [heq] at h <;> exact h
    · split
      · rfl
      · split
        · split
          · exact readStep_windowRead _ _ _ _ _
          · rfl
        · have h := readStep_objReadM s (reqOf w) c.object ea n false
          split <;> rename_i heq <;> rw [heq] at h <;> exact h

theorem readStep_capRead (s : State) (w : Warp) (c : Cap) (ea n : Nat) : readStep s (capRead s w c ea n).1 := by
  have h := readStep_capReadM s w c ea n
  unfold capRead
  split <;> rename_i heq <;> rw [heq] at h <;> exact h

/-- CLD's read changes no byte of memory. -/
theorem readStep_capReadCap (s : State) (w : Warp) (c : Cap) (ea : Nat) : readStep s (capReadCap s w c ea).1 := by
  unfold capReadCap
  split
  · split
    · rfl
    · have h := readStep_objReadCap s (reqOf w) c.object ea
      split <;> rename_i heq <;> rw [heq] at h <;> exact h
  · split
    · have h := readStep_objReadCap s (reqOf w) (launchOfUnit s w).frames.object (frameOff s w + 0x4000 + ea)
      split <;> rename_i heq <;> rw [heq] at h <;> exact h
    · have h := readStep_capRead s w c ea 16
      split <;> rename_i heq <;> rw [heq] at h <;> exact h

/-! ### Frames of the page pool and window pages -/

theorem writeStep_clearFrame (s : State) (a b c d : Nat) (h : a ≤ b) (g : c ≤ d) :
    writeStep s { s with mem := sclear s.mem a b, memPoison := sclear s.memPoison a b, tags := sclear s.tags c d } := by
  refine ⟨rfl, fun hm => ?_⟩
  rw [memoryOk_iff] at hm ⊢
  exact ⟨wf_sclear _ _ h hm.1, wf_sclear _ _ g hm.2.1, wf_sclear _ _ h hm.2.2⟩

theorem writeStep_zeroFrom (s : State) (f o : Nat) : writeStep s (zeroFrom s f o) := by
  refine ⟨rfl, fun hm => ?_⟩
  rw [memoryOk_iff] at hm ⊢
  have h : f * 65536 + min o 65536 ≤ f * 65536 + 65536 := by omega
  exact ⟨wf_sclear _ _ h hm.1, hm.2.1, wf_sclear _ _ h hm.2.2⟩

theorem writeStep_clearPage {s t : State} {x : Window} {g : WPage} (h : clearFrame s x g = some t) : writeStep s t := by
  unfold clearFrame at h
  obtain ⟨a, ha, rfl⟩ := Option.map_eq_some_iff.mp h
  exact writeStep_trans (writeStep_of_read (readStep_keyStep ha)) (writeStep_clearFrame _ _ _ _ _ (by omega) (by omega))

theorem writeStep_takeFrame (s : State) (rq : Req) (x : Window) (p : Nat) : writeStep s (takeFrame s rq x p).1 := by
  unfold takeFrame
  dsimp only
  have h1 := writeStep_of_read (readStep_objRead s rq x.pool.object 0 12 false)
  split
  · rename_i heq; rw [heq] at h1; exact h1
  · rename_i s1 hb q heq; rw [heq] at h1
    split
    · exact h1
    · have h2 := writeStep_of_read (readStep_objRead s1 rq x.pool.object (0x10 + 4 * (fieldAt hb 0 4 - 1)) 4 false)
      split
      · rename_i heq; rw [heq] at h2; exact writeStep_trans h1 h2
      · rename_i s2 fb q heq; rw [heq] at h2
        have h3 := writeStep_objWrite s2 rq x.pool.object 0 (toBytes 4 (fieldAt hb 0 4 - 1)) false
        split
        · rename_i heq; rw [heq] at h3; exact writeStep_trans h1 (writeStep_trans h2 h3)
        · rename_i heq; rw [heq] at h3
          have h := writeStep_trans h1 (writeStep_trans h2 h3)
          split
          · exact h
          · rename_i heq; exact writeStep_trans h (writeStep_clearPage heq)

theorem writeStep_giveFrame (s : State) (rq : Req) (pool : Cap) (f : Nat) : writeStep s (giveFrame s rq pool f).1 := by
  unfold giveFrame
  dsimp only
  have h1 := writeStep_of_read (readStep_objRead s rq pool.object 0 4 false)
  split
  · rename_i heq; rw [heq] at h1; exact h1
  · rename_i s1 cb q heq; rw [heq] at h1
    have h2 := writeStep_objWrite s1 rq pool.object (0x10 + 4 * ofBytes cb) (toBytes 4 f) false
    split
    · rename_i heq; rw [heq] at h2; exact writeStep_trans h1 h2
    · rename_i s2 _ heq; rw [heq] at h2
      have h3 := writeStep_objWrite s2 rq pool.object 0 (toBytes 4 (ofBytes cb + 1)) false
      split <;> rename_i heq <;> rw [heq] at h3 <;> exact writeStep_trans h1 (writeStep_trans h2 h3)

theorem writeStep_pushFrames (s : State) (rq : Req) (pool : Cap) (l : List Nat) : writeStep s (pushFrames s rq pool l).1 := by
  induction l generalizing s with
  | nil => exact writeStep_refl _
  | cons f r ih =>
    unfold pushFrames
    have g := writeStep_giveFrame s rq pool f
    split <;> rename_i heq <;> rw [heq] at g
    · exact g
    · exact writeStep_trans g (ih _)

theorem writeStep_giveFrames (s : State) (rq : Req) (pool : Cap) (l : List Nat) : writeStep s (giveFrames s rq pool l).1 := by
  unfold giveFrames
  split
  · exact writeStep_of_read (readStep_keepCounts s _)
  · exact writeStep_pushFrames s rq pool l

theorem storeStep_windows (s : State) (l : Store Window) : storeStep s { s with windows := l } := ⟨rfl, id⟩

theorem storeStep_takePages (s : State) (rq : Req) (slot : Nat) (l : List (Bool × Nat)) :
    storeStep s (takePages s rq slot l).1 := by
  induction l generalizing s with
  | nil => exact storeStep_refl s
  | cons p r ih =>
    obtain ⟨sn, p⟩ := p
    unfold takePages
    split
    · exact storeStep_refl s
    · rename_i x _
      by_cases hp : (pageOf (x.list sn) p).isSome = true
      · rw [if_pos hp]; exact ih s
      · rw [if_neg hp]
        have h := storeStep_of_write (writeStep_takeFrame s rq x p)
        split <;> rename_i heq <;> rw [heq] at h
        · exact h
        · exact storeStep_trans h (storeStep_trans (storeStep_windows _ _) (ih _))

theorem storeStep_noteSnaps (s : State) (rq : Req) (slot : Nat) (l : List (Nat × Piece)) : storeStep s (noteSnaps s rq slot l) := by
  unfold noteSnaps
  induction l generalizing s with
  | nil => exact storeStep_refl s
  | cons q r ih =>
    rw [List.foldl_cons]
    refine storeStep_trans ?_ (ih _)
    split
    · exact storeStep_windows _ _
    · exact storeStep_refl s

theorem storeStep_windowPut (s : State) (rq : Req) (slot off : Nat) (l : List PByte) : storeStep s (windowPut s rq slot off l).1 := by
  unfold windowPut
  split
  · exact storeStep_refl s
  · dsimp only
    split <;> rename_i heq
    · exact storeStep_of_write (writeStep_of_writeReq heq)
    · have h := storeStep_of_write (writeStep_of_writeReq heq)
      split
      · exact storeStep_trans h (storeStep_noteSnaps _ rq slot _)
      · exact h

theorem storeStep_windowWrite (s : State) (rq : Req) (slot off : Nat) (l : List PByte) :
    storeStep s (windowWrite s rq slot off l).1 := by
  have h := storeStep_takePages s rq slot (pagesTouched off l.length)
  unfold windowWrite
  split <;> rename_i heq <;> rw [heq] at h
  · exact h
  · exact storeStep_trans h (storeStep_windowPut _ rq slot off l)

/-! ### Writes through a capability -/

theorem storeStep_spmWriteM {s t : State} {g : Nat} {c : Nat × Nat × Nat} {o : Int} {l : List PByte}
    (h : spmWriteM s g c o l = some t) : storeStep s t := by
  unfold spmWriteM at h
  split at h
  · cases h
  · split at h
    · cases h; exact ⟨rfl, id⟩
    · cases h

/-- A write through a capability keeps memory's canonical form. -/
theorem storeStep_capWriteM (s : State) (w : Warp) (c : Cap) (ea : Nat) (l : List PByte) :
    storeStep s (capWriteM s w c ea l).1 := by
  unfold capWriteM
  split
  · split
    · rename_i h; exact storeStep_spmWriteM h
    · exact storeStep_refl s
  · split
    · have h := storeStep_of_write
        (writeStep_objWriteM s (reqOf w) (launchOfUnit s w).frames.object (frameOff s w + 0x4000 + ea) l)
      split <;> rename_i heq <;> rw [heq] at h <;> exact h
    · split
      · exact storeStep_refl s
      · split
        · split
          · exact storeStep_windowWrite _ _ _ _ _
          · exact storeStep_refl s
        · have h := storeStep_of_write (writeStep_objWriteM s (reqOf w) c.object ea l)
          split <;> rename_i heq <;> rw [heq] at h <;> exact h

theorem storeStep_capWrite (s : State) (w : Warp) (c : Cap) (ea : Nat) (bs : List Byte) (p : Bool) :
    storeStep s (capWrite s w c ea bs p).1 := storeStep_capWriteM s w c ea _

/-- An atomic through a capability keeps memory's canonical form. -/
theorem storeStep_capUpdate (s : State) (w : Warp) (c : Cap) (ea n : Nat) (f : List Byte → Option (List Byte)) :
    storeStep s (capUpdate s w c ea n f).1 := by
  unfold capUpdate
  split
  · have h := storeStep_of_write (writeStep_of_read (readStep_capRead s w c ea n))
    split
    · rename_i heq; rw [heq] at h; exact h
    · rename_i s1 old p heq; rw [heq] at h
      split
      · exact h
      · rename_i new _
        have g := storeStep_capWrite s1 w c ea new p
        split <;> rename_i heq <;> rw [heq] at g <;> exact storeStep_trans h g
  · split
    · exact storeStep_refl s
    · have h := storeStep_of_write (writeStep_objUpdate s (reqOf w) c.object ea n f)
      split <;> rename_i heq <;> rw [heq] at h <;> exact h

/-- CST's write keeps memory's canonical form. -/
theorem storeStep_capWriteCap (s : State) (w : Warp) (c : Cap) (ea : Nat) (v : Cap) (p : Bool) :
    storeStep s (capWriteCap s w c ea v p).1 := by
  unfold capWriteCap
  split
  · split
    · exact storeStep_refl s
    · have h := storeStep_of_write (writeStep_objWriteCap s (reqOf w) c.object ea v p)
      split <;> rename_i heq <;> rw [heq] at h <;> exact h
  · split
    · have h := storeStep_of_write
        (writeStep_objWriteCap s (reqOf w) (launchOfUnit s w).frames.object (frameOff s w + 0x4000 + ea) v p)
      split <;> rename_i heq <;> rw [heq] at h <;> exact h
    · exact storeStep_capWrite _ _ _ _ _ _

/-! ### The other operations that write memory -/

theorem writeStep_dropTlb (s : State) (asid : Nat) (obj : Option Nat) (first n : Nat) : writeStep s (dropTlb s asid obj first n) :=
  writeStep_of_read rfl

/-- Linking a window's pages keeps memory's canonical form. -/
theorem writeStep_linkAll {asid : Nat} {x : Window} {l1 attr : Nat} {l : List Nat} {s t : State} {r : List Nat}
    (h : linkAll asid x l1 attr l s = .ok (t, r)) : writeStep s t := by
  induction l generalizing s t r with
  | nil => cases h; exact writeStep_refl s
  | cons p q ih =>
    unfold linkAll at h
    dsimp only at h
    split at h
    · cases h
    · split at h
      · cases h
      · rename_i heq
        cases h
        exact writeStep_trans (writeStep_zeroFrom _ _ _) (writeStep_trans (writeStep_putLeaf _ _ _)
          (writeStep_trans (writeStep_dropTlb _ _ _ _ _) (ih heq)))

/-- The write of a context's state to its descriptor keeps memory's canonical form. -/
theorem memoryOk_writeDesc {s : State} (asid : Nat) (h : memoryOk s = true) : memoryOk (writeDesc s asid) = true := by
  unfold writeDesc
  dsimp only
  split
  · exact (writeStep_objWrite _ _ _ _ _ _).2 h
  · exact h

/-- A context fault, which writes the context's descriptor, keeps memory's canonical form. -/
theorem memoryOk_ctxFault {s : State} (asid code src : Nat) (h : memoryOk s = true) :
    memoryOk (ctxFault s asid code src) = true := by
  unfold ctxFault
  dsimp only
  split <;> first
    | exact h
    | exact memoryOk_writeDesc asid h

/-- The loader's write of a page keeps memory's canonical form. -/
theorem memoryOk_bindPage {s : State} (asid p : Nat) (bs : List Byte) (h : memoryOk s = true) :
    memoryOk (bindPage s asid p bs).1 = true := by
  unfold bindPage
  split
  · exact h
  · dsimp only
    split <;> rename_i heq <;> have g := (writeStep_of_writeReq heq).2 h
    · exact (writeStep_putBytes _ _ _ _).2 g
    · exact memoryOk_ctxFault asid 1 0 g
    · exact g

theorem writeStep_hostPut (s : State) (a : Nat) (bs : List Byte) : writeStep s (hostPut s a bs) := writeStep_putBytes _ _ _ _

theorem writeStep_freeObject (s : State) (asid obj : Nat) : writeStep s (freeObject s asid obj) :=
  writeStep_trans (writeStep_putBytes _ _ _ _) (writeStep_dropTlb _ _ _ _ _)

theorem writeStep_makeData {s t : State} {asid : Nat} {record : Cap} {obj entry : Nat} {bs : List Byte} {c : Cap}
    (h : makeData s asid record obj entry bs = some (t, c)) : writeStep s t := by
  unfold makeData at h
  dsimp only at h
  split at h
  · cases h
  · split at h
    · have g := writeStep_trans
        (writeStep_putBytes s ((sget 0 s.xlatCad asid).toNat + 16 * obj) (toBytes 16 entry) false)
        (writeStep_objWrite _ (reqEngine asid) obj 0 bs false)
      split at h
      · rename_i heq
        rw [heq] at g
        cases h
        exact g
      · cases h
    · cases h

/-- Clearing a frame key keeps memory's canonical form. -/
theorem writeStep_clearKey (s : State) (v : Nat) : writeStep s (clearKey s v) := by
  unfold clearKey
  dsimp only
  split
  · refine ⟨rfl, fun hm => ?_⟩
    rw [memoryOk_iff] at hm ⊢
    refine ⟨wf_sclear _ _ (by omega) hm.1, ?_, wf_sclear _ _ (by omega) hm.2.2⟩
    show Store.wf false (if _ then _ else _) = true
    split
    · exact wf_sclear _ _ (Nat.div_le_div_right (by omega)) hm.2.1
    · exact hm.2.1
  · exact writeStep_refl s

theorem wf_outsideOf {α : Type} [DecidableEq α] {d : α} {l : Store α} (h : Store.wf d l = true) : Store.wf d (outsideOf l) = true :=
  wf_sbelow _ (wf_sfrom _ h)

theorem memoryOk_powerOn {s : State} (b : Nat) (h : memoryOk s = true) : memoryOk (powerOn s b) = true := by
  rw [memoryOk_iff] at h ⊢
  exact ⟨wf_outsideOf h.1, rfl, wf_outsideOf h.2.2⟩

theorem memoryOk_clearDevice {s : State} (h : memoryOk s = true) : memoryOk (clearDevice s) = true := by
  rw [memoryOk_iff] at h ⊢
  exact ⟨wf_outsideOf h.1, rfl, wf_outsideOf h.2.2⟩

/-- What the host and other devices write keeps memory's canonical form. -/
theorem writeStep_writeOutside (s : State) (l : List (Nat × List Byte)) : writeStep s (writeOutside s l) := by
  unfold writeOutside
  induction l generalizing s with
  | nil => exact writeStep_refl s
  | cons p r ih =>
    refine writeStep_trans (b := if 2 ^ 64 ≤ p.1 && p.1 + p.2.length ≤ 4 * 2 ^ 64 then putBytes s p.1 p.2 false else s) ?_ (ih _)
    split
    · exact writeStep_putBytes _ _ _ _
    · exact writeStep_refl s

/-- The state after reset has memory in canonical form. -/
theorem memoryWf_reset : Memory.wf State.reset.mem = true := rfl

end Sys2Proof.Laws
end

