-- ==== Sys2Proof/Laws/State.lean ====
section
/-! SUPPORT. What each update of the state and of a unit leaves in each field. -/

namespace Sys2Proof.Laws

open Sys2Proof.Machine

/-! ### `modUnit` -/

@[simp] theorem modUnit_mem (s : State) (u : Nat) (f : Warp → Warp) : (modUnit s u f).mem = s.mem := rfl
@[simp] theorem modUnit_tags (s : State) (u : Nat) (f : Warp → Warp) : (modUnit s u f).tags = s.tags := rfl
@[simp] theorem modUnit_memPoison (s : State) (u : Nat) (f : Warp → Warp) : (modUnit s u f).memPoison = s.memPoison := rfl
@[simp] theorem modUnit_units (s : State) (u : Nat) (f : Warp → Warp) : (modUnit s u f).units = smod s.units u f := rfl
@[simp] theorem modUnit_groups (s : State) (u : Nat) (f : Warp → Warp) : (modUnit s u f).groups = s.groups := rfl
@[simp] theorem modUnit_launches (s : State) (u : Nat) (f : Warp → Warp) : (modUnit s u f).launches = s.launches := rfl
@[simp] theorem modUnit_ctxs (s : State) (u : Nat) (f : Warp → Warp) : (modUnit s u f).ctxs = s.ctxs := rfl
@[simp] theorem modUnit_kernels (s : State) (u : Nat) (f : Warp → Warp) : (modUnit s u f).kernels = s.kernels := rfl
@[simp] theorem modUnit_chains (s : State) (u : Nat) (f : Warp → Warp) : (modUnit s u f).chains = s.chains := rfl
@[simp] theorem modUnit_gangs (s : State) (u : Nat) (f : Warp → Warp) : (modUnit s u f).gangs = s.gangs := rfl
@[simp] theorem modUnit_gangParts (s : State) (u : Nat) (f : Warp → Warp) : (modUnit s u f).gangParts = s.gangParts := rfl
@[simp] theorem modUnit_slots (s : State) (u : Nat) (f : Warp → Warp) : (modUnit s u f).slots = s.slots := rfl
@[simp] theorem modUnit_windows (s : State) (u : Nat) (f : Warp → Warp) : (modUnit s u f).windows = s.windows := rfl
@[simp] theorem modUnit_xlatCad (s : State) (u : Nat) (f : Warp → Warp) : (modUnit s u f).xlatCad = s.xlatCad := rfl
@[simp] theorem modUnit_xlatPt (s : State) (u : Nat) (f : Warp → Warp) : (modUnit s u f).xlatPt = s.xlatPt := rfl
@[simp] theorem modUnit_tlb1 (s : State) (u : Nat) (f : Warp → Warp) : (modUnit s u f).tlb1 = s.tlb1 := rfl
@[simp] theorem modUnit_tlb2 (s : State) (u : Nat) (f : Warp → Warp) : (modUnit s u f).tlb2 = s.tlb2 := rfl
@[simp] theorem modUnit_frameKeys (s : State) (u : Nat) (f : Warp → Warp) : (modUnit s u f).frameKeys = s.frameKeys := rfl
@[simp] theorem modUnit_heat (s : State) (u : Nat) (f : Warp → Warp) : (modUnit s u f).heat = s.heat := rfl
@[simp] theorem modUnit_lfsr (s : State) (u : Nat) (f : Warp → Warp) : (modUnit s u f).lfsr = s.lfsr := rfl
@[simp] theorem modUnit_heatCtl (s : State) (u : Nat) (f : Warp → Warp) : (modUnit s u f).heatCtl = s.heatCtl := rfl
@[simp] theorem modUnit_arenas (s : State) (u : Nat) (f : Warp → Warp) : (modUnit s u f).arenas = s.arenas := rfl
@[simp] theorem modUnit_blocks (s : State) (u : Nat) (f : Warp → Warp) : (modUnit s u f).blocks = s.blocks := rfl
@[simp] theorem modUnit_failed (s : State) (u : Nat) (f : Warp → Warp) : (modUnit s u f).failed = s.failed := rfl
@[simp] theorem modUnit_conn (s : State) (u : Nat) (f : Warp → Warp) : (modUnit s u f).conn = s.conn := rfl
@[simp] theorem modUnit_partReq (s : State) (u : Nat) (f : Warp → Warp) : (modUnit s u f).partReq = s.partReq := rfl
@[simp] theorem modUnit_partAsid (s : State) (u : Nat) (f : Warp → Warp) : (modUnit s u f).partAsid = s.partAsid := rfl
@[simp] theorem modUnit_connViol (s : State) (u : Nat) (f : Warp → Warp) : (modUnit s u f).connViol = s.connViol := rfl
@[simp] theorem modUnit_domainId (s : State) (u : Nat) (f : Warp → Warp) : (modUnit s u f).domainId = s.domainId := rfl
@[simp] theorem modUnit_startCtl (s : State) (u : Nat) (f : Warp → Warp) : (modUnit s u f).startCtl = s.startCtl := rfl
@[simp] theorem modUnit_bootStat (s : State) (u : Nat) (f : Warp → Warp) : (modUnit s u f).bootStat = s.bootStat := rfl
@[simp] theorem modUnit_stretchCnt (s : State) (u : Nat) (f : Warp → Warp) : (modUnit s u f).stretchCnt = s.stretchCnt := rfl
@[simp] theorem modUnit_vdPart (s : State) (u : Nat) (f : Warp → Warp) : (modUnit s u f).vdPart = s.vdPart := rfl
@[simp] theorem modUnit_vds (s : State) (u : Nat) (f : Warp → Warp) : (modUnit s u f).vds = s.vds := rfl
@[simp] theorem modUnit_holding (s : State) (u : Nat) (f : Warp → Warp) : (modUnit s u f).holding = s.holding := rfl
@[simp] theorem modUnit_waitingFaults (s : State) (u : Nat) (f : Warp → Warp) : (modUnit s u f).waitingFaults = s.waitingFaults := rfl
@[simp] theorem modUnit_arbiter (s : State) (u : Nat) (f : Warp → Warp) : (modUnit s u f).arbiter = s.arbiter := rfl
@[simp] theorem modUnit_arbPos (s : State) (u : Nat) (f : Warp → Warp) : (modUnit s u f).arbPos = s.arbPos := rfl
@[simp] theorem modUnit_tokens (s : State) (u : Nat) (f : Warp → Warp) : (modUnit s u f).tokens = s.tokens := rfl
@[simp] theorem modUnit_nextToken (s : State) (u : Nat) (f : Warp → Warp) : (modUnit s u f).nextToken = s.nextToken := rfl
@[simp] theorem modUnit_answersIgnored (s : State) (u : Nat) (f : Warp → Warp) : (modUnit s u f).answersIgnored = s.answersIgnored := rfl
@[simp] theorem modUnit_irqs (s : State) (u : Nat) (f : Warp → Warp) : (modUnit s u f).irqs = s.irqs := rfl
@[simp] theorem modUnit_cyc (s : State) (u : Nat) (f : Warp → Warp) : (modUnit s u f).cyc = s.cyc := rfl
@[simp] theorem modUnit_time (s : State) (u : Nat) (f : Warp → Warp) : (modUnit s u f).time = s.time := rfl
@[simp] theorem modUnit_stretch (s : State) (u : Nat) (f : Warp → Warp) : (modUnit s u f).stretch = s.stretch := rfl
@[simp] theorem modUnit_links (s : State) (u : Nat) (f : Warp → Warp) : (modUnit s u f).links = s.links := rfl
@[simp] theorem modUnit_offPtr (s : State) (u : Nat) (f : Warp → Warp) : (modUnit s u f).offPtr = s.offPtr := rfl
@[simp] theorem modUnit_slotPtr (s : State) (u : Nat) (f : Warp → Warp) : (modUnit s u f).slotPtr = s.slotPtr := rfl
@[simp] theorem modUnit_sampPtr (s : State) (u : Nat) (f : Warp → Warp) : (modUnit s u f).sampPtr = s.sampPtr := rfl
@[simp] theorem modUnit_image (s : State) (u : Nat) (f : Warp → Warp) : (modUnit s u f).image = s.image := rfl
@[simp] theorem modUnit_absentCores (s : State) (u : Nat) (f : Warp → Warp) : (modUnit s u f).absentCores = s.absentCores := rfl
@[simp] theorem modUnit_absentOff (s : State) (u : Nat) (f : Warp → Warp) : (modUnit s u f).absentOff = s.absentOff := rfl
@[simp] theorem modUnit_governed (s : State) (u : Nat) (f : Warp → Warp) : (modUnit s u f).governed = s.governed := rfl
@[simp] theorem modUnit_devices (s : State) (u : Nat) (f : Warp → Warp) : (modUnit s u f).devices = s.devices := rfl
@[simp] theorem modUnit_portables (s : State) (u : Nat) (f : Warp → Warp) : (modUnit s u f).portables = s.portables := rfl
@[simp] theorem modUnit_hostReply (s : State) (u : Nat) (f : Warp → Warp) : (modUnit s u f).hostReply = s.hostReply := rfl
@[simp] theorem modUnit_hostPoison (s : State) (u : Nat) (f : Warp → Warp) : (modUnit s u f).hostPoison = s.hostPoison := rfl
@[simp] theorem modUnit_turn (s : State) (u : Nat) (f : Warp → Warp) : (modUnit s u f).turn = s.turn := rfl
@[simp] theorem modUnit_ev (s : State) (u : Nat) (f : Warp → Warp) : (modUnit s u f).ev = s.ev := rfl
@[simp] theorem modUnit_agenda (s : State) (u : Nat) (f : Warp → Warp) : (modUnit s u f).agenda = s.agenda := rfl
@[simp] theorem modUnit_fresh (s : State) (u : Nat) (f : Warp → Warp) : (modUnit s u f).fresh = s.fresh := rfl
@[simp] theorem modUnit_nextId (s : State) (u : Nat) (f : Warp → Warp) : (modUnit s u f).nextId = s.nextId := rfl

/-! ### `modGroup` -/

@[simp] theorem modGroup_mem (s : State) (g : Nat) (f : Group → Group) : (modGroup s g f).mem = s.mem := rfl
@[simp] theorem modGroup_tags (s : State) (g : Nat) (f : Group → Group) : (modGroup s g f).tags = s.tags := rfl
@[simp] theorem modGroup_memPoison (s : State) (g : Nat) (f : Group → Group) : (modGroup s g f).memPoison = s.memPoison := rfl
@[simp] theorem modGroup_units (s : State) (g : Nat) (f : Group → Group) : (modGroup s g f).units = s.units := rfl
@[simp] theorem modGroup_groups (s : State) (g : Nat) (f : Group → Group) : (modGroup s g f).groups = smod s.groups g f := rfl
@[simp] theorem modGroup_launches (s : State) (g : Nat) (f : Group → Group) : (modGroup s g f).launches = s.launches := rfl
@[simp] theorem modGroup_ctxs (s : State) (g : Nat) (f : Group → Group) : (modGroup s g f).ctxs = s.ctxs := rfl
@[simp] theorem modGroup_kernels (s : State) (g : Nat) (f : Group → Group) : (modGroup s g f).kernels = s.kernels := rfl
@[simp] theorem modGroup_chains (s : State) (g : Nat) (f : Group → Group) : (modGroup s g f).chains = s.chains := rfl
@[simp] theorem modGroup_gangs (s : State) (g : Nat) (f : Group → Group) : (modGroup s g f).gangs = s.gangs := rfl
@[simp] theorem modGroup_gangParts (s : State) (g : Nat) (f : Group → Group) : (modGroup s g f).gangParts = s.gangParts := rfl
@[simp] theorem modGroup_slots (s : State) (g : Nat) (f : Group → Group) : (modGroup s g f).slots = s.slots := rfl
@[simp] theorem modGroup_windows (s : State) (g : Nat) (f : Group → Group) : (modGroup s g f).windows = s.windows := rfl
@[simp] theorem modGroup_xlatCad (s : State) (g : Nat) (f : Group → Group) : (modGroup s g f).xlatCad = s.xlatCad := rfl
@[simp] theorem modGroup_xlatPt (s : State) (g : Nat) (f : Group → Group) : (modGroup s g f).xlatPt = s.xlatPt := rfl
@[simp] theorem modGroup_tlb1 (s : State) (g : Nat) (f : Group → Group) : (modGroup s g f).tlb1 = s.tlb1 := rfl
@[simp] theorem modGroup_tlb2 (s : State) (g : Nat) (f : Group → Group) : (modGroup s g f).tlb2 = s.tlb2 := rfl
@[simp] theorem modGroup_frameKeys (s : State) (g : Nat) (f : Group → Group) : (modGroup s g f).frameKeys = s.frameKeys := rfl
@[simp] theorem modGroup_heat (s : State) (g : Nat) (f : Group → Group) : (modGroup s g f).heat = s.heat := rfl
@[simp] theorem modGroup_lfsr (s : State) (g : Nat) (f : Group → Group) : (modGroup s g f).lfsr = s.lfsr := rfl
@[simp] theorem modGroup_heatCtl (s : State) (g : Nat) (f : Group → Group) : (modGroup s g f).heatCtl = s.heatCtl := rfl
@[simp] theorem modGroup_arenas (s : State) (g : Nat) (f : Group → Group) : (modGroup s g f).arenas = s.arenas := rfl
@[simp] theorem modGroup_blocks (s : State) (g : Nat) (f : Group → Group) : (modGroup s g f).blocks = s.blocks := rfl
@[simp] theorem modGroup_failed (s : State) (g : Nat) (f : Group → Group) : (modGroup s g f).failed = s.failed := rfl
@[simp] theorem modGroup_conn (s : State) (g : Nat) (f : Group → Group) : (modGroup s g f).conn = s.conn := rfl
@[simp] theorem modGroup_partReq (s : State) (g : Nat) (f : Group → Group) : (modGroup s g f).partReq = s.partReq := rfl
@[simp] theorem modGroup_partAsid (s : State) (g : Nat) (f : Group → Group) : (modGroup s g f).partAsid = s.partAsid := rfl
@[simp] theorem modGroup_connViol (s : State) (g : Nat) (f : Group → Group) : (modGroup s g f).connViol = s.connViol := rfl
@[simp] theorem modGroup_domainId (s : State) (g : Nat) (f : Group → Group) : (modGroup s g f).domainId = s.domainId := rfl
@[simp] theorem modGroup_startCtl (s : State) (g : Nat) (f : Group → Group) : (modGroup s g f).startCtl = s.startCtl := rfl
@[simp] theorem modGroup_bootStat (s : State) (g : Nat) (f : Group → Group) : (modGroup s g f).bootStat = s.bootStat := rfl
@[simp] theorem modGroup_stretchCnt (s : State) (g : Nat) (f : Group → Group) : (modGroup s g f).stretchCnt = s.stretchCnt := rfl
@[simp] theorem modGroup_vdPart (s : State) (g : Nat) (f : Group → Group) : (modGroup s g f).vdPart = s.vdPart := rfl
@[simp] theorem modGroup_vds (s : State) (g : Nat) (f : Group → Group) : (modGroup s g f).vds = s.vds := rfl
@[simp] theorem modGroup_holding (s : State) (g : Nat) (f : Group → Group) : (modGroup s g f).holding = s.holding := rfl
@[simp] theorem modGroup_waitingFaults (s : State) (g : Nat) (f : Group → Group) : (modGroup s g f).waitingFaults = s.waitingFaults := rfl
@[simp] theorem modGroup_arbiter (s : State) (g : Nat) (f : Group → Group) : (modGroup s g f).arbiter = s.arbiter := rfl
@[simp] theorem modGroup_arbPos (s : State) (g : Nat) (f : Group → Group) : (modGroup s g f).arbPos = s.arbPos := rfl
@[simp] theorem modGroup_tokens (s : State) (g : Nat) (f : Group → Group) : (modGroup s g f).tokens = s.tokens := rfl
@[simp] theorem modGroup_nextToken (s : State) (g : Nat) (f : Group → Group) : (modGroup s g f).nextToken = s.nextToken := rfl
@[simp] theorem modGroup_answersIgnored (s : State) (g : Nat) (f : Group → Group) : (modGroup s g f).answersIgnored = s.answersIgnored := rfl
@[simp] theorem modGroup_irqs (s : State) (g : Nat) (f : Group → Group) : (modGroup s g f).irqs = s.irqs := rfl
@[simp] theorem modGroup_cyc (s : State) (g : Nat) (f : Group → Group) : (modGroup s g f).cyc = s.cyc := rfl
@[simp] theorem modGroup_time (s : State) (g : Nat) (f : Group → Group) : (modGroup s g f).time = s.time := rfl
@[simp] theorem modGroup_stretch (s : State) (g : Nat) (f : Group → Group) : (modGroup s g f).stretch = s.stretch := rfl
@[simp] theorem modGroup_links (s : State) (g : Nat) (f : Group → Group) : (modGroup s g f).links = s.links := rfl
@[simp] theorem modGroup_offPtr (s : State) (g : Nat) (f : Group → Group) : (modGroup s g f).offPtr = s.offPtr := rfl
@[simp] theorem modGroup_slotPtr (s : State) (g : Nat) (f : Group → Group) : (modGroup s g f).slotPtr = s.slotPtr := rfl
@[simp] theorem modGroup_sampPtr (s : State) (g : Nat) (f : Group → Group) : (modGroup s g f).sampPtr = s.sampPtr := rfl
@[simp] theorem modGroup_image (s : State) (g : Nat) (f : Group → Group) : (modGroup s g f).image = s.image := rfl
@[simp] theorem modGroup_absentCores (s : State) (g : Nat) (f : Group → Group) : (modGroup s g f).absentCores = s.absentCores := rfl
@[simp] theorem modGroup_absentOff (s : State) (g : Nat) (f : Group → Group) : (modGroup s g f).absentOff = s.absentOff := rfl
@[simp] theorem modGroup_governed (s : State) (g : Nat) (f : Group → Group) : (modGroup s g f).governed = s.governed := rfl
@[simp] theorem modGroup_devices (s : State) (g : Nat) (f : Group → Group) : (modGroup s g f).devices = s.devices := rfl
@[simp] theorem modGroup_portables (s : State) (g : Nat) (f : Group → Group) : (modGroup s g f).portables = s.portables := rfl
@[simp] theorem modGroup_hostReply (s : State) (g : Nat) (f : Group → Group) : (modGroup s g f).hostReply = s.hostReply := rfl
@[simp] theorem modGroup_hostPoison (s : State) (g : Nat) (f : Group → Group) : (modGroup s g f).hostPoison = s.hostPoison := rfl
@[simp] theorem modGroup_turn (s : State) (g : Nat) (f : Group → Group) : (modGroup s g f).turn = s.turn := rfl
@[simp] theorem modGroup_ev (s : State) (g : Nat) (f : Group → Group) : (modGroup s g f).ev = s.ev := rfl
@[simp] theorem modGroup_agenda (s : State) (g : Nat) (f : Group → Group) : (modGroup s g f).agenda = s.agenda := rfl
@[simp] theorem modGroup_fresh (s : State) (g : Nat) (f : Group → Group) : (modGroup s g f).fresh = s.fresh := rfl
@[simp] theorem modGroup_nextId (s : State) (g : Nat) (f : Group → Group) : (modGroup s g f).nextId = s.nextId := rfl

/-! ### `modLaunch` -/

@[simp] theorem modLaunch_mem (s : State) (l : Nat) (f : Launch → Launch) : (modLaunch s l f).mem = s.mem := rfl
@[simp] theorem modLaunch_tags (s : State) (l : Nat) (f : Launch → Launch) : (modLaunch s l f).tags = s.tags := rfl
@[simp] theorem modLaunch_memPoison (s : State) (l : Nat) (f : Launch → Launch) : (modLaunch s l f).memPoison = s.memPoison := rfl
@[simp] theorem modLaunch_units (s : State) (l : Nat) (f : Launch → Launch) : (modLaunch s l f).units = s.units := rfl
@[simp] theorem modLaunch_groups (s : State) (l : Nat) (f : Launch → Launch) : (modLaunch s l f).groups = s.groups := rfl
@[simp] theorem modLaunch_launches (s : State) (l : Nat) (f : Launch → Launch) : (modLaunch s l f).launches = smod s.launches l f := rfl
@[simp] theorem modLaunch_ctxs (s : State) (l : Nat) (f : Launch → Launch) : (modLaunch s l f).ctxs = s.ctxs := rfl
@[simp] theorem modLaunch_kernels (s : State) (l : Nat) (f : Launch → Launch) : (modLaunch s l f).kernels = s.kernels := rfl
@[simp] theorem modLaunch_chains (s : State) (l : Nat) (f : Launch → Launch) : (modLaunch s l f).chains = s.chains := rfl
@[simp] theorem modLaunch_gangs (s : State) (l : Nat) (f : Launch → Launch) : (modLaunch s l f).gangs = s.gangs := rfl
@[simp] theorem modLaunch_gangParts (s : State) (l : Nat) (f : Launch → Launch) : (modLaunch s l f).gangParts = s.gangParts := rfl
@[simp] theorem modLaunch_slots (s : State) (l : Nat) (f : Launch → Launch) : (modLaunch s l f).slots = s.slots := rfl
@[simp] theorem modLaunch_windows (s : State) (l : Nat) (f : Launch → Launch) : (modLaunch s l f).windows = s.windows := rfl
@[simp] theorem modLaunch_xlatCad (s : State) (l : Nat) (f : Launch → Launch) : (modLaunch s l f).xlatCad = s.xlatCad := rfl
@[simp] theorem modLaunch_xlatPt (s : State) (l : Nat) (f : Launch → Launch) : (modLaunch s l f).xlatPt = s.xlatPt := rfl
@[simp] theorem modLaunch_tlb1 (s : State) (l : Nat) (f : Launch → Launch) : (modLaunch s l f).tlb1 = s.tlb1 := rfl
@[simp] theorem modLaunch_tlb2 (s : State) (l : Nat) (f : Launch → Launch) : (modLaunch s l f).tlb2 = s.tlb2 := rfl
@[simp] theorem modLaunch_frameKeys (s : State) (l : Nat) (f : Launch → Launch) : (modLaunch s l f).frameKeys = s.frameKeys := rfl
@[simp] theorem modLaunch_heat (s : State) (l : Nat) (f : Launch → Launch) : (modLaunch s l f).heat = s.heat := rfl
@[simp] theorem modLaunch_lfsr (s : State) (l : Nat) (f : Launch → Launch) : (modLaunch s l f).lfsr = s.lfsr := rfl
@[simp] theorem modLaunch_heatCtl (s : State) (l : Nat) (f : Launch → Launch) : (modLaunch s l f).heatCtl = s.heatCtl := rfl
@[simp] theorem modLaunch_arenas (s : State) (l : Nat) (f : Launch → Launch) : (modLaunch s l f).arenas = s.arenas := rfl
@[simp] theorem modLaunch_blocks (s : State) (l : Nat) (f : Launch → Launch) : (modLaunch s l f).blocks = s.blocks := rfl
@[simp] theorem modLaunch_failed (s : State) (l : Nat) (f : Launch → Launch) : (modLaunch s l f).failed = s.failed := rfl
@[simp] theorem modLaunch_conn (s : State) (l : Nat) (f : Launch → Launch) : (modLaunch s l f).conn = s.conn := rfl
@[simp] theorem modLaunch_partReq (s : State) (l : Nat) (f : Launch → Launch) : (modLaunch s l f).partReq = s.partReq := rfl
@[simp] theorem modLaunch_partAsid (s : State) (l : Nat) (f : Launch → Launch) : (modLaunch s l f).partAsid = s.partAsid := rfl
@[simp] theorem modLaunch_connViol (s : State) (l : Nat) (f : Launch → Launch) : (modLaunch s l f).connViol = s.connViol := rfl
@[simp] theorem modLaunch_domainId (s : State) (l : Nat) (f : Launch → Launch) : (modLaunch s l f).domainId = s.domainId := rfl
@[simp] theorem modLaunch_startCtl (s : State) (l : Nat) (f : Launch → Launch) : (modLaunch s l f).startCtl = s.startCtl := rfl
@[simp] theorem modLaunch_bootStat (s : State) (l : Nat) (f : Launch → Launch) : (modLaunch s l f).bootStat = s.bootStat := rfl
@[simp] theorem modLaunch_stretchCnt (s : State) (l : Nat) (f : Launch → Launch) : (modLaunch s l f).stretchCnt = s.stretchCnt := rfl
@[simp] theorem modLaunch_vdPart (s : State) (l : Nat) (f : Launch → Launch) : (modLaunch s l f).vdPart = s.vdPart := rfl
@[simp] theorem modLaunch_vds (s : State) (l : Nat) (f : Launch → Launch) : (modLaunch s l f).vds = s.vds := rfl
@[simp] theorem modLaunch_holding (s : State) (l : Nat) (f : Launch → Launch) : (modLaunch s l f).holding = s.holding := rfl
@[simp] theorem modLaunch_waitingFaults (s : State) (l : Nat) (f : Launch → Launch) : (modLaunch s l f).waitingFaults = s.waitingFaults := rfl
@[simp] theorem modLaunch_arbiter (s : State) (l : Nat) (f : Launch → Launch) : (modLaunch s l f).arbiter = s.arbiter := rfl
@[simp] theorem modLaunch_arbPos (s : State) (l : Nat) (f : Launch → Launch) : (modLaunch s l f).arbPos = s.arbPos := rfl
@[simp] theorem modLaunch_tokens (s : State) (l : Nat) (f : Launch → Launch) : (modLaunch s l f).tokens = s.tokens := rfl
@[simp] theorem modLaunch_nextToken (s : State) (l : Nat) (f : Launch → Launch) : (modLaunch s l f).nextToken = s.nextToken := rfl
@[simp] theorem modLaunch_answersIgnored (s : State) (l : Nat) (f : Launch → Launch) : (modLaunch s l f).answersIgnored = s.answersIgnored := rfl
@[simp] theorem modLaunch_irqs (s : State) (l : Nat) (f : Launch → Launch) : (modLaunch s l f).irqs = s.irqs := rfl
@[simp] theorem modLaunch_cyc (s : State) (l : Nat) (f : Launch → Launch) : (modLaunch s l f).cyc = s.cyc := rfl
@[simp] theorem modLaunch_time (s : State) (l : Nat) (f : Launch → Launch) : (modLaunch s l f).time = s.time := rfl
@[simp] theorem modLaunch_stretch (s : State) (l : Nat) (f : Launch → Launch) : (modLaunch s l f).stretch = s.stretch := rfl
@[simp] theorem modLaunch_links (s : State) (l : Nat) (f : Launch → Launch) : (modLaunch s l f).links = s.links := rfl
@[simp] theorem modLaunch_offPtr (s : State) (l : Nat) (f : Launch → Launch) : (modLaunch s l f).offPtr = s.offPtr := rfl
@[simp] theorem modLaunch_slotPtr (s : State) (l : Nat) (f : Launch → Launch) : (modLaunch s l f).slotPtr = s.slotPtr := rfl
@[simp] theorem modLaunch_sampPtr (s : State) (l : Nat) (f : Launch → Launch) : (modLaunch s l f).sampPtr = s.sampPtr := rfl
@[simp] theorem modLaunch_image (s : State) (l : Nat) (f : Launch → Launch) : (modLaunch s l f).image = s.image := rfl
@[simp] theorem modLaunch_absentCores (s : State) (l : Nat) (f : Launch → Launch) : (modLaunch s l f).absentCores = s.absentCores := rfl
@[simp] theorem modLaunch_absentOff (s : State) (l : Nat) (f : Launch → Launch) : (modLaunch s l f).absentOff = s.absentOff := rfl
@[simp] theorem modLaunch_governed (s : State) (l : Nat) (f : Launch → Launch) : (modLaunch s l f).governed = s.governed := rfl
@[simp] theorem modLaunch_devices (s : State) (l : Nat) (f : Launch → Launch) : (modLaunch s l f).devices = s.devices := rfl
@[simp] theorem modLaunch_portables (s : State) (l : Nat) (f : Launch → Launch) : (modLaunch s l f).portables = s.portables := rfl
@[simp] theorem modLaunch_hostReply (s : State) (l : Nat) (f : Launch → Launch) : (modLaunch s l f).hostReply = s.hostReply := rfl
@[simp] theorem modLaunch_hostPoison (s : State) (l : Nat) (f : Launch → Launch) : (modLaunch s l f).hostPoison = s.hostPoison := rfl
@[simp] theorem modLaunch_turn (s : State) (l : Nat) (f : Launch → Launch) : (modLaunch s l f).turn = s.turn := rfl
@[simp] theorem modLaunch_ev (s : State) (l : Nat) (f : Launch → Launch) : (modLaunch s l f).ev = s.ev := rfl
@[simp] theorem modLaunch_agenda (s : State) (l : Nat) (f : Launch → Launch) : (modLaunch s l f).agenda = s.agenda := rfl
@[simp] theorem modLaunch_fresh (s : State) (l : Nat) (f : Launch → Launch) : (modLaunch s l f).fresh = s.fresh := rfl
@[simp] theorem modLaunch_nextId (s : State) (l : Nat) (f : Launch → Launch) : (modLaunch s l f).nextId = s.nextId := rfl

/-! ### `modCtx` -/

@[simp] theorem modCtx_mem (s : State) (a : Nat) (f : Ctx → Ctx) : (modCtx s a f).mem = s.mem := rfl
@[simp] theorem modCtx_tags (s : State) (a : Nat) (f : Ctx → Ctx) : (modCtx s a f).tags = s.tags := rfl
@[simp] theorem modCtx_memPoison (s : State) (a : Nat) (f : Ctx → Ctx) : (modCtx s a f).memPoison = s.memPoison := rfl
@[simp] theorem modCtx_units (s : State) (a : Nat) (f : Ctx → Ctx) : (modCtx s a f).units = s.units := rfl
@[simp] theorem modCtx_groups (s : State) (a : Nat) (f : Ctx → Ctx) : (modCtx s a f).groups = s.groups := rfl
@[simp] theorem modCtx_launches (s : State) (a : Nat) (f : Ctx → Ctx) : (modCtx s a f).launches = s.launches := rfl
@[simp] theorem modCtx_ctxs (s : State) (a : Nat) (f : Ctx → Ctx) : (modCtx s a f).ctxs = smod s.ctxs a f := rfl
@[simp] theorem modCtx_kernels (s : State) (a : Nat) (f : Ctx → Ctx) : (modCtx s a f).kernels = s.kernels := rfl
@[simp] theorem modCtx_chains (s : State) (a : Nat) (f : Ctx → Ctx) : (modCtx s a f).chains = s.chains := rfl
@[simp] theorem modCtx_gangs (s : State) (a : Nat) (f : Ctx → Ctx) : (modCtx s a f).gangs = s.gangs := rfl
@[simp] theorem modCtx_gangParts (s : State) (a : Nat) (f : Ctx → Ctx) : (modCtx s a f).gangParts = s.gangParts := rfl
@[simp] theorem modCtx_slots (s : State) (a : Nat) (f : Ctx → Ctx) : (modCtx s a f).slots = s.slots := rfl
@[simp] theorem modCtx_windows (s : State) (a : Nat) (f : Ctx → Ctx) : (modCtx s a f).windows = s.windows := rfl
@[simp] theorem modCtx_xlatCad (s : State) (a : Nat) (f : Ctx → Ctx) : (modCtx s a f).xlatCad = s.xlatCad := rfl
@[simp] theorem modCtx_xlatPt (s : State) (a : Nat) (f : Ctx → Ctx) : (modCtx s a f).xlatPt = s.xlatPt := rfl
@[simp] theorem modCtx_tlb1 (s : State) (a : Nat) (f : Ctx → Ctx) : (modCtx s a f).tlb1 = s.tlb1 := rfl
@[simp] theorem modCtx_tlb2 (s : State) (a : Nat) (f : Ctx → Ctx) : (modCtx s a f).tlb2 = s.tlb2 := rfl
@[simp] theorem modCtx_frameKeys (s : State) (a : Nat) (f : Ctx → Ctx) : (modCtx s a f).frameKeys = s.frameKeys := rfl
@[simp] theorem modCtx_heat (s : State) (a : Nat) (f : Ctx → Ctx) : (modCtx s a f).heat = s.heat := rfl
@[simp] theorem modCtx_lfsr (s : State) (a : Nat) (f : Ctx → Ctx) : (modCtx s a f).lfsr = s.lfsr := rfl
@[simp] theorem modCtx_heatCtl (s : State) (a : Nat) (f : Ctx → Ctx) : (modCtx s a f).heatCtl = s.heatCtl := rfl
@[simp] theorem modCtx_arenas (s : State) (a : Nat) (f : Ctx → Ctx) : (modCtx s a f).arenas = s.arenas := rfl
@[simp] theorem modCtx_blocks (s : State) (a : Nat) (f : Ctx → Ctx) : (modCtx s a f).blocks = s.blocks := rfl
@[simp] theorem modCtx_failed (s : State) (a : Nat) (f : Ctx → Ctx) : (modCtx s a f).failed = s.failed := rfl
@[simp] theorem modCtx_conn (s : State) (a : Nat) (f : Ctx → Ctx) : (modCtx s a f).conn = s.conn := rfl
@[simp] theorem modCtx_partReq (s : State) (a : Nat) (f : Ctx → Ctx) : (modCtx s a f).partReq = s.partReq := rfl
@[simp] theorem modCtx_partAsid (s : State) (a : Nat) (f : Ctx → Ctx) : (modCtx s a f).partAsid = s.partAsid := rfl
@[simp] theorem modCtx_connViol (s : State) (a : Nat) (f : Ctx → Ctx) : (modCtx s a f).connViol = s.connViol := rfl
@[simp] theorem modCtx_domainId (s : State) (a : Nat) (f : Ctx → Ctx) : (modCtx s a f).domainId = s.domainId := rfl
@[simp] theorem modCtx_startCtl (s : State) (a : Nat) (f : Ctx → Ctx) : (modCtx s a f).startCtl = s.startCtl := rfl
@[simp] theorem modCtx_bootStat (s : State) (a : Nat) (f : Ctx → Ctx) : (modCtx s a f).bootStat = s.bootStat := rfl
@[simp] theorem modCtx_stretchCnt (s : State) (a : Nat) (f : Ctx → Ctx) : (modCtx s a f).stretchCnt = s.stretchCnt := rfl
@[simp] theorem modCtx_vdPart (s : State) (a : Nat) (f : Ctx → Ctx) : (modCtx s a f).vdPart = s.vdPart := rfl
@[simp] theorem modCtx_vds (s : State) (a : Nat) (f : Ctx → Ctx) : (modCtx s a f).vds = s.vds := rfl
@[simp] theorem modCtx_holding (s : State) (a : Nat) (f : Ctx → Ctx) : (modCtx s a f).holding = s.holding := rfl
@[simp] theorem modCtx_waitingFaults (s : State) (a : Nat) (f : Ctx → Ctx) : (modCtx s a f).waitingFaults = s.waitingFaults := rfl
@[simp] theorem modCtx_arbiter (s : State) (a : Nat) (f : Ctx → Ctx) : (modCtx s a f).arbiter = s.arbiter := rfl
@[simp] theorem modCtx_arbPos (s : State) (a : Nat) (f : Ctx → Ctx) : (modCtx s a f).arbPos = s.arbPos := rfl
@[simp] theorem modCtx_tokens (s : State) (a : Nat) (f : Ctx → Ctx) : (modCtx s a f).tokens = s.tokens := rfl
@[simp] theorem modCtx_nextToken (s : State) (a : Nat) (f : Ctx → Ctx) : (modCtx s a f).nextToken = s.nextToken := rfl
@[simp] theorem modCtx_answersIgnored (s : State) (a : Nat) (f : Ctx → Ctx) : (modCtx s a f).answersIgnored = s.answersIgnored := rfl
@[simp] theorem modCtx_irqs (s : State) (a : Nat) (f : Ctx → Ctx) : (modCtx s a f).irqs = s.irqs := rfl
@[simp] theorem modCtx_cyc (s : State) (a : Nat) (f : Ctx → Ctx) : (modCtx s a f).cyc = s.cyc := rfl
@[simp] theorem modCtx_time (s : State) (a : Nat) (f : Ctx → Ctx) : (modCtx s a f).time = s.time := rfl
@[simp] theorem modCtx_stretch (s : State) (a : Nat) (f : Ctx → Ctx) : (modCtx s a f).stretch = s.stretch := rfl
@[simp] theorem modCtx_links (s : State) (a : Nat) (f : Ctx → Ctx) : (modCtx s a f).links = s.links := rfl
@[simp] theorem modCtx_offPtr (s : State) (a : Nat) (f : Ctx → Ctx) : (modCtx s a f).offPtr = s.offPtr := rfl
@[simp] theorem modCtx_slotPtr (s : State) (a : Nat) (f : Ctx → Ctx) : (modCtx s a f).slotPtr = s.slotPtr := rfl
@[simp] theorem modCtx_sampPtr (s : State) (a : Nat) (f : Ctx → Ctx) : (modCtx s a f).sampPtr = s.sampPtr := rfl
@[simp] theorem modCtx_image (s : State) (a : Nat) (f : Ctx → Ctx) : (modCtx s a f).image = s.image := rfl
@[simp] theorem modCtx_absentCores (s : State) (a : Nat) (f : Ctx → Ctx) : (modCtx s a f).absentCores = s.absentCores := rfl
@[simp] theorem modCtx_absentOff (s : State) (a : Nat) (f : Ctx → Ctx) : (modCtx s a f).absentOff = s.absentOff := rfl
@[simp] theorem modCtx_governed (s : State) (a : Nat) (f : Ctx → Ctx) : (modCtx s a f).governed = s.governed := rfl
@[simp] theorem modCtx_devices (s : State) (a : Nat) (f : Ctx → Ctx) : (modCtx s a f).devices = s.devices := rfl
@[simp] theorem modCtx_portables (s : State) (a : Nat) (f : Ctx → Ctx) : (modCtx s a f).portables = s.portables := rfl
@[simp] theorem modCtx_hostReply (s : State) (a : Nat) (f : Ctx → Ctx) : (modCtx s a f).hostReply = s.hostReply := rfl
@[simp] theorem modCtx_hostPoison (s : State) (a : Nat) (f : Ctx → Ctx) : (modCtx s a f).hostPoison = s.hostPoison := rfl
@[simp] theorem modCtx_turn (s : State) (a : Nat) (f : Ctx → Ctx) : (modCtx s a f).turn = s.turn := rfl
@[simp] theorem modCtx_ev (s : State) (a : Nat) (f : Ctx → Ctx) : (modCtx s a f).ev = s.ev := rfl
@[simp] theorem modCtx_agenda (s : State) (a : Nat) (f : Ctx → Ctx) : (modCtx s a f).agenda = s.agenda := rfl
@[simp] theorem modCtx_fresh (s : State) (a : Nat) (f : Ctx → Ctx) : (modCtx s a f).fresh = s.fresh := rfl
@[simp] theorem modCtx_nextId (s : State) (a : Nat) (f : Ctx → Ctx) : (modCtx s a f).nextId = s.nextId := rfl

/-! ### `modVd` -/

@[simp] theorem modVd_mem (s : State) (v : Nat) (f : Vd → Vd) : (modVd s v f).mem = s.mem := rfl
@[simp] theorem modVd_tags (s : State) (v : Nat) (f : Vd → Vd) : (modVd s v f).tags = s.tags := rfl
@[simp] theorem modVd_memPoison (s : State) (v : Nat) (f : Vd → Vd) : (modVd s v f).memPoison = s.memPoison := rfl
@[simp] theorem modVd_units (s : State) (v : Nat) (f : Vd → Vd) : (modVd s v f).units = s.units := rfl
@[simp] theorem modVd_groups (s : State) (v : Nat) (f : Vd → Vd) : (modVd s v f).groups = s.groups := rfl
@[simp] theorem modVd_launches (s : State) (v : Nat) (f : Vd → Vd) : (modVd s v f).launches = s.launches := rfl
@[simp] theorem modVd_ctxs (s : State) (v : Nat) (f : Vd → Vd) : (modVd s v f).ctxs = s.ctxs := rfl
@[simp] theorem modVd_kernels (s : State) (v : Nat) (f : Vd → Vd) : (modVd s v f).kernels = s.kernels := rfl
@[simp] theorem modVd_chains (s : State) (v : Nat) (f : Vd → Vd) : (modVd s v f).chains = s.chains := rfl
@[simp] theorem modVd_gangs (s : State) (v : Nat) (f : Vd → Vd) : (modVd s v f).gangs = s.gangs := rfl
@[simp] theorem modVd_gangParts (s : State) (v : Nat) (f : Vd → Vd) : (modVd s v f).gangParts = s.gangParts := rfl
@[simp] theorem modVd_slots (s : State) (v : Nat) (f : Vd → Vd) : (modVd s v f).slots = s.slots := rfl
@[simp] theorem modVd_windows (s : State) (v : Nat) (f : Vd → Vd) : (modVd s v f).windows = s.windows := rfl
@[simp] theorem modVd_xlatCad (s : State) (v : Nat) (f : Vd → Vd) : (modVd s v f).xlatCad = s.xlatCad := rfl
@[simp] theorem modVd_xlatPt (s : State) (v : Nat) (f : Vd → Vd) : (modVd s v f).xlatPt = s.xlatPt := rfl
@[simp] theorem modVd_tlb1 (s : State) (v : Nat) (f : Vd → Vd) : (modVd s v f).tlb1 = s.tlb1 := rfl
@[simp] theorem modVd_tlb2 (s : State) (v : Nat) (f : Vd → Vd) : (modVd s v f).tlb2 = s.tlb2 := rfl
@[simp] theorem modVd_frameKeys (s : State) (v : Nat) (f : Vd → Vd) : (modVd s v f).frameKeys = s.frameKeys := rfl
@[simp] theorem modVd_heat (s : State) (v : Nat) (f : Vd → Vd) : (modVd s v f).heat = s.heat := rfl
@[simp] theorem modVd_lfsr (s : State) (v : Nat) (f : Vd → Vd) : (modVd s v f).lfsr = s.lfsr := rfl
@[simp] theorem modVd_heatCtl (s : State) (v : Nat) (f : Vd → Vd) : (modVd s v f).heatCtl = s.heatCtl := rfl
@[simp] theorem modVd_arenas (s : State) (v : Nat) (f : Vd → Vd) : (modVd s v f).arenas = s.arenas := rfl
@[simp] theorem modVd_blocks (s : State) (v : Nat) (f : Vd → Vd) : (modVd s v f).blocks = s.blocks := rfl
@[simp] theorem modVd_failed (s : State) (v : Nat) (f : Vd → Vd) : (modVd s v f).failed = s.failed := rfl
@[simp] theorem modVd_conn (s : State) (v : Nat) (f : Vd → Vd) : (modVd s v f).conn = s.conn := rfl
@[simp] theorem modVd_partReq (s : State) (v : Nat) (f : Vd → Vd) : (modVd s v f).partReq = s.partReq := rfl
@[simp] theorem modVd_partAsid (s : State) (v : Nat) (f : Vd → Vd) : (modVd s v f).partAsid = s.partAsid := rfl
@[simp] theorem modVd_connViol (s : State) (v : Nat) (f : Vd → Vd) : (modVd s v f).connViol = s.connViol := rfl
@[simp] theorem modVd_domainId (s : State) (v : Nat) (f : Vd → Vd) : (modVd s v f).domainId = s.domainId := rfl
@[simp] theorem modVd_startCtl (s : State) (v : Nat) (f : Vd → Vd) : (modVd s v f).startCtl = s.startCtl := rfl
@[simp] theorem modVd_bootStat (s : State) (v : Nat) (f : Vd → Vd) : (modVd s v f).bootStat = s.bootStat := rfl
@[simp] theorem modVd_stretchCnt (s : State) (v : Nat) (f : Vd → Vd) : (modVd s v f).stretchCnt = s.stretchCnt := rfl
@[simp] theorem modVd_vdPart (s : State) (v : Nat) (f : Vd → Vd) : (modVd s v f).vdPart = s.vdPart := rfl
@[simp] theorem modVd_vds (s : State) (v : Nat) (f : Vd → Vd) : (modVd s v f).vds = smod s.vds v f := rfl
@[simp] theorem modVd_holding (s : State) (v : Nat) (f : Vd → Vd) : (modVd s v f).holding = s.holding := rfl
@[simp] theorem modVd_waitingFaults (s : State) (v : Nat) (f : Vd → Vd) : (modVd s v f).waitingFaults = s.waitingFaults := rfl
@[simp] theorem modVd_arbiter (s : State) (v : Nat) (f : Vd → Vd) : (modVd s v f).arbiter = s.arbiter := rfl
@[simp] theorem modVd_arbPos (s : State) (v : Nat) (f : Vd → Vd) : (modVd s v f).arbPos = s.arbPos := rfl
@[simp] theorem modVd_tokens (s : State) (v : Nat) (f : Vd → Vd) : (modVd s v f).tokens = s.tokens := rfl
@[simp] theorem modVd_nextToken (s : State) (v : Nat) (f : Vd → Vd) : (modVd s v f).nextToken = s.nextToken := rfl
@[simp] theorem modVd_answersIgnored (s : State) (v : Nat) (f : Vd → Vd) : (modVd s v f).answersIgnored = s.answersIgnored := rfl
@[simp] theorem modVd_irqs (s : State) (v : Nat) (f : Vd → Vd) : (modVd s v f).irqs = s.irqs := rfl
@[simp] theorem modVd_cyc (s : State) (v : Nat) (f : Vd → Vd) : (modVd s v f).cyc = s.cyc := rfl
@[simp] theorem modVd_time (s : State) (v : Nat) (f : Vd → Vd) : (modVd s v f).time = s.time := rfl
@[simp] theorem modVd_stretch (s : State) (v : Nat) (f : Vd → Vd) : (modVd s v f).stretch = s.stretch := rfl
@[simp] theorem modVd_links (s : State) (v : Nat) (f : Vd → Vd) : (modVd s v f).links = s.links := rfl
@[simp] theorem modVd_offPtr (s : State) (v : Nat) (f : Vd → Vd) : (modVd s v f).offPtr = s.offPtr := rfl
@[simp] theorem modVd_slotPtr (s : State) (v : Nat) (f : Vd → Vd) : (modVd s v f).slotPtr = s.slotPtr := rfl
@[simp] theorem modVd_sampPtr (s : State) (v : Nat) (f : Vd → Vd) : (modVd s v f).sampPtr = s.sampPtr := rfl
@[simp] theorem modVd_image (s : State) (v : Nat) (f : Vd → Vd) : (modVd s v f).image = s.image := rfl
@[simp] theorem modVd_absentCores (s : State) (v : Nat) (f : Vd → Vd) : (modVd s v f).absentCores = s.absentCores := rfl
@[simp] theorem modVd_absentOff (s : State) (v : Nat) (f : Vd → Vd) : (modVd s v f).absentOff = s.absentOff := rfl
@[simp] theorem modVd_governed (s : State) (v : Nat) (f : Vd → Vd) : (modVd s v f).governed = s.governed := rfl
@[simp] theorem modVd_devices (s : State) (v : Nat) (f : Vd → Vd) : (modVd s v f).devices = s.devices := rfl
@[simp] theorem modVd_portables (s : State) (v : Nat) (f : Vd → Vd) : (modVd s v f).portables = s.portables := rfl
@[simp] theorem modVd_hostReply (s : State) (v : Nat) (f : Vd → Vd) : (modVd s v f).hostReply = s.hostReply := rfl
@[simp] theorem modVd_hostPoison (s : State) (v : Nat) (f : Vd → Vd) : (modVd s v f).hostPoison = s.hostPoison := rfl
@[simp] theorem modVd_turn (s : State) (v : Nat) (f : Vd → Vd) : (modVd s v f).turn = s.turn := rfl
@[simp] theorem modVd_ev (s : State) (v : Nat) (f : Vd → Vd) : (modVd s v f).ev = s.ev := rfl
@[simp] theorem modVd_agenda (s : State) (v : Nat) (f : Vd → Vd) : (modVd s v f).agenda = s.agenda := rfl
@[simp] theorem modVd_fresh (s : State) (v : Nat) (f : Vd → Vd) : (modVd s v f).fresh = s.fresh := rfl
@[simp] theorem modVd_nextId (s : State) (v : Nat) (f : Vd → Vd) : (modVd s v f).nextId = s.nextId := rfl

/-! ### `putBytes` -/

@[simp] theorem putBytes_mem (s : State) (a : Nat) (bs : List Byte) (p : Bool) : (putBytes s a bs p).mem = ssetMany 0 s.mem a bs := rfl
@[simp] theorem putBytes_tags (s : State) (a : Nat) (bs : List Byte) (p : Bool) : (putBytes s a bs p).tags = s.tags := rfl
@[simp] theorem putBytes_memPoison (s : State) (a : Nat) (bs : List Byte) (p : Bool) : (putBytes s a bs p).memPoison = ssetMany false s.memPoison a (bs.map fun _ => p) := rfl
@[simp] theorem putBytes_units (s : State) (a : Nat) (bs : List Byte) (p : Bool) : (putBytes s a bs p).units = s.units := rfl
@[simp] theorem putBytes_groups (s : State) (a : Nat) (bs : List Byte) (p : Bool) : (putBytes s a bs p).groups = s.groups := rfl
@[simp] theorem putBytes_launches (s : State) (a : Nat) (bs : List Byte) (p : Bool) : (putBytes s a bs p).launches = s.launches := rfl
@[simp] theorem putBytes_ctxs (s : State) (a : Nat) (bs : List Byte) (p : Bool) : (putBytes s a bs p).ctxs = s.ctxs := rfl
@[simp] theorem putBytes_kernels (s : State) (a : Nat) (bs : List Byte) (p : Bool) : (putBytes s a bs p).kernels = s.kernels := rfl
@[simp] theorem putBytes_chains (s : State) (a : Nat) (bs : List Byte) (p : Bool) : (putBytes s a bs p).chains = s.chains := rfl
@[simp] theorem putBytes_gangs (s : State) (a : Nat) (bs : List Byte) (p : Bool) : (putBytes s a bs p).gangs = s.gangs := rfl
@[simp] theorem putBytes_gangParts (s : State) (a : Nat) (bs : List Byte) (p : Bool) : (putBytes s a bs p).gangParts = s.gangParts := rfl
@[simp] theorem putBytes_slots (s : State) (a : Nat) (bs : List Byte) (p : Bool) : (putBytes s a bs p).slots = s.slots := rfl
@[simp] theorem putBytes_windows (s : State) (a : Nat) (bs : List Byte) (p : Bool) : (putBytes s a bs p).windows = s.windows := rfl
@[simp] theorem putBytes_xlatCad (s : State) (a : Nat) (bs : List Byte) (p : Bool) : (putBytes s a bs p).xlatCad = s.xlatCad := rfl
@[simp] theorem putBytes_xlatPt (s : State) (a : Nat) (bs : List Byte) (p : Bool) : (putBytes s a bs p).xlatPt = s.xlatPt := rfl
@[simp] theorem putBytes_tlb1 (s : State) (a : Nat) (bs : List Byte) (p : Bool) : (putBytes s a bs p).tlb1 = s.tlb1 := rfl
@[simp] theorem putBytes_tlb2 (s : State) (a : Nat) (bs : List Byte) (p : Bool) : (putBytes s a bs p).tlb2 = s.tlb2 := rfl
@[simp] theorem putBytes_frameKeys (s : State) (a : Nat) (bs : List Byte) (p : Bool) : (putBytes s a bs p).frameKeys = s.frameKeys := rfl
@[simp] theorem putBytes_heat (s : State) (a : Nat) (bs : List Byte) (p : Bool) : (putBytes s a bs p).heat = s.heat := rfl
@[simp] theorem putBytes_lfsr (s : State) (a : Nat) (bs : List Byte) (p : Bool) : (putBytes s a bs p).lfsr = s.lfsr := rfl
@[simp] theorem putBytes_heatCtl (s : State) (a : Nat) (bs : List Byte) (p : Bool) : (putBytes s a bs p).heatCtl = s.heatCtl := rfl
@[simp] theorem putBytes_arenas (s : State) (a : Nat) (bs : List Byte) (p : Bool) : (putBytes s a bs p).arenas = s.arenas := rfl
@[simp] theorem putBytes_blocks (s : State) (a : Nat) (bs : List Byte) (p : Bool) : (putBytes s a bs p).blocks = s.blocks := rfl
@[simp] theorem putBytes_failed (s : State) (a : Nat) (bs : List Byte) (p : Bool) : (putBytes s a bs p).failed = s.failed := rfl
@[simp] theorem putBytes_conn (s : State) (a : Nat) (bs : List Byte) (p : Bool) : (putBytes s a bs p).conn = s.conn := rfl
@[simp] theorem putBytes_partReq (s : State) (a : Nat) (bs : List Byte) (p : Bool) : (putBytes s a bs p).partReq = s.partReq := rfl
@[simp] theorem putBytes_partAsid (s : State) (a : Nat) (bs : List Byte) (p : Bool) : (putBytes s a bs p).partAsid = s.partAsid := rfl
@[simp] theorem putBytes_connViol (s : State) (a : Nat) (bs : List Byte) (p : Bool) : (putBytes s a bs p).connViol = s.connViol := rfl
@[simp] theorem putBytes_domainId (s : State) (a : Nat) (bs : List Byte) (p : Bool) : (putBytes s a bs p).domainId = s.domainId := rfl
@[simp] theorem putBytes_startCtl (s : State) (a : Nat) (bs : List Byte) (p : Bool) : (putBytes s a bs p).startCtl = s.startCtl := rfl
@[simp] theorem putBytes_bootStat (s : State) (a : Nat) (bs : List Byte) (p : Bool) : (putBytes s a bs p).bootStat = s.bootStat := rfl
@[simp] theorem putBytes_stretchCnt (s : State) (a : Nat) (bs : List Byte) (p : Bool) : (putBytes s a bs p).stretchCnt = s.stretchCnt := rfl
@[simp] theorem putBytes_vdPart (s : State) (a : Nat) (bs : List Byte) (p : Bool) : (putBytes s a bs p).vdPart = s.vdPart := rfl
@[simp] theorem putBytes_vds (s : State) (a : Nat) (bs : List Byte) (p : Bool) : (putBytes s a bs p).vds = s.vds := rfl
@[simp] theorem putBytes_holding (s : State) (a : Nat) (bs : List Byte) (p : Bool) : (putBytes s a bs p).holding = s.holding := rfl
@[simp] theorem putBytes_waitingFaults (s : State) (a : Nat) (bs : List Byte) (p : Bool) : (putBytes s a bs p).waitingFaults = s.waitingFaults := rfl
@[simp] theorem putBytes_arbiter (s : State) (a : Nat) (bs : List Byte) (p : Bool) : (putBytes s a bs p).arbiter = s.arbiter := rfl
@[simp] theorem putBytes_arbPos (s : State) (a : Nat) (bs : List Byte) (p : Bool) : (putBytes s a bs p).arbPos = s.arbPos := rfl
@[simp] theorem putBytes_tokens (s : State) (a : Nat) (bs : List Byte) (p : Bool) : (putBytes s a bs p).tokens = s.tokens := rfl
@[simp] theorem putBytes_nextToken (s : State) (a : Nat) (bs : List Byte) (p : Bool) : (putBytes s a bs p).nextToken = s.nextToken := rfl
@[simp] theorem putBytes_answersIgnored (s : State) (a : Nat) (bs : List Byte) (p : Bool) : (putBytes s a bs p).answersIgnored = s.answersIgnored := rfl
@[simp] theorem putBytes_irqs (s : State) (a : Nat) (bs : List Byte) (p : Bool) : (putBytes s a bs p).irqs = s.irqs := rfl
@[simp] theorem putBytes_cyc (s : State) (a : Nat) (bs : List Byte) (p : Bool) : (putBytes s a bs p).cyc = s.cyc := rfl
@[simp] theorem putBytes_time (s : State) (a : Nat) (bs : List Byte) (p : Bool) : (putBytes s a bs p).time = s.time := rfl
@[simp] theorem putBytes_stretch (s : State) (a : Nat) (bs : List Byte) (p : Bool) : (putBytes s a bs p).stretch = s.stretch := rfl
@[simp] theorem putBytes_links (s : State) (a : Nat) (bs : List Byte) (p : Bool) : (putBytes s a bs p).links = s.links := rfl
@[simp] theorem putBytes_offPtr (s : State) (a : Nat) (bs : List Byte) (p : Bool) : (putBytes s a bs p).offPtr = s.offPtr := rfl
@[simp] theorem putBytes_slotPtr (s : State) (a : Nat) (bs : List Byte) (p : Bool) : (putBytes s a bs p).slotPtr = s.slotPtr := rfl
@[simp] theorem putBytes_sampPtr (s : State) (a : Nat) (bs : List Byte) (p : Bool) : (putBytes s a bs p).sampPtr = s.sampPtr := rfl
@[simp] theorem putBytes_image (s : State) (a : Nat) (bs : List Byte) (p : Bool) : (putBytes s a bs p).image = s.image := rfl
@[simp] theorem putBytes_absentCores (s : State) (a : Nat) (bs : List Byte) (p : Bool) : (putBytes s a bs p).absentCores = s.absentCores := rfl
@[simp] theorem putBytes_absentOff (s : State) (a : Nat) (bs : List Byte) (p : Bool) : (putBytes s a bs p).absentOff = s.absentOff := rfl
@[simp] theorem putBytes_governed (s : State) (a : Nat) (bs : List Byte) (p : Bool) : (putBytes s a bs p).governed = s.governed := rfl
@[simp] theorem putBytes_devices (s : State) (a : Nat) (bs : List Byte) (p : Bool) : (putBytes s a bs p).devices = s.devices := rfl
@[simp] theorem putBytes_portables (s : State) (a : Nat) (bs : List Byte) (p : Bool) : (putBytes s a bs p).portables = s.portables := rfl
@[simp] theorem putBytes_hostReply (s : State) (a : Nat) (bs : List Byte) (p : Bool) : (putBytes s a bs p).hostReply = s.hostReply := rfl
@[simp] theorem putBytes_hostPoison (s : State) (a : Nat) (bs : List Byte) (p : Bool) : (putBytes s a bs p).hostPoison = s.hostPoison := rfl
@[simp] theorem putBytes_turn (s : State) (a : Nat) (bs : List Byte) (p : Bool) : (putBytes s a bs p).turn = s.turn := rfl
@[simp] theorem putBytes_ev (s : State) (a : Nat) (bs : List Byte) (p : Bool) : (putBytes s a bs p).ev = s.ev := rfl
@[simp] theorem putBytes_agenda (s : State) (a : Nat) (bs : List Byte) (p : Bool) : (putBytes s a bs p).agenda = s.agenda := rfl
@[simp] theorem putBytes_fresh (s : State) (a : Nat) (bs : List Byte) (p : Bool) : (putBytes s a bs p).fresh = s.fresh := rfl
@[simp] theorem putBytes_nextId (s : State) (a : Nat) (bs : List Byte) (p : Bool) : (putBytes s a bs p).nextId = s.nextId := rfl

/-! ### `clearTags` -/

@[simp] theorem clearTags_mem (s : State) (a n : Nat) : (clearTags s a n).mem = s.mem := rfl
@[simp] theorem clearTags_tags (s : State) (a n : Nat) : (clearTags s a n).tags = sclear s.tags (a / 16) ((a + n + 15) / 16) := rfl
@[simp] theorem clearTags_memPoison (s : State) (a n : Nat) : (clearTags s a n).memPoison = s.memPoison := rfl
@[simp] theorem clearTags_units (s : State) (a n : Nat) : (clearTags s a n).units = s.units := rfl
@[simp] theorem clearTags_groups (s : State) (a n : Nat) : (clearTags s a n).groups = s.groups := rfl
@[simp] theorem clearTags_launches (s : State) (a n : Nat) : (clearTags s a n).launches = s.launches := rfl
@[simp] theorem clearTags_ctxs (s : State) (a n : Nat) : (clearTags s a n).ctxs = s.ctxs := rfl
@[simp] theorem clearTags_kernels (s : State) (a n : Nat) : (clearTags s a n).kernels = s.kernels := rfl
@[simp] theorem clearTags_chains (s : State) (a n : Nat) : (clearTags s a n).chains = s.chains := rfl
@[simp] theorem clearTags_gangs (s : State) (a n : Nat) : (clearTags s a n).gangs = s.gangs := rfl
@[simp] theorem clearTags_gangParts (s : State) (a n : Nat) : (clearTags s a n).gangParts = s.gangParts := rfl
@[simp] theorem clearTags_slots (s : State) (a n : Nat) : (clearTags s a n).slots = s.slots := rfl
@[simp] theorem clearTags_windows (s : State) (a n : Nat) : (clearTags s a n).windows = s.windows := rfl
@[simp] theorem clearTags_xlatCad (s : State) (a n : Nat) : (clearTags s a n).xlatCad = s.xlatCad := rfl
@[simp] theorem clearTags_xlatPt (s : State) (a n : Nat) : (clearTags s a n).xlatPt = s.xlatPt := rfl
@[simp] theorem clearTags_tlb1 (s : State) (a n : Nat) : (clearTags s a n).tlb1 = s.tlb1 := rfl
@[simp] theorem clearTags_tlb2 (s : State) (a n : Nat) : (clearTags s a n).tlb2 = s.tlb2 := rfl
@[simp] theorem clearTags_frameKeys (s : State) (a n : Nat) : (clearTags s a n).frameKeys = s.frameKeys := rfl
@[simp] theorem clearTags_heat (s : State) (a n : Nat) : (clearTags s a n).heat = s.heat := rfl
@[simp] theorem clearTags_lfsr (s : State) (a n : Nat) : (clearTags s a n).lfsr = s.lfsr := rfl
@[simp] theorem clearTags_heatCtl (s : State) (a n : Nat) : (clearTags s a n).heatCtl = s.heatCtl := rfl
@[simp] theorem clearTags_arenas (s : State) (a n : Nat) : (clearTags s a n).arenas = s.arenas := rfl
@[simp] theorem clearTags_blocks (s : State) (a n : Nat) : (clearTags s a n).blocks = s.blocks := rfl
@[simp] theorem clearTags_failed (s : State) (a n : Nat) : (clearTags s a n).failed = s.failed := rfl
@[simp] theorem clearTags_conn (s : State) (a n : Nat) : (clearTags s a n).conn = s.conn := rfl
@[simp] theorem clearTags_partReq (s : State) (a n : Nat) : (clearTags s a n).partReq = s.partReq := rfl
@[simp] theorem clearTags_partAsid (s : State) (a n : Nat) : (clearTags s a n).partAsid = s.partAsid := rfl
@[simp] theorem clearTags_connViol (s : State) (a n : Nat) : (clearTags s a n).connViol = s.connViol := rfl
@[simp] theorem clearTags_domainId (s : State) (a n : Nat) : (clearTags s a n).domainId = s.domainId := rfl
@[simp] theorem clearTags_startCtl (s : State) (a n : Nat) : (clearTags s a n).startCtl = s.startCtl := rfl
@[simp] theorem clearTags_bootStat (s : State) (a n : Nat) : (clearTags s a n).bootStat = s.bootStat := rfl
@[simp] theorem clearTags_stretchCnt (s : State) (a n : Nat) : (clearTags s a n).stretchCnt = s.stretchCnt := rfl
@[simp] theorem clearTags_vdPart (s : State) (a n : Nat) : (clearTags s a n).vdPart = s.vdPart := rfl
@[simp] theorem clearTags_vds (s : State) (a n : Nat) : (clearTags s a n).vds = s.vds := rfl
@[simp] theorem clearTags_holding (s : State) (a n : Nat) : (clearTags s a n).holding = s.holding := rfl
@[simp] theorem clearTags_waitingFaults (s : State) (a n : Nat) : (clearTags s a n).waitingFaults = s.waitingFaults := rfl
@[simp] theorem clearTags_arbiter (s : State) (a n : Nat) : (clearTags s a n).arbiter = s.arbiter := rfl
@[simp] theorem clearTags_arbPos (s : State) (a n : Nat) : (clearTags s a n).arbPos = s.arbPos := rfl
@[simp] theorem clearTags_tokens (s : State) (a n : Nat) : (clearTags s a n).tokens = s.tokens := rfl
@[simp] theorem clearTags_nextToken (s : State) (a n : Nat) : (clearTags s a n).nextToken = s.nextToken := rfl
@[simp] theorem clearTags_answersIgnored (s : State) (a n : Nat) : (clearTags s a n).answersIgnored = s.answersIgnored := rfl
@[simp] theorem clearTags_irqs (s : State) (a n : Nat) : (clearTags s a n).irqs = s.irqs := rfl
@[simp] theorem clearTags_cyc (s : State) (a n : Nat) : (clearTags s a n).cyc = s.cyc := rfl
@[simp] theorem clearTags_time (s : State) (a n : Nat) : (clearTags s a n).time = s.time := rfl
@[simp] theorem clearTags_stretch (s : State) (a n : Nat) : (clearTags s a n).stretch = s.stretch := rfl
@[simp] theorem clearTags_links (s : State) (a n : Nat) : (clearTags s a n).links = s.links := rfl
@[simp] theorem clearTags_offPtr (s : State) (a n : Nat) : (clearTags s a n).offPtr = s.offPtr := rfl
@[simp] theorem clearTags_slotPtr (s : State) (a n : Nat) : (clearTags s a n).slotPtr = s.slotPtr := rfl
@[simp] theorem clearTags_sampPtr (s : State) (a n : Nat) : (clearTags s a n).sampPtr = s.sampPtr := rfl
@[simp] theorem clearTags_image (s : State) (a n : Nat) : (clearTags s a n).image = s.image := rfl
@[simp] theorem clearTags_absentCores (s : State) (a n : Nat) : (clearTags s a n).absentCores = s.absentCores := rfl
@[simp] theorem clearTags_absentOff (s : State) (a n : Nat) : (clearTags s a n).absentOff = s.absentOff := rfl
@[simp] theorem clearTags_governed (s : State) (a n : Nat) : (clearTags s a n).governed = s.governed := rfl
@[simp] theorem clearTags_devices (s : State) (a n : Nat) : (clearTags s a n).devices = s.devices := rfl
@[simp] theorem clearTags_portables (s : State) (a n : Nat) : (clearTags s a n).portables = s.portables := rfl
@[simp] theorem clearTags_hostReply (s : State) (a n : Nat) : (clearTags s a n).hostReply = s.hostReply := rfl
@[simp] theorem clearTags_hostPoison (s : State) (a n : Nat) : (clearTags s a n).hostPoison = s.hostPoison := rfl
@[simp] theorem clearTags_turn (s : State) (a n : Nat) : (clearTags s a n).turn = s.turn := rfl
@[simp] theorem clearTags_ev (s : State) (a n : Nat) : (clearTags s a n).ev = s.ev := rfl
@[simp] theorem clearTags_agenda (s : State) (a n : Nat) : (clearTags s a n).agenda = s.agenda := rfl
@[simp] theorem clearTags_fresh (s : State) (a n : Nat) : (clearTags s a n).fresh = s.fresh := rfl
@[simp] theorem clearTags_nextId (s : State) (a n : Nat) : (clearTags s a n).nextId = s.nextId := rfl

/-! ### `presentWhat` -/

@[simp] theorem presentWhat_mem (s : State) (src vd typ asid a b c : Nat) (what : EvWhat) : (presentWhat s src vd typ asid a b c what).mem = s.mem := rfl
@[simp] theorem presentWhat_tags (s : State) (src vd typ asid a b c : Nat) (what : EvWhat) : (presentWhat s src vd typ asid a b c what).tags = s.tags := rfl
@[simp] theorem presentWhat_memPoison (s : State) (src vd typ asid a b c : Nat) (what : EvWhat) : (presentWhat s src vd typ asid a b c what).memPoison = s.memPoison := rfl
@[simp] theorem presentWhat_units (s : State) (src vd typ asid a b c : Nat) (what : EvWhat) : (presentWhat s src vd typ asid a b c what).units = s.units := rfl
@[simp] theorem presentWhat_groups (s : State) (src vd typ asid a b c : Nat) (what : EvWhat) : (presentWhat s src vd typ asid a b c what).groups = s.groups := rfl
@[simp] theorem presentWhat_launches (s : State) (src vd typ asid a b c : Nat) (what : EvWhat) : (presentWhat s src vd typ asid a b c what).launches = s.launches := rfl
@[simp] theorem presentWhat_ctxs (s : State) (src vd typ asid a b c : Nat) (what : EvWhat) : (presentWhat s src vd typ asid a b c what).ctxs = s.ctxs := rfl
@[simp] theorem presentWhat_kernels (s : State) (src vd typ asid a b c : Nat) (what : EvWhat) : (presentWhat s src vd typ asid a b c what).kernels = s.kernels := rfl
@[simp] theorem presentWhat_chains (s : State) (src vd typ asid a b c : Nat) (what : EvWhat) : (presentWhat s src vd typ asid a b c what).chains = s.chains := rfl
@[simp] theorem presentWhat_gangs (s : State) (src vd typ asid a b c : Nat) (what : EvWhat) : (presentWhat s src vd typ asid a b c what).gangs = s.gangs := rfl
@[simp] theorem presentWhat_gangParts (s : State) (src vd typ asid a b c : Nat) (what : EvWhat) : (presentWhat s src vd typ asid a b c what).gangParts = s.gangParts := rfl
@[simp] theorem presentWhat_slots (s : State) (src vd typ asid a b c : Nat) (what : EvWhat) : (presentWhat s src vd typ asid a b c what).slots = s.slots := rfl
@[simp] theorem presentWhat_windows (s : State) (src vd typ asid a b c : Nat) (what : EvWhat) : (presentWhat s src vd typ asid a b c what).windows = s.windows := rfl
@[simp] theorem presentWhat_xlatCad (s : State) (src vd typ asid a b c : Nat) (what : EvWhat) : (presentWhat s src vd typ asid a b c what).xlatCad = s.xlatCad := rfl
@[simp] theorem presentWhat_xlatPt (s : State) (src vd typ asid a b c : Nat) (what : EvWhat) : (presentWhat s src vd typ asid a b c what).xlatPt = s.xlatPt := rfl
@[simp] theorem presentWhat_tlb1 (s : State) (src vd typ asid a b c : Nat) (what : EvWhat) : (presentWhat s src vd typ asid a b c what).tlb1 = s.tlb1 := rfl
@[simp] theorem presentWhat_tlb2 (s : State) (src vd typ asid a b c : Nat) (what : EvWhat) : (presentWhat s src vd typ asid a b c what).tlb2 = s.tlb2 := rfl
@[simp] theorem presentWhat_frameKeys (s : State) (src vd typ asid a b c : Nat) (what : EvWhat) : (presentWhat s src vd typ asid a b c what).frameKeys = s.frameKeys := rfl
@[simp] theorem presentWhat_heat (s : State) (src vd typ asid a b c : Nat) (what : EvWhat) : (presentWhat s src vd typ asid a b c what).heat = s.heat := rfl
@[simp] theorem presentWhat_lfsr (s : State) (src vd typ asid a b c : Nat) (what : EvWhat) : (presentWhat s src vd typ asid a b c what).lfsr = s.lfsr := rfl
@[simp] theorem presentWhat_heatCtl (s : State) (src vd typ asid a b c : Nat) (what : EvWhat) : (presentWhat s src vd typ asid a b c what).heatCtl = s.heatCtl := rfl
@[simp] theorem presentWhat_arenas (s : State) (src vd typ asid a b c : Nat) (what : EvWhat) : (presentWhat s src vd typ asid a b c what).arenas = s.arenas := rfl
@[simp] theorem presentWhat_blocks (s : State) (src vd typ asid a b c : Nat) (what : EvWhat) : (presentWhat s src vd typ asid a b c what).blocks = s.blocks := rfl
@[simp] theorem presentWhat_failed (s : State) (src vd typ asid a b c : Nat) (what : EvWhat) : (presentWhat s src vd typ asid a b c what).failed = s.failed := rfl
@[simp] theorem presentWhat_conn (s : State) (src vd typ asid a b c : Nat) (what : EvWhat) : (presentWhat s src vd typ asid a b c what).conn = s.conn := rfl
@[simp] theorem presentWhat_partReq (s : State) (src vd typ asid a b c : Nat) (what : EvWhat) : (presentWhat s src vd typ asid a b c what).partReq = s.partReq := rfl
@[simp] theorem presentWhat_partAsid (s : State) (src vd typ asid a b c : Nat) (what : EvWhat) : (presentWhat s src vd typ asid a b c what).partAsid = s.partAsid := rfl
@[simp] theorem presentWhat_connViol (s : State) (src vd typ asid a b c : Nat) (what : EvWhat) : (presentWhat s src vd typ asid a b c what).connViol = s.connViol := rfl
@[simp] theorem presentWhat_domainId (s : State) (src vd typ asid a b c : Nat) (what : EvWhat) : (presentWhat s src vd typ asid a b c what).domainId = s.domainId := rfl
@[simp] theorem presentWhat_startCtl (s : State) (src vd typ asid a b c : Nat) (what : EvWhat) : (presentWhat s src vd typ asid a b c what).startCtl = s.startCtl := rfl
@[simp] theorem presentWhat_bootStat (s : State) (src vd typ asid a b c : Nat) (what : EvWhat) : (presentWhat s src vd typ asid a b c what).bootStat = s.bootStat := rfl
@[simp] theorem presentWhat_stretchCnt (s : State) (src vd typ asid a b c : Nat) (what : EvWhat) : (presentWhat s src vd typ asid a b c what).stretchCnt = s.stretchCnt := rfl
@[simp] theorem presentWhat_vdPart (s : State) (src vd typ asid a b c : Nat) (what : EvWhat) : (presentWhat s src vd typ asid a b c what).vdPart = s.vdPart := rfl
@[simp] theorem presentWhat_vds (s : State) (src vd typ asid a b c : Nat) (what : EvWhat) : (presentWhat s src vd typ asid a b c what).vds = s.vds := rfl
@[simp] theorem presentWhat_holding (s : State) (src vd typ asid a b c : Nat) (what : EvWhat) : (presentWhat s src vd typ asid a b c what).holding = s.holding := rfl
@[simp] theorem presentWhat_waitingFaults (s : State) (src vd typ asid a b c : Nat) (what : EvWhat) : (presentWhat s src vd typ asid a b c what).waitingFaults = s.waitingFaults := rfl
@[simp] theorem presentWhat_arbiter (s : State) (src vd typ asid a b c : Nat) (what : EvWhat) : (presentWhat s src vd typ asid a b c what).arbiter = s.arbiter ++ [⟨src, s.fresh, vd, typ, asid, 0, a, b, c, what⟩] := rfl
@[simp] theorem presentWhat_arbPos (s : State) (src vd typ asid a b c : Nat) (what : EvWhat) : (presentWhat s src vd typ asid a b c what).arbPos = s.arbPos := rfl
@[simp] theorem presentWhat_tokens (s : State) (src vd typ asid a b c : Nat) (what : EvWhat) : (presentWhat s src vd typ asid a b c what).tokens = s.tokens := rfl
@[simp] theorem presentWhat_nextToken (s : State) (src vd typ asid a b c : Nat) (what : EvWhat) : (presentWhat s src vd typ asid a b c what).nextToken = s.nextToken := rfl
@[simp] theorem presentWhat_answersIgnored (s : State) (src vd typ asid a b c : Nat) (what : EvWhat) : (presentWhat s src vd typ asid a b c what).answersIgnored = s.answersIgnored := rfl
@[simp] theorem presentWhat_irqs (s : State) (src vd typ asid a b c : Nat) (what : EvWhat) : (presentWhat s src vd typ asid a b c what).irqs = s.irqs := rfl
@[simp] theorem presentWhat_cyc (s : State) (src vd typ asid a b c : Nat) (what : EvWhat) : (presentWhat s src vd typ asid a b c what).cyc = s.cyc := rfl
@[simp] theorem presentWhat_time (s : State) (src vd typ asid a b c : Nat) (what : EvWhat) : (presentWhat s src vd typ asid a b c what).time = s.time := rfl
@[simp] theorem presentWhat_stretch (s : State) (src vd typ asid a b c : Nat) (what : EvWhat) : (presentWhat s src vd typ asid a b c what).stretch = s.stretch := rfl
@[simp] theorem presentWhat_links (s : State) (src vd typ asid a b c : Nat) (what : EvWhat) : (presentWhat s src vd typ asid a b c what).links = s.links := rfl
@[simp] theorem presentWhat_offPtr (s : State) (src vd typ asid a b c : Nat) (what : EvWhat) : (presentWhat s src vd typ asid a b c what).offPtr = s.offPtr := rfl
@[simp] theorem presentWhat_slotPtr (s : State) (src vd typ asid a b c : Nat) (what : EvWhat) : (presentWhat s src vd typ asid a b c what).slotPtr = s.slotPtr := rfl
@[simp] theorem presentWhat_sampPtr (s : State) (src vd typ asid a b c : Nat) (what : EvWhat) : (presentWhat s src vd typ asid a b c what).sampPtr = s.sampPtr := rfl
@[simp] theorem presentWhat_image (s : State) (src vd typ asid a b c : Nat) (what : EvWhat) : (presentWhat s src vd typ asid a b c what).image = s.image := rfl
@[simp] theorem presentWhat_absentCores (s : State) (src vd typ asid a b c : Nat) (what : EvWhat) : (presentWhat s src vd typ asid a b c what).absentCores = s.absentCores := rfl
@[simp] theorem presentWhat_absentOff (s : State) (src vd typ asid a b c : Nat) (what : EvWhat) : (presentWhat s src vd typ asid a b c what).absentOff = s.absentOff := rfl
@[simp] theorem presentWhat_governed (s : State) (src vd typ asid a b c : Nat) (what : EvWhat) : (presentWhat s src vd typ asid a b c what).governed = s.governed := rfl
@[simp] theorem presentWhat_devices (s : State) (src vd typ asid a b c : Nat) (what : EvWhat) : (presentWhat s src vd typ asid a b c what).devices = s.devices := rfl
@[simp] theorem presentWhat_portables (s : State) (src vd typ asid a b c : Nat) (what : EvWhat) : (presentWhat s src vd typ asid a b c what).portables = s.portables := rfl
@[simp] theorem presentWhat_hostReply (s : State) (src vd typ asid a b c : Nat) (what : EvWhat) : (presentWhat s src vd typ asid a b c what).hostReply = s.hostReply := rfl
@[simp] theorem presentWhat_hostPoison (s : State) (src vd typ asid a b c : Nat) (what : EvWhat) : (presentWhat s src vd typ asid a b c what).hostPoison = s.hostPoison := rfl
@[simp] theorem presentWhat_turn (s : State) (src vd typ asid a b c : Nat) (what : EvWhat) : (presentWhat s src vd typ asid a b c what).turn = s.turn := rfl
@[simp] theorem presentWhat_ev (s : State) (src vd typ asid a b c : Nat) (what : EvWhat) : (presentWhat s src vd typ asid a b c what).ev = s.ev := rfl
@[simp] theorem presentWhat_agenda (s : State) (src vd typ asid a b c : Nat) (what : EvWhat) : (presentWhat s src vd typ asid a b c what).agenda = s.agenda := rfl
@[simp] theorem presentWhat_fresh (s : State) (src vd typ asid a b c : Nat) (what : EvWhat) : (presentWhat s src vd typ asid a b c what).fresh = s.fresh := rfl
@[simp] theorem presentWhat_nextId (s : State) (src vd typ asid a b c : Nat) (what : EvWhat) : (presentWhat s src vd typ asid a b c what).nextId = s.nextId := rfl

/-! ### `present` -/

@[simp] theorem present_mem (s : State) (src vd typ asid a b c : Nat) : (present s src vd typ asid a b c).mem = s.mem := rfl
@[simp] theorem present_tags (s : State) (src vd typ asid a b c : Nat) : (present s src vd typ asid a b c).tags = s.tags := rfl
@[simp] theorem present_memPoison (s : State) (src vd typ asid a b c : Nat) : (present s src vd typ asid a b c).memPoison = s.memPoison := rfl
@[simp] theorem present_units (s : State) (src vd typ asid a b c : Nat) : (present s src vd typ asid a b c).units = s.units := rfl
@[simp] theorem present_groups (s : State) (src vd typ asid a b c : Nat) : (present s src vd typ asid a b c).groups = s.groups := rfl
@[simp] theorem present_launches (s : State) (src vd typ asid a b c : Nat) : (present s src vd typ asid a b c).launches = s.launches := rfl
@[simp] theorem present_ctxs (s : State) (src vd typ asid a b c : Nat) : (present s src vd typ asid a b c).ctxs = s.ctxs := rfl
@[simp] theorem present_kernels (s : State) (src vd typ asid a b c : Nat) : (present s src vd typ asid a b c).kernels = s.kernels := rfl
@[simp] theorem present_chains (s : State) (src vd typ asid a b c : Nat) : (present s src vd typ asid a b c).chains = s.chains := rfl
@[simp] theorem present_gangs (s : State) (src vd typ asid a b c : Nat) : (present s src vd typ asid a b c).gangs = s.gangs := rfl
@[simp] theorem present_gangParts (s : State) (src vd typ asid a b c : Nat) : (present s src vd typ asid a b c).gangParts = s.gangParts := rfl
@[simp] theorem present_slots (s : State) (src vd typ asid a b c : Nat) : (present s src vd typ asid a b c).slots = s.slots := rfl
@[simp] theorem present_windows (s : State) (src vd typ asid a b c : Nat) : (present s src vd typ asid a b c).windows = s.windows := rfl
@[simp] theorem present_xlatCad (s : State) (src vd typ asid a b c : Nat) : (present s src vd typ asid a b c).xlatCad = s.xlatCad := rfl
@[simp] theorem present_xlatPt (s : State) (src vd typ asid a b c : Nat) : (present s src vd typ asid a b c).xlatPt = s.xlatPt := rfl
@[simp] theorem present_tlb1 (s : State) (src vd typ asid a b c : Nat) : (present s src vd typ asid a b c).tlb1 = s.tlb1 := rfl
@[simp] theorem present_tlb2 (s : State) (src vd typ asid a b c : Nat) : (present s src vd typ asid a b c).tlb2 = s.tlb2 := rfl
@[simp] theorem present_frameKeys (s : State) (src vd typ asid a b c : Nat) : (present s src vd typ asid a b c).frameKeys = s.frameKeys := rfl
@[simp] theorem present_heat (s : State) (src vd typ asid a b c : Nat) : (present s src vd typ asid a b c).heat = s.heat := rfl
@[simp] theorem present_lfsr (s : State) (src vd typ asid a b c : Nat) : (present s src vd typ asid a b c).lfsr = s.lfsr := rfl
@[simp] theorem present_heatCtl (s : State) (src vd typ asid a b c : Nat) : (present s src vd typ asid a b c).heatCtl = s.heatCtl := rfl
@[simp] theorem present_arenas (s : State) (src vd typ asid a b c : Nat) : (present s src vd typ asid a b c).arenas = s.arenas := rfl
@[simp] theorem present_blocks (s : State) (src vd typ asid a b c : Nat) : (present s src vd typ asid a b c).blocks = s.blocks := rfl
@[simp] theorem present_failed (s : State) (src vd typ asid a b c : Nat) : (present s src vd typ asid a b c).failed = s.failed := rfl
@[simp] theorem present_conn (s : State) (src vd typ asid a b c : Nat) : (present s src vd typ asid a b c).conn = s.conn := rfl
@[simp] theorem present_partReq (s : State) (src vd typ asid a b c : Nat) : (present s src vd typ asid a b c).partReq = s.partReq := rfl
@[simp] theorem present_partAsid (s : State) (src vd typ asid a b c : Nat) : (present s src vd typ asid a b c).partAsid = s.partAsid := rfl
@[simp] theorem present_connViol (s : State) (src vd typ asid a b c : Nat) : (present s src vd typ asid a b c).connViol = s.connViol := rfl
@[simp] theorem present_domainId (s : State) (src vd typ asid a b c : Nat) : (present s src vd typ asid a b c).domainId = s.domainId := rfl
@[simp] theorem present_startCtl (s : State) (src vd typ asid a b c : Nat) : (present s src vd typ asid a b c).startCtl = s.startCtl := rfl
@[simp] theorem present_bootStat (s : State) (src vd typ asid a b c : Nat) : (present s src vd typ asid a b c).bootStat = s.bootStat := rfl
@[simp] theorem present_stretchCnt (s : State) (src vd typ asid a b c : Nat) : (present s src vd typ asid a b c).stretchCnt = s.stretchCnt := rfl
@[simp] theorem present_vdPart (s : State) (src vd typ asid a b c : Nat) : (present s src vd typ asid a b c).vdPart = s.vdPart := rfl
@[simp] theorem present_vds (s : State) (src vd typ asid a b c : Nat) : (present s src vd typ asid a b c).vds = s.vds := rfl
@[simp] theorem present_holding (s : State) (src vd typ asid a b c : Nat) : (present s src vd typ asid a b c).holding = s.holding := rfl
@[simp] theorem present_waitingFaults (s : State) (src vd typ asid a b c : Nat) : (present s src vd typ asid a b c).waitingFaults = s.waitingFaults := rfl
@[simp] theorem present_arbiter (s : State) (src vd typ asid a b c : Nat) : (present s src vd typ asid a b c).arbiter = s.arbiter ++ [⟨src, s.fresh, vd, typ, asid, 0, a, b, c, .entry⟩] := rfl
@[simp] theorem present_arbPos (s : State) (src vd typ asid a b c : Nat) : (present s src vd typ asid a b c).arbPos = s.arbPos := rfl
@[simp] theorem present_tokens (s : State) (src vd typ asid a b c : Nat) : (present s src vd typ asid a b c).tokens = s.tokens := rfl
@[simp] theorem present_nextToken (s : State) (src vd typ asid a b c : Nat) : (present s src vd typ asid a b c).nextToken = s.nextToken := rfl
@[simp] theorem present_answersIgnored (s : State) (src vd typ asid a b c : Nat) : (present s src vd typ asid a b c).answersIgnored = s.answersIgnored := rfl
@[simp] theorem present_irqs (s : State) (src vd typ asid a b c : Nat) : (present s src vd typ asid a b c).irqs = s.irqs := rfl
@[simp] theorem present_cyc (s : State) (src vd typ asid a b c : Nat) : (present s src vd typ asid a b c).cyc = s.cyc := rfl
@[simp] theorem present_time (s : State) (src vd typ asid a b c : Nat) : (present s src vd typ asid a b c).time = s.time := rfl
@[simp] theorem present_stretch (s : State) (src vd typ asid a b c : Nat) : (present s src vd typ asid a b c).stretch = s.stretch := rfl
@[simp] theorem present_links (s : State) (src vd typ asid a b c : Nat) : (present s src vd typ asid a b c).links = s.links := rfl
@[simp] theorem present_offPtr (s : State) (src vd typ asid a b c : Nat) : (present s src vd typ asid a b c).offPtr = s.offPtr := rfl
@[simp] theorem present_slotPtr (s : State) (src vd typ asid a b c : Nat) : (present s src vd typ asid a b c).slotPtr = s.slotPtr := rfl
@[simp] theorem present_sampPtr (s : State) (src vd typ asid a b c : Nat) : (present s src vd typ asid a b c).sampPtr = s.sampPtr := rfl
@[simp] theorem present_image (s : State) (src vd typ asid a b c : Nat) : (present s src vd typ asid a b c).image = s.image := rfl
@[simp] theorem present_absentCores (s : State) (src vd typ asid a b c : Nat) : (present s src vd typ asid a b c).absentCores = s.absentCores := rfl
@[simp] theorem present_absentOff (s : State) (src vd typ asid a b c : Nat) : (present s src vd typ asid a b c).absentOff = s.absentOff := rfl
@[simp] theorem present_governed (s : State) (src vd typ asid a b c : Nat) : (present s src vd typ asid a b c).governed = s.governed := rfl
@[simp] theorem present_devices (s : State) (src vd typ asid a b c : Nat) : (present s src vd typ asid a b c).devices = s.devices := rfl
@[simp] theorem present_portables (s : State) (src vd typ asid a b c : Nat) : (present s src vd typ asid a b c).portables = s.portables := rfl
@[simp] theorem present_hostReply (s : State) (src vd typ asid a b c : Nat) : (present s src vd typ asid a b c).hostReply = s.hostReply := rfl
@[simp] theorem present_hostPoison (s : State) (src vd typ asid a b c : Nat) : (present s src vd typ asid a b c).hostPoison = s.hostPoison := rfl
@[simp] theorem present_turn (s : State) (src vd typ asid a b c : Nat) : (present s src vd typ asid a b c).turn = s.turn := rfl
@[simp] theorem present_ev (s : State) (src vd typ asid a b c : Nat) : (present s src vd typ asid a b c).ev = s.ev := rfl
@[simp] theorem present_agenda (s : State) (src vd typ asid a b c : Nat) : (present s src vd typ asid a b c).agenda = s.agenda := rfl
@[simp] theorem present_fresh (s : State) (src vd typ asid a b c : Nat) : (present s src vd typ asid a b c).fresh = s.fresh := rfl
@[simp] theorem present_nextId (s : State) (src vd typ asid a b c : Nat) : (present s src vd typ asid a b c).nextId = s.nextId := rfl

/-! ### `raiseIrq` -/

@[simp] theorem raiseIrq_mem (s : State) (vd vec : Nat) : (raiseIrq s vd vec).mem = s.mem := rfl
@[simp] theorem raiseIrq_tags (s : State) (vd vec : Nat) : (raiseIrq s vd vec).tags = s.tags := rfl
@[simp] theorem raiseIrq_memPoison (s : State) (vd vec : Nat) : (raiseIrq s vd vec).memPoison = s.memPoison := rfl
@[simp] theorem raiseIrq_units (s : State) (vd vec : Nat) : (raiseIrq s vd vec).units = s.units := rfl
@[simp] theorem raiseIrq_groups (s : State) (vd vec : Nat) : (raiseIrq s vd vec).groups = s.groups := rfl
@[simp] theorem raiseIrq_launches (s : State) (vd vec : Nat) : (raiseIrq s vd vec).launches = s.launches := rfl
@[simp] theorem raiseIrq_ctxs (s : State) (vd vec : Nat) : (raiseIrq s vd vec).ctxs = s.ctxs := rfl
@[simp] theorem raiseIrq_kernels (s : State) (vd vec : Nat) : (raiseIrq s vd vec).kernels = s.kernels := rfl
@[simp] theorem raiseIrq_chains (s : State) (vd vec : Nat) : (raiseIrq s vd vec).chains = s.chains := rfl
@[simp] theorem raiseIrq_gangs (s : State) (vd vec : Nat) : (raiseIrq s vd vec).gangs = s.gangs := rfl
@[simp] theorem raiseIrq_gangParts (s : State) (vd vec : Nat) : (raiseIrq s vd vec).gangParts = s.gangParts := rfl
@[simp] theorem raiseIrq_slots (s : State) (vd vec : Nat) : (raiseIrq s vd vec).slots = s.slots := rfl
@[simp] theorem raiseIrq_windows (s : State) (vd vec : Nat) : (raiseIrq s vd vec).windows = s.windows := rfl
@[simp] theorem raiseIrq_xlatCad (s : State) (vd vec : Nat) : (raiseIrq s vd vec).xlatCad = s.xlatCad := rfl
@[simp] theorem raiseIrq_xlatPt (s : State) (vd vec : Nat) : (raiseIrq s vd vec).xlatPt = s.xlatPt := rfl
@[simp] theorem raiseIrq_tlb1 (s : State) (vd vec : Nat) : (raiseIrq s vd vec).tlb1 = s.tlb1 := rfl
@[simp] theorem raiseIrq_tlb2 (s : State) (vd vec : Nat) : (raiseIrq s vd vec).tlb2 = s.tlb2 := rfl
@[simp] theorem raiseIrq_frameKeys (s : State) (vd vec : Nat) : (raiseIrq s vd vec).frameKeys = s.frameKeys := rfl
@[simp] theorem raiseIrq_heat (s : State) (vd vec : Nat) : (raiseIrq s vd vec).heat = s.heat := rfl
@[simp] theorem raiseIrq_lfsr (s : State) (vd vec : Nat) : (raiseIrq s vd vec).lfsr = s.lfsr := rfl
@[simp] theorem raiseIrq_heatCtl (s : State) (vd vec : Nat) : (raiseIrq s vd vec).heatCtl = s.heatCtl := rfl
@[simp] theorem raiseIrq_arenas (s : State) (vd vec : Nat) : (raiseIrq s vd vec).arenas = s.arenas := rfl
@[simp] theorem raiseIrq_blocks (s : State) (vd vec : Nat) : (raiseIrq s vd vec).blocks = s.blocks := rfl
@[simp] theorem raiseIrq_failed (s : State) (vd vec : Nat) : (raiseIrq s vd vec).failed = s.failed := rfl
@[simp] theorem raiseIrq_conn (s : State) (vd vec : Nat) : (raiseIrq s vd vec).conn = s.conn := rfl
@[simp] theorem raiseIrq_partReq (s : State) (vd vec : Nat) : (raiseIrq s vd vec).partReq = s.partReq := rfl
@[simp] theorem raiseIrq_partAsid (s : State) (vd vec : Nat) : (raiseIrq s vd vec).partAsid = s.partAsid := rfl
@[simp] theorem raiseIrq_connViol (s : State) (vd vec : Nat) : (raiseIrq s vd vec).connViol = s.connViol := rfl
@[simp] theorem raiseIrq_domainId (s : State) (vd vec : Nat) : (raiseIrq s vd vec).domainId = s.domainId := rfl
@[simp] theorem raiseIrq_startCtl (s : State) (vd vec : Nat) : (raiseIrq s vd vec).startCtl = s.startCtl := rfl
@[simp] theorem raiseIrq_bootStat (s : State) (vd vec : Nat) : (raiseIrq s vd vec).bootStat = s.bootStat := rfl
@[simp] theorem raiseIrq_stretchCnt (s : State) (vd vec : Nat) : (raiseIrq s vd vec).stretchCnt = s.stretchCnt := rfl
@[simp] theorem raiseIrq_vdPart (s : State) (vd vec : Nat) : (raiseIrq s vd vec).vdPart = s.vdPart := rfl
@[simp] theorem raiseIrq_vds (s : State) (vd vec : Nat) : (raiseIrq s vd vec).vds = s.vds := rfl
@[simp] theorem raiseIrq_holding (s : State) (vd vec : Nat) : (raiseIrq s vd vec).holding = s.holding := rfl
@[simp] theorem raiseIrq_waitingFaults (s : State) (vd vec : Nat) : (raiseIrq s vd vec).waitingFaults = s.waitingFaults := rfl
@[simp] theorem raiseIrq_arbiter (s : State) (vd vec : Nat) : (raiseIrq s vd vec).arbiter = s.arbiter := rfl
@[simp] theorem raiseIrq_arbPos (s : State) (vd vec : Nat) : (raiseIrq s vd vec).arbPos = s.arbPos := rfl
@[simp] theorem raiseIrq_tokens (s : State) (vd vec : Nat) : (raiseIrq s vd vec).tokens = s.tokens := rfl
@[simp] theorem raiseIrq_nextToken (s : State) (vd vec : Nat) : (raiseIrq s vd vec).nextToken = s.nextToken := rfl
@[simp] theorem raiseIrq_answersIgnored (s : State) (vd vec : Nat) : (raiseIrq s vd vec).answersIgnored = s.answersIgnored := rfl
@[simp] theorem raiseIrq_irqs (s : State) (vd vec : Nat) : (raiseIrq s vd vec).irqs = (vd, vec) :: s.irqs := rfl
@[simp] theorem raiseIrq_cyc (s : State) (vd vec : Nat) : (raiseIrq s vd vec).cyc = s.cyc := rfl
@[simp] theorem raiseIrq_time (s : State) (vd vec : Nat) : (raiseIrq s vd vec).time = s.time := rfl
@[simp] theorem raiseIrq_stretch (s : State) (vd vec : Nat) : (raiseIrq s vd vec).stretch = s.stretch := rfl
@[simp] theorem raiseIrq_links (s : State) (vd vec : Nat) : (raiseIrq s vd vec).links = s.links := rfl
@[simp] theorem raiseIrq_offPtr (s : State) (vd vec : Nat) : (raiseIrq s vd vec).offPtr = s.offPtr := rfl
@[simp] theorem raiseIrq_slotPtr (s : State) (vd vec : Nat) : (raiseIrq s vd vec).slotPtr = s.slotPtr := rfl
@[simp] theorem raiseIrq_sampPtr (s : State) (vd vec : Nat) : (raiseIrq s vd vec).sampPtr = s.sampPtr := rfl
@[simp] theorem raiseIrq_image (s : State) (vd vec : Nat) : (raiseIrq s vd vec).image = s.image := rfl
@[simp] theorem raiseIrq_absentCores (s : State) (vd vec : Nat) : (raiseIrq s vd vec).absentCores = s.absentCores := rfl
@[simp] theorem raiseIrq_absentOff (s : State) (vd vec : Nat) : (raiseIrq s vd vec).absentOff = s.absentOff := rfl
@[simp] theorem raiseIrq_governed (s : State) (vd vec : Nat) : (raiseIrq s vd vec).governed = s.governed := rfl
@[simp] theorem raiseIrq_devices (s : State) (vd vec : Nat) : (raiseIrq s vd vec).devices = s.devices := rfl
@[simp] theorem raiseIrq_portables (s : State) (vd vec : Nat) : (raiseIrq s vd vec).portables = s.portables := rfl
@[simp] theorem raiseIrq_hostReply (s : State) (vd vec : Nat) : (raiseIrq s vd vec).hostReply = s.hostReply := rfl
@[simp] theorem raiseIrq_hostPoison (s : State) (vd vec : Nat) : (raiseIrq s vd vec).hostPoison = s.hostPoison := rfl
@[simp] theorem raiseIrq_turn (s : State) (vd vec : Nat) : (raiseIrq s vd vec).turn = s.turn := rfl
@[simp] theorem raiseIrq_ev (s : State) (vd vec : Nat) : (raiseIrq s vd vec).ev = s.ev := rfl
@[simp] theorem raiseIrq_agenda (s : State) (vd vec : Nat) : (raiseIrq s vd vec).agenda = s.agenda := rfl
@[simp] theorem raiseIrq_fresh (s : State) (vd vec : Nat) : (raiseIrq s vd vec).fresh = s.fresh := rfl
@[simp] theorem raiseIrq_nextId (s : State) (vd vec : Nat) : (raiseIrq s vd vec).nextId = s.nextId := rfl

/-! ### `elapse` -/

@[simp] theorem elapse_mem (s : State) (n : Nat) : (elapse s n).mem = s.mem := rfl
@[simp] theorem elapse_tags (s : State) (n : Nat) : (elapse s n).tags = s.tags := rfl
@[simp] theorem elapse_memPoison (s : State) (n : Nat) : (elapse s n).memPoison = s.memPoison := rfl
@[simp] theorem elapse_units (s : State) (n : Nat) : (elapse s n).units = s.units := rfl
@[simp] theorem elapse_groups (s : State) (n : Nat) : (elapse s n).groups = s.groups := rfl
@[simp] theorem elapse_launches (s : State) (n : Nat) : (elapse s n).launches = s.launches := rfl
@[simp] theorem elapse_ctxs (s : State) (n : Nat) : (elapse s n).ctxs = s.ctxs.map fun p => (p.1, if eligible s p.1 p.2 then { p.2 with idle := p.2.idle + n } else p.2) := rfl
@[simp] theorem elapse_kernels (s : State) (n : Nat) : (elapse s n).kernels = s.kernels := rfl
@[simp] theorem elapse_chains (s : State) (n : Nat) : (elapse s n).chains = s.chains := rfl
@[simp] theorem elapse_gangs (s : State) (n : Nat) : (elapse s n).gangs = s.gangs := rfl
@[simp] theorem elapse_gangParts (s : State) (n : Nat) : (elapse s n).gangParts = s.gangParts := rfl
@[simp] theorem elapse_slots (s : State) (n : Nat) : (elapse s n).slots = s.slots := rfl
@[simp] theorem elapse_windows (s : State) (n : Nat) : (elapse s n).windows = s.windows := rfl
@[simp] theorem elapse_xlatCad (s : State) (n : Nat) : (elapse s n).xlatCad = s.xlatCad := rfl
@[simp] theorem elapse_xlatPt (s : State) (n : Nat) : (elapse s n).xlatPt = s.xlatPt := rfl
@[simp] theorem elapse_tlb1 (s : State) (n : Nat) : (elapse s n).tlb1 = s.tlb1 := rfl
@[simp] theorem elapse_tlb2 (s : State) (n : Nat) : (elapse s n).tlb2 = s.tlb2 := rfl
@[simp] theorem elapse_frameKeys (s : State) (n : Nat) : (elapse s n).frameKeys = s.frameKeys := rfl
@[simp] theorem elapse_heat (s : State) (n : Nat) : (elapse s n).heat = s.heat := rfl
@[simp] theorem elapse_lfsr (s : State) (n : Nat) : (elapse s n).lfsr = s.lfsr := rfl
@[simp] theorem elapse_heatCtl (s : State) (n : Nat) : (elapse s n).heatCtl = s.heatCtl := rfl
@[simp] theorem elapse_arenas (s : State) (n : Nat) : (elapse s n).arenas = s.arenas := rfl
@[simp] theorem elapse_blocks (s : State) (n : Nat) : (elapse s n).blocks = s.blocks := rfl
@[simp] theorem elapse_failed (s : State) (n : Nat) : (elapse s n).failed = s.failed := rfl
@[simp] theorem elapse_conn (s : State) (n : Nat) : (elapse s n).conn = s.conn := rfl
@[simp] theorem elapse_partReq (s : State) (n : Nat) : (elapse s n).partReq = s.partReq := rfl
@[simp] theorem elapse_partAsid (s : State) (n : Nat) : (elapse s n).partAsid = s.partAsid := rfl
@[simp] theorem elapse_connViol (s : State) (n : Nat) : (elapse s n).connViol = s.connViol := rfl
@[simp] theorem elapse_domainId (s : State) (n : Nat) : (elapse s n).domainId = s.domainId := rfl
@[simp] theorem elapse_startCtl (s : State) (n : Nat) : (elapse s n).startCtl = s.startCtl := rfl
@[simp] theorem elapse_bootStat (s : State) (n : Nat) : (elapse s n).bootStat = s.bootStat := rfl
@[simp] theorem elapse_stretchCnt (s : State) (n : Nat) : (elapse s n).stretchCnt = s.stretchCnt := rfl
@[simp] theorem elapse_vdPart (s : State) (n : Nat) : (elapse s n).vdPart = s.vdPart := rfl
@[simp] theorem elapse_vds (s : State) (n : Nat) : (elapse s n).vds = s.vds := rfl
@[simp] theorem elapse_holding (s : State) (n : Nat) : (elapse s n).holding = s.holding := rfl
@[simp] theorem elapse_waitingFaults (s : State) (n : Nat) : (elapse s n).waitingFaults = s.waitingFaults := rfl
@[simp] theorem elapse_arbiter (s : State) (n : Nat) : (elapse s n).arbiter = s.arbiter := rfl
@[simp] theorem elapse_arbPos (s : State) (n : Nat) : (elapse s n).arbPos = s.arbPos := rfl
@[simp] theorem elapse_tokens (s : State) (n : Nat) : (elapse s n).tokens = s.tokens := rfl
@[simp] theorem elapse_nextToken (s : State) (n : Nat) : (elapse s n).nextToken = s.nextToken := rfl
@[simp] theorem elapse_answersIgnored (s : State) (n : Nat) : (elapse s n).answersIgnored = s.answersIgnored := rfl
@[simp] theorem elapse_irqs (s : State) (n : Nat) : (elapse s n).irqs = s.irqs := rfl
@[simp] theorem elapse_cyc (s : State) (n : Nat) : (elapse s n).cyc = s.cyc := rfl
@[simp] theorem elapse_time (s : State) (n : Nat) : (elapse s n).time = s.time + n := rfl
@[simp] theorem elapse_stretch (s : State) (n : Nat) : (elapse s n).stretch = s.stretch := rfl
@[simp] theorem elapse_links (s : State) (n : Nat) : (elapse s n).links = s.links := rfl
@[simp] theorem elapse_offPtr (s : State) (n : Nat) : (elapse s n).offPtr = s.offPtr := rfl
@[simp] theorem elapse_slotPtr (s : State) (n : Nat) : (elapse s n).slotPtr = s.slotPtr := rfl
@[simp] theorem elapse_sampPtr (s : State) (n : Nat) : (elapse s n).sampPtr = s.sampPtr := rfl
@[simp] theorem elapse_image (s : State) (n : Nat) : (elapse s n).image = s.image := rfl
@[simp] theorem elapse_absentCores (s : State) (n : Nat) : (elapse s n).absentCores = s.absentCores := rfl
@[simp] theorem elapse_absentOff (s : State) (n : Nat) : (elapse s n).absentOff = s.absentOff := rfl
@[simp] theorem elapse_governed (s : State) (n : Nat) : (elapse s n).governed = s.governed := rfl
@[simp] theorem elapse_devices (s : State) (n : Nat) : (elapse s n).devices = s.devices := rfl
@[simp] theorem elapse_portables (s : State) (n : Nat) : (elapse s n).portables = s.portables := rfl
@[simp] theorem elapse_hostReply (s : State) (n : Nat) : (elapse s n).hostReply = s.hostReply := rfl
@[simp] theorem elapse_hostPoison (s : State) (n : Nat) : (elapse s n).hostPoison = s.hostPoison := rfl
@[simp] theorem elapse_turn (s : State) (n : Nat) : (elapse s n).turn = s.turn := rfl
@[simp] theorem elapse_ev (s : State) (n : Nat) : (elapse s n).ev = s.ev := rfl
@[simp] theorem elapse_agenda (s : State) (n : Nat) : (elapse s n).agenda = s.agenda := rfl
@[simp] theorem elapse_fresh (s : State) (n : Nat) : (elapse s n).fresh = s.fresh := rfl
@[simp] theorem elapse_nextId (s : State) (n : Nat) : (elapse s n).nextId = s.nextId := rfl

/-! ### `tick` -/

@[simp] theorem tick_mem (s : State) (u n : Nat) : (tick s u n).mem = s.mem := rfl
@[simp] theorem tick_tags (s : State) (u n : Nat) : (tick s u n).tags = s.tags := rfl
@[simp] theorem tick_memPoison (s : State) (u n : Nat) : (tick s u n).memPoison = s.memPoison := rfl
@[simp] theorem tick_units (s : State) (u n : Nat) : (tick s u n).units =
    s.units.map fun p => (p.1, passTime u n (n + Config.freeNat (s.fresh + dieOf p.2.loc)) p.2) := rfl
@[simp] theorem tick_groups (s : State) (u n : Nat) : (tick s u n).groups = s.groups := rfl
@[simp] theorem tick_launches (s : State) (u n : Nat) : (tick s u n).launches = s.launches := rfl
@[simp] theorem tick_ctxs (s : State) (u n : Nat) : (tick s u n).ctxs =
    s.ctxs.map fun p => (p.1, if eligible s p.1 p.2 then { p.2 with idle := p.2.idle + Config.freeNat (s.fresh + 8) } else p.2) := rfl
@[simp] theorem tick_kernels (s : State) (u n : Nat) : (tick s u n).kernels = s.kernels := rfl
@[simp] theorem tick_chains (s : State) (u n : Nat) : (tick s u n).chains = s.chains := rfl
@[simp] theorem tick_gangs (s : State) (u n : Nat) : (tick s u n).gangs = s.gangs := rfl
@[simp] theorem tick_gangParts (s : State) (u n : Nat) : (tick s u n).gangParts = s.gangParts := rfl
@[simp] theorem tick_slots (s : State) (u n : Nat) : (tick s u n).slots = s.slots := rfl
@[simp] theorem tick_windows (s : State) (u n : Nat) : (tick s u n).windows = s.windows := rfl
@[simp] theorem tick_xlatCad (s : State) (u n : Nat) : (tick s u n).xlatCad = s.xlatCad := rfl
@[simp] theorem tick_xlatPt (s : State) (u n : Nat) : (tick s u n).xlatPt = s.xlatPt := rfl
@[simp] theorem tick_tlb1 (s : State) (u n : Nat) : (tick s u n).tlb1 = s.tlb1 := rfl
@[simp] theorem tick_tlb2 (s : State) (u n : Nat) : (tick s u n).tlb2 = s.tlb2 := rfl
@[simp] theorem tick_frameKeys (s : State) (u n : Nat) : (tick s u n).frameKeys = s.frameKeys := rfl
@[simp] theorem tick_heat (s : State) (u n : Nat) : (tick s u n).heat = s.heat := rfl
@[simp] theorem tick_lfsr (s : State) (u n : Nat) : (tick s u n).lfsr = s.lfsr := rfl
@[simp] theorem tick_heatCtl (s : State) (u n : Nat) : (tick s u n).heatCtl = s.heatCtl := rfl
@[simp] theorem tick_arenas (s : State) (u n : Nat) : (tick s u n).arenas = s.arenas := rfl
@[simp] theorem tick_blocks (s : State) (u n : Nat) : (tick s u n).blocks = s.blocks := rfl
@[simp] theorem tick_failed (s : State) (u n : Nat) : (tick s u n).failed = s.failed := rfl
@[simp] theorem tick_conn (s : State) (u n : Nat) : (tick s u n).conn = s.conn := rfl
@[simp] theorem tick_partReq (s : State) (u n : Nat) : (tick s u n).partReq = s.partReq := rfl
@[simp] theorem tick_partAsid (s : State) (u n : Nat) : (tick s u n).partAsid = s.partAsid := rfl
@[simp] theorem tick_connViol (s : State) (u n : Nat) : (tick s u n).connViol = s.connViol := rfl
@[simp] theorem tick_domainId (s : State) (u n : Nat) : (tick s u n).domainId = s.domainId := rfl
@[simp] theorem tick_startCtl (s : State) (u n : Nat) : (tick s u n).startCtl = s.startCtl := rfl
@[simp] theorem tick_bootStat (s : State) (u n : Nat) : (tick s u n).bootStat = s.bootStat := rfl
@[simp] theorem tick_stretchCnt (s : State) (u n : Nat) : (tick s u n).stretchCnt = s.stretchCnt := rfl
@[simp] theorem tick_vdPart (s : State) (u n : Nat) : (tick s u n).vdPart = s.vdPart := rfl
@[simp] theorem tick_vds (s : State) (u n : Nat) : (tick s u n).vds = s.vds := rfl
@[simp] theorem tick_holding (s : State) (u n : Nat) : (tick s u n).holding = s.holding := rfl
@[simp] theorem tick_waitingFaults (s : State) (u n : Nat) : (tick s u n).waitingFaults = s.waitingFaults := rfl
@[simp] theorem tick_arbiter (s : State) (u n : Nat) : (tick s u n).arbiter = s.arbiter := rfl
@[simp] theorem tick_arbPos (s : State) (u n : Nat) : (tick s u n).arbPos = s.arbPos := rfl
@[simp] theorem tick_tokens (s : State) (u n : Nat) : (tick s u n).tokens = s.tokens := rfl
@[simp] theorem tick_nextToken (s : State) (u n : Nat) : (tick s u n).nextToken = s.nextToken := rfl
@[simp] theorem tick_answersIgnored (s : State) (u n : Nat) : (tick s u n).answersIgnored = s.answersIgnored := rfl
@[simp] theorem tick_irqs (s : State) (u n : Nat) : (tick s u n).irqs = s.irqs := rfl
@[simp] theorem tick_cyc (s : State) (u n : Nat) : (tick s u n).cyc =
    (List.range 8).foldl (fun c d => sput c d (sget 0 c d + (n + Config.freeNat (s.fresh + d)))) s.cyc := rfl
@[simp] theorem tick_time (s : State) (u n : Nat) : (tick s u n).time =
    s.time + Config.freeNat (s.fresh + 8) := rfl
@[simp] theorem tick_stretch (s : State) (u n : Nat) : (tick s u n).stretch = s.stretch := rfl
@[simp] theorem tick_links (s : State) (u n : Nat) : (tick s u n).links = s.links := rfl
@[simp] theorem tick_offPtr (s : State) (u n : Nat) : (tick s u n).offPtr = s.offPtr := rfl
@[simp] theorem tick_slotPtr (s : State) (u n : Nat) : (tick s u n).slotPtr = s.slotPtr := rfl
@[simp] theorem tick_sampPtr (s : State) (u n : Nat) : (tick s u n).sampPtr = s.sampPtr := rfl
@[simp] theorem tick_image (s : State) (u n : Nat) : (tick s u n).image = s.image := rfl
@[simp] theorem tick_absentCores (s : State) (u n : Nat) : (tick s u n).absentCores = s.absentCores := rfl
@[simp] theorem tick_absentOff (s : State) (u n : Nat) : (tick s u n).absentOff = s.absentOff := rfl
@[simp] theorem tick_governed (s : State) (u n : Nat) : (tick s u n).governed = s.governed := rfl
@[simp] theorem tick_devices (s : State) (u n : Nat) : (tick s u n).devices = s.devices := rfl
@[simp] theorem tick_portables (s : State) (u n : Nat) : (tick s u n).portables = s.portables := rfl
@[simp] theorem tick_hostReply (s : State) (u n : Nat) : (tick s u n).hostReply = s.hostReply := rfl
@[simp] theorem tick_hostPoison (s : State) (u n : Nat) : (tick s u n).hostPoison = s.hostPoison := rfl
@[simp] theorem tick_turn (s : State) (u n : Nat) : (tick s u n).turn = s.turn := rfl
@[simp] theorem tick_ev (s : State) (u n : Nat) : (tick s u n).ev = s.ev := rfl
@[simp] theorem tick_agenda (s : State) (u n : Nat) : (tick s u n).agenda = s.agenda := rfl
@[simp] theorem tick_fresh (s : State) (u n : Nat) : (tick s u n).fresh =
    s.fresh + 9 := rfl
@[simp] theorem tick_nextId (s : State) (u n : Nat) : (tick s u n).nextId = s.nextId := rfl

/-! ### `setPc` -/

@[simp] theorem setPc_grp (w : Warp) (t p : Nat) : (setPc w t p).grp = w.grp := rfl
@[simp] theorem setPc_idx (w : Warp) (t p : Nat) : (setPc w t p).idx = w.idx := rfl
@[simp] theorem setPc_asid (w : Warp) (t p : Nat) : (setPc w t p).asid = w.asid := rfl
@[simp] theorem setPc_loc (w : Warp) (t p : Nat) : (setPc w t p).loc = w.loc := rfl
@[simp] theorem setPc_stat (w : Warp) (t p : Nat) : (setPc w t p).stat = w.stat := rfl
@[simp] theorem setPc_base (w : Warp) (t p : Nat) : (setPc w t p).base = w.base := rfl
@[simp] theorem setPc_elastic (w : Warp) (t p : Nat) : (setPc w t p).elastic = w.elastic := rfl
@[simp] theorem setPc_ntiles (w : Warp) (t p : Nat) : (setPc w t p).ntiles = w.ntiles := rfl
@[simp] theorem setPc_naccs (w : Warp) (t p : Nat) : (setPc w t p).naccs = w.naccs := rfl
@[simp] theorem setPc_live (w : Warp) (t p : Nat) : (setPc w t p).live = w.live := rfl
@[simp] theorem setPc_pcs (w : Warp) (t p : Nat) : (setPc w t p).pcs = sset 0 w.pcs t (p % 2 ^ 57) := rfl
@[simp] theorem setPc_marks (w : Warp) (t p : Nat) : (setPc w t p).marks = w.marks := rfl
@[simp] theorem setPc_regs (w : Warp) (t p : Nat) : (setPc w t p).regs = w.regs := rfl
@[simp] theorem setPc_saved (w : Warp) (t p : Nat) : (setPc w t p).saved = w.saved := rfl
@[simp] theorem setPc_ras (w : Warp) (t p : Nat) : (setPc w t p).ras = w.ras := rfl
@[simp] theorem setPc_rmode (w : Warp) (t p : Nat) : (setPc w t p).rmode = w.rmode := rfl
@[simp] theorem setPc_tm (w : Warp) (t p : Nat) : (setPc w t p).tm = w.tm := rfl
@[simp] theorem setPc_inh (w : Warp) (t p : Nat) : (setPc w t p).inh = w.inh := rfl
@[simp] theorem setPc_shadow61 (w : Warp) (t p : Nat) : (setPc w t p).shadow61 = w.shadow61 := rfl
@[simp] theorem setPc_shadow62 (w : Warp) (t p : Nat) : (setPc w t p).shadow62 = w.shadow62 := rfl
@[simp] theorem setPc_shadow15 (w : Warp) (t p : Nat) : (setPc w t p).shadow15 = w.shadow15 := rfl
@[simp] theorem setPc_handler (w : Warp) (t p : Nat) : (setPc w t p).handler = w.handler := rfl
@[simp] theorem setPc_tshp (w : Warp) (t p : Nat) : (setPc w t p).tshp = w.tshp := rfl
@[simp] theorem setPc_ashp (w : Warp) (t p : Nat) : (setPc w t p).ashp = w.ashp := rfl
@[simp] theorem setPc_wtime (w : Warp) (t p : Nat) : (setPc w t p).wtime = w.wtime := rfl
@[simp] theorem setPc_wtcmp (w : Warp) (t p : Nat) : (setPc w t p).wtcmp = w.wtcmp := rfl
@[simp] theorem setPc_wtstage (w : Warp) (t p : Nat) : (setPc w t p).wtstage = w.wtstage := rfl
@[simp] theorem setPc_latch (w : Warp) (t p : Nat) : (setPc w t p).latch = w.latch := rfl
@[simp] theorem setPc_recipes (w : Warp) (t p : Nat) : (setPc w t p).recipes = w.recipes := rfl
@[simp] theorem setPc_pends (w : Warp) (t p : Nat) : (setPc w t p).pends = w.pends := rfl
@[simp] theorem setPc_tops (w : Warp) (t p : Nat) : (setPc w t p).tops = w.tops := rfl
@[simp] theorem setPc_copies (w : Warp) (t p : Nat) : (setPc w t p).copies = w.copies := rfl
@[simp] theorem setPc_sealCtr (w : Warp) (t p : Nat) : (setPc w t p).sealCtr = w.sealCtr := rfl
@[simp] theorem setPc_batches (w : Warp) (t p : Nat) : (setPc w t p).batches = w.batches := rfl
@[simp] theorem setPc_openPoison (w : Warp) (t p : Nat) : (setPc w t p).openPoison = w.openPoison := rfl
@[simp] theorem setPc_ports (w : Warp) (t p : Nat) : (setPc w t p).ports = w.ports := rfl
@[simp] theorem setPc_waits (w : Warp) (t p : Nat) : (setPc w t p).waits = w.waits := rfl
@[simp] theorem setPc_noEject (w : Warp) (t p : Nat) : (setPc w t p).noEject = w.noEject := rfl
@[simp] theorem setPc_yield (w : Warp) (t p : Nat) : (setPc w t p).yield = w.yield := rfl
@[simp] theorem setPc_gen (w : Warp) (t p : Nat) : (setPc w t p).gen = w.gen := rfl
@[simp] theorem setPc_vec (w : Warp) (t p : Nat) : (setPc w t p).vec = w.vec := rfl
@[simp] theorem setPc_routine (w : Warp) (t p : Nat) : (setPc w t p).routine = w.routine := rfl
@[simp] theorem setPc_heldPre (w : Warp) (t p : Nat) : (setPc w t p).heldPre = w.heldPre := rfl
@[simp] theorem setPc_tmaskClk (w : Warp) (t p : Nat) : (setPc w t p).tmaskClk = w.tmaskClk := rfl
@[simp] theorem setPc_resumeGuard (w : Warp) (t p : Nat) : (setPc w t p).resumeGuard = w.resumeGuard := rfl
@[simp] theorem setPc_carried (w : Warp) (t p : Nat) : (setPc w t p).carried = w.carried := rfl
@[simp] theorem setPc_reason (w : Warp) (t p : Nat) : (setPc w t p).reason = w.reason := rfl
@[simp] theorem setPc_rejoinWait (w : Warp) (t p : Nat) : (setPc w t p).rejoinWait = w.rejoinWait := rfl
@[simp] theorem setPc_off (w : Warp) (t p : Nat) : (setPc w t p).off = w.off := rfl
@[simp] theorem setPc_rows (w : Warp) (t p : Nat) : (setPc w t p).rows = w.rows := rfl
@[simp] theorem setPc_tokens (w : Warp) (t p : Nat) : (setPc w t p).tokens = w.tokens := rfl
@[simp] theorem setPc_denied (w : Warp) (t p : Nat) : (setPc w t p).denied = w.denied := rfl
@[simp] theorem setPc_drops (w : Warp) (t p : Nat) : (setPc w t p).drops = w.drops := rfl

/-! ### `setMark` -/

@[simp] theorem setMark_grp (w : Warp) (t : Nat) (m : Mark) : (setMark w t m).grp = w.grp := rfl
@[simp] theorem setMark_idx (w : Warp) (t : Nat) (m : Mark) : (setMark w t m).idx = w.idx := rfl
@[simp] theorem setMark_asid (w : Warp) (t : Nat) (m : Mark) : (setMark w t m).asid = w.asid := rfl
@[simp] theorem setMark_loc (w : Warp) (t : Nat) (m : Mark) : (setMark w t m).loc = w.loc := rfl
@[simp] theorem setMark_stat (w : Warp) (t : Nat) (m : Mark) : (setMark w t m).stat = w.stat := rfl
@[simp] theorem setMark_base (w : Warp) (t : Nat) (m : Mark) : (setMark w t m).base = w.base := rfl
@[simp] theorem setMark_elastic (w : Warp) (t : Nat) (m : Mark) : (setMark w t m).elastic = w.elastic := rfl
@[simp] theorem setMark_ntiles (w : Warp) (t : Nat) (m : Mark) : (setMark w t m).ntiles = w.ntiles := rfl
@[simp] theorem setMark_naccs (w : Warp) (t : Nat) (m : Mark) : (setMark w t m).naccs = w.naccs := rfl
@[simp] theorem setMark_live (w : Warp) (t : Nat) (m : Mark) : (setMark w t m).live = w.live := rfl
@[simp] theorem setMark_pcs (w : Warp) (t : Nat) (m : Mark) : (setMark w t m).pcs = w.pcs := rfl
@[simp] theorem setMark_marks (w : Warp) (t : Nat) (m : Mark) : (setMark w t m).marks = sset .ready w.marks t m := rfl
@[simp] theorem setMark_regs (w : Warp) (t : Nat) (m : Mark) : (setMark w t m).regs = w.regs := rfl
@[simp] theorem setMark_saved (w : Warp) (t : Nat) (m : Mark) : (setMark w t m).saved = w.saved := rfl
@[simp] theorem setMark_ras (w : Warp) (t : Nat) (m : Mark) : (setMark w t m).ras = w.ras := rfl
@[simp] theorem setMark_rmode (w : Warp) (t : Nat) (m : Mark) : (setMark w t m).rmode = w.rmode := rfl
@[simp] theorem setMark_tm (w : Warp) (t : Nat) (m : Mark) : (setMark w t m).tm = w.tm := rfl
@[simp] theorem setMark_inh (w : Warp) (t : Nat) (m : Mark) : (setMark w t m).inh = w.inh := rfl
@[simp] theorem setMark_shadow61 (w : Warp) (t : Nat) (m : Mark) : (setMark w t m).shadow61 = w.shadow61 := rfl
@[simp] theorem setMark_shadow62 (w : Warp) (t : Nat) (m : Mark) : (setMark w t m).shadow62 = w.shadow62 := rfl
@[simp] theorem setMark_shadow15 (w : Warp) (t : Nat) (m : Mark) : (setMark w t m).shadow15 = w.shadow15 := rfl
@[simp] theorem setMark_handler (w : Warp) (t : Nat) (m : Mark) : (setMark w t m).handler = w.handler := rfl
@[simp] theorem setMark_tshp (w : Warp) (t : Nat) (m : Mark) : (setMark w t m).tshp = w.tshp := rfl
@[simp] theorem setMark_ashp (w : Warp) (t : Nat) (m : Mark) : (setMark w t m).ashp = w.ashp := rfl
@[simp] theorem setMark_wtime (w : Warp) (t : Nat) (m : Mark) : (setMark w t m).wtime = w.wtime := rfl
@[simp] theorem setMark_wtcmp (w : Warp) (t : Nat) (m : Mark) : (setMark w t m).wtcmp = w.wtcmp := rfl
@[simp] theorem setMark_wtstage (w : Warp) (t : Nat) (m : Mark) : (setMark w t m).wtstage = w.wtstage := rfl
@[simp] theorem setMark_latch (w : Warp) (t : Nat) (m : Mark) : (setMark w t m).latch = w.latch := rfl
@[simp] theorem setMark_recipes (w : Warp) (t : Nat) (m : Mark) : (setMark w t m).recipes = w.recipes := rfl
@[simp] theorem setMark_pends (w : Warp) (t : Nat) (m : Mark) : (setMark w t m).pends = w.pends := rfl
@[simp] theorem setMark_tops (w : Warp) (t : Nat) (m : Mark) : (setMark w t m).tops = w.tops := rfl
@[simp] theorem setMark_copies (w : Warp) (t : Nat) (m : Mark) : (setMark w t m).copies = w.copies := rfl
@[simp] theorem setMark_sealCtr (w : Warp) (t : Nat) (m : Mark) : (setMark w t m).sealCtr = w.sealCtr := rfl
@[simp] theorem setMark_batches (w : Warp) (t : Nat) (m : Mark) : (setMark w t m).batches = w.batches := rfl
@[simp] theorem setMark_openPoison (w : Warp) (t : Nat) (m : Mark) : (setMark w t m).openPoison = w.openPoison := rfl
@[simp] theorem setMark_ports (w : Warp) (t : Nat) (m : Mark) : (setMark w t m).ports = w.ports := rfl
@[simp] theorem setMark_waits (w : Warp) (t : Nat) (m : Mark) : (setMark w t m).waits = w.waits := rfl
@[simp] theorem setMark_noEject (w : Warp) (t : Nat) (m : Mark) : (setMark w t m).noEject = w.noEject := rfl
@[simp] theorem setMark_yield (w : Warp) (t : Nat) (m : Mark) : (setMark w t m).yield = w.yield := rfl
@[simp] theorem setMark_gen (w : Warp) (t : Nat) (m : Mark) : (setMark w t m).gen = w.gen := rfl
@[simp] theorem setMark_vec (w : Warp) (t : Nat) (m : Mark) : (setMark w t m).vec = w.vec := rfl
@[simp] theorem setMark_routine (w : Warp) (t : Nat) (m : Mark) : (setMark w t m).routine = w.routine := rfl
@[simp] theorem setMark_heldPre (w : Warp) (t : Nat) (m : Mark) : (setMark w t m).heldPre = w.heldPre := rfl
@[simp] theorem setMark_tmaskClk (w : Warp) (t : Nat) (m : Mark) : (setMark w t m).tmaskClk = w.tmaskClk := rfl
@[simp] theorem setMark_resumeGuard (w : Warp) (t : Nat) (m : Mark) : (setMark w t m).resumeGuard = w.resumeGuard := rfl
@[simp] theorem setMark_carried (w : Warp) (t : Nat) (m : Mark) : (setMark w t m).carried = w.carried := rfl
@[simp] theorem setMark_reason (w : Warp) (t : Nat) (m : Mark) : (setMark w t m).reason = w.reason := rfl
@[simp] theorem setMark_rejoinWait (w : Warp) (t : Nat) (m : Mark) : (setMark w t m).rejoinWait = if m = .ready then 0 else w.rejoinWait := rfl
@[simp] theorem setMark_off (w : Warp) (t : Nat) (m : Mark) : (setMark w t m).off = w.off := rfl
@[simp] theorem setMark_rows (w : Warp) (t : Nat) (m : Mark) : (setMark w t m).rows = w.rows := rfl
@[simp] theorem setMark_tokens (w : Warp) (t : Nat) (m : Mark) : (setMark w t m).tokens = w.tokens := rfl
@[simp] theorem setMark_denied (w : Warp) (t : Nat) (m : Mark) : (setMark w t m).denied = w.denied := rfl
@[simp] theorem setMark_drops (w : Warp) (t : Nat) (m : Mark) : (setMark w t m).drops = w.drops := rfl

/-! ### `setRas` -/

@[simp] theorem setRas_grp (w : Warp) (t : Nat) (r : Ras) : (setRas w t r).grp = w.grp := rfl
@[simp] theorem setRas_idx (w : Warp) (t : Nat) (r : Ras) : (setRas w t r).idx = w.idx := rfl
@[simp] theorem setRas_asid (w : Warp) (t : Nat) (r : Ras) : (setRas w t r).asid = w.asid := rfl
@[simp] theorem setRas_loc (w : Warp) (t : Nat) (r : Ras) : (setRas w t r).loc = w.loc := rfl
@[simp] theorem setRas_stat (w : Warp) (t : Nat) (r : Ras) : (setRas w t r).stat = w.stat := rfl
@[simp] theorem setRas_base (w : Warp) (t : Nat) (r : Ras) : (setRas w t r).base = w.base := rfl
@[simp] theorem setRas_elastic (w : Warp) (t : Nat) (r : Ras) : (setRas w t r).elastic = w.elastic := rfl
@[simp] theorem setRas_ntiles (w : Warp) (t : Nat) (r : Ras) : (setRas w t r).ntiles = w.ntiles := rfl
@[simp] theorem setRas_naccs (w : Warp) (t : Nat) (r : Ras) : (setRas w t r).naccs = w.naccs := rfl
@[simp] theorem setRas_live (w : Warp) (t : Nat) (r : Ras) : (setRas w t r).live = w.live := rfl
@[simp] theorem setRas_pcs (w : Warp) (t : Nat) (r : Ras) : (setRas w t r).pcs = w.pcs := rfl
@[simp] theorem setRas_marks (w : Warp) (t : Nat) (r : Ras) : (setRas w t r).marks = w.marks := rfl
@[simp] theorem setRas_regs (w : Warp) (t : Nat) (r : Ras) : (setRas w t r).regs = w.regs := rfl
@[simp] theorem setRas_saved (w : Warp) (t : Nat) (r : Ras) : (setRas w t r).saved = w.saved := rfl
@[simp] theorem setRas_ras (w : Warp) (t : Nat) (r : Ras) : (setRas w t r).ras = sset ⟨[], 0⟩ w.ras t r := rfl
@[simp] theorem setRas_rmode (w : Warp) (t : Nat) (r : Ras) : (setRas w t r).rmode = w.rmode := rfl
@[simp] theorem setRas_tm (w : Warp) (t : Nat) (r : Ras) : (setRas w t r).tm = w.tm := rfl
@[simp] theorem setRas_inh (w : Warp) (t : Nat) (r : Ras) : (setRas w t r).inh = w.inh := rfl
@[simp] theorem setRas_shadow61 (w : Warp) (t : Nat) (r : Ras) : (setRas w t r).shadow61 = w.shadow61 := rfl
@[simp] theorem setRas_shadow62 (w : Warp) (t : Nat) (r : Ras) : (setRas w t r).shadow62 = w.shadow62 := rfl
@[simp] theorem setRas_shadow15 (w : Warp) (t : Nat) (r : Ras) : (setRas w t r).shadow15 = w.shadow15 := rfl
@[simp] theorem setRas_handler (w : Warp) (t : Nat) (r : Ras) : (setRas w t r).handler = w.handler := rfl
@[simp] theorem setRas_tshp (w : Warp) (t : Nat) (r : Ras) : (setRas w t r).tshp = w.tshp := rfl
@[simp] theorem setRas_ashp (w : Warp) (t : Nat) (r : Ras) : (setRas w t r).ashp = w.ashp := rfl
@[simp] theorem setRas_wtime (w : Warp) (t : Nat) (r : Ras) : (setRas w t r).wtime = w.wtime := rfl
@[simp] theorem setRas_wtcmp (w : Warp) (t : Nat) (r : Ras) : (setRas w t r).wtcmp = w.wtcmp := rfl
@[simp] theorem setRas_wtstage (w : Warp) (t : Nat) (r : Ras) : (setRas w t r).wtstage = w.wtstage := rfl
@[simp] theorem setRas_latch (w : Warp) (t : Nat) (r : Ras) : (setRas w t r).latch = w.latch := rfl
@[simp] theorem setRas_recipes (w : Warp) (t : Nat) (r : Ras) : (setRas w t r).recipes = w.recipes := rfl
@[simp] theorem setRas_pends (w : Warp) (t : Nat) (r : Ras) : (setRas w t r).pends = w.pends := rfl
@[simp] theorem setRas_tops (w : Warp) (t : Nat) (r : Ras) : (setRas w t r).tops = w.tops := rfl
@[simp] theorem setRas_copies (w : Warp) (t : Nat) (r : Ras) : (setRas w t r).copies = w.copies := rfl
@[simp] theorem setRas_sealCtr (w : Warp) (t : Nat) (r : Ras) : (setRas w t r).sealCtr = w.sealCtr := rfl
@[simp] theorem setRas_batches (w : Warp) (t : Nat) (r : Ras) : (setRas w t r).batches = w.batches := rfl
@[simp] theorem setRas_openPoison (w : Warp) (t : Nat) (r : Ras) : (setRas w t r).openPoison = w.openPoison := rfl
@[simp] theorem setRas_ports (w : Warp) (t : Nat) (r : Ras) : (setRas w t r).ports = w.ports := rfl
@[simp] theorem setRas_waits (w : Warp) (t : Nat) (r : Ras) : (setRas w t r).waits = w.waits := rfl
@[simp] theorem setRas_noEject (w : Warp) (t : Nat) (r : Ras) : (setRas w t r).noEject = w.noEject := rfl
@[simp] theorem setRas_yield (w : Warp) (t : Nat) (r : Ras) : (setRas w t r).yield = w.yield := rfl
@[simp] theorem setRas_gen (w : Warp) (t : Nat) (r : Ras) : (setRas w t r).gen = w.gen := rfl
@[simp] theorem setRas_vec (w : Warp) (t : Nat) (r : Ras) : (setRas w t r).vec = w.vec := rfl
@[simp] theorem setRas_routine (w : Warp) (t : Nat) (r : Ras) : (setRas w t r).routine = w.routine := rfl
@[simp] theorem setRas_heldPre (w : Warp) (t : Nat) (r : Ras) : (setRas w t r).heldPre = w.heldPre := rfl
@[simp] theorem setRas_tmaskClk (w : Warp) (t : Nat) (r : Ras) : (setRas w t r).tmaskClk = w.tmaskClk := rfl
@[simp] theorem setRas_resumeGuard (w : Warp) (t : Nat) (r : Ras) : (setRas w t r).resumeGuard = w.resumeGuard := rfl
@[simp] theorem setRas_carried (w : Warp) (t : Nat) (r : Ras) : (setRas w t r).carried = w.carried := rfl
@[simp] theorem setRas_reason (w : Warp) (t : Nat) (r : Ras) : (setRas w t r).reason = w.reason := rfl
@[simp] theorem setRas_rejoinWait (w : Warp) (t : Nat) (r : Ras) : (setRas w t r).rejoinWait = w.rejoinWait := rfl
@[simp] theorem setRas_off (w : Warp) (t : Nat) (r : Ras) : (setRas w t r).off = w.off := rfl
@[simp] theorem setRas_rows (w : Warp) (t : Nat) (r : Ras) : (setRas w t r).rows = w.rows := rfl
@[simp] theorem setRas_tokens (w : Warp) (t : Nat) (r : Ras) : (setRas w t r).tokens = w.tokens := rfl
@[simp] theorem setRas_denied (w : Warp) (t : Nat) (r : Ras) : (setRas w t r).denied = w.denied := rfl
@[simp] theorem setRas_drops (w : Warp) (t : Nat) (r : Ras) : (setRas w t r).drops = w.drops := rfl

/-! ### `setPort` -/

@[simp] theorem setPort_grp (w : Warp) (p : Nat) (x : Port) : (setPort w p x).grp = w.grp := rfl
@[simp] theorem setPort_idx (w : Warp) (p : Nat) (x : Port) : (setPort w p x).idx = w.idx := rfl
@[simp] theorem setPort_asid (w : Warp) (p : Nat) (x : Port) : (setPort w p x).asid = w.asid := rfl
@[simp] theorem setPort_loc (w : Warp) (p : Nat) (x : Port) : (setPort w p x).loc = w.loc := rfl
@[simp] theorem setPort_stat (w : Warp) (p : Nat) (x : Port) : (setPort w p x).stat = w.stat := rfl
@[simp] theorem setPort_base (w : Warp) (p : Nat) (x : Port) : (setPort w p x).base = w.base := rfl
@[simp] theorem setPort_elastic (w : Warp) (p : Nat) (x : Port) : (setPort w p x).elastic = w.elastic := rfl
@[simp] theorem setPort_ntiles (w : Warp) (p : Nat) (x : Port) : (setPort w p x).ntiles = w.ntiles := rfl
@[simp] theorem setPort_naccs (w : Warp) (p : Nat) (x : Port) : (setPort w p x).naccs = w.naccs := rfl
@[simp] theorem setPort_live (w : Warp) (p : Nat) (x : Port) : (setPort w p x).live = w.live := rfl
@[simp] theorem setPort_pcs (w : Warp) (p : Nat) (x : Port) : (setPort w p x).pcs = w.pcs := rfl
@[simp] theorem setPort_marks (w : Warp) (p : Nat) (x : Port) : (setPort w p x).marks = w.marks := rfl
@[simp] theorem setPort_regs (w : Warp) (p : Nat) (x : Port) : (setPort w p x).regs = w.regs := rfl
@[simp] theorem setPort_saved (w : Warp) (p : Nat) (x : Port) : (setPort w p x).saved = w.saved := rfl
@[simp] theorem setPort_ras (w : Warp) (p : Nat) (x : Port) : (setPort w p x).ras = w.ras := rfl
@[simp] theorem setPort_rmode (w : Warp) (p : Nat) (x : Port) : (setPort w p x).rmode = w.rmode := rfl
@[simp] theorem setPort_tm (w : Warp) (p : Nat) (x : Port) : (setPort w p x).tm = w.tm := rfl
@[simp] theorem setPort_inh (w : Warp) (p : Nat) (x : Port) : (setPort w p x).inh = w.inh := rfl
@[simp] theorem setPort_shadow61 (w : Warp) (p : Nat) (x : Port) : (setPort w p x).shadow61 = w.shadow61 := rfl
@[simp] theorem setPort_shadow62 (w : Warp) (p : Nat) (x : Port) : (setPort w p x).shadow62 = w.shadow62 := rfl
@[simp] theorem setPort_shadow15 (w : Warp) (p : Nat) (x : Port) : (setPort w p x).shadow15 = w.shadow15 := rfl
@[simp] theorem setPort_handler (w : Warp) (p : Nat) (x : Port) : (setPort w p x).handler = w.handler := rfl
@[simp] theorem setPort_tshp (w : Warp) (p : Nat) (x : Port) : (setPort w p x).tshp = w.tshp := rfl
@[simp] theorem setPort_ashp (w : Warp) (p : Nat) (x : Port) : (setPort w p x).ashp = w.ashp := rfl
@[simp] theorem setPort_wtime (w : Warp) (p : Nat) (x : Port) : (setPort w p x).wtime = w.wtime := rfl
@[simp] theorem setPort_wtcmp (w : Warp) (p : Nat) (x : Port) : (setPort w p x).wtcmp = w.wtcmp := rfl
@[simp] theorem setPort_wtstage (w : Warp) (p : Nat) (x : Port) : (setPort w p x).wtstage = w.wtstage := rfl
@[simp] theorem setPort_latch (w : Warp) (p : Nat) (x : Port) : (setPort w p x).latch = w.latch := rfl
@[simp] theorem setPort_recipes (w : Warp) (p : Nat) (x : Port) : (setPort w p x).recipes = w.recipes := rfl
@[simp] theorem setPort_pends (w : Warp) (p : Nat) (x : Port) : (setPort w p x).pends = w.pends := rfl
@[simp] theorem setPort_tops (w : Warp) (p : Nat) (x : Port) : (setPort w p x).tops = w.tops := rfl
@[simp] theorem setPort_copies (w : Warp) (p : Nat) (x : Port) : (setPort w p x).copies = w.copies := rfl
@[simp] theorem setPort_sealCtr (w : Warp) (p : Nat) (x : Port) : (setPort w p x).sealCtr = w.sealCtr := rfl
@[simp] theorem setPort_batches (w : Warp) (p : Nat) (x : Port) : (setPort w p x).batches = w.batches := rfl
@[simp] theorem setPort_openPoison (w : Warp) (p : Nat) (x : Port) : (setPort w p x).openPoison = w.openPoison := rfl
@[simp] theorem setPort_ports (w : Warp) (p : Nat) (x : Port) : (setPort w p x).ports = sset Port.unbound w.ports p x := rfl
@[simp] theorem setPort_waits (w : Warp) (p : Nat) (x : Port) : (setPort w p x).waits = w.waits := rfl
@[simp] theorem setPort_noEject (w : Warp) (p : Nat) (x : Port) : (setPort w p x).noEject = w.noEject := rfl
@[simp] theorem setPort_yield (w : Warp) (p : Nat) (x : Port) : (setPort w p x).yield = w.yield := rfl
@[simp] theorem setPort_gen (w : Warp) (p : Nat) (x : Port) : (setPort w p x).gen = w.gen := rfl
@[simp] theorem setPort_vec (w : Warp) (p : Nat) (x : Port) : (setPort w p x).vec = w.vec := rfl
@[simp] theorem setPort_routine (w : Warp) (p : Nat) (x : Port) : (setPort w p x).routine = w.routine := rfl
@[simp] theorem setPort_heldPre (w : Warp) (p : Nat) (x : Port) : (setPort w p x).heldPre = w.heldPre := rfl
@[simp] theorem setPort_tmaskClk (w : Warp) (p : Nat) (x : Port) : (setPort w p x).tmaskClk = w.tmaskClk := rfl
@[simp] theorem setPort_resumeGuard (w : Warp) (p : Nat) (x : Port) : (setPort w p x).resumeGuard = w.resumeGuard := rfl
@[simp] theorem setPort_carried (w : Warp) (p : Nat) (x : Port) : (setPort w p x).carried = w.carried := rfl
@[simp] theorem setPort_reason (w : Warp) (p : Nat) (x : Port) : (setPort w p x).reason = w.reason := rfl
@[simp] theorem setPort_rejoinWait (w : Warp) (p : Nat) (x : Port) : (setPort w p x).rejoinWait = w.rejoinWait := rfl
@[simp] theorem setPort_off (w : Warp) (p : Nat) (x : Port) : (setPort w p x).off = w.off := rfl
@[simp] theorem setPort_rows (w : Warp) (p : Nat) (x : Port) : (setPort w p x).rows = w.rows := rfl
@[simp] theorem setPort_tokens (w : Warp) (p : Nat) (x : Port) : (setPort w p x).tokens = w.tokens := rfl
@[simp] theorem setPort_denied (w : Warp) (p : Nat) (x : Port) : (setPort w p x).denied = w.denied := rfl
@[simp] theorem setPort_drops (w : Warp) (p : Nat) (x : Port) : (setPort w p x).drops = w.drops := rfl

/-! ### `putX` -/

@[simp] theorem putX_grp (w : Warp) (t n : Nat) (v : Word) (p : Nat) : (putX w t n v p).grp = w.grp := rfl
@[simp] theorem putX_idx (w : Warp) (t n : Nat) (v : Word) (p : Nat) : (putX w t n v p).idx = w.idx := rfl
@[simp] theorem putX_asid (w : Warp) (t n : Nat) (v : Word) (p : Nat) : (putX w t n v p).asid = w.asid := rfl
@[simp] theorem putX_loc (w : Warp) (t n : Nat) (v : Word) (p : Nat) : (putX w t n v p).loc = w.loc := rfl
@[simp] theorem putX_stat (w : Warp) (t n : Nat) (v : Word) (p : Nat) : (putX w t n v p).stat = w.stat := rfl
@[simp] theorem putX_base (w : Warp) (t n : Nat) (v : Word) (p : Nat) : (putX w t n v p).base = w.base := rfl
@[simp] theorem putX_elastic (w : Warp) (t n : Nat) (v : Word) (p : Nat) : (putX w t n v p).elastic = w.elastic := rfl
@[simp] theorem putX_ntiles (w : Warp) (t n : Nat) (v : Word) (p : Nat) : (putX w t n v p).ntiles = w.ntiles := rfl
@[simp] theorem putX_naccs (w : Warp) (t n : Nat) (v : Word) (p : Nat) : (putX w t n v p).naccs = w.naccs := rfl
@[simp] theorem putX_live (w : Warp) (t n : Nat) (v : Word) (p : Nat) : (putX w t n v p).live = w.live := rfl
@[simp] theorem putX_pcs (w : Warp) (t n : Nat) (v : Word) (p : Nat) : (putX w t n v p).pcs = w.pcs := rfl
@[simp] theorem putX_marks (w : Warp) (t n : Nat) (v : Word) (p : Nat) : (putX w t n v p).marks = w.marks := rfl
@[simp] theorem putX_regs (w : Warp) (t n : Nat) (v : Word) (p : Nat) : (putX w t n v p).regs = { w.regs with x := sset 0 w.regs.x (xkey n t) v, xp := sset 0 w.regs.xp (xkey n t) p } := rfl
@[simp] theorem putX_saved (w : Warp) (t n : Nat) (v : Word) (p : Nat) : (putX w t n v p).saved = w.saved := rfl
@[simp] theorem putX_ras (w : Warp) (t n : Nat) (v : Word) (p : Nat) : (putX w t n v p).ras = w.ras := rfl
@[simp] theorem putX_rmode (w : Warp) (t n : Nat) (v : Word) (p : Nat) : (putX w t n v p).rmode = w.rmode := rfl
@[simp] theorem putX_tm (w : Warp) (t n : Nat) (v : Word) (p : Nat) : (putX w t n v p).tm = w.tm := rfl
@[simp] theorem putX_inh (w : Warp) (t n : Nat) (v : Word) (p : Nat) : (putX w t n v p).inh = w.inh := rfl
@[simp] theorem putX_shadow61 (w : Warp) (t n : Nat) (v : Word) (p : Nat) : (putX w t n v p).shadow61 = w.shadow61 := rfl
@[simp] theorem putX_shadow62 (w : Warp) (t n : Nat) (v : Word) (p : Nat) : (putX w t n v p).shadow62 = w.shadow62 := rfl
@[simp] theorem putX_shadow15 (w : Warp) (t n : Nat) (v : Word) (p : Nat) : (putX w t n v p).shadow15 = w.shadow15 := rfl
@[simp] theorem putX_handler (w : Warp) (t n : Nat) (v : Word) (p : Nat) : (putX w t n v p).handler = w.handler := rfl
@[simp] theorem putX_tshp (w : Warp) (t n : Nat) (v : Word) (p : Nat) : (putX w t n v p).tshp = w.tshp := rfl
@[simp] theorem putX_ashp (w : Warp) (t n : Nat) (v : Word) (p : Nat) : (putX w t n v p).ashp = w.ashp := rfl
@[simp] theorem putX_wtime (w : Warp) (t n : Nat) (v : Word) (p : Nat) : (putX w t n v p).wtime = w.wtime := rfl
@[simp] theorem putX_wtcmp (w : Warp) (t n : Nat) (v : Word) (p : Nat) : (putX w t n v p).wtcmp = w.wtcmp := rfl
@[simp] theorem putX_wtstage (w : Warp) (t n : Nat) (v : Word) (p : Nat) : (putX w t n v p).wtstage = w.wtstage := rfl
@[simp] theorem putX_latch (w : Warp) (t n : Nat) (v : Word) (p : Nat) : (putX w t n v p).latch = w.latch := rfl
@[simp] theorem putX_recipes (w : Warp) (t n : Nat) (v : Word) (p : Nat) : (putX w t n v p).recipes = w.recipes := rfl
@[simp] theorem putX_pends (w : Warp) (t n : Nat) (v : Word) (p : Nat) : (putX w t n v p).pends = w.pends := rfl
@[simp] theorem putX_tops (w : Warp) (t n : Nat) (v : Word) (p : Nat) : (putX w t n v p).tops = w.tops := rfl
@[simp] theorem putX_copies (w : Warp) (t n : Nat) (v : Word) (p : Nat) : (putX w t n v p).copies = w.copies := rfl
@[simp] theorem putX_sealCtr (w : Warp) (t n : Nat) (v : Word) (p : Nat) : (putX w t n v p).sealCtr = w.sealCtr := rfl
@[simp] theorem putX_batches (w : Warp) (t n : Nat) (v : Word) (p : Nat) : (putX w t n v p).batches = w.batches := rfl
@[simp] theorem putX_openPoison (w : Warp) (t n : Nat) (v : Word) (p : Nat) : (putX w t n v p).openPoison = w.openPoison := rfl
@[simp] theorem putX_ports (w : Warp) (t n : Nat) (v : Word) (p : Nat) : (putX w t n v p).ports = w.ports := rfl
@[simp] theorem putX_waits (w : Warp) (t n : Nat) (v : Word) (p : Nat) : (putX w t n v p).waits = w.waits := rfl
@[simp] theorem putX_noEject (w : Warp) (t n : Nat) (v : Word) (p : Nat) : (putX w t n v p).noEject = w.noEject := rfl
@[simp] theorem putX_yield (w : Warp) (t n : Nat) (v : Word) (p : Nat) : (putX w t n v p).yield = w.yield := rfl
@[simp] theorem putX_gen (w : Warp) (t n : Nat) (v : Word) (p : Nat) : (putX w t n v p).gen = w.gen := rfl
@[simp] theorem putX_vec (w : Warp) (t n : Nat) (v : Word) (p : Nat) : (putX w t n v p).vec = w.vec := rfl
@[simp] theorem putX_routine (w : Warp) (t n : Nat) (v : Word) (p : Nat) : (putX w t n v p).routine = w.routine := rfl
@[simp] theorem putX_heldPre (w : Warp) (t n : Nat) (v : Word) (p : Nat) : (putX w t n v p).heldPre = w.heldPre := rfl
@[simp] theorem putX_tmaskClk (w : Warp) (t n : Nat) (v : Word) (p : Nat) : (putX w t n v p).tmaskClk = w.tmaskClk := rfl
@[simp] theorem putX_resumeGuard (w : Warp) (t n : Nat) (v : Word) (p : Nat) : (putX w t n v p).resumeGuard = w.resumeGuard := rfl
@[simp] theorem putX_carried (w : Warp) (t n : Nat) (v : Word) (p : Nat) : (putX w t n v p).carried = w.carried := rfl
@[simp] theorem putX_reason (w : Warp) (t n : Nat) (v : Word) (p : Nat) : (putX w t n v p).reason = w.reason := rfl
@[simp] theorem putX_rejoinWait (w : Warp) (t n : Nat) (v : Word) (p : Nat) : (putX w t n v p).rejoinWait = w.rejoinWait := rfl
@[simp] theorem putX_off (w : Warp) (t n : Nat) (v : Word) (p : Nat) : (putX w t n v p).off = w.off := rfl
@[simp] theorem putX_rows (w : Warp) (t n : Nat) (v : Word) (p : Nat) : (putX w t n v p).rows = w.rows := rfl
@[simp] theorem putX_tokens (w : Warp) (t n : Nat) (v : Word) (p : Nat) : (putX w t n v p).tokens = w.tokens := rfl
@[simp] theorem putX_denied (w : Warp) (t n : Nat) (v : Word) (p : Nat) : (putX w t n v p).denied = w.denied := rfl
@[simp] theorem putX_drops (w : Warp) (t n : Nat) (v : Word) (p : Nat) : (putX w t n v p).drops = w.drops := rfl

/-! ### `markX` -/

@[simp] theorem markX_grp (w : Warp) (t n p : Nat) : (markX w t n p).grp = w.grp := rfl
@[simp] theorem markX_idx (w : Warp) (t n p : Nat) : (markX w t n p).idx = w.idx := rfl
@[simp] theorem markX_asid (w : Warp) (t n p : Nat) : (markX w t n p).asid = w.asid := rfl
@[simp] theorem markX_loc (w : Warp) (t n p : Nat) : (markX w t n p).loc = w.loc := rfl
@[simp] theorem markX_stat (w : Warp) (t n p : Nat) : (markX w t n p).stat = w.stat := rfl
@[simp] theorem markX_base (w : Warp) (t n p : Nat) : (markX w t n p).base = w.base := rfl
@[simp] theorem markX_elastic (w : Warp) (t n p : Nat) : (markX w t n p).elastic = w.elastic := rfl
@[simp] theorem markX_ntiles (w : Warp) (t n p : Nat) : (markX w t n p).ntiles = w.ntiles := rfl
@[simp] theorem markX_naccs (w : Warp) (t n p : Nat) : (markX w t n p).naccs = w.naccs := rfl
@[simp] theorem markX_live (w : Warp) (t n p : Nat) : (markX w t n p).live = w.live := rfl
@[simp] theorem markX_pcs (w : Warp) (t n p : Nat) : (markX w t n p).pcs = w.pcs := rfl
@[simp] theorem markX_marks (w : Warp) (t n p : Nat) : (markX w t n p).marks = w.marks := rfl
@[simp] theorem markX_regs (w : Warp) (t n p : Nat) : (markX w t n p).regs = { w.regs with xp := sset 0 w.regs.xp (xkey n t) p } := rfl
@[simp] theorem markX_saved (w : Warp) (t n p : Nat) : (markX w t n p).saved = w.saved := rfl
@[simp] theorem markX_ras (w : Warp) (t n p : Nat) : (markX w t n p).ras = w.ras := rfl
@[simp] theorem markX_rmode (w : Warp) (t n p : Nat) : (markX w t n p).rmode = w.rmode := rfl
@[simp] theorem markX_tm (w : Warp) (t n p : Nat) : (markX w t n p).tm = w.tm := rfl
@[simp] theorem markX_inh (w : Warp) (t n p : Nat) : (markX w t n p).inh = w.inh := rfl
@[simp] theorem markX_shadow61 (w : Warp) (t n p : Nat) : (markX w t n p).shadow61 = w.shadow61 := rfl
@[simp] theorem markX_shadow62 (w : Warp) (t n p : Nat) : (markX w t n p).shadow62 = w.shadow62 := rfl
@[simp] theorem markX_shadow15 (w : Warp) (t n p : Nat) : (markX w t n p).shadow15 = w.shadow15 := rfl
@[simp] theorem markX_handler (w : Warp) (t n p : Nat) : (markX w t n p).handler = w.handler := rfl
@[simp] theorem markX_tshp (w : Warp) (t n p : Nat) : (markX w t n p).tshp = w.tshp := rfl
@[simp] theorem markX_ashp (w : Warp) (t n p : Nat) : (markX w t n p).ashp = w.ashp := rfl
@[simp] theorem markX_wtime (w : Warp) (t n p : Nat) : (markX w t n p).wtime = w.wtime := rfl
@[simp] theorem markX_wtcmp (w : Warp) (t n p : Nat) : (markX w t n p).wtcmp = w.wtcmp := rfl
@[simp] theorem markX_wtstage (w : Warp) (t n p : Nat) : (markX w t n p).wtstage = w.wtstage := rfl
@[simp] theorem markX_latch (w : Warp) (t n p : Nat) : (markX w t n p).latch = w.latch := rfl
@[simp] theorem markX_recipes (w : Warp) (t n p : Nat) : (markX w t n p).recipes = w.recipes := rfl
@[simp] theorem markX_pends (w : Warp) (t n p : Nat) : (markX w t n p).pends = w.pends := rfl
@[simp] theorem markX_tops (w : Warp) (t n p : Nat) : (markX w t n p).tops = w.tops := rfl
@[simp] theorem markX_copies (w : Warp) (t n p : Nat) : (markX w t n p).copies = w.copies := rfl
@[simp] theorem markX_sealCtr (w : Warp) (t n p : Nat) : (markX w t n p).sealCtr = w.sealCtr := rfl
@[simp] theorem markX_batches (w : Warp) (t n p : Nat) : (markX w t n p).batches = w.batches := rfl
@[simp] theorem markX_openPoison (w : Warp) (t n p : Nat) : (markX w t n p).openPoison = w.openPoison := rfl
@[simp] theorem markX_ports (w : Warp) (t n p : Nat) : (markX w t n p).ports = w.ports := rfl
@[simp] theorem markX_waits (w : Warp) (t n p : Nat) : (markX w t n p).waits = w.waits := rfl
@[simp] theorem markX_noEject (w : Warp) (t n p : Nat) : (markX w t n p).noEject = w.noEject := rfl
@[simp] theorem markX_yield (w : Warp) (t n p : Nat) : (markX w t n p).yield = w.yield := rfl
@[simp] theorem markX_gen (w : Warp) (t n p : Nat) : (markX w t n p).gen = w.gen := rfl
@[simp] theorem markX_vec (w : Warp) (t n p : Nat) : (markX w t n p).vec = w.vec := rfl
@[simp] theorem markX_routine (w : Warp) (t n p : Nat) : (markX w t n p).routine = w.routine := rfl
@[simp] theorem markX_heldPre (w : Warp) (t n p : Nat) : (markX w t n p).heldPre = w.heldPre := rfl
@[simp] theorem markX_tmaskClk (w : Warp) (t n p : Nat) : (markX w t n p).tmaskClk = w.tmaskClk := rfl
@[simp] theorem markX_resumeGuard (w : Warp) (t n p : Nat) : (markX w t n p).resumeGuard = w.resumeGuard := rfl
@[simp] theorem markX_carried (w : Warp) (t n p : Nat) : (markX w t n p).carried = w.carried := rfl
@[simp] theorem markX_reason (w : Warp) (t n p : Nat) : (markX w t n p).reason = w.reason := rfl
@[simp] theorem markX_rejoinWait (w : Warp) (t n p : Nat) : (markX w t n p).rejoinWait = w.rejoinWait := rfl
@[simp] theorem markX_off (w : Warp) (t n p : Nat) : (markX w t n p).off = w.off := rfl
@[simp] theorem markX_rows (w : Warp) (t n p : Nat) : (markX w t n p).rows = w.rows := rfl
@[simp] theorem markX_tokens (w : Warp) (t n p : Nat) : (markX w t n p).tokens = w.tokens := rfl
@[simp] theorem markX_denied (w : Warp) (t n p : Nat) : (markX w t n p).denied = w.denied := rfl
@[simp] theorem markX_drops (w : Warp) (t n p : Nat) : (markX w t n p).drops = w.drops := rfl

end Sys2Proof.Laws
end

