-- ==== Sys2Proof/Laws/Issue.lean ====
section
/-! SUPPORT. The shared operations of an issue: what its beginning and its end leave, when operands pass, and what writing
registers does. -/

namespace Sys2Proof.Laws

open Sys2Proof.Machine

/-! ### Units -/

theorem unitOf_of_sfind {s : State} {u : Nat} {w : Warp} (h : sfind s.units u = some w) : unitOf s u = w := by
  rw [unitOf, sget_eq_sfind, h]; rfl

theorem sfind_modUnit (s : State) (u v : Nat) (f : Warp → Warp) :
    sfind (modUnit s u f).units v = if v = u then (sfind s.units u).map f else sfind s.units v := sfind_smod _ _ _ _

theorem unitOf_modUnit {s : State} {u : Nat} {w : Warp} (h : sfind s.units u = some w) (f : Warp → Warp) :
    unitOf (modUnit s u f) u = f w := by
  rw [unitOf, sget_eq_sfind, sfind_modUnit, if_pos rfl, h]; rfl

theorem unitOf_modUnit_ne (s : State) {u v : Nat} (h : v ≠ u) (f : Warp → Warp) : unitOf (modUnit s u f) v = unitOf s v := by
  rw [unitOf, sget_eq_sfind, sfind_modUnit, if_neg h, ← sget_eq_sfind]; rfl

/-! ### What writing registers, landing results and noting leave -/

/-- A unit without its register files, windows, recipes and routine record. -/
def bare (w : Warp) : Warp := { w with regs := Regs.zero, pends := [], tops := [], recipes := [], routine := none }

/-- The registers that hold recipes, and whether each is lost. -/
def recipeKeys (w : Warp) : List (Nat × Bool) := w.recipes.map fun r => (r.reg, r.lost)

/-- `b` differs from `a` at most in its register files, windows, routine record and what its recipes hold; it is in a routine as
`a` is, and the same registers hold recipes. -/
def regsOnly (a b : Warp) : Prop :=
  bare b = bare a ∧ b.routine.isSome = a.routine.isSome ∧ recipeKeys b = recipeKeys a

theorem regsOnly_refl (a : Warp) : regsOnly a a := ⟨rfl, rfl, rfl⟩

theorem regsOnly_trans {a b c : Warp} (h : regsOnly a b) (g : regsOnly b c) : regsOnly a c :=
  ⟨g.1.trans h.1, g.2.1.trans h.2.1, g.2.2.trans h.2.2⟩

theorem regsOnly_recipes {a b : Warp} (h : regsOnly a b) (e : a.recipes = []) : b.recipes = [] := by
  have := h.2.2
  simp only [recipeKeys, e, List.map_nil, List.map_eq_nil_iff] at this
  exact this

theorem recipeOf_isNone (w : Warp) (n : Nat) : (recipeOf w n).isNone = !(recipeKeys w).contains (n, false) := by
  unfold recipeOf recipeKeys
  induction w.recipes with
  | nil => rfl
  | cons r l ih =>
    rw [List.find?_cons, List.map_cons, List.contains_cons, Bool.not_or, ← ih]
    by_cases h1 : r.reg = n
    · cases h2 : r.lost <;> simp [h1]
    · have h3 : ((n, false) == (r.reg, r.lost)) = false := by
        rw [beq_eq_false_iff_ne]; intro e; exact h1 (Prod.mk.inj e).1.symm
      have h4 : (r.reg == n) = false := beq_eq_false_iff_ne.mpr h1
      simp only [h3, h4, Bool.false_and, Bool.not_false, Bool.true_and]

theorem recipeOf_regsOnly {a b : Warp} (h : regsOnly a b) (n : Nat) : (recipeOf b n).isNone = (recipeOf a n).isNone := by
  rw [recipeOf_isNone, recipeOf_isNone, h.2.2]

theorem regsOnly_note (w : Warp) (n : Nat) : regsOnly w (note w n) := by
  unfold note
  split
  · exact regsOnly_refl w
  · next r hr =>
    split
    · exact regsOnly_refl w
    · exact ⟨rfl, by simp [hr], rfl⟩

theorem regsOnly_dropPend (w : Warp) (t n : Nat) : regsOnly w (dropPend w t n) := by
  unfold dropPend
  split
  · exact regsOnly_refl w
  · exact ⟨rfl, rfl, rfl⟩

theorem regsOnly_putX (w : Warp) (t n : Nat) (v : Word) (p : Nat) : regsOnly w (putX w t n v p) := ⟨rfl, rfl, rfl⟩

theorem regsOnly_setX (w : Warp) (t : Nat) (r : PReg) (v : Word) (p : Nat) : regsOnly w (setX w t r v p) := by
  cases r with
  | z => exact regsOnly_refl w
  | tid => exact regsOnly_refl w
  | q n => exact regsOnly_refl w
  | v n =>
    exact regsOnly_trans (regsOnly_dropPend w t _) (regsOnly_trans (regsOnly_putX _ _ _ _ _) (regsOnly_note _ _))
  | o n =>
    exact regsOnly_trans (regsOnly_dropPend w t _) (regsOnly_trans (regsOnly_putX _ _ _ _ _) (regsOnly_note _ _))
  | y n =>
    simp only [setX]
    split
    · exact regsOnly_trans (regsOnly_putX _ _ _ _ _) (regsOnly_trans (regsOnly_putX _ _ _ _ _)
        (regsOnly_trans (regsOnly_note _ _) (regsOnly_note _ _)))
    · exact regsOnly_trans (regsOnly_putX _ _ _ _ _) (regsOnly_note _ _)

theorem regsOnly_foldl {β : Type} (f : Warp → β → Warp) (h : ∀ w b, regsOnly w (f w b)) (l : List β) (w : Warp) :
    regsOnly w (l.foldl f w) := by
  induction l generalizing w with
  | nil => exact regsOnly_refl w
  | cons b r ih => exact regsOnly_trans (h w b) (ih (f w b))

theorem regsOnly_setS (w : Warp) (n : Nat) (v : DWord) : regsOnly w (setS w n v) :=
  regsOnly_trans (b := { w with regs := { w.regs with s := sset 0 w.regs.s n v, sp := sset 0 w.regs.sp n 0 } })
    ⟨rfl, rfl, rfl⟩ (regsOnly_note _ _)

theorem regsOnly_setU (w : Warp) (d : SReg) (v : DWord) : regsOnly w (setU w d v) := by
  cases d with
  | s n => exact regsOnly_setS w n.val v
  | z => exact regsOnly_refl w

theorem regsOnly_setM (w : Warp) (n : Nat) (v : QWord) : regsOnly w (setM w n v) :=
  regsOnly_trans (b := { w with regs := { w.regs with m := sset 0 w.regs.m n v, mp := sset 0 w.regs.mp n 0 } })
    ⟨rfl, rfl, rfl⟩ (regsOnly_note _ _)

theorem regsOnly_setC (w : Warp) (t n : Nat) (c : Cap) : regsOnly w (setC w t n c) :=
  regsOnly_trans (b := { w with regs := { w.regs with
    c := sset Cap.null w.regs.c (xkey n t) c, cp := sset 0 w.regs.cp (xkey n t) 0 } }) ⟨rfl, rfl, rfl⟩ (regsOnly_note _ _)

theorem regsOnly_landDest (w : Warp) (p : Pend) (d : Dest) : regsOnly w (landDest w p d) :=
  regsOnly_trans (b := putX (dropOlder w p.thread d.reg p.id) p.thread d.reg d.val (if d.poison then 1 else 0)) ⟨rfl, rfl, rfl⟩
    (regsOnly_note _ _)

theorem regsOnly_modRecipe (w : Warp) (n : Nat) (f : Recipe → Recipe) (hf : ∀ r, (f r).reg = r.reg ∧ (f r).lost = r.lost) :
    regsOnly w (modRecipe w n f) := by
  refine ⟨rfl, rfl, ?_⟩
  simp only [recipeKeys, modRecipe, List.map_map]
  apply List.map_congr_left
  intro r _
  simp only [Function.comp_apply]
  split
  · rw [(hf r).1, (hf r).2]
  · rfl

theorem regsOnly_pinWarp (w : Warp) (ns : List Nat) : regsOnly w (pinWarp w ns) := by
  unfold pinWarp
  split
  · exact regsOnly_refl w
  · unfold pinEntries
    exact regsOnly_foldl (fun w (r : Recipe) => modRecipe w r.reg fun q => { q with st := .pinned, stale := true })
      (fun w r => regsOnly_modRecipe w r.reg _ fun _ => ⟨rfl, rfl⟩) _ w

theorem regsOnly_dropLanded (ns : List Nat) (w : Warp) : regsOnly w (dropLanded ns w) := by
  unfold dropLanded
  split
  · exact regsOnly_refl w
  · refine ⟨rfl, rfl, ?_⟩
    simp only [recipeKeys, List.map_map]
    apply List.map_congr_left
    intro r _
    simp only [Function.comp_apply]
    split <;> rfl

theorem regsOnly_landPend (w : Warp) (p : Pend) : regsOnly w (landPend w p) :=
  regsOnly_trans (b := { w with pends := w.pends.filter fun q => !(q.id == p.id && q.thread == p.thread) }) ⟨rfl, rfl, rfl⟩
    (regsOnly_trans (regsOnly_pinWarp _ _)
      (regsOnly_trans (regsOnly_foldl _ (fun w d => regsOnly_landDest w p d) _ _) (regsOnly_dropLanded _ _)))

theorem regsOnly_landWhere (w : Warp) (f : Pend → Bool) : regsOnly w (landWhere w f) :=
  regsOnly_foldl _ regsOnly_landPend _ w

theorem regsOnly_landTile (w : Warp) (x : TileWrite) : regsOnly w (landTile w x) := by
  unfold landTile
  split <;> exact ⟨rfl, rfl, rfl⟩

theorem regsOnly_landTop (w : Warp) (o : TileOp) : regsOnly w (landTop w o) :=
  regsOnly_trans (b := { w with tops := w.tops.filter fun p => p.id != o.id }) ⟨rfl, rfl, rfl⟩
    (regsOnly_foldl _ regsOnly_landTile _ _)

theorem regsOnly_landTops (w : Warp) (f : TileOp → Bool) : regsOnly w (landTops w f) :=
  regsOnly_foldl _ regsOnly_landTop _ w

theorem regsOnly_closeWin (w : Warp) (ts : List Nat) : regsOnly w (closeWin w ts) := by
  unfold closeWin
  split
  · exact regsOnly_refl w
  · exact regsOnly_trans (regsOnly_landWhere _ _) (regsOnly_landTops _ _)

theorem regsOnly_settleDue (w : Warp) (ts : List Nat) : regsOnly w (settleDue w ts) := by
  unfold settleDue
  split
  · exact regsOnly_refl w
  · exact regsOnly_trans (regsOnly_landWhere _ _) (regsOnly_landTops _ _)

theorem regsOnly_settleAtomics (w : Warp) (ts : List Nat) : regsOnly w (settleAtomics w ts) := by
  unfold settleAtomics
  split
  · exact regsOnly_refl w
  · exact regsOnly_landWhere _ _

theorem setPcs_eq (w : Warp) (ts : List Nat) (p : Nat) :
    setPcs w ts p = { w with pcs := ts.foldl (fun l t => sset 0 l t (p % 2 ^ 57)) w.pcs } := by
  unfold setPcs
  induction ts generalizing w with
  | nil => rfl
  | cons t r ih => simp only [List.foldl_cons]; rw [ih]; rfl

theorem sget_foldl_sset {α : Type} [DecidableEq α] (d : α) (ts : List Nat) (v : Nat → α) (l : Store α) (j : Nat) :
    sget d (ts.foldl (fun l t => sset d l t (v t)) l) j = if j ∈ ts then v j else sget d l j := by
  induction ts generalizing l with
  | nil => simp
  | cons t r ih =>
    rw [List.foldl_cons, ih, sget_sset]
    by_cases h : j ∈ r
    · simp [h]
    · by_cases e : j = t
      · subst e; simp [h]
      · simp [h, e]

@[simp] theorem getPc_setPcs (w : Warp) (ts : List Nat) (p j : Nat) :
    getPc (setPcs w ts p) j = if j ∈ ts then p % 2 ^ 57 else getPc w j := by
  rw [setPcs_eq]
  exact sget_foldl_sset 0 ts (fun _ => p % 2 ^ 57) w.pcs j

/-- A field outside registers, windows and routine record is kept. -/
theorem regsOnly_field {β : Type} {a b : Warp} (h : regsOnly a b) (f : Warp → β) (hf : ∀ w, f (bare w) = f w := by intro w; rfl) :
    f b = f a := by rw [← hf b, h.1, hf a]

/-- At issue a unit keeps every field outside registers, windows, routine record and PCs. -/
theorem atIssue_field {β : Type} (w : Warp) (len : Nat) (f : Warp → β)
    (hf : ∀ w, f { bare w with pcs := [] } = f w := by intro w; rfl) : f (atIssue w len) = f w := by
  have h := (regsOnly_settleDue w (activeThreads w)).1
  have e : ({ bare (atIssue w len) with pcs := [] } : Warp) = { bare (settleDue w (activeThreads w)) with pcs := [] } := by
    unfold atIssue; rw [setPcs_eq]; rfl
  rw [← hf (atIssue w len), e, h, hf]

theorem atIssue_recipes {w : Warp} (h : w.recipes = []) (len : Nat) : (atIssue w len).recipes = [] := by
  have := regsOnly_recipes (regsOnly_settleDue w (activeThreads w)) h
  unfold atIssue
  rw [setPcs_eq]
  exact this

theorem atIssue_calm {w : Warp} (h : Calm w) (len : Nat) : Calm (atIssue w len) :=
  ⟨atIssue_recipes h.1 len, (atIssue_field w len Warp.heldPre).trans h.2.1,
    by rw [atIssue_field w len Warp.waits]; exact h.2.2⟩

theorem regsOnly_calm {a b : Warp} (h : regsOnly a b) (hc : Calm a) : Calm b :=
  ⟨regsOnly_recipes h hc.1, (regsOnly_field h Warp.heldPre).trans hc.2.1, by rw [regsOnly_field h Warp.waits]; exact hc.2.2⟩

theorem regsOnly_unitKept {a b : Warp} (h : regsOnly a b) (hr : a.recipes = []) : unitKept a b := by
  have h1 : lessRegs { b with recipes := [] } = lessRegs { a with recipes := [] } :=
    regsOnly_field h fun w => lessRegs { w with recipes := [] }
  have hb := regsOnly_recipes h hr
  cases a; cases b
  simp only [lessRegs] at h1 hr hb ⊢
  subst hr hb
  exact h1

theorem unitKept_field {β : Type} {a b : Warp} (h : unitKept a b) (f : Warp → β) (hf : ∀ w, f (lessRegs w) = f w := by intro w; rfl) :
    f b = f a := by rw [← hf b, h, hf a]

theorem regsOnly_ready {a b : Warp} {t : Nat} (h : regsOnly a b) (ht : t ∈ readyThreads a) : t ∈ readyThreads b := by
  rw [regsOnly_field h readyThreads]; exact ht

theorem atIssue_ready {w : Warp} {t : Nat} (len : Nat) (ht : t ∈ readyThreads w) : t ∈ readyThreads (atIssue w len) := by
  rw [atIssue_field w len readyThreads]; exact ht

/-! ### The beginning of an issue -/

theorem beginIssue_unit {s : State} {w : Warp} (h : sfind s.units s.turn = some w) (len : Nat) :
    sfind (beginIssue s (cxOf s s.turn len)).units s.turn = some (atIssue w len) := by
  have hu : unitOf s s.turn = w := unitOf_of_sfind h
  unfold beginIssue
  rw [sfind_modUnit, if_pos (by rfl)]
  simp only [cxOf, hu, h, Option.map_some]
  rfl

theorem beginIssue_unitOf {s : State} {w : Warp} (h : sfind s.units s.turn = some w) (len : Nat) :
    unitOf (beginIssue s (cxOf s s.turn len)) s.turn = atIssue w len := unitOf_of_sfind (beginIssue_unit h len)

theorem beginIssue_other (s : State) (len : Nat) {u : Nat} (h : u ≠ s.turn) :
    unitOf (beginIssue s (cxOf s s.turn len)) u = unitOf s u := by
  unfold beginIssue
  rw [unitOf_modUnit_ne _ (by simpa [cxOf] using h)]
  rfl

theorem cxOf_act {s : State} {w : Warp} (h : sfind s.units s.turn = some w) (len : Nat) :
    (cxOf s s.turn len).act = activeThreads w := by simp [cxOf, unitOf_of_sfind h]

theorem cxOf_pc {s : State} {w : Warp} (h : sfind s.units s.turn = some w) (len : Nat) :
    (cxOf s s.turn len).pc = lowPc w (activeThreads w) := by simp [cxOf, unitOf_of_sfind h]

@[simp] theorem cxOf_u (s : State) (u len : Nat) : (cxOf s u len).u = u := rfl
@[simp] theorem cxOf_len (s : State) (u len : Nat) : (cxOf s u len).len = len := rfl

/-- An instruction whose own effect succeeds answers a next state. -/
theorem issue_ok {s : State} {w : Warp} (hT : InTurn s w) (len : Nat) (un : Bool) (body : Cx → State → Res) {r : State}
    (hb : body (cxOf s s.turn len) (beginIssue s (cxOf s s.turn len)) = .ok r) :
    issue len un body s =
      .next (endIssue w (cxOf s s.turn len) (issueClk (onOffset w) un (cxOf s s.turn len).act) r) := by
  unfold issue
  rw [hT.1]
  have ha : (cxOf s s.turn len).act.isEmpty = false := by
    rw [cxOf_act hT.1, List.isEmpty_eq_false_iff]; exact hT.2
  simp only [ha, Bool.false_eq_true, if_false, hb]

/-- An instruction whose own effect stops, other than by a hold, answers the state that the stop gives. -/
theorem issue_stop {s : State} {w : Warp} (hT : InTurn s w) (len : Nat) (un : Bool) (body : Cx → State → Res) {r : State}
    {x : Stop} (hb : body (cxOf s s.turn len) (beginIssue s (cxOf s s.turn len)) = .error (x, r)) (hx : x ≠ .hold) :
    issue len un body s =
      .next (endIssue w { cxOf s s.turn len with act := x.counted (cxOf s s.turn len).act }
        (issueClk (onOffset w) un (cxOf s s.turn len).act) (halt (cxOf s s.turn len) r x)) := by
  unfold issue
  rw [hT.1]
  have ha : (cxOf s s.turn len).act.isEmpty = false := by
    rw [cxOf_act hT.1, List.isEmpty_eq_false_iff]; exact hT.2
  simp only [ha, Bool.false_eq_true, if_false, hb]

/-! ### The end of an issue -/

/-- `forgetCalls` changes the calls that it forgets, and no more. -/
theorem forgetCalls_eq (inR : Bool) (w : Warp) : ∃ l, forgetCalls inR w = { w with noEject := l } := by
  unfold forgetCalls
  split
  · exact ⟨w.noEject, rfl⟩
  · exact ⟨_, rfl⟩

/-- `noteIssue` of a calm unit counts, and no more. -/
theorem noteIssue_kept {v : Warp} (h : Calm v) (cx : Cx) (inR : Bool) (n : Nat) :
    (noteIssue cx inR n v).regs = v.regs ∧ unitKept v (noteIssue cx inR n v) ∧ Calm (noteIssue cx inR n v) := by
  have hc : regsOnly v (countWin v cx.act cx.id) ∧ (countWin v cx.act cx.id).regs = v.regs := by
    unfold countWin
    split
    · exact ⟨regsOnly_refl v, rfl⟩
    · exact ⟨⟨rfl, rfl, rfl⟩, rfl⟩
  have c1 := regsOnly_calm hc.1 h
  have hrec := h.1
  have hd : dropRowless (countWin v cx.act cx.id) = countWin v cx.act cx.id := by
    unfold dropRowless; rw [c1.1]; rfl
  have hs : settleStalls (countWin v cx.act cx.id) = countWin v cx.act cx.id := by
    unfold settleStalls
    split
    · rfl
    · have hn : ∀ x ∈ (countWin v cx.act cx.id).waits, stallDone (countWin v cx.act cx.id) x = false := by
        intro x hx
        have := c1.2.2 x hx
        simp [stallDone, this]
      have h1 : (countWin v cx.act cx.id).waits.filter (stallDone (countWin v cx.act cx.id)) = [] := by
        rw [List.filter_eq_nil_iff]; intro x hx; simp [hn x hx]
      have h2 : ((countWin v cx.act cx.id).waits.filter fun x => !stallDone (countWin v cx.act cx.id) x)
          = (countWin v cx.act cx.id).waits := by
        rw [List.filter_eq_self]; intro x hx; simp [hn x hx]
      rw [h1, h2]; rfl
  unfold noteIssue
  rw [hd, hs]
  obtain ⟨l, hl⟩ := forgetCalls_eq inR (noteClk inR n (countWin v cx.act cx.id))
  rw [hl]
  exact ⟨hc.2, Eq.trans (b := lessRegs (countWin v cx.act cx.id)) rfl (regsOnly_unitKept hc.1 hrec), c1⟩

theorem unitKept_trans {a b c : Warp} (h : unitKept a b) (g : unitKept b c) : unitKept a c := Eq.trans g h

theorem passTime_lessTime (u n k : Nat) (w : Warp) : lessTime (passTime u n k w) = lessTime w := by
  unfold passTime
  split <;> rfl

theorem passTime_regs (u n k : Nat) (w : Warp) : (passTime u n k w).regs = w.regs := by
  unfold passTime
  split <;> rfl

theorem passTime_unitKept (u n k : Nat) (w : Warp) : unitKept w (passTime u n k w) := by
  unfold passTime
  split <;> rfl

theorem sfind_tick (s : State) (u n v : Nat) : sfind (tick s u n).units v =
    (sfind s.units v).map fun w => passTime u n (n + Config.freeNat (s.fresh + dieOf w.loc)) w := by
  rw [tick_units]
  exact sfind_map (fun w => passTime u n (n + Config.freeNat (s.fresh + dieOf w.loc)) w) s.units v

theorem unitOf_tick {s : State} {u v : Nat} {w : Warp} (n : Nat) (h : sfind s.units v = some w) :
    unitOf (tick s u n) v = passTime u n (n + Config.freeNat (s.fresh + dieOf w.loc)) w := by
  rw [unitOf, sget_eq_sfind, sfind_tick, h]; rfl

theorem unitOf_tick_lessTime (s : State) (u n v : Nat) : lessTime (unitOf (tick s u n) v) = lessTime (unitOf s v) := by
  cases hv : sfind s.units v with
  | none =>
    have h1 : unitOf (tick s u n) v = Warp.blank := by rw [unitOf, sget_eq_sfind, sfind_tick, hv]; rfl
    have h2 : unitOf s v = Warp.blank := by rw [unitOf, sget_eq_sfind, hv]; rfl
    rw [h1, h2]
  | some w => rw [unitOf_tick n hv, unitOf_of_sfind hv, passTime_lessTime]

theorem ctxOf_advanced (s : State) (asid a : Nat) :
    ({ ctxOf (advanced s asid) a with idle := 0 } : Ctx) = { ctxOf s a with idle := 0 } := by
  have e : sfind (advanced s asid).ctxs a =
      if a = asid then (sfind s.ctxs asid).map fun c => { c with idle := 0 } else sfind s.ctxs a := sfind_smod _ _ _ _
  unfold ctxOf
  rw [sget_eq_sfind, sget_eq_sfind, e]
  by_cases h : a = asid
  · subst h
    rw [if_pos rfl]
    cases sfind s.ctxs a <;> rfl
  · rw [if_neg h]

theorem ctxOf_tick (s : State) (u n a : Nat) : ({ ctxOf (tick s u n) a with idle := 0 } : Ctx) = { ctxOf s a with idle := 0 } := by
  unfold ctxOf
  rw [tick_ctxs, sget_eq_sfind, sget_eq_sfind,
    sfind_map_key (fun k (c : Ctx) => if eligible s k c then { c with idle := c.idle + Config.freeNat (s.fresh + 8) } else c)]
  cases sfind s.ctxs a with
  | none => rfl
  | some c => simp only [Option.map_some, Option.getD_some]; split <;> rfl

/-- A unit some thread of which does not wait on a translation fault is not vectored for one. -/
theorem stubVector_of {s : State} {u : Nat} (h : allOnStub (unitOf s u) = false) : stubVector s u = s := by
  unfold stubVector
  simp only [h, Bool.not_false, Bool.or_true, if_true]

theorem onlyBook_cores (s : State) (w : Warp) :
    (restCores (turnOff s w)).units = s.units ∧ (restCores (turnOff s w)).ctxs = s.ctxs
      ∧ lessUnits (restCores (turnOff s w)) = lessUnits s := by
  unfold turnOff
  split <;> exact ⟨rfl, rfl, rfl⟩

theorem allOnStub_of_ready {w : Warp} {t : Nat} (h : t ∈ readyThreads w) : allOnStub w = false := by
  have hm : getMark w t = .ready := by
    have := (List.mem_filter.mp h).2
    simp only [isReady, Bool.and_eq_true, beq_iff_eq] at this
    exact this.1.2
  have hh : t ∈ heldThreads w := by
    refine List.mem_filter.mpr ⟨(List.mem_filter.mp h).1, ?_⟩
    simp [isEjected, hm]
  have h1 : (heldThreads w).all (fun t => getMark w t == .blocked true) = false := by
    rw [List.all_eq_false]
    exact ⟨t, hh, by simp [hm]⟩
  have h2 : (readyThreads w).isEmpty = false := by
    rw [List.isEmpty_eq_false_iff]
    exact List.ne_nil_of_mem h
  simp [allOnStub, h1, h2]

/-- A unit in its turn does not wait on translation faults alone. -/
theorem allOnStub_of_turn {s : State} {w : Warp} (h : InTurn s w) : allOnStub w = false := by
  obtain ⟨t, ht⟩ := List.exists_mem_of_ne_nil _ h.2
  exact allOnStub_of_ready (List.mem_filter.mp ht).1

theorem allOnStub_atIssue (w : Warp) (len : Nat) : allOnStub (atIssue w len) = allOnStub w := atIssue_field w len allOnStub

theorem regsOnly_allOnStub {a b : Warp} (h : regsOnly a b) : allOnStub b = allOnStub a := regsOnly_field h allOnStub

theorem allOnStub_blank : allOnStub Warp.blank = false := by decide

/-- The end of an issue by a unit that holds no pre-emption back and does not wait on translation faults alone. -/
theorem endIssue_eq {r : State} (w : Warp) (cx : Cx) (n : Nat)
    (h1 : (unitOf (modUnit r cx.u (noteIssue cx w.routine.isSome n)) cx.u).heldPre = none)
    (h2 : allOnStub (unitOf (modUnit r cx.u (noteIssue cx w.routine.isSome n)) cx.u) = false) :
    endIssue w cx n r
      = advanced (tick (restCores (turnOff (modUnit r cx.u (noteIssue cx w.routine.isSome n)) w)) cx.u n) w.asid := by
  have e : releaseHeld (modUnit r cx.u (noteIssue cx w.routine.isSome n)) cx.u
      = modUnit r cx.u (noteIssue cx w.routine.isSome n) := by
    unfold releaseHeld
    simp only [h1]
  unfold endIssue
  rw [e, stubVector_of h2]

theorem unitOf_advanced (s : State) (a u : Nat) : unitOf (advanced s a) u = unitOf s u := rfl

/-- The end of such an issue passes time on the noted unit, and outside the units changes clocks and counters alone. -/
theorem endIssue_units (r : State) (w : Warp) (u n : Nat) :
    (∀ v x, sfind r.units v = some x → ∃ k, unitOf (advanced (tick (restCores (turnOff r w)) u n) w.asid) v = passTime u n k x)
      ∧ (∀ v, lessTime (unitOf (advanced (tick (restCores (turnOff r w)) u n) w.asid) v) = lessTime (unitOf r v))
      ∧ deviceKept r (advanced (tick (restCores (turnOff r w)) u n) w.asid) := by
  obtain ⟨h1, h2, h3⟩ := onlyBook_cores r w
  refine ⟨?_, ?_, ?_, ?_⟩
  · intro v x hx
    exact ⟨_, by rw [unitOf_advanced]; exact unitOf_tick n (by rw [h1]; exact hx)⟩
  · intro v
    rw [unitOf_advanced, unitOf_tick_lessTime]
    unfold unitOf
    rw [h1]
  · exact h3
  · intro a
    rw [ctxOf_advanced, ctxOf_tick]
    unfold ctxOf
    rw [h2]

theorem deviceKept_modUnit {r t : State} {u : Nat} {f : Warp → Warp} (h : deviceKept (modUnit r u f) t) : deviceKept r t := h

/-- The end of an issue after which a calm unit stands in `r`: the unit keeps its registers and all but counts, other units
keep all but what the passing of time counts, and outside the units only clocks and counters differ from `r`. -/
theorem endIssue_kept {r : State} {x : Warp} (w : Warp) (cx : Cx) (n : Nat) (hx : sfind r.units cx.u = some x) (hc : Calm x)
    (hst : allOnStub x = false) :
    (unitOf (endIssue w cx n r) cx.u).regs = x.regs
      ∧ unitKept x (unitOf (endIssue w cx n r) cx.u)
      ∧ (∀ v, v ≠ cx.u → lessTime (unitOf (endIssue w cx n r) v) = lessTime (unitOf r v))
      ∧ deviceKept r (endIssue w cx n r) := by
  have hn := noteIssue_kept hc cx w.routine.isSome n
  have hs1 : sfind (modUnit r cx.u (noteIssue cx w.routine.isSome n)).units cx.u = some (noteIssue cx w.routine.isSome n x) := by
    rw [sfind_modUnit, if_pos rfl, hx]; rfl
  have hu := unitOf_of_sfind hs1
  have e := endIssue_eq (r := r) w cx n (by rw [hu]; exact hn.2.2.2.1)
    (by rw [hu]; exact (unitKept_field hn.2.1 allOnStub).trans hst)
  obtain ⟨g1, g2, g3⟩ := endIssue_units (modUnit r cx.u (noteIssue cx w.routine.isSome n)) w cx.u n
  obtain ⟨k, hk⟩ := g1 cx.u _ hs1
  rw [e]
  refine ⟨?_, ?_, ?_, deviceKept_modUnit g3⟩
  · rw [hk, passTime_regs]; exact hn.1
  · rw [hk]; exact unitKept_trans hn.2.1 (passTime_unitKept _ _ _ _)
  · intro v hv
    rw [g2 v, unitOf_modUnit_ne r hv]

/-! ### The end of an issue, with counts alone changed -/

theorem settled_of_calm {w : Warp} (h : Calm w) (hst : allOnStub w = false) : Settled w := ⟨by rw [h.1]; simp, h.2.1, h.2.2, hst⟩

theorem allOnStub_lessCounts (w : Warp) : allOnStub (lessCounts w) = allOnStub w := rfl

/-- `noteIssue` of a settled unit changes counts alone. -/
theorem noteIssue_lessCounts {v : Warp} (h : Settled v) (cx : Cx) (inR : Bool) (n : Nat) :
    lessCounts (noteIssue cx inR n v) = lessCounts v ∧ (noteIssue cx inR n v).heldPre = none := by
  have hc : lessCounts (countWin v cx.act cx.id) = lessCounts v := by
    unfold countWin
    split
    · rfl
    · simp only [lessCounts, List.map_map]
      congr 1
      · apply List.map_congr_left
        intro p _
        simp only [Function.comp_apply]
        split <;> rfl
      · apply List.map_congr_left
        intro p _
        simp only [Function.comp_apply]
        split <;> rfl
  have hr : (countWin v cx.act cx.id).recipes = v.recipes := by unfold countWin; split <;> rfl
  have hw : (countWin v cx.act cx.id).waits = v.waits := by unfold countWin; split <;> rfl
  have hp : (countWin v cx.act cx.id).heldPre = none := by unfold countWin; split <;> exact h.2.1
  have hd : dropRowless (countWin v cx.act cx.id) = countWin v cx.act cx.id := by
    unfold dropRowless
    split
    · rfl
    · have : ((countWin v cx.act cx.id).recipes.map fun r =>
            if r.st = .valid && r.row.isNone && !pendingReg (countWin v cx.act cx.id) r.reg then { r with st := .dropped } else r)
          = (countWin v cx.act cx.id).recipes := by
        refine (List.map_congr_left (g := id) ?_).trans (List.map_id _)
        intro r hm
        rw [hr] at hm
        by_cases e : r.st = .valid
        · have := h.1 r hm e
          simp [Option.isNone_eq_false_iff.mpr this]
        · simp [e]
      rw [this]
  have hs : settleStalls (countWin v cx.act cx.id) = countWin v cx.act cx.id := by
    unfold settleStalls
    split
    · rfl
    · have hn : ∀ x ∈ (countWin v cx.act cx.id).waits, stallDone (countWin v cx.act cx.id) x = false := by
        intro x hx
        rw [hw] at hx
        have := h.2.2.1 x hx
        simp [stallDone, this]
      have h1 : (countWin v cx.act cx.id).waits.filter (stallDone (countWin v cx.act cx.id)) = [] := by
        rw [List.filter_eq_nil_iff]; intro x hx; simp [hn x hx]
      have h2 : ((countWin v cx.act cx.id).waits.filter fun x => !stallDone (countWin v cx.act cx.id) x)
          = (countWin v cx.act cx.id).waits := by
        rw [List.filter_eq_self]; intro x hx; simp [hn x hx]
      rw [h1, h2]; rfl
  unfold noteIssue
  obtain ⟨l, hl⟩ := forgetCalls_eq inR (noteClk inR n (countWin v cx.act cx.id))
  rw [hd, hs, hl, ← hc]
  refine ⟨?_, hp⟩
  simp only [lessCounts, noteClk]
  congr 1
  split
  · rw [Option.map_map]; rfl
  · rfl

theorem passTime_lessCounts (u n k : Nat) (w : Warp) : lessCounts (passTime u n k w) = lessCounts w := by
  unfold passTime
  split <;> rfl

/-- The end of an issue after which unit `u` stands in `b` settled, or has gone, is `b` but for counts, clocks and the model's
own counters. -/
theorem endIssue_ends {b : State} (w : Warp) (cx : Cx) (n : Nat) (hc : Settled (unitOf b cx.u)) :
    EndsAs cx.u b (endIssue w cx n b) := by
  have hn := noteIssue_lessCounts hc cx w.routine.isSome n
  have hu : unitOf (modUnit b cx.u (noteIssue cx w.routine.isSome n)) cx.u
      = if (sfind b.units cx.u).isSome then noteIssue cx w.routine.isSome n (unitOf b cx.u) else Warp.blank := by
    unfold unitOf
    rw [sget_eq_sfind, sfind_modUnit, if_pos rfl, sget_eq_sfind]
    cases sfind b.units cx.u <;> rfl
  have hst : allOnStub (noteIssue cx w.routine.isSome n (unitOf b cx.u)) = false := by
    rw [← allOnStub_lessCounts, hn.1, allOnStub_lessCounts]; exact hc.2.2.2
  have e := endIssue_eq (r := b) w cx n (by rw [hu]; split; exacts [hn.2, rfl])
    (by rw [hu]; split; exacts [hst, allOnStub_blank])
  obtain ⟨g1, g2, g3⟩ := endIssue_units (modUnit b cx.u (noteIssue cx w.routine.isSome n)) w cx.u n
  rw [e]
  refine ⟨?_, ?_, deviceKept_modUnit g3⟩
  · cases hs : sfind b.units cx.u with
    | none =>
      have h1 : sfind (modUnit b cx.u (noteIssue cx w.routine.isSome n)).units cx.u = none := by
        rw [sfind_modUnit, if_pos rfl, hs]; rfl
      have h2 : ∀ s : State, sfind s.units cx.u = none → unitOf s cx.u = Warp.blank := by
        intro s h; rw [unitOf, sget_eq_sfind, h]; rfl
      have h3 : sfind (tick (restCores (turnOff (modUnit b cx.u (noteIssue cx w.routine.isSome n)) w)) cx.u n).units cx.u = none := by
        rw [sfind_tick, (onlyBook_cores _ w).1, h1]; rfl
      rw [unitOf_advanced, h2 _ h3, h2 _ hs]
    | some x =>
      have hs1 : sfind (modUnit b cx.u (noteIssue cx w.routine.isSome n)).units cx.u
          = some (noteIssue cx w.routine.isSome n (unitOf b cx.u)) := by
        rw [sfind_modUnit, if_pos rfl, hs, unitOf_of_sfind hs]; rfl
      obtain ⟨k, hk⟩ := g1 cx.u _ hs1
      rw [hk, passTime_lessCounts]
      exact hn.1
  · intro v hv
    rw [g2 v, unitOf_modUnit_ne b hv]

/-- An instruction whose own effect gives `b`, in which its unit is settled or has gone, completes as `b`. -/
theorem completes_of {i : Sys2Proof.Instr} {s b : State} {w : Warp} (hT : InTurn s w) {len : Nat} {un : Bool}
    {body : Cx → State → Res} (hi : exec i s = issue len un body s) (hb : body (cxOf s s.turn len) (begun s len) = .ok b)
    (hc : Settled (unitOf b s.turn)) : completes i s b :=
  ⟨_, by rw [hi]; exact issue_ok hT len un body hb, endIssue_ends (b := b) w (cxOf s s.turn len) _ hc⟩

theorem begun_unit {s : State} {w : Warp} (h : sfind s.units s.turn = some w) (len : Nat) :
    sfind (begun s len).units s.turn = some (atIssue w len) := beginIssue_unit h len

theorem begun_unitOf {s : State} {w : Warp} (h : sfind s.units s.turn = some w) (len : Nat) :
    unitOf (begun s len) s.turn = atIssue w len := beginIssue_unitOf h len

/-- An instruction whose own effect is `f` on its unit, which `f` leaves settled. -/
theorem changesUnit_of {i : Sys2Proof.Instr} {s : State} {w : Warp} (hT : InTurn s w) {len : Nat} {un : Bool}
    {body : Cx → State → Res} (hi : exec i s = issue len un body s) {f : Warp → Warp}
    (hb : body (cxOf s s.turn len) (begun s len) = .ok (modUnit (begun s len) s.turn f))
    (hc : Settled (f (atIssue w len))) : changesUnit i s len f :=
  completes_of hT hi hb (by rw [unitOf_modUnit (begun_unit hT.1 len)]; exact hc)

end Sys2Proof.Laws
end

