-- ==== Sys2Proof/Laws/Operands.lean ====
section
/-! SUPPORT. Operands and register writes: when the shared checks pass, and what a write to one register in each active thread
leaves in every register. -/

namespace Sys2Proof.Laws

open Sys2Proof.Machine

/-! ### Checks that pass -/

theorem portsOf_nil {l : List RName} (h : l.any (·.isQ) = false) : portsOf l = [] := by
  unfold portsOf
  rw [List.filterMap_eq_nil_iff]
  intro n hn
  have := List.any_eq_false.mp h n hn
  cases n with
  | u _ => rfl
  | c _ => rfl
  | x r => cases r <;> simp_all [RName.isQ]

/-- Operands that serve let an instruction's own effect begin at once. -/
theorem withOperands_ok {cx : Cx} {x : Uses} {s : State} (k : State → Res) (hr : (unitOf s cx.u).recipes = [])
    (ho : operandsOk (unitOf s cx.u) cx.act x) : withOperands cx x k s = k s := by
  obtain ⟨hn, hq, he, hp⟩ := ho
  have hq' := hq
  rw [List.any_append, Bool.or_eq_false_iff] at hq'
  unfold withOperands guardNames
  simp only [hn, hq, he, portsOf_nil hq'.1, portsOf_nil hq'.2, Bool.false_and, Bool.and_false, Bool.false_eq_true, if_false,
    List.all_nil, Bool.not_true, Bool.or_self, replaySrcs, hr, List.isEmpty_nil, if_true, guardPoison, hp]

theorem guardNames_ok {cx : Cx} {x : Uses} {s : State} (k : State → Res) (ho : operandsOk (unitOf s cx.u) cx.act x) :
    guardNames cx x k s = k s := by
  obtain ⟨hn, hq, he, _⟩ := ho
  have hq' := hq
  rw [List.any_append, Bool.or_eq_false_iff] at hq'
  unfold guardNames
  simp only [hn, hq, he, portsOf_nil hq'.1, portsOf_nil hq'.2, Bool.false_and, Bool.and_false, Bool.false_eq_true, if_false,
    List.all_nil, Bool.not_true, Bool.or_self]

theorem replaySrcs_ok {cx : Cx} {s : State} (l : List PReg) (hr : (unitOf s cx.u).recipes = []) : replaySrcs cx l s = .ok s := by
  simp [replaySrcs, hr]

theorem guardPoison_ok {cx : Cx} {x : Uses} {s : State} (k : State → Res) (h : poisonCheck (unitOf s cx.u) cx.act x = none) :
    guardPoison cx x k s = k s := by
  simp [guardPoison, h]

theorem commit_ok {cx : Cx} {x : Uses} {s : State} (k : State → Res) (hr : (unitOf s cx.u).recipes = []) :
    commit cx x k s = k s := by
  simp [commit, pinDeps, hr]

/-! ### Threads -/

theorem threadOrder_nodup : threadOrder.Nodup := by decide +kernel

theorem threadOrder_lt {t : Nat} (h : t ∈ threadOrder) : t < 128 := by
  have : ∀ t ∈ threadOrder, t < 128 := by decide +kernel
  exact this t h

theorem activeThreads_nodup (w : Warp) : (activeThreads w).Nodup := by
  unfold activeThreads readyThreads liveThreads threadsOf
  exact ((threadOrder_nodup.filter _).filter _).filter _

theorem activeThreads_lt {w : Warp} {t : Nat} (h : t ∈ activeThreads w) : t < 128 := by
  unfold activeThreads readyThreads liveThreads threadsOf at h
  exact threadOrder_lt (List.mem_of_mem_filter (List.mem_of_mem_filter (List.mem_of_mem_filter h)))

/-! ### One register write -/

/-- The register takes a plain write: a v register lies in the base allocation (R53). -/
def inBase (w : Warp) (d : PReg) : Prop := ∀ n, d = .v n → n.val < w.base

theorem inBase_of_operands {v : Warp} {act : List Nat} {x : Uses} (h : operandsOk v act x) {d : PReg}
    (hd : .x d ∈ x.writes) : inBase v d := by
  obtain ⟨hn, _, he, _⟩ := h
  intro n e
  subst e
  have h1 := List.any_eq_false.mp he _ hd
  have h2 : ((x.reads ++ x.writes).any (·.beyond v)) = false := by
    unfold nameCheck at hn
    by_contra hc
    rw [if_pos (Bool.not_eq_false _ |>.mp hc)] at hn
    cases hn
  have h3 := List.any_eq_false.mp h2 _ (List.mem_append_right _ hd)
  simp only [RName.elasticIn, isElastic, Bool.and_eq_true, decide_eq_true_eq, RName.beyond] at h1 h3
  omega

theorem xkey_inj {n m t i : Nat} (ht : t < 128) (hi : i < 128) : xkey n t = xkey m i ↔ n = m ∧ t = i := by
  unfold xkey; omega

@[simp] theorem note_regs (w : Warp) (n : Nat) : (note w n).regs = w.regs := by
  unfold note
  split
  · rfl
  · split <;> rfl

@[simp] theorem dropPend_regs (w : Warp) (t n : Nat) : (dropPend w t n).regs = w.regs := by
  unfold dropPend
  split <;> rfl

theorem pnum_lt (r : PReg) : pnum r < 120 := by
  cases r with
  | v n => have := n.isLt; simp only [pnum]; omega
  | o n => have := n.isLt; simp only [pnum]; omega
  | y n => have := n.isLt; simp only [pnum]; omega
  | z => simp [pnum]
  | tid => simp [pnum]
  | q n => have := n.isLt; simp only [pnum]; omega

theorem pnum_inj {r d : PReg} (h : pnum r = pnum d) : r = d := by
  cases r <;> cases d <;> simp_all [pnum, Fin.ext_iff] <;> omega

/-- The plain write of register number `n` of thread `t`, read back through any register. -/
theorem getX_of_x {w b : Warp} {t : Nat} {n : Nat} {v : Word} (hw : regsOnly w b)
    (hx : b.regs.x = sset 0 w.regs.x (xkey n t) v) (ht : t < 128) {i : Nat} (hi : i < 128) (r : PReg)
    (hr : ∀ m, r = .v m → m.val = n → m.val < w.base) :
    getX b i r = if i = t ∧ pnum r = n ∧ r ≠ .z ∧ r ≠ .tid ∧ (∀ q, r ≠ .q q) then v else getX w i r := by
  have hb := regsOnly_field hw Warp.base
  cases r with
  | z => simp [getX]
  | tid => simp [getX]
  | q m => simp [getX]
  | v m =>
    have hz : (pnum (.v m) = n ∧ (PReg.v m) ≠ .z ∧ (PReg.v m) ≠ .tid ∧ ∀ q, (PReg.v m) ≠ .q q) ↔ m.val = n := by simp [pnum]
    simp only [getX, hb, recipeOf_regsOnly hw, hx, sget_sset, xkey_inj hi ht, hz]
    by_cases hm : m.val = n
    · have hlt := hr m rfl hm
      have hc : (decide (w.base ≤ m.val) && (recipeOf w m.val).isNone) = false := by
        simp only [Bool.and_eq_false_iff, decide_eq_false_iff_not]; exact Or.inl (by omega)
      rw [hc]
      by_cases hit : i = t <;> simp [hm, hit]
    · by_cases hit : i = t <;> simp [hm, hit]
  | o m =>
    simp only [getX, hx, sget_sset, xkey_inj hi ht, ne_eq, reduceCtorEq, not_false_eq_true, implies_true, and_true]
    by_cases hm : pnum (.o m) = n <;> by_cases hit : i = t <;> simp [hm, hit]
  | y m =>
    simp only [getX, hx, sget_sset, xkey_inj hi ht, ne_eq, reduceCtorEq, not_false_eq_true, implies_true, and_true]
    by_cases hm : pnum (.y m) = n <;> by_cases hit : i = t <;> simp [hm, hit]

theorem poisonX_of_xp {w b : Warp} {t n p : Nat} (hx : b.regs.xp = sset 0 w.regs.xp (xkey n t) p) (ht : t < 128) {i : Nat}
    (hi : i < 128) (r : PReg) :
    poisonX b i r = if i = t ∧ pnum r = n ∧ r ≠ .z ∧ r ≠ .tid ∧ (∀ q, r ≠ .q q) then p else poisonX w i r := by
  cases r with
  | z => simp [poisonX]
  | tid => simp [poisonX]
  | q m => simp [poisonX]
  | v m =>
    simp only [poisonX, hx, sget_sset, xkey_inj hi ht, ne_eq, reduceCtorEq, not_false_eq_true, implies_true, and_true]
    by_cases hm : pnum (.v m) = n <;> by_cases hit : i = t <;> simp [hm, hit]
  | o m =>
    simp only [poisonX, hx, sget_sset, xkey_inj hi ht, ne_eq, reduceCtorEq, not_false_eq_true, implies_true, and_true]
    by_cases hm : pnum (.o m) = n <;> by_cases hit : i = t <;> simp [hm, hit]
  | y m =>
    simp only [poisonX, hx, sget_sset, xkey_inj hi ht, ne_eq, reduceCtorEq, not_false_eq_true, implies_true, and_true]
    by_cases hm : pnum (.y m) = n <;> by_cases hit : i = t <;> simp [hm, hit]

/-- A write of thread `t`'s register `d`, read back through any register of any thread (R54). -/
theorem getX_setX (w : Warp) {t : Nat} (d : PReg) (v : Word) (p : Nat) (ht : t < 128) (hd : inBase w d) {i : Nat} (hi : i < 128)
    (r : PReg) : getX (setX w t d v p) i r = if i = t then afterWrite (getX w i) d v r else getX w i r := by
  have hro := regsOnly_setX w t d v p
  cases d with
  | z => simp [setX, afterWrite]
  | tid => simp [setX, afterWrite]
  | q m => simp [setX, afterWrite]
  | v m =>
    rw [getX_of_x (n := m.val) (v := v) (t := t) hro (by simp [setX, putX, pnum]) ht hi r
      (fun k hk hm => by have := hd m rfl; omega)]
    have hz : (pnum r = m.val ∧ r ≠ .z ∧ r ≠ .tid ∧ ∀ q, r ≠ .q q) ↔ r = .v m := by
      constructor
      · intro h; exact pnum_inj (d := .v m) h.1
      · intro h; subst h; simp [pnum]
    by_cases hit : i = t
    · subst hit; simp only [true_and, if_true, afterWrite, hz]
    · simp [hit]
  | o m =>
    rw [getX_of_x (n := pnum (.o m)) (v := v) (t := t) hro (by simp [setX, putX]) ht hi r
      (fun k hk hm => by simp only [pnum] at hm; have := k.isLt; omega)]
    have hz : (pnum r = pnum (.o m) ∧ r ≠ .z ∧ r ≠ .tid ∧ ∀ q, r ≠ .q q) ↔ r = .o m := by
      constructor
      · intro h; exact pnum_inj h.1
      · intro h; subst h; simp
    by_cases hit : i = t
    · subst hit; simp only [true_and, if_true, afterWrite, hz]
    · simp [hit]
  | y m =>
    have hz : ∀ k : Fin 2, (pnum r = 104 + k.val ∧ r ≠ .z ∧ r ≠ .tid ∧ ∀ q, r ≠ .q q) ↔ r = .y k := by
      intro k
      constructor
      · intro h; exact pnum_inj (d := .y k) (by simpa [pnum] using h.1)
      · intro h; subst h; simp [pnum]
    have hno : ∀ (n : Nat), 104 ≤ n → ∀ k : Fin 96, r = .v k → k.val = n → k.val < w.base := by
      intro n hn k _ hk; have := k.isLt; omega
    by_cases hm : m.val = 0
    · have hm0 : m = 0 := Fin.ext hm
      subst hm0
      have e1 : regsOnly w (putX w t 105 (sget 0 w.regs.x (xkey 104 t)) (sget 0 w.regs.xp (xkey 104 t))) := ⟨rfl, rfl, rfl⟩
      have e2 : regsOnly (putX w t 105 (sget 0 w.regs.x (xkey 104 t)) (sget 0 w.regs.xp (xkey 104 t))) (setX w t (.y 0) v p) := by
        simp only [setX, Fin.val_zero, if_true]
        exact regsOnly_trans (regsOnly_putX _ _ _ _ _) (regsOnly_trans (regsOnly_note _ _) (regsOnly_note _ _))
      rw [getX_of_x (n := 104) (v := v) (t := t) e2 (by simp [setX, putX]) ht hi r (hno 104 (by omega)),
        getX_of_x (n := 105) (v := sget 0 w.regs.x (xkey 104 t)) (t := t) e1 rfl ht hi r (hno 105 (by omega))]
      have z0 := hz 0
      have z1 := hz 1
      simp only [Fin.val_zero, Nat.add_zero] at z0
      simp only [Fin.val_one] at z1
      by_cases hit : i = t
      · subst hit
        have g0 : getX w i (.y 0) = sget 0 w.regs.x (xkey 104 i) := rfl
        simp only [true_and, if_true, afterWrite, z0, z1, g0]
      · simp [hit]
    · have hm1 : m = 1 := Fin.ext (by have := m.isLt; simp; omega)
      subst hm1
      rw [getX_of_x (n := 105) (v := v) (t := t) hro (by simp [setX, putX]) ht hi r (hno 105 (by omega))]
      have z1 := hz 1
      simp only [Fin.val_one] at z1
      by_cases hit : i = t
      · subst hit
        simp [afterWrite, z1]
      · simp [hit]

/-- The poison mark after a write (R185). -/
theorem poisonX_setX (w : Warp) {t : Nat} (d : PReg) (v : Word) (p : Nat) (ht : t < 128) {i : Nat} (hi : i < 128)
    (r : PReg) : poisonX (setX w t d v p) i r = if i = t then afterWrite (poisonX w i) d p r else poisonX w i r := by
  cases d with
  | z => simp [setX, afterWrite]
  | tid => simp [setX, afterWrite]
  | q m => simp [setX, afterWrite]
  | v m =>
    rw [poisonX_of_xp (w := w) (n := m.val) (p := p) (t := t) (by simp [setX, putX, pnum]) ht hi r]
    have hz : (pnum r = m.val ∧ r ≠ .z ∧ r ≠ .tid ∧ ∀ q, r ≠ .q q) ↔ r = .v m := by
      constructor
      · intro h; exact pnum_inj (d := .v m) h.1
      · intro h; subst h; simp [pnum]
    by_cases hit : i = t
    · subst hit; simp only [true_and, if_true, afterWrite, hz]
    · simp [hit]
  | o m =>
    rw [poisonX_of_xp (w := w) (n := pnum (.o m)) (p := p) (t := t) (by simp [setX, putX]) ht hi r]
    have hz : (pnum r = pnum (.o m) ∧ r ≠ .z ∧ r ≠ .tid ∧ ∀ q, r ≠ .q q) ↔ r = .o m := by
      constructor
      · intro h; exact pnum_inj h.1
      · intro h; subst h; simp
    by_cases hit : i = t
    · subst hit; simp only [true_and, if_true, afterWrite, hz]
    · simp [hit]
  | y m =>
    have hz : ∀ k : Fin 2, (pnum r = 104 + k.val ∧ r ≠ .z ∧ r ≠ .tid ∧ ∀ q, r ≠ .q q) ↔ r = .y k := by
      intro k
      constructor
      · intro h; exact pnum_inj (d := .y k) (by simpa [pnum] using h.1)
      · intro h; subst h; simp [pnum]
    by_cases hm : m.val = 0
    · have hm0 : m = 0 := Fin.ext hm
      subst hm0
      rw [poisonX_of_xp (w := putX w t 105 (sget 0 w.regs.x (xkey 104 t)) (sget 0 w.regs.xp (xkey 104 t))) (n := 104) (p := p)
          (t := t) (by simp [setX, putX]) ht hi r,
        poisonX_of_xp (w := w) (n := 105) (p := sget 0 w.regs.xp (xkey 104 t)) (t := t) rfl ht hi r]
      have z0 := hz 0
      have z1 := hz 1
      simp only [Fin.val_zero, Nat.add_zero] at z0
      simp only [Fin.val_one] at z1
      by_cases hit : i = t
      · subst hit
        have g0 : poisonX w i (.y 0) = sget 0 w.regs.xp (xkey 104 i) := rfl
        simp only [true_and, if_true, afterWrite, z0, z1, g0]
      · simp [hit]
    · have hm1 : m = 1 := Fin.ext (by have := m.isLt; simp; omega)
      subst hm1
      rw [poisonX_of_xp (w := w) (n := 105) (p := p) (t := t) (by simp [setX, putX]) ht hi r]
      have z1 := hz 1
      simp only [Fin.val_one] at z1
      by_cases hit : i = t
      · subst hit
        simp [afterWrite, z1]
      · simp [hit]

theorem otherFilesKept_setX (w : Warp) (t : Nat) (d : PReg) (v : Word) (p : Nat) : otherFilesKept w.regs (setX w t d v p).regs := by
  unfold otherFilesKept
  cases d with
  | z => rfl
  | tid => rfl
  | q m => rfl
  | v m => simp [setX, putX]
  | o m => simp [setX, putX]
  | y m => simp only [setX]; split <;> simp [putX]

theorem otherFilesKept_trans {a b c : Regs} (h : otherFilesKept a b) (g : otherFilesKept b c) : otherFilesKept a c := by
  unfold otherFilesKept at *
  rw [g, h]

/-! ### The same register in each active thread -/

theorem inBase_regsOnly {a b : Warp} (h : regsOnly a b) {d : PReg} (hd : inBase a d) : inBase b d := by
  intro n e
  rw [regsOnly_field h Warp.base]
  exact hd n e

/-- `f t` is written to D in each thread of a list, where `f` reads nothing that the other threads' writes change. -/
theorem foldl_setX (d : PReg) (f : Warp → Nat → Word) (ts : List Nat) (hn : ts.Nodup) (hlt : ∀ t ∈ ts, t < 128) (w : Warp)
    (hd : inBase w d)
    (hf : ∀ b t, regsOnly w b → otherFilesKept w.regs b.regs → t ∈ ts → (∀ r, getX b t r = getX w t r) → f b t = f w t) :
    let x := ts.foldl (fun v t => setX v t d (f v t) 0) w
    (∀ i < 128, ∀ r, getX x i r = if i ∈ ts then afterWrite (getX w i) d (f w i) r else getX w i r)
      ∧ (∀ i < 128, ∀ r, poisonX x i r = if i ∈ ts then afterWrite (poisonX w i) d 0 r else poisonX w i r)
      ∧ otherFilesKept w.regs x.regs ∧ regsOnly w x := by
  induction ts generalizing w with
  | nil => exact ⟨by simp, by simp, rfl, regsOnly_refl w⟩
  | cons t ts ih =>
    have hnt : t ∉ ts := (List.nodup_cons.mp hn).1
    have htl : t < 128 := hlt t (List.mem_cons_self ..)
    have hro := regsOnly_setX w t d (f w t) 0
    have hof := otherFilesKept_setX w t d (f w t) 0
    have hg : ∀ i < 128, ∀ r, getX (setX w t d (f w t) 0) i r = if i = t then afterWrite (getX w i) d (f w t) r else getX w i r :=
      fun i hi r => getX_setX w d (f w t) 0 htl hd hi r
    have hp : ∀ i < 128, ∀ r, poisonX (setX w t d (f w t) 0) i r
        = if i = t then afterWrite (poisonX w i) d 0 r else poisonX w i r :=
      fun i hi r => poisonX_setX w d (f w t) 0 htl hi r
    have hf1 : ∀ i ∈ ts, f (setX w t d (f w t) 0) i = f w i := by
      intro i hi
      have hit : i ≠ t := fun e => hnt (e ▸ hi)
      exact hf _ i hro hof (List.mem_cons_of_mem _ hi) (fun r => by
        rw [hg i (hlt i (List.mem_cons_of_mem _ hi)), if_neg hit])
    obtain ⟨h1, h2, h3, h4⟩ := ih (List.nodup_cons.mp hn).2 (fun i hi => hlt i (List.mem_cons_of_mem _ hi))
      (setX w t d (f w t) 0) (inBase_regsOnly hro hd) (fun b i hb hob hi hbr => by
        have hit : i ≠ t := fun e => hnt (e ▸ hi)
        rw [hf1 i hi]
        exact hf b i (regsOnly_trans hro hb) (otherFilesKept_trans hof hob) (List.mem_cons_of_mem _ hi) (fun r => by
          rw [hbr r, hg i (hlt i (List.mem_cons_of_mem _ hi)), if_neg hit]))
    refine ⟨?_, ?_, otherFilesKept_trans hof h3, regsOnly_trans hro h4⟩
    · intro i hi r
      rw [List.foldl_cons, h1 i hi r]
      by_cases hit : i = t
      · subst hit
        rw [if_neg hnt, hg i hi, if_pos rfl, if_pos (List.mem_cons_self ..)]
      · by_cases him : i ∈ ts
        · rw [if_pos him, if_pos (List.mem_cons_of_mem _ him), hf1 i him]
          have : getX (setX w t d (f w t) 0) i = getX w i := by
            funext r; rw [hg i hi, if_neg hit]
          rw [this]
        · rw [if_neg him, if_neg (by simp [hit, him]), hg i hi, if_neg hit]
    · intro i hi r
      rw [List.foldl_cons, h2 i hi r]
      by_cases hit : i = t
      · subst hit
        rw [if_neg hnt, hp i hi, if_pos rfl, if_pos (List.mem_cons_self ..)]
      · by_cases him : i ∈ ts
        · rw [if_pos him, if_pos (List.mem_cons_of_mem _ him)]
          have : poisonX (setX w t d (f w t) 0) i = poisonX w i := by
            funext r; rw [hp i hi, if_neg hit]
          rw [this]
        · rw [if_neg him, if_neg (by simp [hit, him]), hp i hi, if_neg hit]

end Sys2Proof.Laws
end

