-- ==== Sys2Proof/Laws/Completion.lean ====
section
/-! SUPPORT. The shared instruction shapes: what each answers where its operands serve. -/

namespace Sys2Proof.Laws

open Sys2Proof.Machine

/-- An own effect that changes registers of the unit in turn alone leaves a state of that kind. -/
theorem onlyRegs_endIssue {s : State} {w x : Warp} (hT : InTurn s w) (hC : Calm w) (len n : Nat) (f : Warp → Warp)
    (hf : f (atIssue w len) = x) (hx : regsOnly (atIssue w len) x) :
    let cx := cxOf s s.turn len
    let t := endIssue w cx n (modUnit (beginIssue s cx) s.turn f)
    (unitOf t s.turn).regs = x.regs ∧ onlyRegs s (atIssue w len) t := by
  intro cx t
  have hu := beginIssue_unit hT.1 len
  have hs : sfind (modUnit (beginIssue s cx) s.turn f).units cx.u = some x := by
    rw [sfind_modUnit, if_pos (by rfl)]
    show Option.map f (sfind (beginIssue s cx).units s.turn) = _
    rw [hu, Option.map_some, hf]
  obtain ⟨h1, h2, h3, h4⟩ := endIssue_kept w cx n hs (regsOnly_calm hx (atIssue_calm hC len))
    ((regsOnly_allOnStub hx).trans ((allOnStub_atIssue w len).trans (allOnStub_of_turn hT)))
  refine ⟨h1, unitKept_trans (regsOnly_unitKept hx (atIssue_calm hC len).1) h2, ?_, ?_, ?_⟩
  · intro v hv
    rw [h3 v hv, unitOf_modUnit_ne _ hv, beginIssue_other s len hv]
  · exact h4.1
  · exact h4.2

theorem getX_same {a b : Warp} (h : b.regs = a.regs) (hk : unitKept a b) (i : Nat) (r : PReg) : getX b i r = getX a i r := by
  have hb := unitKept_field hk Warp.base
  have hr := unitKept_field hk Warp.recipes
  cases r <;> simp [getX, h, hb, recipeOf, hr]

theorem poisonX_same {a b : Warp} (h : b.regs = a.regs) (i : Nat) (r : PReg) : poisonX b i r = poisonX a i r := by
  cases r <;> simp [poisonX, h]

/-- The fold of one register write over the active threads, as a result of an issue. -/
theorem writesX_of_fold {s : State} {w : Warp} (hT : InTurn s w) (hC : Calm w) (len n : Nat) (d : PReg) (f : Warp → Nat → Word)
    (hd : inBase (atIssue w len) d)
    (hf : ∀ b t, regsOnly (atIssue w len) b → otherFilesKept (atIssue w len).regs b.regs → t ∈ activeThreads w →
      (∀ r, getX b t r = getX (atIssue w len) t r) → f b t = f (atIssue w len) t) :
    let cx := cxOf s s.turn len
    WritesX s w len d (f (atIssue w len))
      (endIssue w cx n (modUnit (beginIssue s cx) s.turn fun v => (activeThreads w).foldl (fun v t => setX v t d (f v t) 0) v)) := by
  intro cx
  obtain ⟨h1, h2, h3, h4⟩ := foldl_setX d f (activeThreads w) (activeThreads_nodup w) (fun t ht => activeThreads_lt ht)
    (atIssue w len) hd hf
  obtain ⟨g1, g2⟩ := onlyRegs_endIssue hT hC len n
    (fun v => (activeThreads w).foldl (fun v t => setX v t d (f v t) 0) v) rfl h4
  have hk : unitKept ((activeThreads w).foldl (fun v t => setX v t d (f v t) 0) (atIssue w len))
      (unitOf (endIssue w cx n (modUnit (beginIssue s cx) s.turn fun v =>
        (activeThreads w).foldl (fun v t => setX v t d (f v t) 0) v)) s.turn) :=
    unitKept_trans (regsOnly_unitKept h4 (atIssue_calm hC len).1).symm g2.1
  refine ⟨?_, ?_, ?_, g2⟩
  · intro i hi r
    rw [getX_same g1 hk, h1 i hi r]
  · intro i hi r
    rw [poisonX_same g1, h2 i hi r]
  · rw [g1]; exact h3

/-- A per-thread function of one destination writes its value in each active thread (R91, R110). -/
theorem perThread_writes {s : State} {w : Warp} (hT : InTurn s w) (hC : Calm w) (len : Nat) (f : TFun) (d : PReg)
    (hw : f.writes = [d]) (val : FEnv → List Word → Word) (hv : ∀ e l, f.fn e l = [val e l])
    (ho : operandsOk (atIssue w len) (activeThreads w) (f.uses false)) :
    ∃ t, perThread len f s = .next t ∧ WritesX s w len d
      (fun i => val ⟨lowPc w (activeThreads w), i, w.rmode⟩ (f.reads.map (getX (atIssue w len) i))) t := by
  have hu := beginIssue_unitOf hT.1 len
  have hact := cxOf_act hT.1 len
  have hpc := cxOf_pc hT.1 len
  have hrm : (cxOf s s.turn len).rmode = w.rmode := by simp [cxOf, unitOf_of_sfind hT.1]
  have hrec : (unitOf (beginIssue s (cxOf s s.turn len)) (cxOf s s.turn len).u).recipes = [] := by
    rw [cxOf_u, hu]; exact (atIssue_calm hC len).1
  have hq : (f.reads ++ f.writes).all (·.noQ) = true := by
    have := ho.2.1
    simp only [TFun.uses, ← List.map_append] at this
    rw [List.all_eq_true]
    intro r hr
    have h1 := List.any_eq_false.mp this (.x r) (List.mem_map_of_mem hr)
    cases r <;> simp_all [RName.isQ, PReg.noQ]
  have hb : bodyFun f false (cxOf s s.turn len) (beginIssue s (cxOf s s.turn len)) = .ok (modUnit (beginIssue s (cxOf s s.turn len))
      s.turn fun v => (activeThreads w).foldl (fun v t => setX v t d
        (val ⟨lowPc w (activeThreads w), t, w.rmode⟩ (f.reads.map (getX v t))) 0) v) := by
    unfold bodyFun
    rw [withOperands_ok _ hrec (by rw [cxOf_u, hu, hact]; exact ho), commit_ok _ hrec]
    unfold runFun
    rw [if_pos hq, hact]
    have hth : threadFun (cxOf s s.turn len) f = fun v t => setX v t d
        (val ⟨lowPc w (activeThreads w), t, w.rmode⟩ (f.reads.map (getX v t))) 0 := by
      funext v t
      simp [threadFun, hw, hv, writeRegs, envOf, hpc, hrm]
    rw [hth]; rfl
  refine ⟨_, issue_ok hT len false (bodyFun f false) hb, ?_⟩
  refine writesX_of_fold hT hC len _ d
    (fun v t => val ⟨lowPc w (activeThreads w), t, w.rmode⟩ (f.reads.map (getX v t))) (inBase_of_operands ho (by simp [TFun.uses, hw])) ?_
  intro b t _ _ _ hr
  have e : getX b t = getX (atIssue w len) t := funext hr
  show val _ (f.reads.map (getX b t)) = _
  rw [e]

end Sys2Proof.Laws
end

