-- ==== Sys2Proof/Laws/Shapes.lean ====
section
/-! SUPPORT. The remaining shared instruction shapes: uniform functions, compares into masks, capability functions and functions
across the participants. -/

namespace Sys2Proof.Laws

open Sys2Proof.Machine

/-! ### Uniform functions -/

theorem getS_setU (w : Warp) (d : SReg) (v : DWord) (n : Fin 64) : getS (setU w d v) n = if d = .s n then v else getS w n := by
  cases d with
  | z => simp [setU]
  | s k =>
    simp only [setU, getS, setS, note_regs, sget_sset, SReg.s.injEq]
    by_cases h : n = k
    · subst h; simp
    · rw [if_neg (fun e => h (Fin.ext e)), if_neg (fun e => h e.symm)]

theorem spoison_setU (w : Warp) (d : SReg) (v : DWord) (n : Fin 64) :
    sget 0 (setU w d v).regs.sp n = if d = .s n then 0 else sget 0 w.regs.sp n := by
  cases d with
  | z => simp [setU]
  | s k =>
    simp only [setU, setS, note_regs, sget_sset, SReg.s.injEq]
    by_cases h : n = k
    · subst h; simp
    · rw [if_neg (fun e => h (Fin.ext e)), if_neg (fun e => h e.symm)]

theorem regs_setU (w : Warp) (d : SReg) (v : DWord) :
    (setU w d v).regs = { w.regs with s := (setU w d v).regs.s, sp := (setU w d v).regs.sp } := by
  cases d <;> simp [setU, setS]

/-- The body of a uniform function whose operands serve. -/
theorem bodyUni_ok {s : State} {w : Warp} (hT : InTurn s w) (hC : Calm w) (len : Nat) {reads writes : List RName}
    (f : Cx → Warp → Warp) (ho : operandsOk (atIssue w len) (activeThreads w) (usesOf reads writes)) :
    bodyUni reads writes f (cxOf s s.turn len) (beginIssue s (cxOf s s.turn len))
      = .ok (modUnit (beginIssue s (cxOf s s.turn len)) s.turn (f (cxOf s s.turn len))) := by
  have hu := beginIssue_unitOf hT.1 len
  have hrec : (unitOf (beginIssue s (cxOf s s.turn len)) (cxOf s s.turn len).u).recipes = [] := by
    rw [cxOf_u, hu]; exact (atIssue_calm hC len).1
  unfold bodyUni
  dsimp only
  rw [withOperands_ok _ hrec (by rw [cxOf_u, hu, cxOf_act hT.1]; exact ho), commit_ok _ hrec]
  rfl

/-- A uniform write at the end of an issue. -/
theorem writesU_of {s : State} {w : Warp} (hT : InTurn s w) (hC : Calm w) (len n : Nat) (d : SReg) (val : Warp → DWord) :
    WritesU s w len d (val (atIssue w len))
      (endIssue w (cxOf s s.turn len) n
        (modUnit (beginIssue s (cxOf s s.turn len)) s.turn fun v => setU v d (val v))) := by
  obtain ⟨h, g⟩ := onlyRegs_endIssue hT hC len n (fun v => setU v d (val v)) rfl (regsOnly_setU _ d _)
  refine ⟨fun k => ?_, fun k => ?_, ?_, g⟩
  · rw [getS, h]; exact getS_setU _ _ _ _
  · rw [h]; exact spoison_setU _ _ _ _
  · rw [h]; exact regs_setU _ _ _

/-- A uniform instruction writes g(A, B) to D (R120). -/
theorem uniform_writes {s : State} {w : Warp} (hT : InTurn s w) (hC : Calm w) (hoff : w.off = none) (d a : SReg) (b : USrc)
    (g : DWord → DWord → DWord)
    (ho : operandsOk (atIssue w (usrcLen b)) (activeThreads w) (usesOf (uname a ++ usrcName b) (uname d))) :
    ∃ t, uniform d a b g s = .next t
      ∧ WritesU s w (usrcLen b) d (g (getU (atIssue w (usrcLen b)) a) (getUSrc (atIssue w (usrcLen b)) b)) t := by
  have hu := beginIssue_unitOf hT.1 (usrcLen b)
  have hf : onOffset (unitOf (beginIssue s (cxOf s s.turn (usrcLen b))) (cxOf s s.turn (usrcLen b)).u) = false := by
    rw [cxOf_u, hu, onOffset, atIssue_field w _ Warp.off, hoff]; rfl
  have hb := bodyUni_ok hT hC (usrcLen b) (fun _ v => setU v d (g (getU v a) (getUSrc v b))) ho
  unfold uniform
  refine ⟨_, issue_ok hT (usrcLen b) true _ (r := _) ?_, writesU_of hT hC _ _ d fun v => g (getU v a) (getUSrc v b)⟩
  rw [hf, if_neg (by decide)]
  exact hb

/-! ### Compares (R55, R119) -/

theorem setPcs_regs (w : Warp) (ts : List Nat) (p : Nat) : (setPcs w ts p).regs = w.regs := by rw [setPcs_eq]

theorem setMarks_eq (w : Warp) (ts : List Nat) (m : Mark) :
    setMarks w ts m = { w with
      marks := ts.foldl (fun l t => sset .ready l t m) w.marks
      rejoinWait := if m = .ready ∧ ts ≠ [] then 0 else w.rejoinWait } := by
  unfold setMarks
  induction ts generalizing w with
  | nil => simp
  | cons t ts ih =>
    rw [List.foldl_cons, ih]
    by_cases h : m = .ready <;> simp [setMark, h]

theorem getMark_setMarks (w : Warp) (ts : List Nat) (m : Mark) (i : Nat) :
    getMark (setMarks w ts m) i = if i ∈ ts then m else getMark w i := by
  rw [setMarks_eq]; exact sget_foldl_sset .ready ts (fun _ => m) w.marks i

/-- What evaluating JOINs leaves: marks and PCs of threads that are not parked, and all else but the count of the rejoin wait
(R279). -/
def joinsOnly (a b : Warp) : Prop :=
  b = { a with marks := b.marks, pcs := b.pcs, rejoinWait := b.rejoinWait }
    ∧ (∀ i, (∀ k, getMark a i ≠ .parked k) → getMark b i = getMark a i ∧ getPc b i = getPc a i)
    ∧ ∀ i, (∀ k, getMark a i ≠ .parked k) → ∀ k, getMark b i ≠ .parked k

theorem joinsOnly_refl (a : Warp) : joinsOnly a a := ⟨rfl, fun _ _ => ⟨rfl, rfl⟩, fun _ h => h⟩

theorem joinsOnly_trans {a b c : Warp} (h : joinsOnly a b) (g : joinsOnly b c) : joinsOnly a c := by
  refine ⟨?_, fun i hi => ?_, fun i hi => g.2.2 i (h.2.2 i hi)⟩
  · have e1 := h.1
    have e2 := g.1
    rw [e1] at e2
    exact e2
  · have := h.2.1 i hi
    have k := g.2.1 i (h.2.2 i hi)
    exact ⟨k.1.trans this.1, k.2.trans this.2⟩

theorem joinsOnly_evalJoin (w : Warp) (pc m : Nat) : joinsOnly w (evalJoin w pc m) := by
  unfold evalJoin
  split
  · dsimp only
    have hnot : ∀ i, (∀ k, getMark w i ≠ .parked k) → i ∉ (liveThreads w).filter (parkedAt w pc) := by
      intro i hi hm
      have hp := (List.mem_filter.mp hm).2
      unfold parkedAt at hp
      split at hp
      · exact hi _ (by assumption)
      · cases hp
    have hm : ∀ i, getMark (setPcs (setMarks w ((liveThreads w).filter (parkedAt w pc)) .ready)
        ((liveThreads w).filter (parkedAt w pc)) (pc + 4)) i
        = if i ∈ (liveThreads w).filter (parkedAt w pc) then .ready else getMark w i := by
      intro i
      have : ∀ x : Warp, getMark (setPcs x ((liveThreads w).filter (parkedAt w pc)) (pc + 4)) i = getMark x i := by
        intro x; rw [setPcs_eq]; rfl
      rw [this, getMark_setMarks]
    refine ⟨?_, fun i hi => ⟨?_, ?_⟩, fun i hi k => ?_⟩
    · rw [setPcs_eq, setMarks_eq]
    · rw [hm, if_neg (hnot i hi)]
    · rw [getPc_setPcs, if_neg (hnot i hi), setMarks_eq]; rfl
    · rw [hm, if_neg (hnot i hi)]; exact hi k
  · exact joinsOnly_refl w

theorem joinsOnly_evalJoins (w : Warp) (m : Nat) : joinsOnly w (evalJoins w m) := by
  unfold evalJoins
  split
  · exact joinsOnly_refl w
  · rename_i h
    clear h
    generalize joinPcs w m = l
    induction l generalizing w with
    | nil => exact joinsOnly_refl w
    | cons pc r ih => exact joinsOnly_trans (joinsOnly_evalJoin w pc m) (ih _)

theorem joinsOnly_field {β : Type} {a b : Warp} (h : joinsOnly a b) (f : Warp → β)
    (hf : ∀ w : Warp, f { w with marks := [], pcs := [], rejoinWait := 0 } = f w := by intro w; rfl) : f b = f a := by
  rw [← hf b, h.1, hf a]

theorem joinsOnly_ready {a b : Warp} {t : Nat} (h : joinsOnly a b) (ht : t ∈ readyThreads a) : t ∈ readyThreads b := by
  have hl : liveThreads b = liveThreads a := joinsOnly_field h liveThreads
  obtain ⟨h1, h2⟩ := List.mem_filter.mp ht
  have hm : getMark a t = .ready := by
    simp only [isReady, Bool.and_eq_true, beq_iff_eq] at h2
    exact h2.1.2
  have hb := (h.2.1 t (by simp [hm])).1
  refine List.mem_filter.mpr ⟨hl ▸ h1, ?_⟩
  have e1 : b.live = a.live := joinsOnly_field h Warp.live
  have e2 : b.inh = a.inh := joinsOnly_field h Warp.inh
  have e3 : b.handler = a.handler := joinsOnly_field h Warp.handler
  simpa [isReady, isLive, hb, e1, e2, e3] using h2

theorem joinsOnly_calm {a b : Warp} (h : joinsOnly a b) (hc : Calm a) : Calm b :=
  ⟨(joinsOnly_field h Warp.recipes).trans hc.1, (joinsOnly_field h Warp.heldPre).trans hc.2.1,
    by rw [joinsOnly_field h Warp.waits]; exact hc.2.2⟩

/-- A mask write at the end of an issue. -/
theorem writesM_of {s : State} {w : Warp} (hT : InTurn s w) (hC : Calm w) (len n : Nat) (m : Fin 16) (val : Warp → QWord) :
    WritesM s w len m (val (atIssue w len))
      (endIssue w (cxOf s s.turn len) n
        (modUnit (beginIssue s (cxOf s s.turn len)) s.turn fun v => writeMask v m (val v))) := by
  have hu := beginIssue_unit hT.1 len
  have hro := regsOnly_setM (atIssue w len) m (val (atIssue w len))
  have hj := joinsOnly_evalJoins (setM (atIssue w len) m (val (atIssue w len))) m
  have hx : sfind (modUnit (beginIssue s (cxOf s s.turn len)) s.turn fun v => writeMask v m (val v)).units
      (cxOf s s.turn len).u = some (writeMask (atIssue w len) m (val (atIssue w len))) := by
    rw [sfind_modUnit, if_pos (by rfl)]
    show Option.map _ (sfind (beginIssue s (cxOf s s.turn len)).units s.turn) = _
    rw [hu]; rfl
  have hc : Calm (writeMask (atIssue w len) m (val (atIssue w len))) :=
    joinsOnly_calm hj (regsOnly_calm hro (atIssue_calm hC len))
  have hst : allOnStub (writeMask (atIssue w len) m (val (atIssue w len))) = false := by
    obtain ⟨t, ht⟩ := List.exists_mem_of_ne_nil _ hT.2
    exact allOnStub_of_ready (joinsOnly_ready hj (regsOnly_ready hro (atIssue_ready len (List.mem_filter.mp ht).1)))
  obtain ⟨h1, h2, h3, h4⟩ := endIssue_kept w (cxOf s s.turn len) n hx hc hst
  have hreg : (writeMask (atIssue w len) m (val (atIssue w len))).regs = (setM (atIssue w len) m (val (atIssue w len))).regs :=
    joinsOnly_field hj Warp.regs
  have hrm : (setM (atIssue w len) m (val (atIssue w len))).regs
      = { (atIssue w len).regs with
          m := sset 0 (atIssue w len).regs.m m (val (atIssue w len)), mp := sset 0 (atIssue w len).regs.mp m 0 } := note_regs _ _
  have hf : ∀ (β : Type) (f : Warp → β), (∀ w, f (lessRegs w) = f w) →
      f (unitOf (endIssue w (cxOf s s.turn len) n (modUnit (beginIssue s (cxOf s s.turn len)) s.turn fun v => writeMask v m (val v)))
        s.turn) = f (writeMask (atIssue w len) m (val (atIssue w len))) :=
    fun β f hf => unitKept_field h2 f hf
  rw [cxOf_u] at h1
  refine ⟨fun k => ?_, fun k => ?_, ?_, ?_, fun i hi => ?_, ?_, h4⟩
  · rw [getM, h1, hreg, hrm]
    simp only [sget_sset, getM]
    by_cases e : k = m
    · subst e; simp
    · rw [if_neg (fun c => e (Fin.ext c)), if_neg e]
  · rw [h1, hreg, hrm]
    simp only [sget_sset]
    by_cases e : k = m
    · subst e; simp
    · rw [if_neg (fun c => e (Fin.ext c)), if_neg e]
  · rw [h1, hreg, hrm]
  · rw [hf _ lessJoins (fun _ => rfl), writeMask, joinsOnly_field hj lessJoins]
    exact unitKept_field (regsOnly_unitKept hro (atIssue_calm hC len).1) lessJoins
  · have g1 : ∀ k, getMark (setM (atIssue w len) m (val (atIssue w len))) k = getMark (atIssue w len) k :=
      fun k => regsOnly_field hro fun v => getMark v k
    have g2 : ∀ k, getPc (setM (atIssue w len) m (val (atIssue w len))) k = getPc (atIssue w len) k :=
      fun k => regsOnly_field hro fun v => getPc v k
    have k1 := hj.2.1 i (fun k => by rw [g1]; exact hi k)
    refine ⟨?_, ?_⟩
    · rw [hf _ (fun v => getMark v i) (fun _ => rfl)]; exact k1.1.trans (g1 i)
    · rw [hf _ (fun v => getPc v i) (fun _ => rfl)]; exact k1.2.trans (g2 i)
  · intro v hv
    rw [h3 v hv, unitOf_modUnit_ne _ hv, beginIssue_other s len hv]

theorem getLsbD_setBit (m : QWord) {t k : Nat} (hk : k < 128) (b : Bool) :
    (setBit m t b).getLsbD k = if k = t then b else m.getLsbD k := by
  have ho : (BitVec.ofNat 128 (2 ^ t)).getLsbD k = decide (k = t) := by
    rw [BitVec.getLsbD_ofNat, Nat.testBit_two_pow]
    simp [hk, eq_comm]
  unfold setBit
  cases b
  · simp only [Bool.false_eq_true, if_false, BitVec.getLsbD_and, BitVec.getLsbD_not, ho, hk, decide_true, Bool.true_and]
    by_cases h : k = t <;> simp [h]
  · simp only [if_true, BitVec.getLsbD_or, ho]
    by_cases h : k = t <;> simp [h]

/-- The bits of a mask into which each active thread has written its own (R55). -/
theorem getLsbD_maskBits (m : QWord) (ts : List Nat) (f : Nat → Bool) {k : Nat} (hk : k < 128) :
    (maskBits m ts f).getLsbD k = if k ∈ ts then f k else m.getLsbD k := by
  unfold maskBits
  induction ts generalizing m with
  | nil => simp
  | cons t ts ih =>
    rw [List.foldl_cons, ih, getLsbD_setBit m hk]
    by_cases h : k ∈ ts
    · simp [h]
    · by_cases e : k = t
      · subst e; simp
      · simp [h, e]

/-- A per-thread compare sets each active thread's bit to its condition (R119). -/
theorem compare_writes {s : State} {w : Warp} (hT : InTurn s w) (hC : Calm w) (m : Fin 16) (a : PReg) (b : Src)
    (g : Word → Word → Bool)
    (ho : operandsOk (atIssue w (srcLen b)) (activeThreads w) (usesOf (.x a :: srcName b) [mname m])) :
    ∃ t val, compare m a b g s = .next t ∧ WritesM s w (srcLen b) m val t
      ∧ ∀ k < 128, val.getLsbD k = if k ∈ activeThreads w
          then g (getX (atIssue w (srcLen b)) k a) (getSrc (atIssue w (srcLen b)) k b)
          else (getM (atIssue w (srcLen b)) m).getLsbD k := by
  have hu := beginIssue_unitOf hT.1 (srcLen b)
  have hact := cxOf_act hT.1 (srcLen b)
  have hrec : (unitOf (beginIssue s (cxOf s s.turn (srcLen b))) (cxOf s s.turn (srcLen b)).u).recipes = [] := by
    rw [cxOf_u, hu]; exact (atIssue_calm hC _).1
  have hb : bodyCmp m a b g (cxOf s s.turn (srcLen b)) (beginIssue s (cxOf s s.turn (srcLen b)))
      = .ok (modUnit (beginIssue s (cxOf s s.turn (srcLen b))) s.turn fun v => writeMask v m.val
          (maskBits (getM v m.val) (activeThreads w) fun t => g (getX v t a) (getSrc v t b))) := by
    unfold bodyCmp
    dsimp only
    rw [withOperands_ok _ hrec (by rw [cxOf_u, hu, hact]; exact ho), commit_ok _ hrec, hact]
    rfl
  refine ⟨_, _, issue_ok hT _ false _ hb, writesM_of hT hC _ _ m
    (fun v => maskBits (getM v m.val) (activeThreads w) fun t => g (getX v t a) (getSrc v t b)), fun k hk => ?_⟩
  exact getLsbD_maskBits _ _ _ hk

/-! ### Functions across participants, and of capabilities -/

theorem smod_congr {α : Type} {l : Store α} {k : Nat} {v : α} {f g : α → α} (h : sfind l k = some v) (e : f v = g v) :
    smod l k f = smod l k g := by
  induction l with
  | nil => rfl
  | cons p r ih =>
    obtain ⟨j, x⟩ := p
    unfold sfind at h
    unfold smod
    split
    · rename_i hj
      rw [if_pos hj] at h
      rw [ih h]
    · rename_i hj
      rw [if_neg hj] at h
      split
      · rename_i e2
        rw [if_pos e2] at h
        cases h
        rw [e]
      · rfl

theorem modUnit_congr {s : State} {u : Nat} {v : Warp} {f g : Warp → Warp} (h : sfind s.units u = some v) (e : f v = g v) :
    modUnit s u f = modUnit s u g := by
  unfold modUnit
  rw [smod_congr h e]

/-- A function across the participants computes every value from the registers as they stood (R146). -/
theorem bodyCross_writes {s : State} {w : Warp} (hT : InTurn s w) (hC : Calm w) (hoff : w.off = none) (len : Nat) (un : Bool)
    (d : PReg) (reads : List RName) (g : Cx → Warp → List Nat → Nat → Word)
    (ho : operandsOk (atIssue w len) (activeThreads w) (usesOf reads [.x d])) :
    ∃ t, issue len un (bodyCross d reads g) s = .next t
      ∧ WritesX s w len d (g (cxOf s s.turn len) (atIssue w len) (activeThreads w)) t := by
  have hu := beginIssue_unitOf hT.1 len
  have hact := cxOf_act hT.1 len
  have hrec : (unitOf (beginIssue s (cxOf s s.turn len)) (cxOf s s.turn len).u).recipes = [] := by
    rw [cxOf_u, hu]; exact (atIssue_calm hC len).1
  have hf : onOffset (unitOf (beginIssue s (cxOf s s.turn len)) (cxOf s s.turn len).u) = false := by
    rw [cxOf_u, hu, onOffset, atIssue_field w _ Warp.off, hoff]; rfl
  have hfold : (fun v : Warp => (activeThreads w).foldl (fun x t => setX x t d (g (cxOf s s.turn len) v (activeThreads w) t) 0) v)
      (atIssue w len) = (activeThreads w).foldl
        (fun x t => setX x t d (g (cxOf s s.turn len) (atIssue w len) (activeThreads w) t) 0) (atIssue w len) := rfl
  have hb : bodyCross d reads g (cxOf s s.turn len) (beginIssue s (cxOf s s.turn len))
      = .ok (modUnit (beginIssue s (cxOf s s.turn len)) s.turn fun v =>
          (activeThreads w).foldl (fun x t => setX x t d (g (cxOf s s.turn len) v (activeThreads w) t) 0) v) := by
    unfold bodyCross
    dsimp only
    rw [hf, Bool.and_false, if_neg (by decide), withOperands_ok _ hrec (by rw [cxOf_u, hu, hact]; exact ho), commit_ok _ hrec, hact]
    rfl
  refine ⟨_, issue_ok hT len un _ hb, ?_⟩
  have hw := writesX_of_fold hT hC len (issueClk (onOffset w) un (cxOf s s.turn len).act) d
    (fun _ t => g (cxOf s s.turn len) (atIssue w len) (activeThreads w) t) (inBase_of_operands ho (by simp [usesOf]))
    (fun _ _ _ _ _ _ => rfl)
  have e : modUnit (beginIssue s (cxOf s s.turn len)) s.turn (fun v => (activeThreads w).foldl
        (fun x t => setX x t d (g (cxOf s s.turn len) v (activeThreads w) t) 0) v)
      = modUnit (beginIssue s (cxOf s s.turn len)) s.turn (fun v => (activeThreads w).foldl
        (fun x t => setX x t d (g (cxOf s s.turn len) (atIssue w len) (activeThreads w) t) 0) v) := by
    refine modUnit_congr (beginIssue_unit hT.1 len) ?_
    exact hfold
  rw [e]
  exact hw

end Sys2Proof.Laws
end

