-- ==== Sys2Proof/Laws/Traps.lean ====
section
/-! SUPPORT. Taking an exception: what an instruction that stops with a trap leaves (R157, R158). -/

namespace Sys2Proof.Laws

open Sys2Proof.Machine

/-! ### Completing pending operations writes per-thread registers and tiles alone -/

/-- The uniform, mask and capability registers, with their marks, are the same. -/
def filesKept (a b : Warp) : Prop :=
  b.regs.s = a.regs.s ∧ b.regs.sp = a.regs.sp ∧ b.regs.m = a.regs.m ∧ b.regs.mp = a.regs.mp ∧ b.regs.c = a.regs.c
    ∧ b.regs.cp = a.regs.cp ∧ b.regs.k = a.regs.k

theorem filesKept_refl (a : Warp) : filesKept a a := ⟨rfl, rfl, rfl, rfl, rfl, rfl, rfl⟩

theorem filesKept_trans {a b c : Warp} (h : filesKept a b) (g : filesKept b c) : filesKept a c :=
  ⟨g.1.trans h.1, g.2.1.trans h.2.1, g.2.2.1.trans h.2.2.1, g.2.2.2.1.trans h.2.2.2.1, g.2.2.2.2.1.trans h.2.2.2.2.1,
    g.2.2.2.2.2.1.trans h.2.2.2.2.2.1, g.2.2.2.2.2.2.trans h.2.2.2.2.2.2⟩

theorem filesKept_foldl {β : Type} (f : Warp → β → Warp) (h : ∀ w b, filesKept w (f w b)) (l : List β) (w : Warp) :
    filesKept w (l.foldl f w) := by
  induction l generalizing w with
  | nil => exact filesKept_refl w
  | cons b l ih => exact filesKept_trans (h w b) (ih _)

theorem filesKept_setX (w : Warp) (t : Nat) (d : PReg) (v : Word) (p : Nat) : filesKept w (setX w t d v p) := by
  have h := otherFilesKept_setX w t d v p
  unfold otherFilesKept at h
  unfold filesKept
  rw [h]
  exact ⟨rfl, rfl, rfl, rfl, rfl, rfl, rfl⟩

theorem filesKept_landDest (w : Warp) (p : Pend) (d : Dest) : filesKept w (landDest w p d) := by
  unfold filesKept landDest
  rw [note_regs]
  exact ⟨rfl, rfl, rfl, rfl, rfl, rfl, rfl⟩

theorem filesKept_pinWarp (w : Warp) (ns : List Nat) : filesKept w (pinWarp w ns) := by
  unfold pinWarp
  split
  · exact filesKept_refl w
  · unfold pinEntries
    exact filesKept_foldl (fun w (r : Recipe) => modRecipe w r.reg fun q => { q with st := .pinned, stale := true })
      (fun _ _ => ⟨rfl, rfl, rfl, rfl, rfl, rfl, rfl⟩) _ w

theorem filesKept_dropLanded (ns : List Nat) (w : Warp) : filesKept w (dropLanded ns w) := by
  unfold dropLanded
  split <;> exact ⟨rfl, rfl, rfl, rfl, rfl, rfl, rfl⟩

theorem filesKept_landPend (w : Warp) (p : Pend) : filesKept w (landPend w p) :=
  filesKept_trans (b := { w with pends := w.pends.filter fun q => !(q.id == p.id && q.thread == p.thread) }) (filesKept_refl _)
    (filesKept_trans (filesKept_pinWarp _ _)
      (filesKept_trans (filesKept_foldl _ (fun w d => filesKept_landDest w p d) _ _) (filesKept_dropLanded _ _)))

theorem filesKept_landWhere (w : Warp) (f : Pend → Bool) : filesKept w (landWhere w f) := filesKept_foldl _ filesKept_landPend _ w

theorem filesKept_landTile (w : Warp) (x : TileWrite) : filesKept w (landTile w x) := by
  unfold landTile
  split <;> exact ⟨rfl, rfl, rfl, rfl, rfl, rfl, rfl⟩

theorem filesKept_landTop (w : Warp) (o : TileOp) : filesKept w (landTop w o) :=
  filesKept_trans (b := { w with tops := w.tops.filter fun p => p.id != o.id }) (filesKept_refl _)
    (filesKept_foldl _ filesKept_landTile _ _)

theorem filesKept_landTops (w : Warp) (f : TileOp → Bool) : filesKept w (landTops w f) := filesKept_foldl _ filesKept_landTop _ w

theorem filesKept_closeWin (w : Warp) (ts : List Nat) : filesKept w (closeWin w ts) := by
  unfold closeWin
  split
  · exact filesKept_refl w
  · exact filesKept_trans (filesKept_landWhere _ _) (filesKept_landTops _ _)

theorem filesKept_settleDue (w : Warp) (ts : List Nat) : filesKept w (settleDue w ts) := by
  unfold settleDue
  split
  · exact filesKept_refl w
  · exact filesKept_trans (filesKept_landWhere _ _) (filesKept_landTops _ _)

theorem filesKept_setPcs (w : Warp) (ts : List Nat) (p : Nat) : filesKept w (setPcs w ts p) := by
  unfold filesKept
  rw [setPcs_regs]
  exact ⟨rfl, rfl, rfl, rfl, rfl, rfl, rfl⟩

theorem filesKept_atIssue (w : Warp) (len : Nat) : filesKept w (atIssue w len) :=
  filesKept_trans (filesKept_settleDue _ _) (filesKept_setPcs _ _ _)

/-! ### Trap entry -/

/-- Where no register holds a recipe, nothing is to be pinned (R71). -/
theorem pinQuiet_none {s : State} {u : Nat} (h : (unitOf s u).recipes = []) (ns : List Nat) : pinQuiet s u ns = s := by
  have e : pinDeps ⟨u, 0, 0, [], 0, 0⟩ ns s = .ok s := by
    unfold pinDeps
    simp only [h, List.isEmpty_nil, if_true]
  unfold pinQuiet
  rw [e]

theorem testBit_maskOf (ts : List Nat) (k : Nat) : (maskOf ts).testBit k = decide (k ∈ ts) := by
  unfold maskOf
  have : ∀ m : Nat, (ts.foldl (fun m t => m ||| 2 ^ t) m).testBit k = (m.testBit k || decide (k ∈ ts)) := by
    induction ts with
    | nil => simp
    | cons t ts ih =>
      intro m
      rw [List.foldl_cons, ih, Nat.testBit_or, Nat.testBit_two_pow, Bool.or_assoc]
      congr 1
      by_cases e : k = t
      · subst e; simp
      · have e' : ¬t = k := fun c => e c.symm
        simp [e, e']
  rw [this]; simp

/-- Trap entry from a warp with the given PCs (R157, R158). -/
theorem trapEntry_entered (v : Warp) (pc : Nat) (act mask : List Nat) (cause info h : Nat) (hc : cause < 256) (hi : info < 2 ^ 32) :
    Entered v (trapEntry v pc act cause (maskOf mask) info false h) pc act mask (cause + info * 2 ^ 8) h := by
  have hs62 : s62Of cause info false = BitVec.ofNat 64 (cause + info * 2 ^ 8) := by
    unfold s62Of
    rw [Nat.mod_eq_of_lt hc, Nat.mod_eq_of_lt hi]
    simp
  obtain ⟨c, hcdef⟩ : ∃ c, c = closeWin v act := ⟨_, rfl⟩
  have hk : filesKept v c := hcdef ▸ filesKept_closeWin v act
  have hro : regsOnly v c := hcdef ▸ regsOnly_closeWin v act
  obtain ⟨d, hd⟩ : ∃ d : Warp, d = { c with shadow61 := getS c 61, shadow62 := getS c 62, shadow15 := getM c 15 } := ⟨_, rfl⟩
  obtain ⟨e, he⟩ : ∃ e, e = setM (setS (setS d 61 (BitVec.ofNat 64 pc)) 62 (s62Of cause info false)) 15
      (BitVec.ofNat 128 (maskOf mask)) := ⟨_, rfl⟩
  have hx : trapEntry v pc act cause (maskOf mask) info false h
      = setPcs { e with tm := true, inh := true, handler := maskOf act } act h := by
    rw [he, hd, hcdef]; rfl
  have hde : regsOnly d e := he ▸ regsOnly_trans (regsOnly_setS _ _ _) (regsOnly_trans (regsOnly_setS _ _ _) (regsOnly_setM _ _ _))
  have hes : ∀ n, getS e n = if n = 62 then s62Of cause info false else if n = 61 then BitVec.ofNat 64 pc else getS d n := by
    intro n
    rw [he]
    simp only [getS, setM, setS, note_regs, sget_sset]
  have hem : ∀ n, getM e n = if n = 15 then BitVec.ofNat 128 (maskOf mask) else getM d n := by
    intro n
    rw [he]
    simp only [getM, setM, setS, note_regs, sget_sset]
  have hds : ∀ n, getS d n = getS v n := fun n => by rw [hd]; unfold getS; rw [hk.1]
  have hdm : ∀ n, getM d n = getM v n := fun n => by rw [hd]; unfold getM; rw [hk.2.2.1]
  have hcs : ∀ n, getS c n = getS v n := fun n => by unfold getS; rw [hk.1]
  have hcm : ∀ n, getM c n = getM v n := fun n => by unfold getM; rw [hk.2.2.1]
  have hpc : ∀ k, getPc e k = getPc v k := fun k =>
    (regsOnly_field hde fun w => getPc w k).trans (by rw [hd]; exact regsOnly_field hro fun w => getPc w k)
  rw [hx]
  refine ⟨?_, ?_, ?_, ?_, ?_, ?_, ?_, ?_, ?_, ?_, ?_, ?_, ?_, ?_, ?_⟩
  · unfold getS; rw [setPcs_regs]; exact (hes 61).trans (by simp)
  · unfold getS; rw [setPcs_regs]; exact (hes 62).trans (by rw [if_pos rfl, hs62])
  · intro k hk'
    unfold getM; rw [setPcs_regs]
    have := hem 15
    unfold getM at this
    rw [show (({ e with tm := true, inh := true, handler := maskOf act } : Warp)).regs = e.regs from rfl, this, if_pos rfl,
      BitVec.getLsbD_ofNat, testBit_maskOf]
    simp [hk']
  · rw [setPcs_eq]; exact (regsOnly_field hde Warp.shadow61).trans (by rw [hd]; exact hcs 61)
  · rw [setPcs_eq]; exact (regsOnly_field hde Warp.shadow62).trans (by rw [hd]; exact hcs 62)
  · rw [setPcs_eq]; exact (regsOnly_field hde Warp.shadow15).trans (by rw [hd]; exact hcm 15)
  · rw [setPcs_eq]
  · rw [setPcs_eq]
  · intro k _; rw [setPcs_eq]; exact testBit_maskOf _ _
  · intro k
    rw [getPc_setPcs]
    split
    · rfl
    · exact hpc k
  · intro n h1 h2
    unfold getS; rw [setPcs_regs]; exact (hes n).trans (by rw [if_neg h2, if_neg h1, hds]; rfl)
  · intro n h1
    unfold getM; rw [setPcs_regs]; exact (hem n).trans (by rw [if_neg h1, hdm]; rfl)
  · rw [setPcs_eq]; exact (regsOnly_field hde Warp.marks).trans (by rw [hd]; exact regsOnly_field hro Warp.marks)
  · rw [setPcs_eq]; exact (regsOnly_field hde Warp.ras).trans (by rw [hd]; exact regsOnly_field hro Warp.ras)
  · rw [setPcs_eq]; exact (regsOnly_field hde Warp.live).trans (by rw [hd]; exact regsOnly_field hro Warp.live)

/-- What `Entered` asks carries over to a unit that keeps registers and all but counts. -/
theorem entered_kept {v x y : Warp} {pc : Nat} {act mask : List Nat} {info h : Nat} (he : Entered v x pc act mask info h)
    (hr : y.regs = x.regs) (hk : unitKept x y) : Entered v y pc act mask info h := by
  obtain ⟨h1, h2, h3, h4, h5, h6, h7, h8, h9, h10, h11, h12, h13, h14, h15⟩ := he
  have hs : ∀ n, getS y n = getS x n := fun n => by unfold getS; rw [hr]
  have hm : ∀ n, getM y n = getM x n := fun n => by unfold getM; rw [hr]
  refine ⟨by rw [hs]; exact h1, by rw [hs]; exact h2, fun k hk' => by rw [hm]; exact h3 k hk', ?_, ?_, ?_, ?_, ?_, ?_, ?_, ?_, ?_, ?_, ?_, ?_⟩
  · rw [unitKept_field hk Warp.shadow61]; exact h4
  · rw [unitKept_field hk Warp.shadow62]; exact h5
  · rw [unitKept_field hk Warp.shadow15]; exact h6
  · rw [unitKept_field hk Warp.tm]; exact h7
  · rw [unitKept_field hk Warp.inh]; exact h8
  · intro k hk'; rw [unitKept_field hk Warp.handler]; exact h9 k hk'
  · intro k; rw [unitKept_field hk fun w => getPc w k]; exact h10 k
  · intro n a b; rw [hs]; exact h11 n a b
  · intro n a; rw [hm]; exact h12 n a
  · rw [unitKept_field hk Warp.marks]; exact h13
  · rw [unitKept_field hk Warp.ras]; exact h14
  · rw [unitKept_field hk Warp.live]; exact h15

theorem codeBase_same {s t : State} {v w : Warp} (hm : t.mem = s.mem) (hx : t.xlatCad = s.xlatCad) (ha : v.asid = w.asid)
    (hk : v.regs.k = w.regs.k) : codeBase t v = codeBase s w := by
  have hc : getC v 0 9 = getC w 0 9 := by unfold getC; rw [if_neg (by decide), if_neg (by decide), hk]
  unfold codeBase codeObjBase cadEntry memBytes
  rw [hm, hx, ha, hc]

/-- An instruction whose own effect stops with a trap enters the handler and does nothing else (R157, R158). -/
theorem trapsTo_of {i : Sys2Proof.Instr} {s : State} {w : Warp} {len : Nat} {un : Bool} {body : Cx → State → Res} {cause info : Nat}
    {mask : List Nat} (hi : exec i s = issue len un body s) (hc : cause < 256) (hinf : info < 2 ^ 32)
    (hb : InTurn s w → Calm w → Simt w → w.inh = false → body (cxOf s s.turn len) (beginIssue s (cxOf s s.turn len))
      = .error (.trap cause (maskOf mask) info false, beginIssue s (cxOf s s.turn len))) :
    trapsTo i s w cause mask info := by
  intro hT hC hS hinh h hh
  have hb := hb hT hC hS hinh
  refine ⟨_, by rw [hi]; exact issue_stop hT len un body hb (by simp), ?_⟩
  obtain ⟨cx, hcx⟩ : ∃ cx, cx = cxOf s s.turn len := ⟨_, rfl⟩
  have hcu : cx.u = s.turn := by rw [hcx]; rfl
  have hca : cx.act = activeThreads w := by rw [hcx]; exact cxOf_act hT.1 len
  have hcp : cx.pc = pcNow w := by rw [hcx]; exact cxOf_pc hT.1 len
  rw [← hcx]
  have hu : sfind (beginIssue s cx).units s.turn = some (atIssue w len) := by rw [hcx]; exact beginIssue_unit hT.1 len
  obtain ⟨v, hv⟩ : ∃ v, v = setPcs (atIssue w len) (activeThreads w) (pcNow w) := ⟨_, rfl⟩
  obtain ⟨q, hq⟩ : ∃ q, q = modUnit (beginIssue s cx) s.turn fun x => setPcs x (activeThreads w) (pcNow w) := ⟨_, rfl⟩
  have hqu : sfind q.units s.turn = some v := by rw [hq, sfind_modUnit, if_pos rfl, hu, hv]; rfl
  have hvr : v.recipes = [] := by rw [hv, setPcs_eq]; exact (atIssue_calm hC len).1
  have hvb : ∀ (β : Type) (f : Warp → β), (∀ w, f { bare w with pcs := [] } = f w) → f v = f w := by
    intro β f hf
    have e : f v = f (atIssue w len) := by
      have : ({ bare v with pcs := [] } : Warp) = { bare (atIssue w len) with pcs := [] } := by rw [hv, setPcs_eq]; rfl
      rw [← hf v, this, hf]
    exact e.trans (atIssue_field w len f hf)
  have hoff : v.off = none := (hvb _ Warp.off fun _ => rfl).trans hS.1
  have hinhv : v.inh = false := (hvb _ Warp.inh fun _ => rfl).trans hinh
  have hrv : v.routine = none := by
    have h1 : v.routine = (settleDue w (activeThreads w)).routine := by rw [hv, setPcs_eq, atIssue, setPcs_eq]
    have h2 := (regsOnly_settleDue w (activeThreads w)).2.1
    rw [hS.2] at h2
    rw [h1]
    exact Option.isNone_iff_eq_none.mp (by simpa using h2)
  have hfv : filesKept w v := by
    rw [hv]
    exact filesKept_trans (filesKept_atIssue w len) (filesKept_setPcs _ _ _)
  have hgrp : v.grp = w.grp := hvb _ Warp.grp fun _ => rfl
  have hasid : v.asid = w.asid := hvb _ Warp.asid fun _ => rfl
  have hlq : launchOfUnit q v = launchOfUnit s w := by
    unfold launchOfUnit; rw [hgrp]
    have : q.groups = s.groups ∧ q.launches = s.launches := by rw [hq]; exact ⟨rfl, rfl⟩
    unfold launchOf groupOf
    rw [this.1, this.2]
  have hcb : codeBase q v = codeBase s w :=
    codeBase_same (by rw [hq]; rfl) (by rw [hq]; rfl) hasid hfv.2.2.2.2.2.2
  have htrap : halt cx (beginIssue s cx) (.trap cause (maskOf mask) info false)
      = modUnit q s.turn fun x => trapEntry x (pcNow w) (activeThreads w) cause (maskOf mask) info false (codeBase q x + h) := by
    show takeTrap (modUnit (beginIssue s cx) cx.u fun x => setPcs x cx.act cx.pc) cx.u cx.pc cx.act cause (maskOf mask) info false = _
    rw [hcu, hca, hcp, ← hq]
    unfold takeTrap
    have hex : inExit v = false := by unfold inExit; rw [hrv]
    have hen : inEntry v = false := by unfold inEntry; rw [hrv]
    have hhv : (launchOfUnit q v).handler = some h := by rw [hlq]; exact hh
    simp only [unitOf_of_sfind hqu, hoff, hex, hen, hinhv, Bool.false_eq_true, if_false, hhv]
    rw [pinQuiet_none (by rw [unitOf_of_sfind hqu]; exact hvr)]
  have hcount : ({ cx with act := (Stop.trap cause (maskOf mask) info false).counted cx.act } : Cx) = cx := rfl
  rw [hcount, htrap]
  obtain ⟨x, hx⟩ : ∃ x, x = trapEntry v (pcNow w) (activeThreads w) cause (maskOf mask) info false (codeBase s w + h) := ⟨_, rfl⟩
  have hxu : sfind (modUnit q s.turn fun x => trapEntry x (pcNow w) (activeThreads w) cause (maskOf mask) info false
      (codeBase q x + h)).units cx.u = some x := by
    rw [hcu, sfind_modUnit, if_pos rfl, hqu, hx, ← hcb]; rfl
  have hent0 := trapEntry_entered v (pcNow w) (activeThreads w) mask cause info (codeBase s w + h) hc hinf
  rw [← hx] at hent0
  have hxc : Calm x := by
    have hcl := regsOnly_calm (regsOnly_closeWin v (activeThreads w))
      ⟨hvr, (hvb _ Warp.heldPre fun _ => rfl).trans hC.2.1,
        by rw [hvb _ Warp.waits fun _ => rfl]; exact hC.2.2⟩
    rw [hx]
    unfold trapEntry
    rw [setPcs_eq]
    have hset : ∀ (a : Warp) (n m : Nat) (p r : DWord) (z : QWord) (k : Nat), Calm a → Calm (setM (setS (setS a n p) m r) k z) :=
      fun a n m p r z k ha => regsOnly_calm (regsOnly_trans (regsOnly_setS _ _ _) (regsOnly_trans (regsOnly_setS _ _ _) (regsOnly_setM _ _ _))) ha
    exact hset _ 61 62 _ _ _ 15 hcl
  have hxs : allOnStub x = false := by
    obtain ⟨t, ht⟩ := List.exists_mem_of_ne_nil _ hT.2
    have hr : t ∈ readyThreads w := (List.mem_filter.mp ht).1
    have h2 := (List.mem_filter.mp hr).2
    simp only [isReady, Bool.and_eq_true, beq_iff_eq] at h2
    obtain ⟨_, _, _, _, _, _, _, _, g9, _, _, _, g13, _, g15⟩ := hent0
    have gl : x.live = w.live := g15.trans (hvb _ Warp.live fun _ => rfl)
    have gm : x.marks = w.marks := g13.trans (hvb _ Warp.marks fun _ => rfl)
    refine allOnStub_of_ready (t := t) (List.mem_filter.mpr ⟨?_, ?_⟩)
    · show t ∈ threadsOf x.live
      rw [gl]; exact (List.mem_filter.mp hr).1
    · have hl : isLive x t = true := by unfold isLive; rw [gl]; exact h2.1.1
      have hm : getMark x t = .ready := by unfold getMark; rw [gm]; exact h2.1.2
      simp [isReady, hl, hm, g9 t (activeThreads_lt ht), ht]
  obtain ⟨e1, e2, e3, e4⟩ := endIssue_kept w cx (issueClk (onOffset w) un cx.act) hxu hxc hxs
  rw [hcu] at e1 e2 e3
  refine ⟨?_, ?_, ?_⟩
  · have hl := e4.1
    refine ⟨?_, ?_, ?_⟩
    · have := congrArg State.mem hl; exact this.trans (by rw [hq]; rfl)
    · have := congrArg State.tags hl; exact this.trans (by rw [hq]; rfl)
    · have := congrArg State.memPoison hl; exact this.trans (by rw [hq]; rfl)
  · intro u hu'
    rw [e3 u hu', unitOf_modUnit_ne _ hu', hq, unitOf_modUnit_ne _ hu', hcx, beginIssue_other s len hu']
  · have hE := entered_kept hent0 e1 e2
    obtain ⟨h1, h2, h3, h4, h5, h6, h7, h8, h9, h10, h11, h12, h13, h14, h15⟩ := hE
    have hgs : ∀ n, getS v n = getS w n := fun n => by unfold getS; rw [hfv.1]
    have hgm : ∀ n, getM v n = getM w n := fun n => by unfold getM; rw [hfv.2.2.1]
    refine ⟨h1, h2, h3, h4.trans (hgs _), h5.trans (hgs _), h6.trans (hgm _), h7, h8, h9, ?_, fun n a b => (h11 n a b).trans (hgs _),
      fun n a => (h12 n a).trans (hgm _), h13.trans (hvb _ Warp.marks fun _ => rfl), h14.trans (hvb _ Warp.ras fun _ => rfl),
      h15.trans (hvb _ Warp.live fun _ => rfl)⟩
    intro k
    rw [h10 k]
    split
    · rfl
    · rename_i hk
      rw [hv, getPc_setPcs, if_neg hk, atIssue, getPc_setPcs, if_neg hk]
      exact regsOnly_field (regsOnly_settleDue w (activeThreads w)) fun v => getPc v k

end Sys2Proof.Laws
end

