-- ==== Sys2Proof/Tests/Slice0.lean ====
section
/-! SUPPORT. Tests: an ill-formed term for each check of WellFormed, words of the spec and their instructions, for every statement a
state and operands that meet its hypotheses together (`test_hyps_…`), and single steps whose outcome the spec's rules give. -/

set_option Elab.async false

open Sys2Proof Sys2Proof.Machine

namespace Sys2Proof.Tests

/-! ### WellFormed: an ill-formed term for each check -/

/-- One term for each check of `Instr.wf`, which breaks this check alone. -/
def illFormed : List Instr :=
  [.compactIadd (.v 32) (.v 1), .compactIadd (.v 1) (.v 16), .compactMovi (.v 32) 1, .iadd .tid (.v 1) (.reg (.v 2)),
    .imadw (.v 3) (.v 1) (.reg (.v 2)), .icmpEq 1 (.q 0) (.reg (.v 1)), .icmpEq 1 (.v 1) (.reg (.q 0)), .capadd 8 1 (.lit 0),
    .capadd 1 1 (.reg (.q 0)), .capget (.q 1) 1 (.lit 0), .capget .tid 1 (.lit 0), .capget (.v 1) 1 (.reg (.q 0)), .capmov 9 1,
    .caplen (.q 0) 1, .movs .tid (.s 4), .ureadf 4 (.q 0), .fcmpIsnan 1 (.q 0), .shfl (.v 1) (.q 0) (.lit 1), .shfl (.v 1) (.v 2) (.reg (.q 0)),
    .vote .any (.v 1) (.q 0), .bra none (.lit 3), .brv (.q 0) (.off 8), .brv (.v 1) (.lit 3), .bru (.s 4) (.lit 1), .call none (.lit 1),
    .calli .z none, .bri (.q 0) none, .rgnent .tid, .rdctl (.v 1) 0x003, .rdctl .tid 0x020, .wrctl 0x000 (.reg (.v 1)), .wrctl 0x020 (.reg (.q 1)),
    .rdcyc (.v 3), .wtarm (.reg (.q 0)), .ld 0 .word 1 (.q 0) (.v 1) none, .ld 0 .dword 1 .z (.v 1) none, .ld 0 .word 1 .z (.y 0) none,
    .ldx 0 .word 1 .z (.v 1) none, .ldq 0 1 .z (.v 2) none, .ldq 0 1 (.q 0) (.v 4) none, .st .half 1 .z (.q 0) none, .st .dword 1 .z (.v 1) none,
    .cld 8 1 .z none, .cst 1 1 (.q 0) none, .atom 0 .byte 1 .z (.v 1) 0 .add .device, .atom 0 .dword 1 .z (.v 2) 0 .fadd .device,
    .atom 0 .word 1 .z (.v 1) 0 .cas .device, .atom 0 .word 1 .z (.y 0) 0 .add .device, .atoms 0 .word 1 .z (.v 1) 0 .add .device,
    .pref true .half 1 .z none, .qpeek (.q 0) 1, .rqry .tid (some 1), .tld 0 true 1 0 0 0, .cpy 0 5 1, .cpyg 0 8 8]

theorem test_ill_formed_refused : illFormed.all (fun i => !i.wf) = true := by decide +kernel

/-! ### Decoding -/

/-- The word of so many bytes decodes to the instruction, and to all of it. -/
def reads (x : Nat × Nat × Instr) : Bool := decide (decode (natLE x.1 x.2.1) = .ok (x.2.2, x.1))

/-- The words that spec/05 to spec/09 write out, part 1. -/
def examples1 : List (Nat × Nat × Instr) :=
  [(8, 0x7FFFFFF0A0020407, .iaddsI (.v 4) (.v 4) (.lit 0x7FFFFFF0)),
   (4, 0xA0C10609, .idivN (.v 6) (.v 2) (.reg (.v 3))),
   (8, 0x00000004C002870F, .sar (.v 7) (.v 5) (.lit 4)),
   (8, 0x00000C0460010813, .bfxI (.v 8) (.v 2) (.lit 0xC04)),
   (4, 0x60808915, .lea (.v 9) (.v 1) (.reg (.v 2))),
   (4, 0x4080C219, .icmpLtI 2 (.v 1) (.reg (.v 2))),
   (4, 0x00808531, .ucmpEq (.s 5) (.s 1) (.reg (.s 2))),
   (8, 0x0000000100020423, .uarithIadd (.s 4) (.s 4) (.lit 1)),
   (4, 0x40208635, .mpop 6 1),
   (4, 0x00048235, .movs (.v 2) (.s 9)),
   (4, 0xE0004335, .mact3),
   (4, 0x00C4021D, .capadd 2 8 (.reg (.v 3))),
   (4, 0x61418741, .ffma (.v 7) (.v 3) (.reg (.v 5))),
   (8, 0xFFFFFFFDC0010243, .fscale (.v 2) (.v 2) (.lit 0xFFFFFFFD)),
   (4, 0x4080C245, .fcmpLt 2 (.v 1) (.reg (.v 2))),
   (4, 0xC1C30849, .fdiv (.v 8) (.v 6) (.reg (.v 7))),
   (4, 0x40048349, .fsqrt (.v 3) (.v 9)),
   (4, 0x63058A4D, .hfma2 (.v 10) (.v 11) (.reg (.v 12))),
   (4, 0xC080E04D, .dot2 (.o 0) (.v 1) (.reg (.v 2))),
   (4, 0xC1421451, .bdot2 (.v 20) (.v 4) (.reg (.v 5))),
   (8, 0x0000003000010357, .cvt (.v 3) (.v 2) (.lit 0x30)),
   (8, 0x0000081020008657, .cvpack (.v 6) (.v 1) (.lit 0x810)),
   (8, 0x0000021060020557, .cvi (.v 5) (.v 4) (.lit 0x210)),
   (8, 0x000007D060000003, .sleep (.lit 2000)),
   (4, 0x00000001, .nop),
   (4, 0x20000001, .yield),
   (4, 0x40000001, .waitla),
   (4, 0x62400001, .sleep (.reg 9)),
   (8, 0x0000002A80000003, .trap (some 0x2A)),
   (4, 0xA0000001, .tret)]

theorem test_examples1 : examples1.all reads = true := by decide +kernel

/-- The words that spec/05 to spec/09 write out, part 2. -/
def examples2 : List (Nat × Nat × Instr) :=
  [(4, 0xA0400001, .tretSkip),
   (4, 0xC0000001, .xdone),
   (4, 0xE0000001, .edone),
   (4, 0x00084161, .bra (some 1) (.off 16)),
   (4, 0x00040965, .brv (.v 9) (.off 8)),
   (4, 0xFFF00369, .bru (.s 3) (.off 0x1FFE0)),
   (4, 0x0040586D, .call none (.off 128)),
   (4, 0x00020071, .calli (.v 4) none),
   (4, 0x20000071, .ret),
   (4, 0x40208071, .join 1),
   (4, 0x60208071, .mdrop1),
   (4, 0x80000071, .exit),
   (4, 0xA0210571, .elect 5 (some 2)),
   (4, 0xC0038071, .bri (.v 7) none),
   (8, 0x0000000920100077, .wrctl 0x020 (.lit 9)),
   (4, 0x00000275, .rgnent (.v 2)),
   (4, 0x08018075, .monument 3),
   (4, 0x10008075, .tmaskOn),
   (4, 0x18100375, .rdctl (.v 3) 0x020),
   (4, 0x20100375, .wrctl 0x020 (.reg (.v 3))),
   (4, 0x28000475, .rdcyc (.v 4)),
   (4, 0x28008475, .rdcycTime (.v 4)),
   (4, 0x30000675, .rdwt (.v 6)),
   (8, 0x000186A038000077, .wtarm (.lit 100000)),
   (4, 0x20000079, .barCore),
   (4, 0x60000079, .barCluster),
   (4, 0x80400479, .bararr 4 .core),
   (4, 0xA0420079, .barwait .core 4),
   (4, 0xC0C00779, .barqry 7 .cluster),
   (8, 0x0000000624808587, .ldx 2 .half 2 (.v 1) (.v 5) (some 6))]

theorem test_examples2 : examples2.all reads = true := by decide +kernel

/-- The words that spec/05 to spec/09 write out, part 3. -/
def examples3 : List (Nat × Nat × Instr) :=
  [(4, 0x00410889, .ldq 0 1 (.v 2) (.v 8) none),
   (8, 0x0000004000F50893, .stq 3 .z (.v 8) (some 0x40)),
   (4, 0x01030299, .cst 2 4 (.v 6) none),
   (4, 0x02350095, .cld 0 8 .z none),
   (8, 0x000000060880849F, .lda 0 .word 2 (.v 1) (.v 4) 0 .device),
   (8, 0x00000005088084A3, .stl .word 2 (.v 1) (.v 4) 0 .cluster),
   (8, 0x00000826088087A7, .atom 0 .word 2 (.v 1) (.v 7) 8 .add .device),
   (8, 0x00001013080184AB, .atoms 0 .word 0 (.v 3) (.v 4) 16 .cas .core),
   (4, 0x001B00AD, .fence .sc .device),
   (4, 0x002400AD, .fence .un .pool),
   (4, 0x000180AD, .fence .acq .core),
   (8, 0x00000010180182B3, .lds 1 .word (.v 3) (.v 2) (some 16)),
   (4, 0x080182B5, .sts .word (.v 3) (.v 2) none),
   (4, 0x048080B9, .pref false .half 2 (.v 1) none),
   (4, 0x004270C1, .qbind 0 4 .send),
   (4, 0x200070C1, .qunbind0),
   (8, 0x00000004400070C3, .qfree 0 (.lit 4)),
   (4, 0x603803C1, .qpeek (.v 3) 0),
   (8, 0x00000010800171C3, .qremote 1 2 (.lit 16)),
   (8, 0x00001000A00280C3, .dwinit 5 (.lit 4096)),
   (8, 0x00000003C00280C3, .dwwait 5 (.lit 3)),
   (8, 0x00000600E00280C3, .dwadd 5 (.lit 1536)),
   (4, 0x400014C5, .rpin (some 20)),
   (4, 0x000000C5, .rtag),
   (4, 0x200014C5, .rdrop (some 20)),
   (4, 0x20006AC5, .rdrop none),
   (4, 0x600014C5, .runpin (some 20)),
   (4, 0x800A02C5, .rqry (.v 2) (some 20)),
   (4, 0xA00014C5, .rclr (some 20)),
   (8, 0x00002FC1002C02D3, .tcfg 2 (.lit 0x2FC1))]

theorem test_examples3 : examples3.all reads = true := by decide +kernel

/-- The words that spec/05 to spec/09 write out, part 4. -/
def examples4 : List (Nat × Nat × Instr) :=
  [(8, 0x004000400000A1DB, .tldt 0 false 10 1 8 64),
   (8, 0x00200000000053DF, .tst 0 false 5 3 4 0),
   (4, 0x010008E1, .tzeroAcc 0 8),
   (4, 0x000003E1, .tzeroTile 0 3),
   (4, 0x201108E5, .mma 2 0 true 1 0 8),
   (4, 0x003298E9, .scacc 0 1 true 2 9 8),
   (8, 0x0080010001001AEF, .acld 0 0 false 1 10 16 256),
   (4, 0x013190F1, .cpyout 0 16 3),
   (4, 0x022994F1, .cpyr 0 20 11),
   (4, 0x037118F1, .cpygTile 0 24 2),
   (4, 0x000008F5, .bseal 8),
   (4, 0x010400F5, .bwait (.reg 8)),
   (8, 0x00000003012C00F7, .bwait (.lit 3)),
   (4, 0x020409F5, .btest 9 (.reg 8)),
   (8, 0x00000003002A0AFB, .chapp 10 12 3),
   (4, 0x012A00F9, .chtail 0 12),
   (4, 0x022A0AF9, .chwait 12 (.reg 10)),
   (4, 0x032A0BF9, .chseq 11 12),
   (4, 0x000355FD, .kvwin 13 6),
   (4, 0x010300FD, .kvcommit 6),
   (4, 0x020300FD, .kvabort 6),
   (4, 0x030307FD, .kvlen 7 6),
   (8, 0x00000004042B0CFF, .smpl 12 14 4)]

theorem test_examples4 : examples4.all reads = true := by decide +kernel

/-- A word of each row of the opcode table, by its match bits and field places, part 1. -/
def rowWords1 : List (Nat × Nat × Instr) :=
  [(2, 0x8880, .compactIadd (.v 4) (.o 1)),
   (2, 0x90A2, .compactIsub (.v 5) (.o 2)),
   (2, 0x98C4, .compactAnd (.v 6) (.o 3)),
   (2, 0xA0E6, .compactOr (.v 7) (.o 4)),
   (2, 0xA908, .compactXor (.v 8) (.o 5)),
   (2, 0xB12A, .compactShl (.v 9) (.o 6)),
   (2, 0xB94C, .compactShr (.v 10) (.o 7)),
   (2, 0x816E, .compactMov (.v 11) (.o 0)),
   (2, 0x8990, .compactFadd (.v 12) (.o 1)),
   (2, 0x91B2, .compactFfma (.v 13) (.o 2)),
   (2, 0x99D4, .compactFmul (.v 14) (.o 3)),
   (2, 0xA1F6, .compactFmax (.v 15) (.o 4)),
   (2, 0xAA18, .compactFmin (.v 16) (.o 5)),
   (2, 0xB23A, .compactImul (.v 17) (.o 6)),
   (2, 0xBA5C, .compactHadd2 (.v 18) (.o 7)),
   (2, 0x827E, .compactMovi (.v 19) 16),
   (4, 0x184B0C05, .iadd (.v 12) (.v 22) (.reg (.o 1))),
   (8, 0x80000012200B9007, .isub (.v 16) (.v 23) (.lit 2147483666)),
   (4, 0x58CC1405, .imul (.v 20) (.v 24) (.reg (.o 3))),
   (4, 0x674C9805, .imulhI (.v 24) (.v 25) (.reg (.v 29))),
   (8, 0x80000015800D1C07, .imulhN (.v 28) (.v 26) (.lit 2147483669)),
   (4, 0xA7CDA005, .iaddsI (.v 32) (.v 27) (.reg (.v 31))),
   (4, 0xD9CE2405, .iaddsN (.v 36) (.v 28) (.reg (.o 7))),
   (8, 0x80000018E00EA807, .iabsd (.v 40) (.v 29) (.lit 2147483672)),
   (4, 0x184F2C09, .iminI (.v 44) (.v 30) (.reg (.o 1))),
   (4, 0x28CFB009, .iminN (.v 48) (.v 31) (.reg (.v 35))),
   (8, 0x8000001B4010340B, .imaxI (.v 52) (.v 32) (.lit 2147483675)),
   (4, 0x6950B809, .imaxN (.v 56) (.v 33) (.reg (.v 37))),
   (4, 0x99513C09, .idivI (.v 60) (.v 34) (.reg (.o 5))),
   (8, 0x8000001EA011C00B, .idivN (.v 64) (.v 35) (.lit 2147483678))]

theorem test_rowWords1 : rowWords1.all reads = true := by decide +kernel

/-- A word of each row of the opcode table, by its match bits and field places, part 2. -/
def rowWords2 : List (Nat × Nat × Instr) :=
  [(4, 0xD9D24409, .iremI (.v 68) (.v 36) (.reg (.o 7))),
   (4, 0xEA528809, .iremN (.v 8) (.v 37) (.reg (.v 41))),
   (8, 0x8000002100130C0F, .and (.v 12) (.v 38) (.lit 2147483681)),
   (4, 0x2AD3900D, .or (.v 16) (.v 39) (.reg (.v 43))),
   (4, 0x58D4140D, .xor (.v 20) (.v 40) (.reg (.o 3))),
   (8, 0x800000246014980F, .andn (.v 24) (.v 41) (.lit 2147483684)),
   (4, 0x99551C0D, .shl (.v 28) (.v 42) (.reg (.o 5))),
   (4, 0xABD5A00D, .shr (.v 32) (.v 43) (.reg (.v 47))),
   (8, 0x80000027C016240F, .sar (.v 36) (.v 44) (.lit 2147483687)),
   (4, 0xEC56A80D, .rol (.v 40) (.v 45) (.reg (.v 49))),
   (4, 0x00172C11, .popc (.v 44) (.v 46)),
   (4, 0x2017B011, .clz (.v 48) (.v 47)),
   (4, 0x40183411, .brev (.v 52) (.v 48)),
   (4, 0x6D58B811, .bfxI (.v 56) (.v 49) (.reg (.v 53))),
   (8, 0x8000002D80193C13, .bfxN (.v 60) (.v 50) (.lit 2147483693)),
   (4, 0xADD9C011, .bfi (.v 64) (.v 51) (.reg (.v 55))),
   (4, 0xD9DA4411, .permb (.v 68) (.v 52) (.reg (.o 7))),
   (8, 0x80000030E0350813, .mov (.v 8) (.lit 2147483696)),
   (4, 0x185B0C15, .imad (.v 12) (.v 54) (.reg (.o 1))),
   (4, 0x2EDB9015, .imadw (.v 16) (.v 55) (.reg (.v 59))),
   (8, 0x80000033401C1417, .isel (.v 20) (.v 56) (.lit 2147483699)),
   (4, 0x6F5C9815, .lea (.v 24) (.v 57) (.reg (.v 61))),
   (4, 0x195D4519, .icmpEq 5 (.v 58) (.reg (.o 5))),
   (8, 0x80000036201DC61B, .icmpNe 6 (.v 59) (.lit 2147483702)),
   (4, 0x59DE4719, .icmpLtI 7 (.v 60) (.reg (.o 7))),
   (4, 0x705EC819, .icmpLeI 8 (.v 61) (.reg (.v 65))),
   (8, 0x80000039801F491B, .icmpLtN 9 (.v 62) (.lit 2147483705)),
   (4, 0xB0DFCA19, .icmpLeN 10 (.v 63) (.reg (.v 67))),
   (4, 0xD8E04B19, .icmpTest 11 (.v 64) (.reg (.o 3))),
   (8, 0x8000003CE020CC1B, .icmpNtest 12 (.v 65) (.lit 2147483708))]

theorem test_rowWords2 : rowWords2.all reads = true := by decide +kernel

/-- A word of each row of the opcode table, by its match bits and field places, part 3. -/
def rowWords3 : List (Nat × Nat × Instr) :=
  [(4, 0x1946851D, .capadd 5 13 (.reg (.o 5))),
   (4, 0x31C7061D, .capset 6 14 (.reg (.v 71))),
   (8, 0x8000003F4007871F, .capnar 7 15 (.lit 2147483711)),
   (4, 0x7244001D, .caprm 0 8 (.reg (.v 73))),
   (4, 0x98448C1D, .capget (.v 12) 9 (.reg (.o 1))),
   (8, 0x80000042A005101F, .capchk (.v 16) 10 (.lit 2147483714)),
   (4, 0xC005831D, .capmov 3 11),
   (4, 0xE006181D, .caplen (.v 24) 12),
   (8, 0x8000004500040523, .uarithIadd (.s 5) (.s 8) (.lit 2147483717)),
   (4, 0x2184D821, .uarithIsub (.z) (.s 9) (.reg (.s 6))),
   (4, 0x41C50721, .uarithImul (.s 7) (.s 10) (.reg (.s 7))),
   (8, 0x8000004860058823, .uarithImulhI (.s 8) (.s 11) (.lit 2147483720)),
   (4, 0x82460921, .uarithImulhN (.s 9) (.s 12) (.reg (.s 9))),
   (4, 0xA2868A21, .uarithIaddsI (.s 10) (.s 13) (.reg (.s 10))),
   (8, 0x8000004BC0075823, .uarithIaddsN (.z) (.s 14) (.lit 2147483723)),
   (4, 0xE3078C21, .uarithIabsd (.s 12) (.s 15) (.reg (.s 12))),
   (4, 0x03480D25, .uminmaxIminI (.s 13) (.s 16) (.reg (.s 13))),
   (8, 0x8000004E20088E27, .uminmaxIminN (.s 14) (.s 17) (.lit 2147483726)),
   (4, 0x43C90F25, .uminmaxImaxI (.s 15) (.s 18) (.reg (.s 15))),
   (4, 0x6409D825, .uminmaxImaxN (.z) (.s 19) (.reg (.s 16))),
   (8, 0x80000051800A1127, .uminmaxIdivI (.s 17) (.s 20) (.lit 2147483729)),
   (4, 0xA48A9225, .uminmaxIdivN (.s 18) (.s 21) (.reg (.s 18))),
   (4, 0xC4CB1325, .uminmaxIremI (.s 19) (.s 22) (.reg (.s 19))),
   (8, 0x80000054E00B9427, .uminmaxIremN (.s 20) (.s 23) (.lit 2147483732)),
   (4, 0x054C5829, .ulogicAnd (.z) (.s 24) (.reg (.s 21))),
   (4, 0x258C9629, .ulogicOr (.s 22) (.s 25) (.reg (.s 22))),
   (8, 0x80000057400D172B, .ulogicXor (.s 23) (.s 26) (.lit 2147483735)),
   (4, 0x660D9829, .ulogicAndn (.s 24) (.s 27) (.reg (.s 24))),
   (4, 0x864E1929, .ulogicShl (.s 25) (.s 28) (.reg (.s 25))),
   (8, 0x8000005AA00ED82B, .ulogicShr (.z) (.s 29) (.lit 2147483738))]

theorem test_rowWords3 : rowWords3.all reads = true := by decide +kernel

/-- A word of each row of the opcode table, by its match bits and field places, part 4. -/
def rowWords4 : List (Nat × Nat × Instr) :=
  [(4, 0xC6CF1B29, .ulogicSar (.s 27) (.s 30) (.reg (.s 27))),
   (4, 0xE70F9C29, .ulogicRol (.s 28) (.s 31) (.reg (.s 28))),
   (4, 0x00101D2D, .ubitsPopc (.s 29) (.s 32)),
   (4, 0x20109E2D, .ubitsClz (.s 30) (.s 33)),
   (4, 0x4011582D, .ubitsBrev (.z) (.s 34)),
   (8, 0x800000606011A02F, .ubitsBfxI (.s 32) (.s 35) (.lit 2147483744)),
   (4, 0x8852212D, .ubitsBfxN (.s 33) (.s 36) (.reg (.s 33))),
   (4, 0xA892A22D, .ubitsBfi (.s 34) (.s 37) (.reg (.s 34))),
   (8, 0x80000063C013232F, .ubitsPermb (.s 35) (.s 38) (.lit 2147483747)),
   (4, 0xE92C582D, .ubitsMov (.z) (.reg (.s 36))),
   (4, 0x09542531, .ucmpEq (.s 37) (.s 40) (.reg (.s 37))),
   (8, 0x800000662014A633, .ucmpNe (.s 38) (.s 41) (.lit 2147483750)),
   (4, 0x49D52731, .ucmpLtI (.s 39) (.s 42) (.reg (.s 39))),
   (4, 0x6A15A831, .ucmpLeI (.s 40) (.s 43) (.reg (.s 40))),
   (8, 0x8000006980165833, .ucmpLtN (.z) (.s 44) (.lit 2147483753)),
   (4, 0xAA96AA31, .ucmpLeN (.s 42) (.s 45) (.reg (.s 42))),
   (4, 0xCAD72B31, .ucmpTest (.s 43) (.s 46) (.reg (.s 43))),
   (8, 0x8000006CE017AC33, .ucmpNtest (.s 44) (.s 47) (.lit 2147483756)),
   (4, 0x00183C35, .movs (.v 60) (.s 48)),
   (4, 0x2009AE35, .ureadf 46 (.v 19)),
   (4, 0x4027AF35, .mpop 47 15),
   (4, 0x6C203035, .mfind 48 0 (.reg (.s 48))),
   (4, 0x9060C135, .mand 1 1 1),
   (4, 0xB0A14235, .mor 2 2 2),
   (4, 0xD0E1C335, .mxor 3 3 3),
   (4, 0x074C9841, .fadd (.v 24) (.v 25) (.reg (.v 29))),
   (8, 0x80000075200D1C43, .fsub (.v 28) (.v 26) (.lit 2147483765)),
   (4, 0x47CDA041, .fmul (.v 32) (.v 27) (.reg (.v 31))),
   (4, 0x79CE2441, .ffma (.v 36) (.v 28) (.reg (.o 7))),
   (8, 0x80000078800EA843, .fmin (.v 40) (.v 29) (.lit 2147483768))]

theorem test_rowWords4 : rowWords4.all reads = true := by decide +kernel

/-- A word of each row of the opcode table, by its match bits and field places, part 5. -/
def rowWords5 : List (Nat × Nat × Instr) :=
  [(4, 0xB84F2C41, .fmax (.v 44) (.v 30) (.reg (.o 1))),
   (4, 0xC8CFB041, .fscale (.v 48) (.v 31) (.reg (.v 35))),
   (8, 0x8000007BE0103443, .fcopys (.v 52) (.v 32) (.lit 2147483771)),
   (4, 0x0950CC45, .fcmpEq 12 (.v 33) (.reg (.v 37))),
   (4, 0x39514D45, .fcmpNe 13 (.v 34) (.reg (.o 5))),
   (8, 0x8000007E4011CE47, .fcmpLt 14 (.v 35) (.lit 2147483774)),
   (4, 0x79D24F45, .fcmpLe 15 (.v 36) (.reg (.o 7))),
   (4, 0x8A52C045, .fcmpUnord 0 (.v 37) (.reg (.v 41))),
   (8, 0x80000081A0134147, .fcmpOrd 1 (.v 38) (.lit 2147483777)),
   (4, 0xC013C245, .fcmpIsnan 2 (.v 39)),
   (4, 0xE0144345, .fcmpIsinf 3 (.v 40)),
   (4, 0x00149849, .frcp (.v 24) (.v 41)),
   (4, 0x20151C49, .frsq (.v 28) (.v 42)),
   (4, 0x4015A049, .fsqrt (.v 32) (.v 43)),
   (4, 0x60162449, .fexp2 (.v 36) (.v 44)),
   (4, 0x8016A849, .flog2 (.v 40) (.v 45)),
   (4, 0xA0172C49, .ftanh (.v 44) (.v 46)),
   (8, 0x8000008AC017B04B, .fdiv (.v 48) (.v 47) (.lit 2147483786)),
   (4, 0xE0183449, .frint (.v 52) (.v 48)),
   (4, 0x0D58B84D, .hadd2 (.v 56) (.v 49) (.reg (.v 53))),
   (8, 0x8000008D20193C4F, .hsub2 (.v 60) (.v 50) (.lit 2147483789)),
   (4, 0x4DD9C04D, .hmul2 (.v 64) (.v 51) (.reg (.v 55))),
   (4, 0x79DA444D, .hfma2 (.v 68) (.v 52) (.reg (.o 7))),
   (8, 0x80000090801A884F, .hmin2 (.v 8) (.v 53) (.lit 2147483792)),
   (4, 0xB85B0C4D, .hmax2 (.v 12) (.v 54) (.reg (.o 1))),
   (4, 0xCEDB904D, .dot2 (.v 16) (.v 55) (.reg (.v 59))),
   (8, 0x80000093001C1453, .badd2 (.v 20) (.v 56) (.lit 2147483795)),
   (4, 0x2F5C9851, .bsub2 (.v 24) (.v 57) (.reg (.v 61))),
   (4, 0x595D1C51, .bmul2 (.v 28) (.v 58) (.reg (.o 5))),
   (8, 0x80000096601DA053, .bfma2 (.v 32) (.v 59) (.lit 2147483798))]

theorem test_rowWords5 : rowWords5.all reads = true := by decide +kernel

/-- A word of each row of the opcode table, by its match bits and field places, part 6. -/
def rowWords6 : List (Nat × Nat × Instr) :=
  [(4, 0x99DE2451, .bmin2 (.v 36) (.v 60) (.reg (.o 7))),
   (4, 0xB05EA851, .bmax2 (.v 40) (.v 61) (.reg (.v 65))),
   (8, 0x80000099C01F2C53, .bdot2 (.v 44) (.v 62) (.lit 2147483801)),
   (4, 0x10DFB055, .cvt (.v 48) (.v 63) (.reg (.v 67))),
   (4, 0x38E03455, .cvpack (.v 52) (.v 64) (.reg (.o 3))),
   (8, 0x8000009C4020B857, .cvunpk (.v 56) (.v 65) (.lit 2147483804)),
   (4, 0x79613C55, .cvi (.v 60) (.v 66) (.reg (.o 5))),
   (4, 0x91E1C055, .cvsat (.v 64) (.v 67) (.reg (.v 71))),
   (8, 0x8000009F0022445B, .shfl (.v 68) (.v 68) (.lit 2147483807)),
   (4, 0x32628859, .shflx (.v 8) (.v 69) (.reg (.v 73))),
   (4, 0x40A30C59, .wredf .min (.v 12) (.v 70)),
   (4, 0x60A39059, .wredi .maxI (.v 16) (.v 71)),
   (4, 0x82641459, .wscanf .max true (.v 20) (.v 72)),
   (4, 0xA3249859, .wscani .maxN true (.v 24) (.v 73)),
   (4, 0xC0651C59, .vote .any (.v 28) (.v 74)),
   (4, 0xE065A059, .matchT .count (.v 32) (.v 75)),
   (4, 0x69C00001, .sleep (.reg 39)),
   (8, 0x000000D280000003, .trap (some 210)),
   (4, 0x00FDC961, .bra (some 9) (.off 507)),
   (8, 0xFFFFFF2800004F67, .brv (.v 79) (.lit 4294967080)),
   (4, 0x0100AE69, .bru (.s 46) (.off 513)),
   (8, 0xFFFFFF2C00004C6F, .call (some 12) (.lit 4294967084)),
   (8, 0x000005A800290073, .calli (.v 82) (some 1448)),
   (4, 0x40270071, .join 14),
   (4, 0xA027AF71, .elect 47 (some 15)),
   (4, 0xC02A8071, .bri (.v 85) none),
   (4, 0x00000C75, .rgnent (.v 12)),
   (4, 0x08590075, .monument 178),
   (4, 0x181C1475, .rdctl (.v 20) 56),
   (8, 0x800000B4201C0077, .wrctl 56 (.lit 2147483828))]

theorem test_rowWords6 : rowWords6.all reads = true := by decide +kernel

/-- A word of each row of the opcode table, by its match bits and field places, part 7. -/
def rowWords7 : List (Nat × Nat × Instr) :=
  [(4, 0x28001C75, .rdcyc (.v 28)),
   (4, 0x2800A075, .rdcycTime (.v 32)),
   (4, 0x30002475, .rdwt (.v 36)),
   (4, 0x38000175, .wtarm (.reg (.v 1))),
   (4, 0x80403979, .bararr 57 .core),
   (4, 0xA09D0079, .barwait .slice 58),
   (4, 0xC0C03B79, .barqry 59 .cluster),
   (4, 0xCB00B881, .ld 12 .word 12 (.v 1) (.v 56) none),
   (8, 0x00000628D7413C87, .ldx 13 .half 13 (.v 2) (.v 60) (some 1576)),
   (4, 0xE381C089, .ldq 14 14 (.v 3) (.v 64) none),
   (8, 0x000006380BC2448F, .st .word 15 (.v 4) (.v 68) (some 1592)),
   (4, 0x02028891, .stq 8 (.v 5) (.v 8) none),
   (8, 0x0000064802430197, .cld 1 9 (.v 6) (some 1608)),
   (4, 0x02838299, .cst 2 10 (.v 7) none),
   (4, 0x001880AD, .fence .sc .warp),
   (4, 0x8806A8B1, .lds 8 .word (.v 13) (.v 40) none),
   (8, 0x0000068800072CB7, .sts .byte (.v 14) (.v 44) (some 1672)),
   (4, 0x0A8780B9, .pref false .word 10 (.v 15) none),
   (4, 0x0085F3C1, .qbind 3 11 .rng),
   (8, 0x000010CC400074C3, .qfree 4 (.lit 4300)),
   (4, 0x603ABCC1, .qpeek (.v 60) 5),
   (8, 0x000010CE800776C3, .qremote 6 14 (.lit 4302)),
   (4, 0xA3C780C1, .dwinit 15 (.reg 15)),
   (8, 0x000010D0C00800C3, .dwwait 16 (.lit 4304)),
   (4, 0xE44880C1, .dwadd 17 (.reg 17)),
   (4, 0x200012C5, .rdrop (some 18)),
   (4, 0x400013C5, .rpin (some 19)),
   (4, 0x600014C5, .runpin (some 20)),
   (4, 0x800A9CC5, .rqry (.v 28) (some 21)),
   (4, 0xA00016C5, .rclr (some 22))]

theorem test_rowWords7 : rowWords7.all reads = true := by decide +kernel

/-- A word of each row of the opcode table, by its match bits and field places, part 8. -/
def rowWords8 : List (Nat × Nat × Instr) :=
  [(4, 0x05EC07D1, .tcfg 7 (.reg 23)),
   (4, 0xB00003E1, .tzeroTile 11 3),
   (4, 0xC10009E1, .tzeroAcc 12 9),
   (4, 0xD51659E5, .mma 13 5 true 6 5 9),
   (4, 0xE0D789E9, .scacc 14 6 true 7 8 9),
   (4, 0x103080F1, .cpy 1 0 1),
   (4, 0x206904F1, .cpyTile 2 4 10),
   (4, 0x313188F1, .cpyout 3 8 3),
   (4, 0x416A0CF1, .cpyoutTile 4 12 12),
   (4, 0x523290F1, .cpyr 5 16 5),
   (4, 0x626B14F1, .cpyrQ 6 20 14),
   (4, 0x733398F1, .cpyg 7 24 7),
   (4, 0x83701CF1, .cpygTile 8 28 0),
   (4, 0x000029F5, .bseal 41),
   (8, 0x000010EA012C00F7, .bwait (.lit 4330)),
   (4, 0x0215ABF5, .btest 43 (.reg 43)),
   (4, 0xD13280F9, .chtail 13 5),
   (8, 0x000010EE022B58FB, .chwait 14 (.lit 4334)),
   (4, 0x0333AFF9, .chseq 47 7),
   (4, 0x001850FD, .kvwin 8 48),
   (4, 0x011880FD, .kvcommit 49),
   (4, 0x021900FD, .kvabort 50),
   (4, 0x0319B3FD, .kvlen 51 51),
   (4, 0xE0004035, .mact0),
   (4, 0xE0004135, .mact1),
   (4, 0xE0004235, .mact2),
   (4, 0xE0004335, .mact3),
   (4, 0xE0004435, .mact4),
   (4, 0xE0004535, .mact5),
   (4, 0xE0004635, .mact6)]

theorem test_rowWords8 : rowWords8.all reads = true := by decide +kernel

/-- A word of each row of the opcode table, by its match bits and field places, part 9. -/
def rowWords9 : List (Nat × Nat × Instr) :=
  [(4, 0xE0004735, .mact7),
   (4, 0xE0004835, .mact8),
   (4, 0xE0004935, .mact9),
   (4, 0xE0004A35, .mact10),
   (4, 0xE0004B35, .mact11),
   (4, 0xE0004C35, .mact12),
   (4, 0xE0004D35, .mact13),
   (4, 0xE0004E35, .mact14),
   (4, 0xE0004F35, .mact15),
   (4, 0x00000001, .nop),
   (4, 0x20000001, .yield),
   (4, 0x40000001, .waitla),
   (4, 0xA0000001, .tret),
   (4, 0xA0400001, .tretSkip),
   (4, 0xC0000001, .xdone),
   (4, 0xE0000001, .edone),
   (4, 0x20000071, .ret),
   (4, 0x60200071, .mdrop0),
   (4, 0x60208071, .mdrop1),
   (4, 0x60210071, .mdrop2),
   (4, 0x60218071, .mdrop3),
   (4, 0x60220071, .mdrop4),
   (4, 0x60228071, .mdrop5),
   (4, 0x60230071, .mdrop6),
   (4, 0x60238071, .mdrop7),
   (4, 0x60240071, .mdrop8),
   (4, 0x60248071, .mdrop9),
   (4, 0x60250071, .mdrop10),
   (4, 0x60258071, .mdrop11),
   (4, 0x60260071, .mdrop12)]

theorem test_rowWords9 : rowWords9.all reads = true := by decide +kernel

/-- A word of each row of the opcode table, by its match bits and field places, part 10. -/
def rowWords10 : List (Nat × Nat × Instr) :=
  [(4, 0x60268071, .mdrop13),
   (4, 0x60270071, .mdrop14),
   (4, 0x60278071, .mdrop15),
   (4, 0x80000071, .exit),
   (4, 0x10000075, .tmaskOff),
   (4, 0x10008075, .tmaskOn),
   (4, 0x00000079, .barFile),
   (4, 0x20000079, .barCore),
   (4, 0x40000079, .barSlice),
   (4, 0x60000079, .barCluster),
   (4, 0x200070C1, .qunbind0),
   (4, 0x200071C1, .qunbind1),
   (4, 0x200072C1, .qunbind2),
   (4, 0x200073C1, .qunbind3),
   (4, 0x200074C1, .qunbind4),
   (4, 0x200075C1, .qunbind5),
   (4, 0x200076C1, .qunbind6),
   (4, 0x200077C1, .qunbind7),
   (4, 0x000000C5, .rtag),
   (8, 0xFFF80005202004D7, .tld 2 true 0 4 8191 5),
   (8, 0x0008001010063BEF, .acst 1 6 false 3 11 1 16),
   (4, 0x08C280B9, .pref false .word 3 (.v 5) none)]

theorem test_rowWords10 : rowWords10.all reads = true := by decide +kernel

/-! ### A small loaded program -/

/-- A capability over the program's one page. -/
def pageCap (cursor : Nat) : Cap := mkCap 0 1 1 (rR + rW + rLC + rSC + rAT) 4096 0 4 cursor true

/-- A warp of three threads, 0 to 2, with values in some registers: v1 = 5, 6, 7; v2 = 2, 3, 2; v10 = 0x40, 0x44, 0x48; s4 = 9; m1 =
threads 0 and 2; c1 names the page at 0x8000. -/
def demoWarp : Warp :=
  { loadedWarp with
    live := 7
    regs :=
      { loadedWarp.regs with
        x := [(128, 5), (129, 6), (130, 7), (256, 2), (257, 3), (258, 2), (1280, 0x40), (1281, 0x44), (1282, 0x48)]
        s := [(4, 9)]
        m := [(1, 5)]
        c := [(128, pageCap 0x8000), (129, pageCap 0x8000), (130, pageCap 0x8000)] } }

/-- The scratchpad of the group's one core: a datum word of target 16 at 0x80, and at 0x100 the descriptor of a queue of four
entries at 0x400, one of which, 0x11, stands published. -/
def demoSpm : Store Byte :=
  ssetMany 0 (ssetMany 0 (ssetMany 0 [] 0x80 (toBytes 8 (16 * 2 ^ 24)))
    0x100 (toBytes 8 (4 * 2 ^ 32 + 0x400) ++ toBytes 8 (2 ^ 32) ++ toBytes 8 (2 ^ 32 + 3))) 0x400 [0x11]

/-- The warp's group, with a barrier at each level. -/
def demoGroup : Group :=
  { Group.blank with
    launch := 1, asid := 1, stat := .running, members := [1], cores := [(0, 0, 0)]
    bars := [⟨0, 0, 1, 3, 0, []⟩, ⟨1, 0, 1, 3, 0, []⟩, ⟨2, 0, 1, 3, 0, []⟩, ⟨3, 0, 1, 3, 0, []⟩]
    allocs := [⟨0, 0, 0, 0, 8192, demoSpm, [], []⟩] }

/-- The device with this warp in turn. -/
def demo : State := { install State.reset [] with units := [(1, demoWarp)], groups := [(1, demoGroup)] }

/-- The device with another warp in turn. -/
def withWarp (w : Warp) : State := { demo with units := [(1, w)] }

/-- The warp with its registers changed. -/
def withRegs (f : Regs → Regs) : Warp := { demoWarp with regs := f demoWarp.regs }

/-- The accesses of all threads were served, and the state holds to a condition. -/
def served (r : Except (Stop × State) (State × List (Nat × AccFault))) (p : State → Bool) : Bool :=
  match r with
  | .ok (b, []) => p b
  | _ => false

/-- The effect answers a state that holds to a condition. -/
def answers (r : Res) (p : State → Bool) : Bool :=
  match r with
  | .ok b => p b
  | .error _ => false

/-- An access was served. -/
def gave {α ε : Type} (r : State × Except ε α) : Bool :=
  match r.2 with
  | .ok _ => true
  | .error _ => false

/-- In the exit routine of the warp: c7 may be written from c7. -/
def exiting : Warp :=
  { withRegs fun r => { r with c := r.c ++ [(896, pageCap 0x4000), (897, pageCap 0x4000), (898, pageCap 0x4000)] } with
    routine := some ⟨true, 7, 0, 1, 4096, 0, 0, [], 0, false, false, [], [], []⟩ }

/-! ### A program with more of the device about it -/

/-- A warp with copy descriptors in s8 to s39, capabilities over chain headers and staging bytes in c2 to c5, a cluster scratchpad
capability in k2, tile 1 of three rows, and three bound ports: 0 receives and 1 sends on the queue at 0x100, 4 is the ring of slot 5. -/
def richWarp : Warp :=
  { demoWarp with
    tshp := [(1, 0x2FC2)]
    ports := [(0, ⟨1, 0, 0x100, 0, 0⟩), (1, ⟨2, 0, 0x100, 0, 1⟩), (4, ⟨4, 0, 5, 0, 0⟩)]
    regs :=
      { demoWarp.regs with
        s := [(4, 9), (5, 0x100 + 2 ^ 32), (6, 5), (7, 5 + 3 * 2 ^ 16 + 2 * 2 ^ 32 + 3 * 2 ^ 48), (8, 16 + 2 ^ 32), (9, 16 * 2 ^ 32 + 16),
              (10, 0x800), (12, 64 + 64 * 2 ^ 32), (13, 64), (20, 64 + 64 * 2 ^ 32), (21, 64 * 2 ^ 32), (24, 16 + 2 ^ 32),
              (25, 16 * 2 ^ 32 + 16), (26, 10 * 2 ^ 40), (28, 16 + 2 ^ 32), (29, 16), (30, 2 ^ 36), (32, 16), (33, 16 * 2 ^ 32),
              (34, 0x800), (36, 64), (38, 2 ^ 32), (40, 0x80), (41, 5 + 3 * 2 ^ 16)]
        c := demoWarp.regs.c ++ [(256, pageCap 0x9000), (384, pageCap 0xA000), (512, pageCap 0xB000), (640, pageCap 0xC000)]
        k := demoWarp.regs.k ++ [(2, mkCap 1 1 0 (rR + rW + rAT) 8192 0 0 0x100 true)] } }

/-- A chain header for context 1: REG, 16 entries, an engine, and RESV, TAIL, DONE. -/
def headerBytes (engine resv tail done : Nat) : List Byte :=
  toBytes 4 (2 ^ 31 + 4 * 16 + engine) ++ toBytes 4 0 ++ toBytes 4 resv ++ toBytes 4 tail ++ toBytes 4 done ++ toBytes 4 0 ++ toBytes 8 1

/-- Its device: slot 5 of the random engine is the context's own, and its window 3 is open at position 2. -/
def rich : State :=
  { demo with
    units := [(1, richWarp)]
    mem := ssetMany 0 (ssetMany 0 (ssetMany 0 demo.mem 0x109000 (headerBytes 1 1 1 0)) 0x10A000 (headerBytes 3 1 1 0))
      0x10C000 (toBytes 16 (pageCap 0).bits.toNat ++ zeros 16 ++ toBytes 16 (pageCap 0xD000).bits.toNat ++ toBytes 16 16)
    tags := [(0x10C00, true), (0x10C02, true)]
    slots := [(5, ⟨1, 0, 1, true, [7, 8, 9, 10]⟩)]
    windows := [(5, ⟨1, 3, true, 2, 0, pageCap 0, Cap.null, pageCap 0xD000, 16, 0, [], [], [], [], []⟩)] }

/-- The same with its window closed, the last number 2. -/
def closed : State :=
  { rich with windows := [(5, ⟨1, 2, false, 0, 0, Cap.null, Cap.null, Cap.null, 0, 0, [], [], [], [], []⟩)] }

/-- What the memory instructions ask of `s`, whose unit in turn is `w`: this unit is in turn, calm, on a SIMT core. -/
def fit (s : State) (w : Warp) : Prop := InTurn s w ∧ Calm w ∧ Simt w ∧ AllActive w

/-- A warp inside its trap handler. -/
def handling : Warp := { demoWarp with tm := true, inh := true, handler := 7 }


/-! ### The hypotheses of the statements are met -/

/-! ### What the statements' hypotheses ask: states and operands that meet them

Each theorem is named for the statement whose hypotheses it shows to be met, at operands of the ends of their ranges. -/

theorem test_hyps_IntegerArithmeticComputes :
    InTurn demo demoWarp ∧ Calm demoWarp
      ∧ (∀ d ∈ [PReg.v 3, .v 95, .o 0, .o 7, .y 0, .y 1, .z], ∀ b ∈ [Src.reg (.v 2), .lit 0xFFFFFFFF, .reg .z, .reg .tid],
        operandsOk (atIssue demoWarp (srcLen b)) (activeThreads demoWarp) (usesOf (.x (.v 1) :: srcName b) [.x d])) := by
  delta InTurn Calm operandsOk; and_intros <;> decide +kernel

theorem test_hyps_LogicComputesItsFunction :
    InTurn demo demoWarp ∧ Calm demoWarp
      ∧ operandsOk (atIssue demoWarp 8) (activeThreads demoWarp) (usesOf (.x (.o 7) :: srcName (.lit 31)) [.x (.y 0)]) := by
  delta InTurn Calm operandsOk; and_intros <;> decide +kernel

theorem test_hyps_BitsComputesItsFunction :
    InTurn demo demoWarp ∧ Calm demoWarp
      ∧ operandsOk (atIssue demoWarp 4) (activeThreads demoWarp) (usesOf [.x (.v 1)] [.x (.v 95)])
      ∧ operandsOk (atIssue demoWarp 8) (activeThreads demoWarp) (usesOf (.x (.v 1) :: srcName (.lit 0x3F1F) ++ [.x (.v 95)]) [.x (.v 95)])
      ∧ operandsOk (atIssue demoWarp 4) (activeThreads demoWarp) (usesOf (srcName (.reg .tid)) [.x (.v 0)]) := by
  delta InTurn Calm operandsOk; and_intros <;> decide +kernel

theorem test_hyps_ImiscComputesItsFunction :
    InTurn demo demoWarp ∧ Calm demoWarp
      ∧ (∀ d ∈ [PReg.v 0, .v 94, .o 6], operandsOk (atIssue demoWarp 4) (activeThreads demoWarp)
        (usesOf (.x (.v 1) :: srcName (.reg (.v 2)) ++ [.x d, .x (pnext d 1)]) [.x d, .x (pnext d 1)])) := by
  delta InTurn Calm operandsOk; and_intros <;> decide +kernel

theorem test_hyps_CompactFormsCompute :
    InTurn demo demoWarp ∧ Calm demoWarp
      ∧ operandsOk (atIssue demoWarp 2) (activeThreads demoWarp) (usesOf [.x (.v 31), .x (.v 15)] [.x (.v 31)])
      ∧ operandsOk (atIssue demoWarp 2) (activeThreads demoWarp) (usesOf [.x (.y 0), .x .tid, .x (.o 0)] [.x (.o 0)])
      ∧ operandsOk (atIssue demoWarp 2) (activeThreads demoWarp) (usesOf [] [.x .z]) := by
  delta InTurn Calm operandsOk; and_intros <;> decide +kernel

theorem test_hyps_IntegerComparisonsWriteTheirResult :
    InTurn demo demoWarp ∧ Calm demoWarp ∧ demoWarp.off = none
      ∧ (∀ m ∈ [(0 : Fin 16), 15], operandsOk (atIssue demoWarp 8) (activeThreads demoWarp)
        (usesOf (.x (.v 1) :: srcName (.lit 6)) [mname m]))
      ∧ (∀ d ∈ [SReg.s 0, .s 63, .z], operandsOk (atIssue demoWarp 4) (activeThreads demoWarp)
        (usesOf (uname (.s 4) ++ usrcName (.reg .z)) (uname d))) := by
  delta InTurn Calm operandsOk; and_intros <;> decide +kernel

theorem test_hyps_UniformFormsCompute :
    InTurn demo demoWarp ∧ Calm demoWarp ∧ demoWarp.off = none
      ∧ operandsOk (atIssue demoWarp 8) (activeThreads demoWarp) (usesOf (uname (.s 63) ++ usrcName (.lit 0x80000000)) (uname (.s 0)))
      ∧ operandsOk (atIssue demoWarp 4) (activeThreads demoWarp) (usesOf (uname (.s 4)) (uname .z))
      ∧ operandsOk (atIssue demoWarp 4) (activeThreads demoWarp)
        (usesOf (uname (.s 4) ++ usrcName (.reg (.s 5)) ++ uname (.s 6)) (uname (.s 6))) := by
  delta InTurn Calm operandsOk; and_intros <;> decide +kernel

theorem test_hyps_MaskopComputesItsFunction :
    InTurn demo demoWarp ∧ Calm demoWarp ∧ demoWarp.off = none
      ∧ operandsOk (atIssue demoWarp 4) (activeThreads demoWarp) (usesOf (uname (.s 4)) [.x (.v 95)])
      ∧ nameCheck (atIssue demoWarp 4) (usesOf [.x (.v 1)] [.u 63]) = none ∧ (RName.x (.v 1)).isQ = false
      ∧ poisonX (atIssue demoWarp 4) (lowest (activeThreads demoWarp)) (.v 1) = 0
      ∧ operandsOk (atIssue demoWarp 4) (activeThreads demoWarp) (usesOf [mname 15] (uname (.s 63)))
      ∧ operandsOk (atIssue demoWarp 8) (activeThreads demoWarp) (usesOf (mname 1 :: usrcName (.lit 127)) (uname (.s 0)))
      ∧ operandsOk (atIssue demoWarp 4) (activeThreads demoWarp) (usesOf [mname 0, mname 15] [mname 0]) := by
  delta InTurn Calm operandsOk; and_intros <;> decide +kernel

theorem test_hyps_FloatFunctionsCompute :
    InTurn demo demoWarp ∧ Calm demoWarp
      ∧ operandsOk (atIssue demoWarp 4) (activeThreads demoWarp) (usesOf (.x (.v 1) :: srcName (.reg (.v 2)) ++ [.x (.v 95)]) [.x (.v 95)])
      ∧ operandsOk (atIssue demoWarp 8) (activeThreads demoWarp) (usesOf (.x (.v 1) :: srcName (.lit 0x7F800000)) [.x (.o 7)])
      ∧ operandsOk (atIssue demoWarp 4) (activeThreads demoWarp) (usesOf [.x .tid] [.x .z]) := by
  delta InTurn Calm operandsOk; and_intros <;> decide +kernel

/-- The exact values of operands: 1.5 + 2.25, the largest finite value with itself, half an ulp at 1, equal terms of opposite signs,
zeros, and 3 × 2^−149 halved. -/
theorem test_hyps_FloatResultsAreRoundedOnce_values :
    valF 0x3FC00000 + valF 0x40100000 ≠ 0 ∧ (2 : ℚ) ^ 128 - 2 ^ 104 < |valF 0x7F7FFFFF + valF 0x7F7FFFFF|
      ∧ ¬(2 : ℚ) ^ 128 - 2 ^ 104 < |valF 0x3F800000 + valF 0x33800000| ∧ valF 0x3F800000 + valF 0xBF800000 = 0
      ∧ valF 0x3F800000 - valF 0x3F800000 = 0 ∧ valF 0x80000000 + valF 0x80000000 = 0 ∧ valF 0x3FC00000 * valF 0x80000000 = 0
      ∧ valF 0x3FC00000 * valF 0x40000000 + valF 0xC0400000 = 0 ∧ valF 0x80000000 = 0
      ∧ valF 3 * 2 ^ (0xFFFFFFFF : Word).toInt ≠ 0 := by
  and_intros <;> decide +kernel

theorem test_hyps_FloatResultsAreRoundedOnce :
    finF 0x7F7FFFFF ∧ finF 0x80000001 ∧ ¬finF 0x7F800000 ∧ (0xFF800000 : Word) &&& 0x7FFFFFFF = 0x7F800000
      ∧ nanF 0x7F800001 = true ∧ nanF 0xFF800000 = false ∧ orderF 0x80000000 = orderF 0 ∧ orderF 0x80000001 < orderF 0
      ∧ (0x3F800000 : Word) ≠ 0xBF800000 := by
  delta finF; and_intros <;> decide +kernel

theorem test_hyps_FcmpComparesActiveThreads :
    InTurn demo demoWarp ∧ Calm demoWarp
      ∧ operandsOk (atIssue demoWarp 8) (activeThreads demoWarp) (usesOf (.x (.v 1) :: srcName (.lit 0x7FC00000)) [mname 15])
      ∧ operandsOk (atIssue demoWarp 4) (activeThreads demoWarp) (usesOf (.x (.v 1) :: srcName (.reg .z)) [mname 0]) := by
  delta InTurn Calm operandsOk; and_intros <;> decide +kernel

/-- A conversion serves under control word `c`, with `wide` as the width of its result. -/
def converts (f : CvtFn) (d a : PReg) (c : Word) (wide : Bool) : Prop :=
  c = getSrc (atIssue demoWarp 8) (lowest (activeThreads demoWarp)) (.lit c)
    ∧ cvtReserved f c d a = false ∧ cvtFormat f c = false ∧ cvtWideDst f c = wide
    ∧ operandsOk (atIssue demoWarp 8) (activeThreads demoWarp)
      (usesOf ((funCvt f d a (.lit c) c).reads.map .x) ((funCvt f d a (.lit c) c).writes.map .x))

theorem test_hyps_ConversionsConvert :
    InTurn demo demoWarp ∧ Calm demoWarp ∧ converts .cvt (.v 3) (.v 1) 0x30 false ∧ converts .pack (.v 6) (.v 1) 0x810 false
      ∧ converts .unpk (.v 6) (.v 1) 0x1805 false ∧ converts .cvi (.v 5) (.v 1) 0x210 false ∧ converts .cvi (.v 94) (.v 1) 0x18 true
      ∧ converts .cvi (.v 5) (.v 94) 0x4003 false ∧ converts .sat (.o 6) (.v 1) 0x1A true := by
  delta InTurn Calm converts operandsOk; and_intros <;> decide +kernel

theorem test_hyps_CrossThreadFunctionsCompute :
    InTurn demo demoWarp ∧ Calm demoWarp ∧ demoWarp.off = none
      ∧ operandsOk (atIssue demoWarp 8) (activeThreads demoWarp) (usesOf (.x (.v 1) :: srcName (.lit 127)) [.x (.v 95)])
      ∧ operandsOk (atIssue demoWarp 4) (activeThreads demoWarp) (usesOf [.x (.v 1)] [.x .z]) := by
  delta InTurn Calm operandsOk; and_intros <;> decide +kernel

theorem test_hyps_CapabilityFunctionsCompute :
    InTurn demo demoWarp ∧ Calm demoWarp
      ∧ operandsOk (atIssue demoWarp 4) (activeThreads demoWarp) (usesOf (.c 1 :: srcName (.reg (.v 2))) [.c 6])
      ∧ operandsOk (atIssue demoWarp 4) (activeThreads demoWarp) (usesOf (.c 1 :: srcName (.reg (.v 2))) [.x (.v 95)])
      ∧ (∀ t ∈ activeThreads demoWarp, (getC (atIssue demoWarp 4) t 1).tag = true
        ∧ narrowed (getC (atIssue demoWarp 4) t 1) (getSrc (atIssue demoWarp 4) t (.reg (.v 2))).toNat
          = some (mkCap 0 1 1 (rR + rW + rLC + rSC + rAT) 0x2001 0x2000 2 0x8000 true)) := by
  delta InTurn Calm operandsOk; and_intros <;> decide +kernel

theorem test_hyps_CapabilityFunctionsCompute_c7 :
    InTurn (withWarp exiting) exiting ∧ Calm exiting ∧ exiting.routine.isSome = true
      ∧ operandsOk (atIssue exiting 8) (activeThreads exiting) (usesOf (.c 7 :: srcName (.lit 0xFFFFFFFF)) [.c 7])
      ∧ (∀ t ∈ activeThreads exiting, (getC (atIssue exiting 8) t 7).tag = true) := by
  delta InTurn Calm operandsOk; and_intros <;> decide +kernel

theorem test_fit : fit demo demoWarp ∧ fit rich richWarp ∧ fit closed richWarp := by
  delta fit InTurn Calm Simt AllActive; and_intros <;> decide +kernel

/-- The hypotheses of a load of `n` bytes through c1. -/
def loads (i : Instr) (len la n : Nat) (sx acq : Bool) (a d : PReg) (disp : Int) (need : Need) : Prop :=
  operandsOk (atIssueMem demoWarp len) (activeThreads demoWarp) (usesOf [.c 1, .x a] ((loadRegs d n).map .x))
    ∧ accessOk (begunMem demo len) (atIssueMem demoWarp len) (activeThreads demoWarp) 1 a disp n need
    ∧ served (eachThread (loadThread (cxOf demo 1 len) i la ⟨d, n, sx, acq⟩ 1 a disp) (activeThreads demoWarp) (begunMem demo len))
      (fun b => decide (blockRemote (cxOf demo 1 len) n b = b)) = true

theorem test_hyps_LoadsComplete :
    loads (.ld 15 .byte 1 (.v 10) (.v 95) (some 0xFFFF8000)) 8 15 1 false false (.v 10) (.v 95) (-0x8000) needLoad
      ∧ loads (.ld 0 .dword 1 .z (.v 94) none) 4 0 8 false false .z (.v 94) 0 needLoad
      ∧ loads (.ldx 1 .half 1 (.v 10) (.o 7) none) 4 1 2 true false (.v 10) (.o 7) 0 needLoad
      ∧ loads (.ldq 2 1 .z (.v 92) (some 0x7FF0)) 8 2 16 false false .z (.v 92) 0x7FF0 needLoad
      ∧ loads (.lda 3 .word 1 (.v 10) (.v 5) 0x7FB0 .device) 8 3 4 false true (.v 10) (.v 5) 0x7FB0 (needLda 4) := by
  delta loads operandsOk accessOk; and_intros <;> decide +kernel

/-- What `servedAt` asks of thread `k` after the threads `pre`. -/
def servesAt (s : State) (len : Nat) (f : Nat → State → State × Except Bad Unit) (c : Fin 16) (a : PReg) (disp : Int) (n : Nat)
    (wr : Bool) (pre : List Nat) (k : Nat) (post : List Nat) : Bool :=
  let w := unitOf s s.turn
  decide (activeThreads w = pre ++ k :: post) &&
    match eachThread f pre (begunMem s len) with
    | .ok (m, []) =>
      let v := unitOf m s.turn
      let cap := getC v k c.val
      let ea := (eaOf v c a disp k).toNat
      cap.kind == 0 && !cap.rights.testBit 7 &&
        match (xlateAll m (reqOf v) cap.object (ea + n) wr false (pieces ea n)).2 with
        | .ok [q] => connOk m (reqOf v) (portOf q.tr q.off) && !q.tr.hv && !badBlock m q.tr q.off
        | _ => false
    | _ => false

theorem test_hyps_LoadsComplete_values :
    servesAt demo 8 (loadThread (cxOf demo 1 8) (.ldx 1 .half 1 (.v 10) (.v 5) (some 0x10)) 1 ⟨.v 5, 2, true, false⟩ 1 (.v 10) 0x10) 1
        (.v 10) 0x10 2 false [] 0 [1, 2] = true
      ∧ servesAt demo 4 (loadThread (cxOf demo 1 4) (.ldq 2 1 .z (.v 92) none) 2 ⟨.v 92, 16, false, false⟩ 1 .z 0) 1 .z 0 16 false [0, 1] 2 []
        = true := by
  and_intros <;> decide +kernel

theorem test_hyps_StoresComplete_values :
    servesAt demo 4 (storeThread (cxOf demo 1 4) (.v 95) 4 1 (.v 10) 0) 1 (.v 10) 0 4 true [0] 1 [2] = true
      ∧ servesAt demo 8 (storeThread (cxOf demo 1 8) (.v 92) 16 1 .z 0x7FF0) 1 .z 0x7FF0 16 true [0, 1] 2 [] = true := by
  and_intros <;> decide +kernel

/-- The hypotheses of a store of `n` bytes through c1. -/
def stores (len n : Nat) (a d : PReg) (disp : Int) (need : Need) : Prop :=
  inExit demoWarp = false ∧ (RName.x d).isQ = false
    ∧ operandsOk (atIssueMem demoWarp len) (activeThreads demoWarp) (storeUses [.c 1] a ((storeRegs d n).map .x)).1
    ∧ accessOk (begunMem demo len) (atIssueMem demoWarp len) (activeThreads demoWarp) 1 a disp n need
    ∧ served (eachThread (storeThread (cxOf demo 1 len) d n 1 a disp) (activeThreads demoWarp) (begunMem demo len)) (fun _ => true) = true
    ∧ ∀ t ∈ activeThreads demoWarp, plainCap (getC (atIssueMem demoWarp len) t 1)

theorem test_hyps_StoresComplete :
    stores 8 1 (.v 10) (.v 95) 0x7FB7 needStore ∧ stores 4 8 .z (.v 94) 0 needStore ∧ stores 8 16 .z (.v 92) 0x7FF0 needStore
      ∧ stores 8 4 (.v 10) (.v 5) 0x7FB0 (needStl 4) := by
  delta stores operandsOk accessOk plainCap; and_intros <;> decide +kernel

/-- An exit routine stores through c7 (R253). -/
theorem test_hyps_StoresComplete_c7 :
    inExit exiting = true ∧ InTurn (withWarp exiting) exiting ∧ Calm exiting
      ∧ operandsOk (atIssueMem exiting 4) (activeThreads exiting) (storeUses [.c 7] .z ((storeRegs (.v 5) 4).map .x)).1
      ∧ accessOk (begunMem (withWarp exiting) 4) (atIssueMem exiting 4) (activeThreads exiting) 7 .z 0 4 needStore
      ∧ served (eachThread (storeThread (cxOf (withWarp exiting) 1 4) (.v 5) 4 7 .z 0) (activeThreads exiting) (begunMem (withWarp exiting) 4))
        (fun _ => true) = true := by
  delta InTurn Calm operandsOk accessOk; and_intros <;> decide +kernel

theorem test_hyps_CapabilityLoadsAndStoresComplete :
    (operandsOk (atIssueMem demoWarp 4) (activeThreads demoWarp) (usesOf [.c 1, .x .z] [.c 6])
        ∧ accessOk (begunMem demo 4) (atIssueMem demoWarp 4) (activeThreads demoWarp) 1 .z 0 16 needCld
        ∧ served (eachThread (cldThread (cxOf demo 1 4) 6 1 .z 0) (activeThreads demoWarp) (begunMem demo 4)) (fun _ => true) = true)
      ∧ inExit demoWarp = false
      ∧ operandsOk (atIssueMem demoWarp 8) (activeThreads demoWarp) (storeUses [.c 1] .z [.c 15]).1
      ∧ accessOk (begunMem demo 8) (atIssueMem demoWarp 8) (activeThreads demoWarp) 1 .z 0x7FF0 16 needCst
      ∧ served (eachThread (cstThread (cxOf demo 1 8) 15 1 .z 0x7FF0) (activeThreads demoWarp) (begunMem demo 8)) (fun _ => true) = true := by
  delta operandsOk accessOk; and_intros <;> decide +kernel

/-- A warp of one thread. -/
def lone : Warp := { demoWarp with live := 1 }

theorem test_hyps_CapabilityLoadsAndStoresComplete_next :
    let s := withWarp lone
    let q := getC lone 0 1
    InTurn s lone ∧ Calm lone ∧ activeThreads lone = [0] ∧ inExit lone = false
      ∧ q.kind = 0 ∧ q.rights.testBit 7 = false ∧ q.tenant = lone.asid
      ∧ operandsOk (atIssueMem lone 4) [0] (usesOf [.c 1, .x .z] [.c 6]) ∧ accessOk (begunMem s 4) (atIssueMem lone 4) [0] 1 .z 0 16 needCld
      ∧ gave (objReadCap (begunMem s 4) (reqOf (atIssueMem lone 4)) q.object (eaOf (atIssueMem lone 4) 1 .z 0 0).toNat) = true
      ∧ operandsOk (atIssueMem lone 8) [0] (storeUses [.c 1] .z [.c 15]).1
      ∧ accessOk (begunMem s 8) (atIssueMem lone 8) [0] 1 .z 0x7FF0 16 needCst
      ∧ gave (objWriteCap (begunMem s 8) (reqOf (atIssueMem lone 8)) q.object (eaOf (atIssueMem lone 8) 1 .z 0x7FF0 0).toNat
        (getC (atIssueMem lone 8) 0 15) false) = true := by
  delta InTurn Calm operandsOk accessOk; and_intros <;> decide +kernel

/-- The hypotheses of an atomic through capability `c` of a warp. -/
def atomics (i : Instr) (s : State) (w : Warp) (la n : Nat) (op : AtomOp) (c : Fin 16) (a d : PReg) (disp : Int) (kinds : Nat) : Prop :=
  inExit w = false
    ∧ operandsOk (atIssueMem w 8) (activeThreads w)
      { reads := (atomUses [.c c.val] a op d n).reads, writes := (atomRegs op d n).map .x, data := (atomUses [.c c.val] a op d n).data
        tagged := false }
    ∧ accessOk (begunMem s 8) (atIssueMem w 8) (activeThreads w) c a disp n ⟨rR + rW + rAT, kinds, n⟩
    ∧ served (eachThread (atomThread (cxOf s s.turn 8) i la op d n c a disp) (activeThreads w) (begunMem s 8)) (fun _ => true) = true

theorem test_hyps_AtomicsComplete_values :
    servesAt demo 8 (atomThread (cxOf demo 1 8) (.atom 15 .word 1 (.v 10) (.v 95) 0 .add .device) 15 .add (.v 95) 4 1 (.v 10) 0) 1 (.v 10) 0 4
        true [0] 1 [2] = true
      ∧ servesAt demo 8 (atomThread (cxOf demo 1 8) (.atom 0 .dword 1 .z (.v 92) 0x7FF8 .cas .system) 0 .cas (.v 92) 8 1 .z 0x7FF8) 1 .z 0x7FF8 8
        true [] 0 [1, 2] = true
      ∧ (match eachThread (atomThread (cxOf rich 1 8) (.atoms 0 .word 10 .z (.v 4) 0 .maxN .cluster) 0 .maxN (.v 4) 4 10 .z 0)
          ((activeThreads richWarp).take 1) (begunMem rich 8) with
        | .ok (_, []) => true
        | _ => false) = true := by
  and_intros <;> decide +kernel

theorem test_hyps_AtomicsComplete :
    atomics (.atom 15 .word 1 (.v 10) (.v 95) 0 .add .device) demo demoWarp 15 4 .add 1 (.v 10) (.v 95) 0 0b0001
      ∧ atomics (.atom 0 .dword 1 .z (.v 92) 0x7FF8 .cas .system) demo demoWarp 0 8 .cas 1 .z (.v 92) 0x7FF8 0b0001
      ∧ atomics (.atoms 0 .word 10 .z (.v 4) 0 .maxN .cluster) rich richWarp 0 4 .maxN 10 .z (.v 4) 0 0b0010
      ∧ (∀ t ∈ activeThreads demoWarp, plainCap (getC (atIssueMem demoWarp 8) t 1)) := by
  delta atomics operandsOk accessOk plainCap; and_intros <;> decide +kernel

/-- The scratchpad allocation of the demo's core. -/
def demoAlloc : Alloc := ⟨0, 0, 0, 0, 8192, demoSpm, [], []⟩

/-- The demo's bytes lie in its allocation. -/
theorem spmOk_demo (len : Nat) (a : PReg) (disp : Int) (n align : Nat)
    (h0 : allocAt (groupOf (begunMem demo len) 1) (homeCore (begunMem demo len) (atIssueMem demoWarp len)) = some demoAlloc)
    (h1 : ∀ t ∈ activeThreads demoWarp, 0 ≤ soOf (atIssueMem demoWarp len) a disp t ∧ soOf (atIssueMem demoWarp len) a disp t + n ≤ 8192
      ∧ soOf (atIssueMem demoWarp len) a disp t % align = 0) :
    spmOk (begunMem demo len) (atIssueMem demoWarp len) (activeThreads demoWarp) a disp n align :=
  ⟨demoAlloc, h0, h1⟩

theorem test_hyps_ScratchpadAccessesComplete_spm :
    spmOk (begunMem demo 8) (atIssueMem demoWarp 8) (activeThreads demoWarp) (.v 10) 8116 4 1
      ∧ spmOk (begunMem demo 4) (atIssueMem demoWarp 4) (activeThreads demoWarp) (.v 10) 0 1 1
      ∧ spmOk (begunMem demo 8) (atIssueMem demoWarp 8) (activeThreads demoWarp) .z 8184 8 8 :=
  ⟨spmOk_demo _ _ _ _ _ (by decide +kernel) (by decide +kernel), spmOk_demo _ _ _ _ _ (by decide +kernel) (by decide +kernel),
   spmOk_demo _ _ _ _ _ (by decide +kernel) (by decide +kernel)⟩

theorem test_hyps_ScratchpadAccessesComplete :
    operandsOk (atIssueMem demoWarp 8) (activeThreads demoWarp) (usesOf [.x (.v 10)] ((loadRegs (.v 95) 4).map .x))
      ∧ inExit demoWarp = false ∧ (RName.x (.v 1)).isQ = false
      ∧ operandsOk (atIssueMem demoWarp 4) (activeThreads demoWarp) (storeUses [] (.v 10) ((storeRegs (.v 1) 1).map .x)).1
      ∧ (∀ k ∈ activeThreads demoWarp, ∀ j ∈ activeThreads demoWarp, j ≠ k →
        (soOf (atIssueMem demoWarp 4) (.v 10) 0 j).toNat + 1 ≤ (soOf (atIssueMem demoWarp 4) (.v 10) 0 k).toNat
          ∨ (soOf (atIssueMem demoWarp 4) (.v 10) 0 k).toNat + 1 ≤ (soOf (atIssueMem demoWarp 4) (.v 10) 0 j).toNat)
      ∧ operandsOk (atIssueMem demoWarp 8) (activeThreads demoWarp)
        { reads := (atomUses [] .z .cas (.v 92) 8).reads, writes := (atomRegs .cas (.v 92) 8).map .x
          data := (atomUses [] .z .cas (.v 92) 8).data, tagged := false } := by
  delta operandsOk; and_intros <;> decide +kernel

theorem test_hyps_FencesAndPrefetchesComplete :
    operandsOk (atIssueMem demoWarp 4) (activeThreads demoWarp) (usesOf [.c 1, .x (.v 10)] [])
      ∧ operandsOk (atIssueMem demoWarp 8) (activeThreads demoWarp) (usesOf [.c 9, .x .z] []) := by
  delta operandsOk; and_intros <;> decide +kernel

/-- The pieces of an access translate, pass the key registry and reach their ports, and `p` holds of them. -/
def reaches (s : State) (rq : Req) (obj off n : Nat) (write : Bool) (p : State → List Piece → Bool) : Bool :=
  match xlateAll s rq obj (off + n) write false (pieces off n) with
  | (s1, .ok ps) =>
    match keyAll s1 rq ps with
    | some s2 => p s2 ps
    | none => false
  | _ => false

/-- The device whose page is compressed, the check of the block at 0x8000 failing. -/
def struck : State :=
  { demo with mem := ssetMany 0 demo.mem 0x24000 (toBytes 8 (15 + 16 * 2 ^ 24)), blocks := [(268435984, 3)], failed := [(268435984, true)] }

theorem test_hyps_ObjectAccessesMoveTheirBytes :
    reaches demo (reqOf demoWarp) 1 0xFFF0 16 false
        (fun _ ps => ps.all fun p =>
          connOk demo (reqOf demoWarp) (portOf p.tr p.off) && !p.tr.hv && !badBlock demo p.tr p.off) = true
      ∧ reaches demo (reqOf demoWarp) 1 0x8003 8 true (fun s2 ps => match ps with
        | [p] => connOk demo (reqOf demoWarp) (portOf p.tr p.off) && !compFull s2 1 p.tr p.off (toBytes 8 1) && p.len == 8
            && !badBlock demo p.tr p.off
        | _ => false) = true
      ∧ reaches struck (reqOf demoWarp) 1 0x7FFC 16 false
        (fun _ ps => ps.any fun p => connOk struck (reqOf demoWarp) (portOf p.tr p.off) && badBlock struck p.tr p.off) = true
      ∧ reaches struck (reqOf demoWarp) 1 0x8003 8 true (fun _ ps => match ps with
        | [p] => connOk struck (reqOf demoWarp) (portOf p.tr p.off) && p.len == 8 && badBlock struck p.tr p.off
        | _ => false) = true := by
  and_intros <;> decide +kernel

/-- A whole block written at once replaces one whose check fails; an error strikes only a stored stream (R351). -/
theorem test_failed_block :
    (match (objWrite struck (reqOf demoWarp) 1 0x8000 (List.replicate 2048 0) false).1.failed with
      | [] => true
      | _ => false) = true
      ∧ (strike demo 5).failed = [] ∧ (strike { demo with blocks := [(5, 15)] } 5).failed = [(5, true)] := by
  and_intros <;> decide +kernel

/-- The function MOV v3, q0: it pops port 0. -/
def popFun : TFun := funMov (.v 3) (.reg (.q 0))

/-- One thread of the warp: the queue has one entry. -/
def single : Warp := { richWarp with live := 1 }

/-- Its device. -/
def alone : State := { rich with units := [(1, single)] }

theorem test_hyps_PortFormsServeThreadsInOrder :
    InTurn alone single ∧ Calm single ∧ Simt single
      ∧ (popFun.reads ++ popFun.writes).all (·.noQ) = false
      ∧ nameCheck (atIssue single 4) (popFun.uses false) = none ∧ (popFun.uses false).writes.any (·.elasticIn (atIssue single 4)) = false
      ∧ poisonCheck (atIssue single 4) (activeThreads single) (popFun.uses false) = none
      ∧ (∀ p ∈ portsOf (popFun.uses false).reads, portOk (begun alone 4) (atIssue single 4) p false = true)
      ∧ portsOf (popFun.uses false).reads ≠ []
      ∧ answers (serve (cxOf alone 1 4) popFun (activeThreads single) (begun alone 4)) (fun b =>
        (unitOf b 1).heldPre == none && (unitOf b 1).recipes == [] && (unitOf b 1).waits == []) = true := by
  delta InTurn Calm Simt; and_intros <;> decide +kernel

theorem test_hyps_PortFormsServeThreadsInOrder_instruction :
    ∀ s, exec (.mov (.v 3) (.reg (.q 0))) s = perThread 4 popFun s := fun _ => rfl

/-- The queue's descriptor (R308). -/
def demoDesc : Desc :=
  { base := 0x400, count := 4, size := 16, head := 0, tail := 1, resv := 1, used := 0, free := 3, ign := 0 }

theorem test_hyps_PortFormsServeThreadsInOrder_pop :
    (getPort (unitOf rich 1) 0).mode ≠ 4 ∧ portDesc rich (unitOf rich 1) (getPort (unitOf rich 1) 0) = some demoDesc
      ∧ demoDesc.head ≠ demoDesc.tail
      ∧ spmRead rich 1 (portCore rich (unitOf rich 1) (getPort (unitOf rich 1) 0)) 0x400 4 = some ([0x11, 0, 0, 0], false)
      ∧ (getPort (unitOf rich 1) 4).mode = 4 ∧ sfind rich.slots 5 = some ⟨1, 0, 1, true, [7, 8, 9, 10]⟩ := by
  and_intros <;> decide +kernel

/-- With the one entry popped the queue is empty. -/
def emptied : State :=
  { rich with groups := [(1, { demoGroup with allocs := [⟨0, 0, 0, 0, 8192, sset 0 demoSpm 0x108 1, [], []⟩] })] }

theorem test_hyps_PortFormsServeThreadsInOrder_empty :
    portDesc emptied (unitOf emptied 1) (getPort (unitOf emptied 1) 0) = some { demoDesc with head := 1 } := by decide +kernel

theorem test_hyps_PortsBindAndUnbind :
    fit rich richWarp ∧ operandsOk (atIssue richWarp 4) (activeThreads richWarp) (usesOf [.u 5] [])
      ∧ descAt (begun rich 4) 1 (homeCore (begun rich 4) (atIssue richWarp 4)) (bitsOf (getS (atIssue richWarp 4) 5).toNat 0 19) = some demoDesc
      ∧ 0 < bitsOf (getS (atIssue richWarp 4) 5).toNat 32 11 ∧ bitsOf (getS (atIssue richWarp 4) 5).toNat 32 11 ≤ demoDesc.count
      ∧ operandsOk (atIssue richWarp 4) (activeThreads richWarp) (usesOf [.u 6] [])
      ∧ slotOk rich ((getS (atIssue richWarp 4) 6).toNat % 4096) richWarp.asid = true := by
  delta fit InTurn Calm Simt AllActive operandsOk; and_intros <;> decide +kernel

theorem test_hyps_QueueFunctionsComplete :
    operandsOk (atIssue richWarp 8) (activeThreads richWarp) (usesOf (ssrcName (.lit 1)) []) ∧ (getPort richWarp 0).mode = 1
      ∧ operandsOk (atIssue richWarp 8) [lowest (activeThreads richWarp)] (usesOf (.c 10 :: ssrcName (.lit 4)) [])
      ∧ remoteCheck (begun rich 8) (atIssue richWarp 8) (getC (atIssue richWarp 8) 0 10) = none
      ∧ descAt rich 1 (((placesOf (groupOf rich 1) 0)[(getC (atIssue richWarp 8) 0 10).cursor / 2 ^ 19]?).getD (0, 0, 0))
        ((getC (atIssue richWarp 8) 0 10).cursor % 2 ^ 19) = some demoDesc
      ∧ 0 < bitsOf (getSSrc (atIssue richWarp 8) (.lit 4)).toNat 0 11
      ∧ bitsOf (getSSrc (atIssue richWarp 8) (.lit 4)).toNat 0 11 ≤ demoDesc.count
      ∧ operandsOk (atIssue richWarp 4) (activeThreads richWarp) (usesOf [] [.x (.v 95)])
      ∧ (peekPort (begun rich 4) (atIssue richWarp 4) 0 0).isSome = true
      ∧ (peekPort (begun rich 4) (atIssue richWarp 4) 4 0).isSome = true := by
  delta operandsOk; and_intros <;> decide +kernel

theorem test_hyps_DatumWordsCount :
    operandsOk (atIssue richWarp 8) (activeThreads richWarp) (usesOf (.u 40 :: ssrcName (.lit 0xFFFFFF)) [])
      ∧ (getSSrc (atIssue richWarp 8) (.lit 0xFFFFFF)).toNat % 2 ^ 24 ≠ 0
      ∧ bitsOf (getS (atIssue richWarp 8) 40).toNat 0 19 % 8 = 0
      ∧ spmWord rich 1 (homeCore rich richWarp) (bitsOf (getS (atIssue richWarp 8) 40).toNat 0 19) = some (16 * 2 ^ 24)
      ∧ datumDone (16 * 2 ^ 24) ((getSSrc (atIssue richWarp 8) (.lit 0)).toNat % 2 ^ 16) = true := by
  delta operandsOk; and_intros <;> decide +kernel

/-- A warp with 8 base registers, and elastic ones of which v8 is VALID and v9 pinned, each a copy of v1 + v2 in a row. -/
def tagger : Warp :=
  { demoWarp with
    base := 8, elastic := 16
    recipes := [⟨8, 0x00808805, 0, 4, 0, 0, .valid, false, false, some 20⟩, ⟨9, 0x00808905, 0, 12, 0, 0, .pinned, false, false, some 21⟩] }

theorem test_hyps_RecipeInstructionsManageEntries :
    InTurn (withWarp tagger) tagger ∧ Settled tagger
      ∧ recipeName (atIssue tagger 4) (some 8) true false = none ∧ recipeName (atIssue tagger 4) none true false = none
      ∧ recipeName (atIssue tagger 4) (some 9) false false = none ∧ namedRegs (atIssue tagger 4) (some 9) = [9]
      ∧ (∀ n ∈ namedRegs (atIssue tagger 4) (some 9), ∀ r ∈ recipeOf (atIssue tagger 4) n, r.st ≠ .dropped)
      ∧ (∀ r ∈ tagger.recipes, r.row.isSome = true)
      ∧ recipeName (atIssue tagger 4) (some 23) false true = none
      ∧ operandsOk (atIssue tagger 4) (activeThreads tagger) (usesOf [] [.x (.v 5)])
      ∧ (∀ r ∈ tagger.recipes, cwDoubt (atIssue tagger 4) [pnum (.v 5)] r = []
        ∧ cwDoubt (atIssue tagger 4) (namedRegs (atIssue tagger 4) none) r = [])
      ∧ (∀ r ∈ tagger.recipes, ∀ f ∈ formOf (atIssue tagger 4) r, pnum (.v 5) ∉ formNums f)
      ∧ (∀ n ∈ namedRegs (atIssue tagger 4) none, ∀ r ∈ tagger.recipes, ∀ f ∈ formOf (atIssue tagger 4) r, n ∉ formNums f)
      ∧ (tagger.recipes.all fun r => (formOf (atIssue tagger 4) r).isSome) = true := by
  delta InTurn Settled operandsOk; and_intros <;> decide +kernel

/-- A program whose first instruction is RTAG before IADD v8, v1, v2. -/
def tagging : State :=
  { install State.reset (natLE 4 0xC5 ++ natLE 4 0x00808805) with units := [(1, { tagger with recipes := [] })] }

/-- The warp of this program. -/
def fresh : Warp := { tagger with recipes := [] }

theorem test_hyps_RtagRecordsItsRecipe :
    InTurn tagging fresh ∧ Calm fresh ∧ fresh.off = none ∧ AllActive fresh
      ∧ 4 + lengthOf (peekHalf tagging fresh (pcNow fresh + 4)) = 8
      ∧ (match fetchInsn (begun tagging 8) (atIssue fresh 8) (pcNow fresh + 4) with
        | (m, .ok bs) => decide (bs = natLE 4 0x00808805) && decide (decode bs = .ok (.iadd (.v 8) (.v 1) (.reg (.v 2)), 4))
          && decide (unitOf m 1 = atIssue fresh 8)
          && (match recipeForm (lowReg (atIssue fresh 8)) (.iadd (.v 8) (.v 1) (.reg (.v 2))) with
            | some f => decide (f.load = none) && tagOk (atIssue fresh 8) f
              && decide (nameCheck (atIssue fresh 8) (tagUses f) = none)
              && decide (poisonCheck (atIssue fresh 8) (activeThreads fresh) (tagUses f) = none)
              && !((tagUses f).reads.any (·.isQ)) && !(RName.x f.dst).isQ
              && answers (tagAccess (cxOf tagging 1 8) (.iadd (.v 8) (.v 1) (.reg (.v 2))) (tagRun (cxOf tagging 1 8) (.iadd (.v 8) (.v 1) (.reg (.v 2))) f bs) m) (fun b =>
                (unitOf b 1).heldPre == none && (unitOf b 1).waits == [] && (unitOf b 1).recipes.all fun r => r.row.isSome)
            | none => false)
        | _ => false) = true
      ∧ tagReserved (atIssue fresh 8) (.iadd (.v 8) (.v 1) (.reg (.v 2))) = false
      ∧ tagCwOk (atIssue fresh 8) (activeThreads fresh) (.iadd (.v 8) (.v 1) (.reg (.v 2)))
      ∧ convOf (.cvt (.v 8) (.v 1) (.lit 0x30)) = some (.cvt, .v 8, .v 1, .lit 0x30)
      ∧ cwCause (atIssue fresh 12) .cvt (.v 8) (.v 1) (.lit 0x30) 0x30 = none
      ∧ poisonCheck (atIssue fresh 12) [0] (usesOf (srcName (.lit 0x30)) []) = none := by
  delta InTurn Calm AllActive tagCwOk
  and_intros <;> first | decide +kernel | (intro f d a b h; cases h)

/-- The warp with c1 over the page as immutable memory. -/
def freshLoad : Warp :=
  let c := mkCap 0 1 1 (rR + 2 ^ 6) 4096 0 4 0x8000 true
  { fresh with regs := { fresh.regs with c := [(128, c), (129, c), (130, c)] } }

/-- The same program before LD v8, [c1] of a word. -/
def taggingLoad : State :=
  { install State.reset (natLE 4 0xC5 ++ ((encode (.ld 0 .word 1 .z (.v 8) none)).getD [])) with units := [(1, freshLoad)] }

theorem test_hyps_RtagRecordsItsRecipe_load :
    4 + lengthOf (peekHalf taggingLoad freshLoad (pcNow freshLoad + 4)) = 8
      ∧ (match fetchInsn (begun taggingLoad 8) (atIssue freshLoad 8) (pcNow freshLoad + 4) with
        | (m, .ok bs) => decide (decode bs = .ok (.ld 0 .word 1 .z (.v 8) none, 4)) && decide (unitOf m 1 = atIssue freshLoad 8)
          && (match recipeForm (lowReg (atIssue freshLoad 8)) (.ld 0 .word 1 .z (.v 8) none) with
            | some f =>
              let cx := cxOf taggingLoad 1 8
              let g := afterAtomics cx m
              let v := unitOf g 1
              f.load.isSome && tagOk (atIssue freshLoad 8) f && decide (nameCheck v (tagUses f) = none)
                && !((tagUses f).reads.any (·.isQ)) && !(RName.x f.dst).isQ
                && decide (poisonCheck v (activeThreads freshLoad) (tagUses f) = none)
                && answers (tagAccess cx (.ld 0 .word 1 .z (.v 8) none) (tagRun cx (.ld 0 .word 1 .z (.v 8) none) f bs) g) (fun b =>
                  (unitOf b 1).heldPre == none && (unitOf b 1).waits == [] && (unitOf b 1).recipes.all fun r => r.row.isSome)
            | none => false)
        | _ => false) = true := by
  and_intros <;> decide +kernel

theorem test_hyps_TcfgWritesTheShape :
    operandsOk (atIssue demoWarp 8) (activeThreads demoWarp) (usesOf (ssrcName (.lit 0x2FC1)) [])
      ∧ tileBad demoWarp 7 = false ∧ tshpBad ((getSSrc (atIssue demoWarp 8) (.lit 0x2FC1)).toNat % 2 ^ 32) = false
      ∧ accBad demoWarp 11 = false ∧ ashpBad ((getSSrc (atIssue demoWarp 8) (.lit 0xFFF)).toNat % 2 ^ 32) = false := by
  delta operandsOk; and_intros <;> decide +kernel

theorem test_hyps_TileComputationsStart :
    EngineOk demoWarp ∧ tileBad demoWarp 7 = false ∧ accBad demoWarp 11 = false ∧ copyBlocks demoWarp [0, 7] [11] = false
      ∧ mmaBad (matEnv demoWarp (pcNow demoWarp) demoWarp.rmode) 2 0 7 0 = false
      ∧ mmaBad (matEnv demoWarp (pcNow demoWarp) demoWarp.rmode) 4 0 7 3 = false
      ∧ scaccBad (matEnv demoWarp (pcNow demoWarp) demoWarp.rmode) 0 2 1 0 = false
      ∧ scaccBad (matEnv demoWarp (pcNow demoWarp) demoWarp.rmode) 7 2 3 0 = false := by
  delta EngineOk Simt AllActive; and_intros <;> decide +kernel

/-- Rows pass the checks and are all read. -/
def rowsServe (r : Rows) (writes : List Nat) : Prop :=
  rowsCheck (begun demo 8) (atIssue demoWarp 8) r rR 0b1111 = none
    ∧ gave (readRows 1 r r.rows 0 (modUnit (begun demo 8) 1 fun v => scoreboard v [] writes)) = true

theorem test_hyps_TileTransfersComplete :
    EngineOk demoWarp ∧ operandsOk (atIssue demoWarp 8) [lowLive demoWarp] (usesOf (rowsName false 1) [])
      ∧ operandsOk (atIssue demoWarp 8) [lowLive demoWarp] (usesOf (rowsName true 0) [])
      ∧ copyBlocks demoWarp [] [7] = false ∧ copyBlocks demoWarp [7] [] = false
      ∧ rowsServe (rowsOf (atIssue demoWarp 8) false 1 4 0x40 (shapeOf (getTshp demoWarp 7)).rows (shapeOf (getTshp demoWarp 7)).rb) [7]
      ∧ rowsServe (rowsOf (atIssue demoWarp 8) true 0 4 0x40 (shapeOf (getTshp demoWarp 7)).rows (shapeOf (getTshp demoWarp 7)).rb) [7]
      ∧ tldtBad (shapeOf (getTshp demoWarp 7)) = false ∧ accFmtOk 0 = true ∧ accFmtOk 6 = true
      ∧ rowsServe (rowsOf (atIssue demoWarp 8) false 1 16 0 ((matEnv demoWarp 0 0).acc 3).1 (((matEnv demoWarp 0 0).acc 3).2 * 4)) [11] := by
  delta EngineOk Simt AllActive operandsOk rowsServe; and_intros <;> decide +kernel

/-- The shape of tile 7, the rows that a TST of it stores, and those of an ACST of a3. -/
def shape7 : TShape := shapeOf (getTshp demoWarp 7)
def rows7 : Rows := rowsOf (atIssue demoWarp 8) false 1 4 0x40 shape7.rows shape7.rb
def rowsA3 : Rows := rowsOf (atIssue demoWarp 8) false 1 16 0 64 256

/-- The warp as a TST of tile 7 and an ACST of a3 read it. -/
def before7 : Warp := scoreboard (atIssue demoWarp 8) [7] []
def beforeA3 : Warp := scoreboard (atIssue demoWarp 8) [11] []

theorem test_hyps_TileTransfersComplete_stores :
    rowsCheck (begun demo 8) (atIssue demoWarp 8) rows7 rW 0b1011 = none
      ∧ (∀ i < shape7.rows, ∀ k < shape7.rb, tilePoison before7 7 (i * 64 + k) = false)
      ∧ gave (writeRows 1 rows7 0 ((List.range shape7.rows).map (tstRow before7 7 shape7))
        (modUnit (begun demo 8) 1 fun v => scoreboard v [7] [])) = true := by
  and_intros <;> decide +kernel

theorem test_hyps_TileTransfersComplete_accumulator :
    rowsCheck (begun demo 8) (atIssue demoWarp 8) rowsA3 rW 0b1011 = none
      ∧ (∀ i < 64, ∀ j < 64, accPoison beforeA3 3 i j = false)
      ∧ gave (writeRows 1 rowsA3 0 ((List.range 64).map (acstRow beforeA3 (matEnv demoWarp 0 0) (fmtOf 0) 3 64))
        (modUnit (begun demo 8) 1 fun v => scoreboard v [11] [])) = true := by
  and_intros <;> decide +kernel

/-- A copy of kind F, G with its descriptor at s`d` and c1 serves. -/
def copies (f g : Nat) (d : Fin 64) : Prop :=
  let v := atIssue richWarp 4
  let x := copyReq v f g d 1
  poisonCheck v [lowLive richWarp] (usesOf ((List.range 4).map fun i => .u (d.val + i)) []) = none
    ∧ poisonCheck v (if f = 3 then activeThreads richWarp else [lowLive richWarp])
      (usesOf (.c 1 :: if f = 2 && g = 0 then [.c (dRcap x.desc)] else []) []) = none
    ∧ copyServes (begun rich 4) v (cxOf rich 1 4) x

/-- What `copyServes` asks, with the entry size of the port as the one it is. -/
theorem copyServes_of (s : State) (v : Warp) (cx : Cx) (x : CopyReq)
    (h : (portEntry s v (dPort x.desc)).all (fun z => decide (dBytes x.desc ≤ z)) = true ∨ x.f ≠ 2 ∨ x.g ≠ 1)
    (h0 : descBad x.f x.g x.desc = false) (h1 : followBad v (matEnv v cx.pc cx.rmode) (dFollow x.desc) = none)
    (h2 : convertBad x.desc = false ∧ copyTileBad v (matEnv v cx.pc cx.rmode) x.f x.g x.n x.desc = false)
    (h3 : x.f ≠ 1 → ∀ c ∈ (if x.f = 3 then x.src else [x.src.headD Cap.null]), copySrcCheck s v x c = none)
    (h4 : copyDstCheck s v x = none ∧ (dDwen x.desc = true → dDwoff x.desc % 8 = 0) ∧ copySpmBad s v x = false
      ∧ (x.f = 2 → x.g = 1 → portOk s v (dPort x.desc) true = true)) : copyServes s v cx x := by
  refine ⟨h0, fun hf hg z hz => ?_, h1, h2.1, h2.2, h3, h4⟩
  rcases h with h | h | h
  · rw [hz] at h
    exact of_decide_eq_true h
  · exact absurd hf h
  · exact absurd hg h

theorem test_hyps_CopiesAreAccepted :
    copies 0 0 8 ∧ copies 0 1 12 ∧ copies 1 0 8 ∧ copies 1 1 20 ∧ copies 2 0 24 ∧ copies 2 1 28 ∧ copies 3 0 32 ∧ copies 3 1 36 := by
  refine ⟨?_, ?_, ?_, ?_, ?_, ?_, ?_, ?_⟩ <;>
    exact ⟨by decide +kernel, by decide +kernel, copyServes_of _ _ _ _ (by decide +kernel) (by decide +kernel) (by decide +kernel)
      (by decide +kernel) (by decide +kernel) (by decide +kernel)⟩

/-- A warp with a batch sealed, complete and poisoned. -/
def sealedWarp : Warp := { demoWarp with sealCtr := 1, batches := [⟨0, [], true, true⟩] }

theorem test_hyps_BatchesSealAndTest :
    EngineOk sealedWarp ∧ InTurn (withWarp sealedWarp) sealedWarp ∧ Calm sealedWarp
      ∧ operandsOk (atIssue sealedWarp 4) [lowLive sealedWarp] (usesOf [] [.u 63]) ∧ sealFull sealedWarp = false
      ∧ operandsOk (atIssue sealedWarp 8) (activeThreads sealedWarp) (usesOf (ssrcName (.lit 0)) [.u 0])
      ∧ notSealed sealedWarp ((getSSrc (atIssue sealedWarp 8) (.lit 0)).toNat % 2 ^ 16) = false
      ∧ batchDone sealedWarp ((getSSrc (atIssue sealedWarp 8) (.lit 0)).toNat % 2 ^ 16) = true := by
  delta EngineOk Simt AllActive InTurn Calm operandsOk; and_intros <;> decide +kernel

/-- The chain header through `c` serves, and `p` holds of it and of the state after the read. -/
def chainGives (len : Nat) (c : Cap) (p : State → Header → Bool) : Bool :=
  let v := atIssue richWarp len
  decide (localCheck (begun rich len) v c c.cursor 64 (rR + rW) 0b0001 64 = none)
    && (match capRead (begun rich len) v c c.cursor 64 with
      | (b, .ok (bs, _)) => (headerOf bs).ok 1 && p b (headerOf bs)
      | _ => false)

theorem test_hyps_ChainInstructionsComplete :
    operandsOk (atIssue richWarp 8) [lowLive richWarp] (usesOf [.c 2, .c 4] [.u 63])
      ∧ (∀ a ∈ [2, 3], chainGives 8 (getC (atIssue richWarp 8) 0 a) (fun b h =>
        let c := getC (atIssue richWarp 8) 0 a
        let g := getC (atIssue richWarp 8) 0 4
        decide (localCheck b (atIssue richWarp 8) g g.cursor 64 rR 0b1111 16 = none) && !h.full
          && decide (localCheck b (atIssue richWarp 8) c ((c.cursor + slotAt h h.resv : Nat) : Int) 64 (rR + rW) 0b0001 64 = none)
          && gave (appendEntry (atIssue richWarp 8) richWarp.rmode c g h (decide (a = 3)) b)
          && (a == 2 || (h.engine == 3 && h.cluster == richWarp.loc.cluster))) = true)
      ∧ operandsOk (atIssue richWarp 4) [lowLive richWarp] (usesOf [.c 2] [.u 0])
      ∧ chainGives 4 (getC (atIssue richWarp 4) 0 2) (fun b h =>
        gave (capWrite b (atIssue richWarp 4) (getC (atIssue richWarp 4) 0 2) ((getC (atIssue richWarp 4) 0 2).cursor + 12)
          (toBytes 4 h.resv) false)) = true
      ∧ chainGives 8 (getC (atIssue richWarp 8) 0 2) (fun _ h =>
        seqDone h.done ((getSSrc (atIssue richWarp 8) (.lit 0)).toNat % 2 ^ 32)) = true := by
  delta operandsOk; and_intros <;> decide +kernel

theorem test_hyps_WindowInstructionsComplete :
    operandsOk (atIssue richWarp 4) [lowLive richWarp] (usesOf [.u 6] [.u 63]) ∧ slotServes rich (atIssue richWarp 4) 6 [(0, 12)]
      ∧ operandsOk (atIssue richWarp 4) [lowLive richWarp] (usesOf [.u 41] [])
      ∧ slotServes rich (atIssue richWarp 4) 41 [(0, 12), (16, 12)]
      ∧ isOpenAs rich (getS (atIssue richWarp 4) 41).toNat = true
      ∧ (richWarp.copies.any (copyThrough (windowOf rich 5).kv.object)) = false
      ∧ gave (abortWindow (modUnit (begun rich 4) 1 fun v => closeWin v (liveThreads v))
        (reqOf (unitOf (modUnit (begun rich 4) 1 fun v => closeWin v (liveThreads v)) 1)) 5) = true
      ∧ (∀ p ∈ rich.units, p.2.asid = richWarp.asid → (p.2.copies.any (partlyReads (windowOf rich 5))) = false)
      ∧ slotServes rich (atIssue richWarp 4) 41 [(0, 12), (16, 12), (32, 5)]
      ∧ bitsOf (getS (atIssue richWarp 4) 41).toNat 32 5 ≤ (windowOf rich 5).pos + 1
      ∧ gave (commitWindow (unitOf (modUnit (begun rich 4) 1 fun v => closeWin v (liveThreads v)) 1) 5 0
        (modUnit (begun rich 4) 1 fun v => closeWin v (liveThreads v))) = true := by
  delta operandsOk slotServes; and_intros <;> decide +kernel

theorem test_hyps_WindowInstructionsComplete_open :
    let x := (getS (atIssue richWarp 4) 7).toNat
    let c := getC (atIssue richWarp 4) 0 5
    operandsOk (atIssue richWarp 4) [lowLive richWarp] (usesOf [.c 5, .u 7] [])
      ∧ slotServes closed (atIssue richWarp 4) 7 [(0, 12), (16, 12), (32, 4), (40, 7), (48, 3)]
      ∧ bitsOf x 48 3 ≠ 7 ∧ localCheck (begun closed 4) (atIssue richWarp 4) c c.cursor 64 rR 0b0001 16 = none
      ∧ (match readGranules (atIssue richWarp 4) c 4 c.cursor (begun closed 4) with
        | (b, .ok g) => answers (openWindow (cxOf closed 1 4) x g b) (fun _ => true)
        | _ => false) = true := by
  delta operandsOk slotServes; and_intros <;> decide +kernel

theorem test_hyps_BranchesMoveTheirThreads :
    operandsOk (atIssue demoWarp 4) (activeThreads demoWarp) (usesOf [mname 1] [])
      ∧ ejectSet (begun demo 4) 1 0 ((activeThreads demoWarp).map fun k =>
        (k, if (getM (atIssue demoWarp 4) 1).getLsbD k then targetPc 0 (.off 16) else 0 + 4)) = none
      ∧ operandsOk (atIssue demoWarp 8) (activeThreads demoWarp) (usesOf [.x (.v 1)] [])
      ∧ ejectSet (begun demo 8) 1 0 ((activeThreads demoWarp).map fun k =>
        (k, if getX (atIssue demoWarp 8) k (.v 1) ≠ 0 then targetPc 0 (.lit 0xFFFFFFFE) else 0 + 8)) = none
      ∧ operandsOk (atIssue demoWarp 4) (activeThreads demoWarp) (usesOf (uname (.s 4)) [])
      ∧ operandsOk (atIssue demoWarp 4) (activeThreads demoWarp) (usesOf (uname .z) [])
      ∧ operandsOk (atIssue demoWarp 4) (activeThreads demoWarp) (usesOf [.x (.v 2)] [])
      ∧ operandsOk (atIssue demoWarp 8) (activeThreads demoWarp) (usesOf [.x (.v 10)] [])
      ∧ (∀ k ∈ activeThreads demoWarp, indirect (codeBase demo (atIssue demoWarp 8)) (getX (atIssue demoWarp 8) k (.v 10)) (some 0xFFFFFFFE) % 2 = 0)
      ∧ ejectSet (begun demo 8) 1 0 ((activeThreads demoWarp).map fun k =>
        (k, (indirect (codeBase demo (atIssue demoWarp 8)) (getX (atIssue demoWarp 8) k (.v 10)) (some 0xFFFFFFFE) % 2 ^ 57).toNat)) = none := by
  delta operandsOk; and_intros <;> decide +kernel

/-- A warp whose threads have one return address each. -/
def called : Warp := { demoWarp with ras := [(0, ⟨[0x40], 0⟩), (1, ⟨[0x80, 0x40], 0⟩), (2, ⟨[0x44], 3⟩)] }

theorem test_hyps_CallsPushAndReturnsPop :
    (∀ w ∈ [demoWarp, called], ∀ k ∈ activeThreads w,
        (getRas w k).chip.length < 4 ∧ ((getRas w k).chip = [] → (getRas w k).spilled = 0))
      ∧ operandsOk (atIssue demoWarp 4) (activeThreads demoWarp) (usesOf [.x (.v 10)] [])
      ∧ (∀ k ∈ activeThreads demoWarp, indirect (codeBase demo (atIssue demoWarp 4)) (getX (atIssue demoWarp 4) k (.v 10)) none % 2 = 0)
      ∧ InTurn (withWarp called) called ∧ Calm called
      ∧ (∀ k ∈ activeThreads called, (getRas called k).chip ≠ [] ∧ rasTop called k % 2 = 0)
      ∧ Settled (unitOf (refillNow 1 (activeThreads called) (modUnit (begun (withWarp called) 4) 1 fun v => moveTo
        ((activeThreads called).foldl (fun v k => setRas v k (rasDrop (getRas v k))) v)
        ((activeThreads called).map fun k => (k, rasTop called k)))) 1) := by
  delta operandsOk InTurn Calm Settled; and_intros <;> decide +kernel

theorem test_hyps_JoinsDropsAndElectionsComplete :
    (∀ k ∈ liveThreads demoWarp, getMark demoWarp k ≠ .blocked true)
      ∧ operandsOk (atIssue demoWarp 4) (activeThreads demoWarp) (usesOf [mname 1] [])
      ∧ operandsOk (atIssue demoWarp 4) (activeThreads demoWarp) (usesOf [mname 15] []) := by
  delta operandsOk; and_intros <;> decide +kernel

theorem test_hyps_ExitEndsTheWarp : demoWarp.copies = [] ∧ sfind demo.groups demoWarp.grp = some demoGroup := by
  and_intros <;> decide +kernel

theorem test_hyps_BarriersComplete :
    (∀ lv < 4, demoGroup.bars.find? (fun x => x.is lv (barInst (launchOfUnit demo demoWarp).level lv demoWarp.loc)) = some ⟨lv, 0, 1, 3, 0, []⟩)
      ∧ operandsOk (atIssue demoWarp 4) (activeThreads demoWarp) (usesOf [.u 4] [])
      ∧ (barOf demo demoWarp 3).gen ≠ (getS (atIssue demoWarp 4) 4).toNat % 2 ^ 32 := by
  delta operandsOk; and_intros <;> decide +kernel

theorem test_hyps_WaitsComplete :
    (∀ k ∈ liveThreads demoWarp, getMark demoWarp k ≠ .blocked true) ∧
    operandsOk (atIssue demoWarp 8) (activeThreads demoWarp) (usesOf (ssrcName (.lit 2000)) [])
      ∧ (getSSrc (atIssue demoWarp 8) (.lit 2000)).toNat % 2 ^ 32 ≠ 0 ∧ (getSSrc (atIssue demoWarp 8) (.lit 0)).toNat % 2 ^ 32 = 0 := by
  delta operandsOk; and_intros <;> decide +kernel

theorem test_hyps_CountersAndControlRegistersRead :
    (∀ d ∈ [PReg.v 94, .o 6], operandsOk (atIssue demoWarp 4) (activeThreads demoWarp) (usesOf [] [.x d, .x (pnext d 1)]))
      ∧ operandsOk (atIssue demoWarp 4) (activeThreads demoWarp) (usesOf [] [.x (.v 95)])
      ∧ counterHalf 0 = none ∧ counterHalf 0x40 = none
      ∧ (∀ k ∈ activeThreads demoWarp, (getRas demoWarp k).chip ≠ [] ∨ (getRas demoWarp k).spilled = 0)
      ∧ counterHalf 0x50 = some (2, false) ∧ counterHalf 0x51 = some (2, true) := by
  delta operandsOk; and_intros <;> decide +kernel

theorem test_hyps_ControlRegistersWrite :
    operandsOk (atIssue demoWarp 8) [lowest (activeThreads demoWarp)] (usesOf (srcName (.lit 9)) [])
      ∧ operandsOk (atIssue demoWarp 4) [lowest (activeThreads demoWarp)] (usesOf (srcName (.reg (.v 1))) [])
      ∧ ctlBad 0x20 13 = none ∧ ctlBad 0x37 0x2FC1 = none ∧ ctlBad 0x3B 0xFFF = none ∧ ctlBad 0x53 (2 ^ 32 - 1) = none
      ∧ fit (withWarp handling) handling ∧ handling.inh = true := by
  delta operandsOk fit InTurn Calm Simt AllActive; and_intros <;> decide +kernel

/-- The demo's launch with a handler at 0x100. -/
def handlerLaunch : Launch :=
  { Launch.blank with
    asid := 1, kernel := 1, base := 96, ntiles := 8, naccs := 4, groups := 1, warps := 1, threads := 1, placed := 1, handler := some 0x100 }

/-- A warp of a kernel with a handler. -/
def trapping (w : Warp) : State := { withWarp w with launches := [(1, handlerLaunch)] }

/-- Threads 0 and 1 at the start, thread 2 further on. -/
def apart : Warp := { demoWarp with pcs := [(2, 0x40)] }

/-- v1 poisoned in thread 1; c1 untagged in thread 2; port 0 unbound. -/
def marred : Warp :=
  { withRegs fun r => { r with xp := [(129, 1)], c := [(128, pageCap 0x8000), (129, pageCap 0x8000), (130, Cap.null)] } with live := 7 }

/-- A warp with 8 base registers and 16 elastic ones. -/
def elastic8 : Warp := { demoWarp with base := 8, elastic := 16 }

/-- A class 1 thread (R320). -/
def loneThread : Warp := { demoWarp with live := 1, off := some ⟨none, 0, none, 0, 0, 0, false⟩ }

theorem test_hyps_TrapsEnterTheHandlerAndReturn :
    (∀ w ∈ [demoWarp, apart, marred, elastic8], fit (trapping w) w ∨ (InTurn (trapping w) w ∧ Calm w ∧ Simt w))
      ∧ demoWarp.inh = false ∧ (launchOfUnit (trapping demoWarp) demoWarp).handler = some 0x100
      ∧ (launchOfUnit demo demoWarp).handler = none ∧ (groupOf demo 1).stat = .running
      ∧ fit (withWarp handling) handling ∧ (∀ k ∈ threadsOf handling.handler, isLive handling k = true → k ∈ activeThreads handling)
      ∧ (getS handling 61).toNat % 2 = 0 := by
  delta fit InTurn Calm Simt AllActive; and_intros <;> decide +kernel

/-- The instruction at s61 is four bytes long. -/
theorem test_hyps_TrapsEnterTheHandlerAndReturn_skip :
    let s := { withWarp handling with mem := ssetMany 0 demo.mem 0x100000 (natLE 4 0xA0400001) }
    let b := modUnit (begun s 4) s.turn fun v => closeWin v (activeThreads handling)
    (match (lenAt b (unitOf b 1) ((getS handling 61).toNat % 2 ^ 57)).2 with
      | .ok n => n == 4
      | .error _ => false) = true := by decide +kernel

theorem test_hyps_TrapConditionsAreTaken :
    (RName.x (.v 8)).beyond { demoWarp with base := 8 } = true
      ∧ nameCheck elastic8 (usesOf (.x (.v 1) :: srcName (.reg (.v 2))) [.x (.v 23)]) = none ∧ isElastic elastic8 23 = true
      ∧ nameCheck demoWarp (usesOf [.x (.q 7)] [.x (.v 3)]) = none ∧ (getPort demoWarp 7).mode = 0
      ∧ nameCheck marred (usesOf [.x (.v 1)] [.x (.v 3)]) = none ∧ (∃ k ∈ activeThreads marred, poisonX (atIssue marred 4) k (.v 1) ≠ 0)
      ∧ operandsOk (atIssue marred 4) (activeThreads marred) (usesOf (.c 1 :: srcName (.reg (.v 2))) [.c 6])
      ∧ (∃ k ∈ activeThreads marred, (getC marred k 1).tag = false)
      ∧ operandsOk (atIssueMem marred 4) (activeThreads marred) (usesOf [.c 1, .x .z] ((loadRegs (.v 5) 4).map .x))
      ∧ ((activeThreads marred).filter fun k => localCheck (trapping marred) (atIssueMem marred 4) (getC marred k 1)
        (eaOf (atIssueMem marred 4) 1 .z 0 k) 4 needLoad.rights needLoad.kinds needLoad.align == some 3) = [2]
      ∧ (∃ k ∈ liveThreads apart, k ∉ activeThreads apart)
      ∧ operandsOk (atIssue demoWarp 4) (activeThreads demoWarp) (usesOf [.x (.v 1)] [])
      ∧ ((activeThreads demoWarp).filter fun k => decide (indirect (codeBase demo demoWarp) (getX (atIssue demoWarp 4) k (.v 1)) none % 2 = 1)) = [0, 2]
      ∧ InTurn (withWarp loneThread) loneThread ∧ Calm loneThread ∧ 0 < loneThread.base ∧ (groupOf (withWarp loneThread) 1).stat = .running := by
  delta operandsOk InTurn Calm; and_intros <;> decide +kernel

/-- In the entry routine of the warp. -/
def entering : Warp := { exiting with routine := some ⟨false, 7, 0, 1, 4096, 0, 0, [], 0, false, false, [(0, 0x40), (1, 0x40), (2, 0x40)], [], []⟩ }

/-- A context with a migration stop pending. -/
def leaving : State := { demo with ctxs := [(1, { loadedCtx with migration := some 5000 })] }

/-- A kernel with one monument, at offset 0x40 of its code. -/
def monumental : State :=
  { leaving with
    launches := [(1, { handlerLaunch with montab := 0x200, nmon := 1 })]
    mem := ssetMany 0 demo.mem 0x100200 (toBytes 4 0x40) }

theorem test_hyps_RoutinesEndAndMonumentsStop :
    InTurn (withWarp exiting) exiting ∧ Calm exiting ∧ exiting.off = none
      ∧ (∀ r ∈ exiting.routine, r.exit = true ∧ ∀ k ∈ threadsOf r.threads, k ∈ activeThreads exiting)
      ∧ InTurn (withWarp entering) entering ∧ Calm entering
      ∧ (∀ r ∈ entering.routine, r.exit = false ∧ (∀ k ∈ threadsOf r.threads, k ∈ activeThreads entering)
        ∧ (let b := finishResume (modUnit (begun (withWarp entering) 4) 1 (endEntry [] r)) 1
           (unitOf b 1).recipes = [] ∧ (unitOf b 1).heldPre = none ∧ (unitOf b 1).waits = []))
      ∧ monumentStops demo demoWarp (activeThreads demoWarp) = false
      ∧ monumentStops monumental demoWarp (activeThreads demoWarp) = true
      ∧ ((monumentsOf monumental (atIssue demoWarp 4))[0]?).isSome = true
      ∧ ((monumentsOf monumental (atIssue demoWarp 4))[1]?).isNone = true := by
  delta InTurn Calm; and_intros <;> decide +kernel

/-- A device on which unit 1 is the unit an event names. -/
def about (w : Warp) (f : EvArg → EvArg) : State := { withWarp w with ev := f { EvArg.none with unit := 1, id := 7 } }

/-- A warp with a load and a copy in flight: the copy's row 0 is to move. -/
def inFlight : Warp :=
  { richWarp with
    pends := [⟨7, 0, 0, 0, 0, 0, [⟨3, 5, false⟩], false, false, false, false, true, 1, 0x8000, []⟩]
    copies := [copyOf (cxOf rich 1 4) (atIssue richWarp 4) { copyReq (atIssue richWarp 4) 0 0 8 1 with f := 0 } 0 none] }

/-- Its device. -/
def flying : State := { rich with units := [(1, inFlight)], ev := { EvArg.none with unit := 1, id := rich.nextId } }

theorem test_hyps_WaitingUnitsGoOn :
    sfind flying.units flying.ev.unit = some inFlight ∧ inFlight.stat = .resident ∧ inFlight.vec = none
      ∧ (match inFlight.copies.find? fun c => c.id == flying.ev.id with
        | some c =>
          let m := modUnit (advanced flying 1) 1 (fun v => copyBegin v c)
          copyReady flying inFlight c 0 && (match copyRow (unitOf m 1) c 0 (partOf c 0).src m with
            | (s1, l, none) => (match copyPut 1 c { partOf c 0 with src := l } (copyConvert c l) s1 with
              | (_, _, none) => true
              | _ => false)
            | _ => false)
        | none => false) = true := by
  and_intros <;> decide +kernel

/-- A warp that waits for a barrier of the group's level, one that sleeps, and one whose timer is due. -/
def waiting : Warp := { demoWarp with waits := [⟨1, 1, 0, 2, 0, 0, 0, 7, 0, 4, none⟩], marks := [(0, .blocked false), (1, .blocked false), (2, .blocked false)] }
/-- Its wait, until TIME 2000. -/
def napping : Wait := ⟨10, 0, 0, 2000, 7, 0, 0, 7, 0, 8, none⟩

def asleep1 : Warp := { waiting with waits := [napping] }
def stalled : Warp := { waiting with waits := [⟨3, 0, 0, 0, 7, 0, 0, 7, 0, 4, none⟩], ports := [(0, ⟨1, 0, 0x100, 0, 0⟩)] }
def timed : Warp := { demoWarp with wtcmp := 5, wtime := 5 }
def spilled : Warp :=
  { withRegs fun r => { r with c := r.c ++ [(768, pageCap 0x9000)] } with ras := [(0, ⟨[], 1⟩)] }

theorem test_hyps_WaitingUnitsGoOn_wakes :
    mayWake waiting = true ∧ ctxRuns (about waiting id) waiting.asid = true
      ∧ (wokenWait (about waiting id) 1).isSome = true ∧ (wokenWait (about stalled id) 1).isSome = true
      ∧ mayWake asleep1 = true ∧ (asleep1.waits.find? fun x => x.kind == 10) = some napping
      ∧ timerDue (about timed id) timed = true ∧ timed.routine = none ∧ timed.inh = false ∧ dependents timed shadowNums = []
      ∧ isLive spilled 0 = true ∧ (getRas spilled 0).chip = [] ∧ 0 < (getRas spilled 0).spilled
      ∧ localCheck (about spilled id) spilled (getC spilled 0 6) (spillAddr (getC spilled 0 6) 1) 8 rR 0b1111 1 = none
      ∧ gave (capRead (about spilled id) spilled (getC spilled 0 6) (spillAddr (getC spilled 0 6) 1).toNat 8) = true := by
  and_intros <;> decide +kernel

/-- A copy into tile 0 whose rows have all moved and whose follow-on MMA is still to run. -/
def following : Warp :=
  let c := copyOf (cxOf rich 1 4) (atIssue richWarp 4) (copyReq (atIssue richWarp 4) 0 1 12 1) 0 none
  { richWarp with copies := [{ c with desc := [64 + 64 * 2 ^ 32, 64, 0, 0x020008E5 * 2 ^ 32], rows := [], follow := true }] }

theorem test_hyps_WaitingUnitsGoOn_follow :
    (following.copies.all fun c => followReady { rich with units := [(1, following)] } following c) = true ∧ following.copies ≠ [] := by
  and_intros <;> decide +kernel

/-- Events about context 1, in a state and with a value. -/
def ctxEvent (st : CState) (f : Ctx → Ctx) (v : Nat) : State :=
  { demo with ctxs := [(1, f { loadedCtx with state := st, slice := 5, watchdog := 7 })], ev := { EvArg.none with asid := 1, unit := 1, value := v } }

theorem test_hyps_ContextsChangeState :
    (ctxOf (ctxEvent .resident id 1) 1).state = .resident ∧ (ctxOf (ctxEvent .faulted id 5) 1).state = .faulted
      ∧ (ctxOf (ctxEvent .resetting id 0) 1).state = .resetting ∧ (ctxOf (ctxEvent .resetting (fun c => { c with dying := true }) 0) 1).dying = true
      ∧ (ctxOf (ctxEvent .resident id 1) 1).slice ≠ 0 ∧ (ctxOf (ctxEvent .resident id 1) 1).watchdog ≠ 0
      ∧ waitsFault (ctxEvent .resident id 1) 1 = false ∧ otherReady (ctxEvent .resident id 1) 1 = false
      ∧ otherReady { demo with ctxs := [(1, loadedCtx), (2, { loadedCtx with state := .ready })] } 1 = true := by
  and_intros <;> decide +kernel

/-- Warps about to expire: vectoring, an exit routine over its budget, a held pre-emption past its bound, ejected threads. -/
def vectoring : Warp := { demoWarp with vec := some ⟨1, false⟩ }
def heldBack : Warp := { demoWarp with heldPre := some 1, tm := true, tmaskClk := 4096 }
def missing : Warp := { demoWarp with live := 1, marks := [(0, .ejected 0)], rejoinWait := 65536 }
def outWarp : Warp := { demoWarp with stat := .outCtx }

theorem test_hyps_ContextsChangeState_bounds :
    (ctxOf demo 1).exitBudget ≤ 0 + 8192 ∧ (∀ r ∈ exiting.routine, r.exit = true)
      ∧ (ctxOf demo 1).tmaskBound ≤ heldBack.tmaskClk + 0 ∧ heldBack.resumeGuard = false ∧ heldBack.routine = none
      ∧ waitsRejoin missing = true ∧ (ctxOf demo 1).rejoinLimit ≤ missing.rejoinWait + 0
      ∧ vectoring.vec = some ⟨1, false⟩ := by
  and_intros <;> decide +kernel

/-- The last warp of a context that switches out is out; a warp that is out alone, with a slot free. -/
def outgoing : State := { ctxEvent .switchingOut id 0 with units := [(1, outWarp)], groups := [(1, { demoGroup with allocs := [] })] }
def returning : State := { about { demoWarp with stat := .outAlone } id with ctxs := [(1, loadedCtx)], partReq := [(0, BitVec.allOnes 64)] }

/-- A switched-out context with no warp on its own virtual device. -/
def selecting : State :=
  { outgoing with
    units := [], ctxs := [(1, { loadedCtx with state := .switchedOut, reason := 1 })], vds := [(0, Vd.reset 2 0)] }

theorem test_hyps_ContextsChangeState_out :
    (ctxOf outgoing 1).state = .switchingOut ∧ allOut outgoing 1 = true
      ∧ (ctxOf ((runningGroups outgoing 1).foldl groupOut ((ctxUnits outgoing 1).foldl (fun s p => stopEjected s p.1) outgoing)) 1).state = .switchingOut
      ∧ warpReady returning 1 = true ∧ ((takeSlot 1 [demoWarp.loc] returning).bind (keepContexts 1)).isSome = true
      ∧ selectable selecting 1 = true ∧ noUnitOut selecting 1 = true ∧ sfind selecting.units 1 = none
      ∧ freeContexts returning 1 Loc.zero ≠ [] := by
  and_intros <;> decide +kernel

/-- Device state about virtual device 0 and its rings, in host memory at 0x1000 and 0x2000. -/
def ringed : State :=
  { demo with
    vds := [(0, { Vd.reset 2 0 with evrBase := 0x1000, evrLog2 := 4, fqBase := 0x2000, fqLog2 := 4, ctlchain := 0x4000, ctlTail := 2, ctlLog2 := 4 })]
    partAsid := [(0, 8191 * 2 ^ 16)]
    arbiter := [⟨1, 0, 0, 2, 1, 0, 0, 0, 0, .entry⟩]
    waitingFaults := [⟨0, 1, 2, 3, 4⟩]
    tokens := [⟨5, 1, false, false, false, none, .unit 1 1⟩] }

/-- The arbiter holds another kind of event, with records waiting at the fault unit. -/
def presenting (x : EvWhat) (l : List Fault32) : State := { ringed with arbiter := [⟨0, 0, 0, 0, 1, 0, 0, 0, 0, x⟩], waitingFaults := l }

/-- An entry of the control chain of KIND `k` whose granule 1 names the page at 0xE000, and granule 3 too where it is ATTEST. -/
def controlled (k : Nat) (g1 g3 : Cap) : State :=
  { ringed with mem := ssetMany 0 ringed.mem (2 ^ 64 + 0x4080) (toBytes 16 k ++ toBytes 16 g1.bits.toNat ++ zeros 16 ++ toBytes 16 g3.bits.toNat) }

/-- The entry is there and its checks pass, or do not. -/
def checks (s : State) (ok : Bool) : Bool :=
  match ctlEntry s 0 with
  | some e => !eHold e && (match ctlCheck s 0 e with
    | .ok _ => ok
    | .error _ => !ok)
  | none => false

theorem test_hyps_RingsRecordsAndControlChainsServe :
    (nextEvent ringed).any (fun e => e.what == .entry) = true
      ∧ (nextEvent (presenting (.record ⟨0, 1, 2, 3, 4⟩) [])).any (fun e => e.what == .record ⟨0, 1, 2, 3, 4⟩) = true
      ∧ (nextEvent (presenting (.record ⟨0, 1, 2, 3, 4⟩) [⟨0, 0, 0, 0, 0⟩])).any (fun e => e.what == .record ⟨0, 1, 2, 3, 4⟩) = true
      ∧ (nextEvent (presenting .reset [])).any (fun e => e.what == .reset) = true
      ∧ (nextEvent (presenting (.irq 2) [])).any (fun e => e.what == .irq 2) = true ∧ fqRoom (vdOf ringed 0) = true
      ∧ (vdOf ringed 0).state ≠ 3 ∧ firstHeld 0 ringed.holding = none ∧ (vdOf ringed 0).lostSince = 0
      ∧ evrRoom (vdOf ringed 0) = true ∧ evrRoom (vdOf demo 0) = false
      ∧ (ringed.waitingFaults.find? fun f => fqRoom (vdOf ringed f.vd)).isSome = true
      ∧ (ringed.tokens.find? fun t => t.num == 5 % 2 ^ 32 && (ctxOf ringed t.asid).vd == 0).isSome = true
      ∧ (∀ k ∈ ringed.tokens, k.num = 6 → (ctxOf ringed k.asid).vd ≠ 0)
      ∧ (∀ k ∈ [0x20, 0x21, 0x22], checks (controlled k (pageCap 0xE000) Cap.null) true = true)
      ∧ checks (controlled 0x23 (pageCap 0xE000) (pageCap 0xE000)) true = true
      ∧ (∀ k ∈ [0x20, 0x21, 0x22, 0x23], checks (controlled k ⟨2 ^ 127, false⟩ ⟨2 ^ 127, false⟩) false = true)
      ∧ checks (controlled 0x1F Cap.null Cap.null) false = true ∧ checks (controlled 0x24 Cap.null Cap.null) false = true
      ∧ ctlHeaderOk (headerOf (toBytes 4 0x40 ++ zeros 60)) = true ∧ ctlHeaderOk (headerOf (zeros 64)) = false := by
  and_intros <;> decide +kernel

theorem test_hyps_RingsRecordsAndControlChainsServe_registers :
    (match (objRead ringed (reqEngine 1) 1 0xE000 32 false).2 with
        | .ok (bs, _) => descOk ringed (fieldAt bs 0 8) (fieldAt bs 8 8) (fieldAt bs 16 8)
        | .error _ => false) = true := by
  decide +kernel

theorem test_hyps_RegisterWindowWritesActAsGiven :
    asidIn ringed (vdHpart ringed 0) (bitsOf 8191 0 13) = true ∧ asidIn demo (vdHpart demo 0) (bitsOf 1 0 13) = false
      ∧ keyedFrame (bitsOf 0 32 2) (bitsOf 0 0 28) = true ∧ keyedFrame (bitsOf (2 * 2 ^ 32) 32 2) 0 = true
      ∧ (sfind rich.slots 5).isSome = true ∧ (vdOf ringed 0).state = 2 ∧ (vdOf demo 1).state = 0 ∧ (vdOf demo 0).state ≠ 0
      ∧ pieces 0x108040 16 = [(0x108040, 16)]
      ∧ connOk demo ⟨1, 1000000, 1000000, 48⟩ (8 * (0x108040 / 65536 / 2 ^ 20 % 8) + 0x108040 / 256 % 8) = true
      ∧ sget none demo.frameKeys (0x108040 / 65536) = none
      ∧ (let s := { demo with ev := { EvArg.none with asid := 1, id := 1, seq := 0x8000, addr := 0x108000, flag := true, bytes := [1, 2] } }
         directOk s 2 = true ∧ gave (readReq s ⟨1, 1000000, 1000000, 48⟩ (directPieces s 0 0x108000 2)) = true
           ∧ gave (writeReq s ⟨1, 1000000, 1000000, 48⟩ (directPieces s 0 0x108000 2) [(1, false), (2, false)]) = true)
      ∧ gave (objRead demo ⟨1, 1000000, 1000000, 53⟩ 1 0x8000 16 false) = true
      ∧ gave (objWrite demo ⟨1, 1000000, 1000000, 55⟩ 1 0x8000 (toBytes 4 7) false) = true := by
  and_intros <;> decide +kernel

/-- A page of HBM to move to pool frame 7, over pool port 1, with the pool's links up. -/
def moving : State :=
  { demo with
    links := (List.range 23).map fun n => (n, ⟨2, fullWidth n⟩)
    ev := { EvArg.none with asid := 1, id := 2 ^ 24, row := 1, addr := 0x108000, value := 7, flag := true } }

theorem test_hyps_RegisterWindowWritesActAsGiven_migration :
    directOk moving 65536 = true ∧ frameOk 0 (0x108000 / 65536) = true ∧ frameOk 2 7 = true ∧ pathDown moving 2 = false
      ∧ (match readReq moving ⟨1, 1000000, 1000000, 49⟩ (directPieces moving 0 (0x108000 / 65536 * 65536) 65536) with
        | (m, .ok l) => gave (writeReq m ⟨1, 1000000, 1000000, 49⟩ (directPieces moving 2 (7 * 65536) 65536) l)
        | _ => false) = true := by
  and_intros <;> decide +kernel

/-- An image with the right magic number, and one without. -/
theorem test_hyps_StartsLinksAndPowerActAsGiven :
    imageError (imageOf (zeros 64)) ≠ 0 ∧ State.reset.bootStat = 15 ∧ (linkOf State.reset 22).state = 0 ∧ (linkOf State.reset 1).state = 0
      ∧ widthOk 1 (fullWidth 1) = true ∧ widthOk 22 (fullWidth 22 / 2) = true ∧ (linkOf State.reset 0).state = 2 ∧ (8 : Nat) ≠ fullWidth 0
      ∧ sget 0 State.reset.stretch 7 = 0 ∧ sget 0 { State.reset with stretch := [(7, 1)] }.stretch 7 = 1 := by
  and_intros <;> decide +kernel

/-- A launch record at 0xE000: a group of one warp of 3 threads at level 1. -/
def recordBytes : List Byte :=
  toBytes 8 1 ++ toBytes 8 (8 + 2 ^ 24) ++ toBytes 4 1 ++ toBytes 4 1 ++ toBytes 8 3 ++ zeros 96
    ++ toBytes 16 (pageCap 0).bits.toNat ++ toBytes 16 (pageCap 0).bits.toNat ++ zeros 96
    ++ toBytes 16 (pageCap 0).bits.toNat ++ toBytes 16 (pageCap 0).bits.toNat ++ toBytes 16 (pageCap 0).bits.toNat

/-- An entry with granule 0 and the page at three places. -/
def entryWith (g0 : Nat) (st : EState) (g2 g3 : Cap) : Entry :=
  { Entry.blank with seq := 1, state := st, granules := [⟨BitVec.ofNat 128 g0, false⟩, pageCap 0xE000, g2, g3], length := 0 }

/-- A device with a chain of the engine, its entry 1 read. -/
def engines (engine : Nat) (e : Entry) : State :=
  { rich with
    mem := ssetMany 0 rich.mem 0x10E000 recordBytes
    tags := rich.tags ++ [(0x10E08, true), (0x10E09, true), (0x10E10, true), (0x10E11, true), (0x10E12, true)]
    partReq := [(0, BitVec.allOnes 64)]
    kernels := [(kernelKey 1 1, ⟨1, pageCap 0xE000, 4, 0, Cap.null⟩)]
    chains := [(2, ⟨1, 0, pageCap 0x9000, engine, 0, 4, 2, 0, [e], false⟩)]
    launches := rich.launches ++ [(7, { Launch.blank with asid := 1, groups := 1, placed := 1, finished := 1 })]
    nextId := 10
    ev := { EvArg.none with chain := 2, seq := 1, asid := 1, cap := pageCap 0xE000, gang := 3, member := 4 } }

/-- A node of class 0 that is Ready. -/
def nodeReady : State := engines 1 (entryWith 1 .ready Cap.null Cap.null)

theorem test_hyps_ChainEnginesServeTheirEntries_dispatch :
    engineOn nodeReady (chainOf nodeReady 2) = true ∧ mayPlace nodeReady 1 = true ∧ heldCompletion (chainOf nodeReady 2) = none
      ∧ (entryOf (chainOf nodeReady 2) 1).isSome = true
      ∧ mayDispatch nodeReady (entryWith 1 .ready Cap.null Cap.null) = true ∧ eClass (entryWith 1 .ready Cap.null Cap.null) = 0
      ∧ chainOf (advanced nodeReady 1) 2 = chainOf nodeReady 2
      ∧ (match entryRecord (advanced nodeReady 1) (chainOf nodeReady 2) (entryWith 1 .ready Cap.null Cap.null) with
        | (m, .ok (some r)) =>
          let l := nodeLaunch (chainOf nodeReady 2) 2 (entryWith 1 .ready Cap.null Cap.null) r
          decide (launchStatus m l (nodeGroups (entryWith 1 .ready Cap.null Cap.null) r) = none) && l.level != 7
            && (placeGroup { m with nextId := m.nextId + 1, launches := sput m.launches m.nextId l } m.nextId Loc.zero).isSome
        | _ => false) = true := by
  and_intros <;> decide +kernel

/-- Its record asks for level 7. -/
def nodeGang : State := { nodeReady with mem := ssetMany 0 nodeReady.mem 0x10E00B [7] }

theorem test_hyps_ChainEnginesServeTheirEntries_gang :
    (match entryRecord (advanced nodeGang 1) (chainOf nodeGang 2) (entryWith 1 .ready Cap.null Cap.null) with
      | (m, .ok (some r)) =>
        let l := nodeLaunch (chainOf nodeGang 2) 2 (entryWith 1 .ready Cap.null Cap.null) r
        decide (launchStatus m l (nodeGroups (entryWith 1 .ready Cap.null Cap.null) r) = none) && l.level == 7
      | _ => false) = true := by decide +kernel

/-- A node whose launch is over, a COPY entry under way, and a completion that was held. -/
def nodeDone : State := engines 1 { entryWith 1 .running Cap.null Cap.null with launch := 7 }
def copying : State := engines 1 (entryWith 2 .running Cap.null Cap.null)
def heldDone : State := engines 1 { entryWith 1 .running Cap.null Cap.null with fixed := some (6, 0, 0) }

theorem test_hyps_ChainEnginesServeTheirEntries_complete :
    (sfind nodeDone.launches 7).all (fun l => l.placed == l.groups && l.finished == l.groups) = true
      ∧ (sfind nodeDone.launches 7).isSome = true ∧ (∀ p ∈ nodeDone.units, p.2.stat = .ended → (groupOf nodeDone p.2.grp).launch ≠ 7)
      ∧ eKind (entryWith 2 .running Cap.null Cap.null) = 2
      ∧ (heldCompletion (chainOf heldDone 2)).isSome = true
      ∧ requestDone (engines 1 (entryWith 0x201 .running Cap.null (pageCap 0x9000))) (chainOf nodeReady 2)
        (entryWith 0x201 .running Cap.null (pageCap 0x9000)) = true ∧ eClass (entryWith 0x201 .running Cap.null Cap.null) = 2 := by
  and_intros <;> decide +kernel

/-- A BIN entry of two items, and a request of the sampler. -/
def binEntry1 : Entry := { entryWith 3 .ready ⟨4, false⟩ (pageCap 0x8100) with granules := [⟨3, false⟩, pageCap 0x8000, ⟨4, false⟩, pageCap 0x8100], length := 2 }
def binning : State := engines 2 binEntry1
def sampling : State := engines 3 (entryWith 4 .ready Cap.null Cap.null)

theorem test_hyps_ChainEnginesServeTheirEntries_engines :
    engineOn binning (chainOf binning 2) = true
      ∧ (let b := makeResident (advanced binning 1) 1
         let c := chainOf b 2
         match objRead b (chainReq c) 1 0x8000 8 false with
         | (m, .ok (bs, _)) => gave (objWrite m (chainReq c) 1 0x8100 ((countItems 4 (wordsOf 4 2 bs)).1.flatMap (toBytes 4)) false)
         | _ => false) = true
      ∧ offered (chainOf sampling 2) = some (entryWith 4 .ready Cap.null Cap.null) ∧ mayServe sampling 2 = true := by
  and_intros <;> decide +kernel

/-- A launch with a group to place, or a thread. -/
def placing (off : Bool) : State :=
  { nodeReady with
    launches := [(1, { Launch.blank with asid := 1, groups := 2, warps := 1, threads := 3, level := 1, offThreads := off })]
    ev := { EvArg.none with id := 1 } }

theorem test_hyps_ChainEnginesServeTheirEntries_place :
    mayPlace (placing false) 1 = true ∧ gangPartOf (placing false) 1 = none
      ∧ ((gangPartOf { placing false with gangParts := [(3, ⟨1, 1, 0, true, true, [], []⟩)] } 1).isSome = true)
      ∧ (placeGroup (placing false) 1 Loc.zero).isSome = true ∧ (placeThread (placing true) 1 ⟨3, 11, 3, 0, 3⟩).isSome = true := by
  and_intros <;> decide +kernel

/-- Gang 3, led here by entry 1 of chain 2, and a gang that this device is a member of. -/
def ganged (st : GangState) (acked : List Nat) : State :=
  { engines 1 (entryWith 1 .running Cap.null Cap.null) with
    gangs := [(3, ⟨1, 1, 2, 1, st, [4, 5], acked, [(5, 0)], 0⟩)]
    gangParts := [(3, ⟨7, 1, 0, true, false, [(20, { demoWarp with grp := 9 })], [(9, { demoGroup with launch := 7, members := [20] })]⟩)] }

/-- The arming of its launch on a device: whether its groups find places. -/
def arms (s : State) : Bool :=
  match readRecord s (reqEngine 1) (pageCap 0xE000) with
  | (m, .ok r) =>
    let l := { launchFrom 1 r with member := 4 }
    decide ((launchStatus m l l.groups).getD 0 = 0)
      && (reserveAll { m with nextId := m.nextId + 1, launches := sput m.launches m.nextId l } 3 m.nextId 0).isSome
  | _ => false

theorem test_hyps_GangsCommitOrAbort :
    capCovers (pageCap 0xE000) 384 rR 64 = true
      ∧ arms nodeReady = true ∧ arms { nodeReady with partReq := [] } = false
      ∧ nodeReady.ev.value = nodeReady.domainId ∧ pathDown State.reset 3 = true
      ∧ gangLives (ganged .running []) ⟨1, 1, 2, 1, .running, [4, 5], [], [(5, 0)], 0⟩ = true
      ∧ gangLives demo ⟨1, 1, 2, 1, .running, [4, 5], [], [], 0⟩ = false
      ∧ (∀ d ∈ [((5 : Nat), (0 : Nat))], d.1 ≠ 4) ∧ (∀ k ∈ [4, 5], ∃ d ∈ [((5 : Nat), (0 : Nat)), (4, 9)], d.1 = k)
      ∧ launchDone (ganged .running []) 7 = true ∧ mayPlace (ganged .running []) 1 = true
      ∧ mayPlace { ganged .running [] with vds := [(0, { Vd.reset 2 0 with state := 3 })] } 1 = false
      ∧ (∀ p ∈ (ganged .running []).gangParts, (sfind (ganged .running []).launches p.2.launch).isSome = true ∧ p.2.groups ≠ []
        ∧ (p.2.groups.map (·.1)).Nodup) := by
  and_intros <;> decide +kernel

/-- Kernels in the states that loading passes through, and a thread blocked on a lazily bound page. -/
def kernelled (st : Nat) : State :=
  { nodeReady with kernels := [(kernelKey 1 1, ⟨1, pageCap 0xE000, st, 0, Cap.null⟩)], ev := { EvArg.none with asid := 1, id := 1 } }
def stubbed : Warp := { demoWarp with marks := [(0, .blocked true), (1, .blocked true), (2, .blocked true)] }

/-- A launch one of whose two groups is to be rebuilt from a portable frame. -/
def rebuilding : State :=
  { monumental with
    partReq := [(0, BitVec.allOnes 64)]
    ctxs := [(1, loadedCtx)]
    launches := [(1, { handlerLaunch with groups := 2, montab := 0x200, nmon := 1, k := [pageCap 0, pageCap 0] })]
    portables := [⟨9, 1, 1, 0, 0, 0, 0, 0, 0, 7, [], [], [], []⟩]
    nextId := 10 }

theorem test_hyps_KernelsLoadAndContextsMove :
    (sget Kernel.blank (kernelled 3).kernels (kernelKey 1 1)).state = 3 ∧ (sget Kernel.blank (kernelled 4).kernels (kernelKey 1 1)).state = 4
      ∧ 0 ∈ heldThreads stubbed ∧ touches (getPc stubbed 0) 0 = true ∧ getMark stubbed 0 = .blocked true
      ∧ anyUnstopped leaving 1 = true ∧ (ctxOf leaving 1).migration = some 5000
      ∧ (placeGroup rebuilding 1 ⟨0, 0, 1, 0, 0⟩).all (fun t => canRebuild t 1 rebuilding.nextId) = true
      ∧ (placeGroup rebuilding 1 ⟨0, 0, 1, 0, 0⟩).isSome = true := by
  and_intros <;> decide +kernel

/-- A program of the unassigned major 0x0E. -/
def illegal : State :=
  { install State.reset (natLE 4 0x39) with units := [(1, demoWarp)], launches := [(1, handlerLaunch)], ev := { EvArg.none with unit := 1 } }

theorem test_hyps_KernelsLoadAndContextsMove_illegal :
    mayFetch illegal 1 = true ∧ (launchOfUnit illegal demoWarp).handler = some 0x100
      ∧ (match (fetchInsn illegal demoWarp (pcNow demoWarp)).2 with
        | .ok bs => decide (decode bs = .error .illegalOp)
        | .error _ => false) = true := by
  and_intros <;> decide +kernel

/-- A program of one NOP, its issue next. -/
def stepping : State := State.reset.withFetchWord 32 1

theorem test_hyps_StepRunsTheDecodedInstruction :
    turnUnit { stepping with agenda := [] } 1 = 1 ∧
    stepping.bootStat = 15 ∧ stepping.agenda = [issueItem 1] ∧ sfind stepping.units 1 = some loadedWarp
      ∧ canIssue stepping loadedWarp = true ∧ beforeIssue stepping loadedWarp = none ∧ carriers loadedWarp = []
      ∧ (match (fetchInsn { stepping with agenda := [], turn := 1 } loadedWarp (pcNow loadedWarp)).2 with
        | .ok bs => decide (decode bs = .ok (.nop, 4))
        | .error _ => false) = true
      ∧ isEvent .coldStart = true ∧ isEvent .illegalEncoding = true := by
  and_intros <;> decide +kernel

theorem test_hyps_DecodeGivesBackEncoded : Instr.wf .nop = true ∧ Instr.isEvent .nop = false ∧
    encode (.iadd (.v 95) (.q 7) (.lit 0xFFFFFFFF)) = some [0x07, 0xDF, 0x3B, 0x00, 0xFF, 0xFF, 0xFF, 0xFF] := by
  and_intros <;> decide +kernel

theorem test_hyps_DecodedIsEncodedByItsBytes : decode (natLE 4 1) = .ok (.nop, 4) := by decide +kernel

theorem test_hyps_StepsKeepMemoryCanonical : memoryOk stepping = true ∧ (∃ t, step stepping = .next t) := by
  refine ⟨by decide +kernel, ?_⟩
  have h : (match step stepping with
      | .next _ => true
      | _ => false) = true := by decide +kernel
  split at h
  · exact ⟨_, by assumption⟩
  · cases h

/-! ### Single steps

Expected values are worked out by hand from the rule that each comment names, or are the spec's own examples. -/

/-- What a test asks of the state that an instruction answers, run by the unit in turn. -/
def runs (i : Instr) (s : State) (p : State → Bool) : Bool :=
  match exec i s with
  | .next t => p t
  | _ => false

/-- Register v`n` of a thread of unit 1. -/
def vreg (t : State) (n : Fin 96) (th : Nat) : Word := getX (unitOf t 1) th (.v n)

/-- v`n` of threads 0 to 2. -/
def vregs (t : State) (n : Fin 96) : List Word := [vreg t n 0, vreg t n 1, vreg t n 2]

-- R114: v1 = 5, 6, 7 plus 0x7FFFFFFA passes 2^31 − 1 in threads 1 and 2.
theorem test_iadds_clamps : runs (.iaddsI (.v 3) (.v 1) (.lit 0x7FFFFFFA)) demo
    (fun t => vregs t 3 == [0x7FFFFFFF, 0x7FFFFFFF, 0x7FFFFFFF]) = true := by decide +kernel
-- R114: the upper half of −1 × 6 is all ones, and of 0xFFFFFFFF × 6 it is 5.
theorem test_imulh : (runs (.imulhI (.v 3) (.v 1) (.lit 0xFFFFFFFF)) demo (fun t => vreg t 3 1 == 0xFFFFFFFF)
    && runs (.imulhN (.v 3) (.v 1) (.lit 0xFFFFFFFF)) demo (fun t => vreg t 3 1 == 5)) = true := by decide +kernel
-- R115: by 0 the quotient is all ones and the remainder the dividend; −7 / 2 is −3 and its remainder −1.
theorem test_division_corners : (runs (.idivI (.v 3) (.v 1) (.reg .z)) demo (fun t => vregs t 3 == [0xFFFFFFFF, 0xFFFFFFFF, 0xFFFFFFFF])
    && runs (.iremN (.v 3) (.v 1) (.reg .z)) demo (fun t => vregs t 3 == [5, 6, 7])
    && runs (.iremI (.v 3) (.v 1) (.lit 0xFFFFFFFE)) demo (fun t => vregs t 3 == [1, 0, 1])) = true := by decide +kernel
-- R116: ROL by 32 is ROL by 0; SAR fills with the sign.
theorem test_shifts : (runs (.rol (.v 3) (.v 1) (.lit 32)) demo (fun t => vregs t 3 == [5, 6, 7])
    && runs (.sar (.v 3) (.v 4) (.lit 36)) (withWarp (withRegs fun r => { r with x := [(512, 0x80000000)] })) (fun t => vreg t 3 0 == 0xF8000000)) = true := by
  decide +kernel
-- R117: the field of 12 bits at bit 4 of 0x0000F230 is 0xF23, whose sign bit is set.
theorem test_bfx_sign : runs (.bfxI (.v 8) (.v 2) (.lit 0xC04)) (withWarp (withRegs fun r => { r with x := [(256, 0xF230)] }))
    (fun t => vreg t 8 0 == 0xFFFFFF23) = true := by decide +kernel
-- R118: 5 × 0xFFFFFFFF + the pair (1, 2) = 0x4_FFFFFFFB + 0x2_00000001 = 0x6_FFFFFFFC.
theorem test_imadw_pair : runs (.imadw (.v 4) (.v 1) (.lit 0xFFFFFFFF)) (withWarp (withRegs fun r => { r with x := [(128, 5), (512, 1), (640, 2)] }))
    (fun t => vreg t 4 0 == 0xFFFFFFFC && vreg t 5 0 == 6) = true := by decide +kernel
-- R82: the compact form reads its destination.
theorem test_compact_self : runs (.compactIsub (.v 1) (.v 2)) demo (fun t => vregs t 1 == [3, 3, 5] && getPc (unitOf t 1) 0 == 2) = true := by decide +kernel
-- R119: only the bits of active threads change: m1 = 5 keeps bit 4 where it was set.
theorem test_icmp_mask : runs (.icmpLtI 1 (.v 1) (.lit 7)) (withWarp (withRegs fun r => { r with m := [(1, 0x15)] }))
    (fun t => getM (unitOf t 1) 1 == 0x13) = true := by decide +kernel
-- R85, R120: the literal is sign-extended: 9 + (−1) = 8.
theorem test_uarith_literal : runs (.uarithIadd (.s 5) (.s 4) (.lit 0xFFFFFFFF)) demo (fun t => getS (unitOf t 1) 5 == 8) = true := by decide +kernel
-- R123: m1 holds threads 0 and 2.
theorem test_masks : (runs (.mpop 6 1) demo (fun t => getS (unitOf t 1) 6 == 2) && runs (.mfind 6 1 (.lit 1)) demo (fun t => getS (unitOf t 1) 6 == 2)
    && runs (.mfind 6 1 (.lit 3)) demo (fun t => getS (unitOf t 1) 6 == 128) && runs .mact3 demo (fun t => getM (unitOf t 1) 3 == 7)) = true := by
  decide +kernel
-- R29, R135: 1.5 + 2.25 = 3.75; R138: 1 / 0 = +∞.
theorem test_float : (runs (.fadd (.v 3) (.v 4) (.lit 0x40100000)) (withWarp (withRegs fun r => { r with x := [(512, 0x3FC00000)] })) (fun t => vreg t 3 0 == 0x40700000)
    && runs (.frcp (.v 3) .z) demo (fun t => vreg t 3 0 == 0x7F800000)) = true := by decide +kernel

/-- A conversion of `x` under control word `c` in mode RNE. -/
def conv (f : CvtFn) (c x : Word) : BitVec 64 := cvtValue f ⟨0, 0, 0⟩ c x.toNat 0

-- R144: the table of the spec. The control words put the destination in bits 5:3, the source in 2:0, SOV in 7:6, ROV in 10:8.
theorem test_cvt_table :
    [conv .cvt 0x08 0x477FF000, conv .cvt 0x88 0x477FF000, conv .cvt 0x208 0x477FF000, conv .cvt 0x38 0x40400000, conv .cvt 0x30 0x3FB33333,
      conv .cvi 0x00 0x43964000, conv .cvi 0x00 0xBFC00000, conv .cvi 0x28 0x7FC00000, conv .unpk 0x1805 0x0000F000, conv .sat 0x0A 0x00010000].map (·.truncate 32)
    = [0x7C00, 0x7BFF, 0x7BFF, 0x80, 0x4D, 0x7F, 0xFFFFFFFE, 0, 0xC0C00000, 0x7FFF] := by decide +kernel
-- R147, R149: v1 = 5, 6, 7.
theorem test_cross_thread : (runs (.shflx (.v 3) (.v 1) (.lit 1)) demo (fun t => vregs t 3 == [6, 5, 7])
    && runs (.wscani .add true (.v 3) (.v 1)) demo (fun t => vregs t 3 == [0, 5, 11])
    && runs (.wredi .maxN (.v 3) (.v 1)) demo (fun t => vregs t 3 == [7, 7, 7])) = true := by decide +kernel
-- R150: v2 = 2, 3, 2.
theorem test_match : (runs (.matchT .leader (.v 3) (.v 2)) demo (fun t => vregs t 3 == [0, 1, 0])
    && runs (.matchT .rank (.v 3) (.v 2)) demo (fun t => vregs t 3 == [0, 0, 1]) && runs (.vote .uni (.v 3) (.v 2)) demo (fun t => vregs t 3 == [0, 0, 0])) = true := by
  decide +kernel
-- R125: the cursor moves; below 0 the bits stay and the tag is cleared.
theorem test_capadd : (runs (.capadd 2 1 (.lit 4)) demo (fun t => (getC (unitOf t 1) 0 2).cursor == 0x8004 && (getC (unitOf t 1) 0 2).tag)
    && runs (.capadd 2 1 (.lit 0xFFFF7FFF)) demo (fun t => (getC (unitOf t 1) 0 2).cursor == 0x8000 && !(getC (unitOf t 1) 0 2).tag)) = true := by decide +kernel
-- R184, R191: the threads store in order to 0x8040, 0x8044 and 0x8048 of the page, which stands at HBM byte 0x100000.
theorem test_st : runs (.st .word 1 (.v 10) (.v 1) none) demo (fun t => memBytes t 0x108040 12 == [5, 0, 0, 0, 6, 0, 0, 0, 7, 0, 0, 0]) = true := by decide +kernel

/-- The page with bytes at 0x8040. -/
def filled (bs : List Byte) : State := { demo with mem := ssetMany 0 demo.mem 0x108040 bs }

/-- The values pending for the destination registers of the threads. -/
def pending (t : State) : List (Nat × List (Nat × Word)) := (unitOf t 1).pends.map fun p => (p.thread, p.dests.map fun d => (d.reg, d.val))

-- R189: a half is sign-extended by LDX and zero-extended by LD.
theorem test_ldx : (runs (.ldx 2 .half 1 .z (.v 5) (some 0x40)) (filled [0x34, 0xF2]) (fun t => (pending t).head? == some (0, [(5, 0xFFFFF234)]))
    && runs (.ld 2 .half 1 .z (.v 5) (some 0x40)) (filled [0x34, 0xF2]) (fun t => (pending t).head? == some (0, [(5, 0xF234)]))) = true := by decide +kernel
-- R96, R98: inside the window the register keeps its old value.
theorem test_window : runs (.ld 2 .word 1 .z (.v 1) (some 0x40)) (filled [9]) (fun t => vregs t 1 == [5, 6, 7]) = true := by decide +kernel
-- R195: the three threads add 5, 6 and 7 to one word, each taking the value before it.
theorem test_atom : runs (.atom 0 .word 1 .z (.v 1) 0x40 .add .device) (filled [1])
    (fun t => memBytes t 0x108040 4 == [19, 0, 0, 0] && (pending t).map (·.2) == [[(1, 1)], [(1, 6)], [(1, 12)]]) = true := by decide +kernel
-- R195: CAS stores where the old value is D and answers the old value: D = 5, X = 2 in thread 0.
theorem test_cas : runs (.atom 0 .word 1 .z (.v 4) 0x40 .cas .device)
    { filled [5] with units := [(1, { withRegs (fun r => { r with x := [(512, 5), (640, 2)] }) with live := 1 })] }
    (fun t => memBytes t 0x108040 4 == [2, 0, 0, 0]) = true := by decide +kernel
-- R202: STS and LDS of the scratchpad.
theorem test_scratchpad : (runs (.sts .byte (.v 10) (.v 1) none) demo (fun t => (List.range 9).map (fun o => spmByte t 1 (0, 0, 0) (0x40 + o)) == [5, 0, 0, 0, 6, 0, 0, 0, 7])
    && runs (.lds 0 .word .z (.v 5) (some 0x400)) demo (fun t => (pending t).head? == some (0, [(5, 0x11)]))) = true := by decide +kernel
-- R207, R310: the pop takes the entry's first word and moves HEAD and USED.
theorem test_pop : runs (.mov (.v 3) (.reg (.q 0))) alone (fun t => vreg t 3 0 == 0x11 && spmWord t 1 (0, 0, 0) 0x108 == some (2 ^ 32 + 1)
    && spmWord t 1 (0, 0, 0) 0x110 == some (2 ^ 32 + 2 ^ 16 + 3)) = true := by decide +kernel
-- R207, R310: the push writes entry 1, at 0x410, and moves RESV and TAIL.
theorem test_push : runs (.mov (.q 1) (.reg (.v 1))) alone (fun t => spmWord t 1 (0, 0, 0) 0x108 == some (2 * 2 ^ 32)
    && spmWord t 1 (0, 0, 0) 0x110 == some (2 * 2 ^ 32 + 3) && spmWord t 1 (0, 0, 0) 0x410 == some 5 && (getPort (unitOf t 1) 1).credits == 0) = true := by
  decide +kernel
-- R329: 16 bytes reach the target: the generation is 1 and the count 0.
theorem test_dwadd : runs (.dwadd 40 (.lit 16)) rich (fun t => spmWord t 1 (0, 0, 0) 0x80 == some (2 ^ 48 + 16 * 2 ^ 24)) = true := by decide +kernel
-- R66, R67: v8 := v1 + v2 in every thread, with its entry VALID at the instruction's own PC.
theorem test_rtag : runs .rtag tagging (fun t => vregs t 8 == [7, 9, 9]
    && (recipeOf (unitOf t 1) 8).map (fun r => (r.pc, r.st, r.depth, r.insn)) == some (4, .valid, 0, 0x00808805)) = true := by decide +kernel
-- R70: a dropped value is made again when it is read.
theorem test_replay : runs (.mov (.v 3) (.reg (.v 8)))
    (withWarp { tagger with recipes := [⟨8, 0x00808805, 0, 4, 0, 0, .dropped, false, false, none⟩] }) (fun t => vregs t 3 == [7, 9, 9]) = true := by decide +kernel
-- R164: threads 0 and 2 go 32 bytes ahead and thread 1 past the branch.
theorem test_bra : runs (.bra (some 1) (.off 16)) demo (fun t => [0, 1, 2].map (getPc (unitOf t 1)) == [32, 4, 32]) = true := by decide +kernel
-- R74, R166: CALLI goes to v1 = 5, 6, 7; only 6 is even, so the warp traps with MISALIGN for threads 0 and 2 and goes to its handler.
theorem test_calli_misaligned : runs (.calli (.v 1) none) (trapping demoWarp) (fun t => getS (unitOf t 1) 62 == 6 && getM (unitOf t 1) 15 == 5
    && getPc (unitOf t 1) 1 == 0x100) = true := by decide +kernel
-- R74: RET takes the newest return address.
theorem test_ret : runs .ret (withWarp called) (fun t => [0, 1, 2].map (getPc (unitOf t 1)) == [0x40, 0x40, 0x44]) = true := by decide +kernel
-- R167: with m1 = threads 0 and 2 only, thread 1 comes too and all go on.
theorem test_join : runs (.join 1) demo (fun t => [0, 1, 2].map (getPc (unitOf t 1)) == [4, 4, 4]) = true := by decide +kernel
-- R167: thread 2 is in m1 and has not come: threads 0 and 1 park.
theorem test_join_parks : runs (.join 1) (withWarp apart) (fun t => getMark (unitOf t 1) 0 == .parked 1 && getPc (unitOf t 1) 0 == 0) = true := by decide +kernel
-- R169, R268: the only warp of the group ends.
theorem test_exit : runs .exit demo (fun t => (sfind t.units 1).isNone && (groupOf t 1).stat == .done) = true := by decide +kernel
-- R177, R326: one participant arrives and the generation goes from 3 to 4.
theorem test_barrier : runs .barCore demo (fun t => (barOf t demoWarp 1).gen == 4 && getPc (unitOf t 1) 0 == 4) = true := by decide +kernel
-- R157, R158: cause SOFT is 0x0E, INFO the literal 0x2A; the handler stands at base + 0x100.
theorem test_trap : runs (.trap (some 0x2A)) (trapping demoWarp) (fun t => getS (unitOf t 1) 62 == 0x2A0E && getS (unitOf t 1) 61 == 0
    && getPc (unitOf t 1) 2 == 0x100 && (unitOf t 1).tm && (unitOf t 1).inh) = true := by decide +kernel
-- R161: TRET gives back s61, s62 and m15.
theorem test_tret : runs .tret (withWarp { handling with shadow61 := 3, shadow62 := 4, shadow15 := 6, regs := { handling.regs with s := [(61, 0x44), (62, 0xE)] } })
    (fun t => getPc (unitOf t 1) 0 == 0x44 && getS (unitOf t 1) 61 == 3 && getS (unitOf t 1) 62 == 4 && getM (unitOf t 1) 15 == 6 && !(unitOf t 1).inh) = true := by
  decide +kernel
-- R160: with no handler the group ends with TRAPPED and the cause.
theorem test_trap_ends : runs (.trap none) demo (fun t => (groupOf t 1).stat == .ended && (groupOf t 1).status == 2 && (groupOf t 1).cause == 0x0E) = true := by
  decide +kernel
-- R35, R63: WRCTL RMODE, 9 and RDCTL.
theorem test_rmode : (runs (.wrctl 0x020 (.lit 9)) demo (fun t => (unitOf t 1).rmode == 9)
    && runs (.rdctl (.v 3) 0x020) (withWarp { demoWarp with rmode := 9 }) (fun t => vreg t 3 0 == 9)) = true := by decide +kernel
-- R217, R222: TZERO takes its tile as one operation of no busy time.
theorem test_tzero : runs (.tzeroTile 0 3) demo (fun t => (unitOf t 1).tops.map (fun o => (o.writes, o.left)) == [([3], 0)]) = true := by decide +kernel
-- R229, R232: the copy is accepted with its one row to move, and the row lands in the scratchpad at 0x800.
theorem test_copy : (runs (.cpy 0 8 1) rich (fun t => (unitOf t 1).copies.map (fun c => (c.f, c.rows)) == [(0, [0])])
    && runs .copyTransfer { flying with mem := ssetMany 0 flying.mem 0x108000 [7, 8] } (fun t => spmByte t 1 (0, 0, 0) 0x800 == 7 && spmByte t 1 (0, 0, 0) 0x801 == 8
      && (unitOf t 1).copies == [])) = true := by decide +kernel
-- R236: the first seal is number 0 and the counter goes to 1.
theorem test_bseal : runs (.bseal 8) (withWarp { demoWarp with regs := { demoWarp.regs with s := [(8, 5)] } }) (fun t => getS (unitOf t 1) 8 == 0 && (unitOf t 1).sealCtr == 1) = true := by
  decide +kernel
-- R238: the entry goes to slot RESV = 1, RESV becomes 2, and s10 is 1.
theorem test_chapp : runs (.chapp 10 2 4) { rich with mem := ssetMany 0 rich.mem 0x10B000 [0xAB] } (fun t => memByte t 0x109080 == 0xAB && memByte t 0x109008 == 2
    && getS (unitOf t 1) 10 == 1) = true := by decide +kernel
-- R243: the window is open at position 2 under number 3, length 0.
theorem test_kvlen : runs (.kvlen 7 6) rich (fun t => getS (unitOf t 1) 7 == BitVec.ofNat 64 (3 * 2 ^ 32 + 2 ^ 48 + 2 * 2 ^ 52)) = true := by decide +kernel
-- R315, R397: a write of CONN0 is read back; another virtual device may not write it.
theorem test_register_window : (runs .registerWrite { demo with ev := { EvArg.none with addr := 0x1000, value := 5 } } (fun t => readReg t 0 0x1000 == 5)
    && runs .registerWrite { demo with ev := { EvArg.none with vd := 1, addr := 0x1000, value := 5 } } (fun t => readReg t 0 0x1000 == 2 ^ 64 - 1)) = true := by
  decide +kernel
-- R399: the event goes to the ring's first slot with the device's generation.
theorem test_event : runs .eventAccept ringed (fun t => hostBytes t 0x1000 8 == [2, 0, 1, 0, 0, 0, 0, 0] && (vdOf t 0).evrTail == 1) = true := by decide +kernel
-- R382: the ring holds word(key, 0) to word(key, 15).
theorem test_rng : runs .rngRingRefill { rich with ev := { EvArg.none with id := 5 } } (fun t => ((sfind t.slots 5).map fun r => r.ring.length) == some 16) = true := by
  decide +kernel
-- R79, R80: the word of NOP runs, and the PC stands after it.
theorem test_step : (match step stepping with
    | .next t => getPc (unitOf t 1) 0 == 4
    | _ => false) = true := by decide +kernel


/-! ### The worked translation of R304 to R306, and a signed image (R405) -/

/-- The Cheori body of the worked program dot64, with a rodata image of 272 zero bytes. -/
def dotBody : List Byte :=
  ([0x0001000800000002, 0x0001000700000000, 0x4200F40000000001, 0x0000000000000000, 0x0304000FFE000001, 0x0000000000000003,
    0x2051007FFF000001, 0x0000000000000000, 0x2071001000000001, 0x0000000000000010, 0x2071003000000001, 0x0000000000000090,
    0x4000005FFF000000, 0x4300005001003000, 0xF000000000000002, 0x0002000500000001, 0x4600000000000000, 0x1602006005000000,
    0x1002006006007000, 0x2340006000000000, 0x2340005000000001, 0x0000000000000004, 0xF00000000000FFFF] : List Nat).flatMap (toBytes 8) ++ zeros 272

/-- The native words that the spec gives for it. -/
def dotCode : List Byte :=
  ([(4, 0xE0004035), (4, 0x2350095), (4, 0xC5), (4, 0x8035900F), (4, 0x3), (4, 0xC5),
    (4, 0xA751183), (4, 0x70), (4, 0xE480083), (4, 0x80), (4, 0xE480283), (4, 0x100),
    (2, 0x9E), (4, 0xC080044D), (4, 0xC0C0844D), (4, 0x40200071), (4, 0x8000075), (4, 0x20100077),
    (4, 0x0), (4, 0x40020559), (4, 0x44428541), (4, 0x808058D), (4, 0x808048F), (4, 0x4),
    (4, 0x80000071)] : List (Nat × Nat)).flatMap fun p => toBytes p.1 p.2

/-- R304 to R306: the code, the tables and the record's fields are those of the worked program. -/
theorem test_translate_dot64 :
    ((translate dotBody 0x1001000000 0 false none).map fun t =>
      decide (t.bytes.take 0x62 = dotCode) && t.shape == 0x1001000810 && t.frame == 0xBA00 && t.montab == 0x100000180
        && t.cheori == 0x1C8000001A0
        && decide ((t.bytes.drop 0x180).take 32 = toBytes 4 0x42 ++ toBytes 2 1 ++ toBytes 2 2 ++ toBytes 2 0 ++ toBytes 2 4
          ++ toBytes 4 0x190 ++ toBytes 4 0x00030010 ++ toBytes 4 0x00500004 ++ toBytes 4 0x00730011 ++ toBytes 4 0xF4020000)
        && decide ((t.bytes.drop 0x1A0).length = 456)) = some true := by decide +kernel

/-- With E = 0 the two kept values are spilled, and the stack holds them (R304). -/
theorem test_translate_dot64_spilled :
    ((translate dotBody 0x1001000000 0 true none).map fun t => (bitsOf t.shape 8 6, t.stack)) = some (0, 16) := by decide +kernel

/-- A body with a loop on a comparison, an indirect call and a return: MOV x0 ← 3; ISUB x0 ← x0 − 1, CMPI.NE x1, NEXTIF x1 → 2, 3;
MOV x2 ← 4, CALLV x2; ST, RET. -/
def loopBody : List Byte :=
  ([0x0001000300000004, 0x0001000100000000, 0x4000000FFF000001, 3, 0xF000000000000002,
    0x0002000200000000, 0x0101000000000001, 1, 0x0601001000FFE000, 0xF100100000020003,
    0x0003000100000001, 0x4000002FFF000001, 4, 0xF20020000000FFFF,
    0x0004000100000000, 0x2340000000000000, 0xF300000000000000] : List Nat).flatMap (toBytes 8)

/-- R298, R299: it is accepted, two of its segments are monuments, and the place where its threads end waits for all of them: JOIN m0, EXIT. -/
theorem test_translate_loop :
    cheoriOk loopBody = true ∧ ((translate loopBody 0x1000000 0 false none).map fun t => t.montab / 2 ^ 32) = some 2
      ∧ ((translate loopBody 0x1000000 0 false none).map fun t => (t.bytes.drop 152).take 8 == toBytes 4 0x40200071 ++ toBytes 4 0x80000071)
        = some true := by
  and_intros <;> decide +kernel

/-- A body that a load accepts; one with an entry segment that it lacks, and one cut short, are not (R288, R296). -/
theorem test_cheori_checks :
    cheoriOk dotBody = true ∧ cheoriOk (dotBody.set 6 9) = false ∧ cheoriOk (dotBody.take 176) = false := by
  and_intros <;> decide +kernel

/-- A 3072-bit modulus made for this test. -/
def testModulus : List Byte :=
  toBytesBe 48 0xc64ab3010747dfa0c3a7c77ebaf2045b3bbfd71b75a6316228ac7dd50f7af35713e6ed9610036a7da2794790dbb238ef ++
    toBytesBe 48 0x70425a17e4ca68c120655bebaf121f36b32e58bf4f71ba064ceb2223b442414cbe693bd4ecdea611465889c0e2792827 ++
    toBytesBe 48 0xba28265226e4c0e08a120831c29ea2d541cd1fc144203f9dbb57b9948da630f727da036c4e346931041523adbff56b04 ++
    toBytesBe 48 0x730af9a7aa4b5b43a5cb8f7c43bf508f39f32d77c197c27fc6bac5fa6dccd39c6f438090cc793f18bdd881ab5e57624c ++
    toBytesBe 48 0x67592538865355fc2150ac104c019ad9477ba395c7c353687c86b8595ce9348e6053ef934c6ade3ac1e0e7a6813d1a4f ++
    toBytesBe 48 0xae82d4177c05b3c703305193b3c31ce6b85cd29e45a74069ff2bf656504d7b9be0aa1e67db125c468b641ff7a91ed228 ++
    toBytesBe 48 0x8bc226d331c6db5393833319509c7fc958e0c05e73d157ecae5a35ec58cb224bdbf893afdf934aa28bd0983677c84e89 ++
    toBytesBe 48 0xb14b748e09f00c02d1a5d07ed14c17130b564a91078c444c9349eda94f610f1edbaa72f7def004b90592478bab2c9c71

/-- The RSASSA-PSS signature under it of a body of the three letters K, V and 9, its salt the bytes 0 to 31, made with the private key
outside this package. -/
def testSignature : List Byte :=
  toBytesBe 48 0x9d12216335fc7e748a1e2a7d7579060c6a8591fdd44a8f3f97f3848b8205a9f496bff3132c516a1c4f4d277beddde52f ++
    toBytesBe 48 0x0644f2df10939bacab0275cd204bc7fd7387e44f68c1267eb8f31afb42188d15f3535bf937403140585aa23ade5222c0 ++
    toBytesBe 48 0xd9f5277bab6c513651f9bca73ae78ff164d31da93f0a8dd2241174e186f2b792699f3f89deea519f34ef5f633f7a07f0 ++
    toBytesBe 48 0x6bf57c3ec27c6e3ad1a75c12f6f4401aea071e213fb0c5431669f3c293d9255220f195dc10869ab4d10b03eb13defe10 ++
    toBytesBe 48 0x9267748b9801ec56af2bd743d08ddf2da43afc4bc1ab93288c58f571c96a49d7cf57a0fcb5000abc24e2f3721dc18d95 ++
    toBytesBe 48 0xc2903c88d3ab82e8773a494fcdcf6acc1e3ea6bb0922cc233eb6a416d7ed7f6f94ae6d169043bae97049768310cdb2f8 ++
    toBytesBe 48 0x2e5f062dfe5f492f6fe8a27b3d161b8c5de3bc7075fbfb239eb33a65c9071694eaaf0cef89f1515d18436083a29eecdc ++
    toBytesBe 48 0x7efd8e6588af587735c40c80919918d930b780aa10e8e3dd6f2fd3ec4244cf1980484c256500fe0c3d7b29b6d99cd8a0

/-- R405: the signature holds for its own body and for no other. -/
theorem test_image_signature :
    pssOk testModulus testSignature (sha256 [0x4B, 0x56, 0x39]) = true ∧ pssOk testModulus testSignature (sha256 [0x4B, 0x56, 0x38]) = false := by
  and_intros <;> decide +kernel

/-- A kernel whose record names the Cheori body of dot64 at 0x1000 of the code object, in a given state. -/
def chained (st : Nat) (bs : List Byte) : State :=
  let s := kernelled st
  { s with
    mem := ssetMany 0 (ssetMany 0 s.mem 0x10E050 (toBytes 4 0x1000 ++ toBytes 4 456)) 0x101000 bs
    ev := { s.ev with cap := pageCap 0xE000, flag := true, id := 2, bytes := [1, 2] } }

theorem test_hyps_KernelsLoadAndContextsMove_translation :
    let own := fun s => ownTranslation s 1 (pageCap 0xE000) (pageCap 0) false []
    (own (chained 3 dotBody)).isSome = true ∧ (own (chained 3 (dotBody.set 0 200))).isNone = true := by
  and_intros <;> decide +kernel

theorem test_hyps_KernelsLoadAndContextsMove_data :
    let data := fun v => makeData (chained 3 dotBody) 1 (pageCap 0xE000) 2 v [1, 2]
    (data (2 ^ 127 + 65536 * 2 ^ 64)).isSome = true ∧ (data 0).isNone = true := by
  and_intros <;> decide +kernel

theorem test_hyps_KernelsLoadAndContextsMove_load :
    let s := chained 3 dotBody
    let b := (peek s s.ev.asid s.ev.cap.object s.ev.cap.cursor 384).getD (zeros 384)
    let k1 := ((engineCap s (reqEngine s.ev.asid) s.ev.cap.object (s.ev.cap.cursor + 0x90)).2.toOption).getD Cap.null
    loadStatus b k1 (fun o n => (peek s s.ev.asid k1.object (k1.low + o) n).getD (zeros n)) = 0 := by
  decide +kernel

end Sys2Proof.Tests
end

/-! SUPPORT. The per-thread integer instructions and the integer comparisons (R109 to R119): the functions of the ALU are those of
the spec, and an instruction that is one call of a shared shape computes its function. -/

namespace Sys2Proof.Proofs

open Sys2Proof.Machine Sys2Proof.Laws

/-! ### The functions of the ALU, at every width -/

section Alu

variable {w : Nat}

theorem toInt_eq_zero {b : BitVec w} : b.toInt = 0 ↔ b = 0#w := by
  simpa using BitVec.toInt_inj (x := b) (y := 0#w)

theorem toNat_eq_zero {b : BitVec w} : b.toNat = 0 ↔ b = 0#w := by
  simpa using BitVec.toNat_inj (x := b) (y := 0#w)

/-- The clamp of R5 is a maximum of a minimum where its bounds are in order. -/
theorem clampInt_eq_max_min {lo hi : Int} (h : lo ≤ hi) (x : Int) : clampInt x lo hi = max lo (min hi x) := by
  unfold clampInt
  split
  · omega
  · split <;> omega

theorem aluAddsI_eq_ofInt_max_min (a b : BitVec w) :
    aluAddsI a b = BitVec.ofInt w (max (-2 ^ (w - 1)) (min (2 ^ (w - 1) - 1) (a.toInt + b.toInt))) := by
  have hpos : (0 : Int) < 2 ^ (w - 1) := by positivity
  rw [aluAddsI, clampInt_eq_max_min (by omega)]

theorem aluAddsN_eq_ofNat_min (a b : BitVec w) : aluAddsN a b = BitVec.ofNat w (min (2 ^ w - 1) (a.toNat + b.toNat)) := by
  rw [aluAddsN, Nat.min_comm]

theorem aluAbsd_eq_ofInt_abs (a b : BitVec w) : aluAbsd a b = BitVec.ofInt w |a.toInt - b.toInt| := by
  rw [aluAbsd, ← BitVec.ofInt_natCast, Int.natCast_natAbs]

theorem aluMinI_eq_ofInt_min (a b : BitVec w) : aluMinI a b = BitVec.ofInt w (min a.toInt b.toInt) := by
  unfold aluMinI
  split
  next h => rw [min_eq_right h.le, BitVec.ofInt_toInt]
  next h => rw [min_eq_left (not_lt.mp h), BitVec.ofInt_toInt]

theorem aluMaxI_eq_ofInt_max (a b : BitVec w) : aluMaxI a b = BitVec.ofInt w (max a.toInt b.toInt) := by
  unfold aluMaxI
  split
  next h => rw [max_eq_right h.le, BitVec.ofInt_toInt]
  next h => rw [max_eq_left (not_lt.mp h), BitVec.ofInt_toInt]

theorem aluMinN_eq_ofNat_min (a b : BitVec w) : aluMinN a b = BitVec.ofNat w (min a.toNat b.toNat) := by
  unfold aluMinN
  split
  next h => rw [min_eq_right h.le, BitVec.ofNat_toNat, BitVec.setWidth_eq]
  next h => rw [min_eq_left (not_lt.mp h), BitVec.ofNat_toNat, BitVec.setWidth_eq]

theorem aluMaxN_eq_ofNat_max (a b : BitVec w) : aluMaxN a b = BitVec.ofNat w (max a.toNat b.toNat) := by
  unfold aluMaxN
  split
  next h => rw [max_eq_right h.le, BitVec.ofNat_toNat, BitVec.setWidth_eq]
  next h => rw [max_eq_left (not_lt.mp h), BitVec.ofNat_toNat, BitVec.setWidth_eq]

/-- The least number and its negative are one bit vector: the quotient of the least number by −1 needs no case of its own. -/
theorem ofInt_neg_least (hw : 0 < w) : BitVec.ofInt w (2 ^ (w - 1)) = BitVec.ofInt w (-2 ^ (w - 1)) := by
  have h : (2 : Int) ^ (w - 1) = -2 ^ (w - 1) + ((2 ^ w : Nat) : Int) := by
    obtain ⟨n, rfl⟩ := Nat.exists_eq_add_of_lt hw
    push_cast [Nat.zero_add, Nat.add_sub_cancel]
    ring
  apply BitVec.eq_of_toInt_eq
  rw [BitVec.toInt_ofInt, BitVec.toInt_ofInt]
  conv_lhs => rw [h, Int.add_bmod_right]

theorem aluDivI_cases (hw : 0 < w) (a b : BitVec w) :
    aluDivI a b =
      if b.toInt = 0 then BitVec.allOnes w
      else if a.toInt = -2 ^ (w - 1) ∧ b.toInt = -1 then BitVec.ofInt w (-2 ^ (w - 1))
      else BitVec.ofInt w (a.toInt.tdiv b.toInt) := by
  unfold aluDivI
  by_cases hb : b = 0#w
  · simp [hb]
  · have hi : b.toInt ≠ 0 := by rwa [Ne, toInt_eq_zero]
    rw [if_neg hb, if_neg hi]
    split
    next h => rw [h.1, h.2, Int.tdiv_neg, Int.tdiv_one, neg_neg, ofInt_neg_least hw]
    next => rfl

theorem aluDivN_cases (a b : BitVec w) :
    aluDivN a b = if b.toNat = 0 then BitVec.allOnes w else BitVec.ofNat w (a.toNat / b.toNat) := by
  simp only [aluDivN, toNat_eq_zero]

theorem aluRemI_cases (a b : BitVec w) :
    aluRemI a b =
      if b.toInt = 0 then a
      else if a.toInt = -2 ^ (w - 1) ∧ b.toInt = -1 then 0
      else BitVec.ofInt w (a.toInt - a.toInt.tdiv b.toInt * b.toInt) := by
  unfold aluRemI
  by_cases hb : b = 0#w
  · simp [hb]
  · have hi : b.toInt ≠ 0 := by rwa [Ne, toInt_eq_zero]
    rw [if_neg hb, if_neg hi]
    split
    next h => rw [h.1, h.2, Int.tmod_neg, Int.tmod_one]; rfl
    next => rw [Int.tmod_def, Int.mul_comm]

theorem aluRemN_cases (a b : BitVec w) :
    aluRemN a b = if b.toNat = 0 then a else BitVec.ofNat w (a.toNat - a.toNat / b.toNat * b.toNat) := by
  simp only [aluRemN, toNat_eq_zero, Nat.mod_eq_sub_div_mul]

theorem aluSar_eq_ofInt_div (a b : BitVec w) : aluSar a b = BitVec.ofInt w (a.toInt / 2 ^ shiftCount b) := by
  rw [aluSar, BitVec.sshiftRight, Int.shiftRight_eq_div_pow]
  norm_cast

theorem aluRol_eq_rotateLeft (a b : BitVec w) : aluRol a b = a.rotateLeft (shiftCount b) := by
  rw [aluRol, BitVec.rotateLeft, BitVec.rotateLeftAux, shiftCount, Nat.mod_mod]

theorem condEq_eq_decide (a b : BitVec w) : condEq a b = decide (a = b) := rfl

theorem condNe_eq_decide (a b : BitVec w) : condNe a b = decide (a ≠ b) := by
  rw [condNe, bne, beq_eq_decide, decide_not]

theorem condTest_eq_decide (a b : BitVec w) : condTest a b = decide (a &&& b ≠ 0) := condNe_eq_decide _ _

theorem condNtest_eq_decide (a b : BitVec w) : condNtest a b = decide (a &&& b = 0) := rfl

end Alu

/-- The shift count of the per-thread forms is B[4:0] (R116). -/
theorem shiftCount_eq_extractLsb (b : Word) : shiftCount b = (b.extractLsb' 0 5).toNat := by
  rw [BitVec.extractLsb'_toNat, Nat.shiftRight_zero]
  rfl

/-! ### Instructions that are one call of a shared shape -/

/-- An instruction that runs a per-thread function of A and B computes it. -/
theorem computes2_of_exec {mk : PReg → PReg → Src → Instr} {f g : FEnv → Word → Word → Word}
    (hx : ∀ d a b s, exec (mk d a b) s = perThread (srcLen b) (fun2 d a b f) s) (hf : ∀ e x y, f e x y = g e x y) :
    computes2 mk g := by
  obtain rfl : f = g := by
    funext e x y
    exact hf e x y
  intro d a b s w hT hC ho
  rw [hx]
  cases b with
  | reg r =>
    exact perThread_writes hT hC _ (fun2 d a (.reg r) f) d rfl (fun e l => f e (l.getD 0 0) (l.getD 1 0)) (fun _ _ => rfl) ho
  | lit v => exact perThread_writes hT hC _ (fun2 d a (.lit v) f) d rfl (fun e l => f e (l.getD 0 0) v) (fun _ _ => rfl) ho

/-- An instruction that runs a per-thread compare sets mask bits to its condition. -/
theorem comparesX_of_exec {i : Instr} {m : Fin 16} {a : PReg} {b : Src} {f g : Word → Word → Bool}
    (hx : ∀ s, exec i s = compare m a b f s) (hf : ∀ x y, f x y = g x y) : comparesX i (srcLen b) m a b g := by
  obtain rfl : f = g := by
    funext x y
    exact hf x y
  intro s w hT hC ho
  rw [hx]
  exact compare_writes hT hC m a b f ho

/-- An instruction that runs a uniform function of A and B computes it. -/
theorem computesU_of_exec {mk : SReg → SReg → USrc → Instr} {f g : DWord → DWord → DWord}
    (hx : ∀ d a b s, exec (mk d a b) s = uniform d a b f s) (hf : ∀ x y, f x y = g x y) : computesU mk g := by
  obtain rfl : f = g := by
    funext x y
    exact hf x y
  intro d a b s w hT hC hoff ho
  rw [hx]
  exact uniform_writes hT hC hoff d a b f ho

/-- An instruction that runs a uniform compare writes 1 where its condition holds, and else 0. -/
theorem computesU_of_compareU {mk : SReg → SReg → USrc → Instr} {f : DWord → DWord → Bool} {c : DWord → DWord → Prop}
    [∀ x y, Decidable (c x y)] (hx : ∀ d a b s, exec (mk d a b) s = compareU d a b f s)
    (hf : ∀ x y, f x y = decide (c x y)) : computesU mk fun x y => if c x y then 1 else 0 := by
  refine computesU_of_exec hx fun x y => ?_
  rw [hf]
  by_cases h : c x y <;> simp [h]

/-! ### The obligations -/

/-- Settles O1: each function of IARITH and IMINMAX is the ALU's, which the lemmas above bring to the spec's form. -/
theorem integerArithmeticComputes : Obligations.IntegerArithmeticComputes := by
  unfold Obligations.IntegerArithmeticComputes
  refine ⟨⟨?iadd, ?isub, ?imul, ?imulhI, ?imulhN, ?iaddsI, ?iaddsN, ?iabsd⟩,
    ?iminI, ?iminN, ?imaxI, ?imaxN, ?idivI, ?idivN, ?iremI, ?iremN⟩
  case iadd => exact computes2_of_exec (fun _ _ _ _ => rfl) fun _ _ _ => rfl
  case isub => exact computes2_of_exec (fun _ _ _ _ => rfl) fun _ _ _ => rfl
  case imul => exact computes2_of_exec (fun _ _ _ _ => rfl) fun _ _ _ => rfl
  case imulhI => exact computes2_of_exec (fun _ _ _ _ => rfl) fun _ _ _ => rfl
  case imulhN => exact computes2_of_exec (fun _ _ _ _ => rfl) fun _ _ _ => rfl
  case iaddsI => exact computes2_of_exec (fun _ _ _ _ => rfl) fun _ => aluAddsI_eq_ofInt_max_min
  case iaddsN => exact computes2_of_exec (fun _ _ _ _ => rfl) fun _ => aluAddsN_eq_ofNat_min
  case iabsd => exact computes2_of_exec (fun _ _ _ _ => rfl) fun _ => aluAbsd_eq_ofInt_abs
  case iminI => exact computes2_of_exec (fun _ _ _ _ => rfl) fun _ => aluMinI_eq_ofInt_min
  case iminN => exact computes2_of_exec (fun _ _ _ _ => rfl) fun _ => aluMinN_eq_ofNat_min
  case imaxI => exact computes2_of_exec (fun _ _ _ _ => rfl) fun _ => aluMaxI_eq_ofInt_max
  case imaxN => exact computes2_of_exec (fun _ _ _ _ => rfl) fun _ => aluMaxN_eq_ofNat_max
  case idivI => exact computes2_of_exec (fun _ _ _ _ => rfl) fun _ => aluDivI_cases (by decide)
  case idivN => exact computes2_of_exec (fun _ _ _ _ => rfl) fun _ => aluDivN_cases
  case iremI => exact computes2_of_exec (fun _ _ _ _ => rfl) fun _ => aluRemI_cases
  case iremN => exact computes2_of_exec (fun _ _ _ _ => rfl) fun _ => aluRemN_cases

/-- Settles O2: the shift count is B[4:0], SAR is a division by a power of two rounded down, and ROL a rotation. -/
theorem logicComputesItsFunction : Obligations.LogicComputesItsFunction := by
  unfold Obligations.LogicComputesItsFunction
  simp only [← shiftCount_eq_extractLsb]
  refine ⟨?and, ?or, ?xor, ?andn, ?shl, ?shr, ?sar, ?rol⟩
  case and => exact computes2_of_exec (fun _ _ _ _ => rfl) fun _ _ _ => rfl
  case or => exact computes2_of_exec (fun _ _ _ _ => rfl) fun _ _ _ => rfl
  case xor => exact computes2_of_exec (fun _ _ _ _ => rfl) fun _ _ _ => rfl
  case andn => exact computes2_of_exec (fun _ _ _ _ => rfl) fun _ _ _ => rfl
  case shl => exact computes2_of_exec (fun _ _ _ _ => rfl) fun _ _ _ => rfl
  case shr => exact computes2_of_exec (fun _ _ _ _ => rfl) fun _ _ _ => rfl
  case sar => exact computes2_of_exec (fun _ _ _ _ => rfl) fun _ => aluSar_eq_ofInt_div
  case rol => exact computes2_of_exec (fun _ _ _ _ => rfl) fun _ => aluRol_eq_rotateLeft

/-- Settles O6: each compare's condition is the spec's; ICMP sets the active threads' bits to it, UCMP writes it as 1 or 0. -/
theorem integerComparisonsWriteTheirResult : Obligations.IntegerComparisonsWriteTheirResult := by
  unfold Obligations.IntegerComparisonsWriteTheirResult
  refine ⟨fun m a b => ⟨?icmpEq, ?icmpNe, ?icmpLtI, ?icmpLeI, ?icmpLtN, ?icmpLeN, ?icmpTest, ?icmpNtest⟩,
    ?ucmpEq, ?ucmpNe, ?ucmpLtI, ?ucmpLeI, ?ucmpLtN, ?ucmpLeN, ?ucmpTest, ?ucmpNtest⟩
  case icmpEq => exact comparesX_of_exec (fun _ => rfl) condEq_eq_decide
  case icmpNe => exact comparesX_of_exec (fun _ => rfl) condNe_eq_decide
  case icmpLtI => exact comparesX_of_exec (fun _ => rfl) fun _ _ => rfl
  case icmpLeI => exact comparesX_of_exec (fun _ => rfl) fun _ _ => rfl
  case icmpLtN => exact comparesX_of_exec (fun _ => rfl) fun _ _ => rfl
  case icmpLeN => exact comparesX_of_exec (fun _ => rfl) fun _ _ => rfl
  case icmpTest => exact comparesX_of_exec (fun _ => rfl) condTest_eq_decide
  case icmpNtest => exact comparesX_of_exec (fun _ => rfl) condNtest_eq_decide
  case ucmpEq => exact computesU_of_compareU (fun _ _ _ _ => rfl) condEq_eq_decide
  case ucmpNe => exact computesU_of_compareU (fun _ _ _ _ => rfl) condNe_eq_decide
  case ucmpLtI => exact computesU_of_compareU (fun _ _ _ _ => rfl) fun _ _ => rfl
  case ucmpLeI => exact computesU_of_compareU (fun _ _ _ _ => rfl) fun _ _ => rfl
  case ucmpLtN => exact computesU_of_compareU (fun _ _ _ _ => rfl) fun _ _ => rfl
  case ucmpLeN => exact computesU_of_compareU (fun _ _ _ _ => rfl) fun _ _ => rfl
  case ucmpTest => exact computesU_of_compareU (fun _ _ _ _ => rfl) condTest_eq_decide
  case ucmpNtest => exact computesU_of_compareU (fun _ _ _ _ => rfl) condNtest_eq_decide

end Sys2Proof.Proofs

/-! SUPPORT. The float comparison FCMP (R137): the conditions of the model, which read the f32 bits as a number, are those of the
spec on the fields of the word. -/

namespace Sys2Proof.Proofs

open Sys2Proof.Machine Sys2Proof.Laws

/-! ### The fields of an f32 word -/

/-- Decoding at f32, with the widths of its fields as numerals. -/
theorem fdec_f32 (n : Nat) :
    fdec .f32 n =
      let neg := decide (n / 2 ^ 31 % 2 = 1)
      let e : Nat := n / 2 ^ 23 % 2 ^ 8
      let m : Nat := n % 2 ^ 23
      if decide (e = 2 ^ 8 - 1) then (if m = 0 then .inf neg else .nan neg m 23)
      else if e = 0 then .fin neg m (1 - 127 - 23) else .fin neg (2 ^ 23 + m) ((e : Int) - 127 - 23) := rfl

/-- The f32 bits that stand for a NaN: all ones in the exponent, and a fraction (R29). -/
theorem isNanBits_f32_iff (n : Nat) : isNanBits .f32 n = true ↔ n / 2 ^ 23 % 2 ^ 8 = 2 ^ 8 - 1 ∧ n % 2 ^ 23 ≠ 0 := by
  simp only [isNanBits, fdec_f32, decide_eq_true_eq]
  split_ifs with hexp hfrac hzero
  · exact iff_of_false Bool.false_ne_true fun ⟨_, hne⟩ => hne hfrac
  · exact iff_of_true rfl ⟨hexp, hfrac⟩
  all_goals exact iff_of_false Bool.false_ne_true fun ⟨hall, _⟩ => hexp hall

/-- The model's test of the bits is the spec's test of the fields. -/
theorem isNanBits_f32 (x : Word) : isNanBits .f32 x.toNat = nanF x := by
  have hexp : x.extractLsb' 23 8 = 0xFF ↔ x.toNat / 2 ^ 23 % 2 ^ 8 = 2 ^ 8 - 1 := by
    rw [← BitVec.toNat_inj, BitVec.extractLsb'_toNat, Nat.shiftRight_eq_div_pow]
    rfl
  have hfrac : x.extractLsb' 0 23 = 0 ↔ x.toNat % 2 ^ 23 = 0 := by
    rw [← BitVec.toNat_inj, BitVec.extractLsb'_toNat, Nat.shiftRight_zero]
    rfl
  rw [Bool.eq_iff_iff, isNanBits_f32_iff, nanF, Bool.and_eq_true, beq_iff_eq, bne_iff_ne, hexp, ne_eq, ne_eq, hfrac]

theorem magBits_f32 (x : Word) : magBits .f32 x.toNat = (x.extractLsb' 0 31).toNat := by
  rw [BitVec.extractLsb'_toNat, Nat.shiftRight_zero]
  rfl

theorem signOf_f32 (x : Word) : signOf .f32 x.toNat = x.getLsbD 31 := by
  rw [BitVec.getLsbD, Nat.testBit_eq_decide_div_mod_eq]
  rfl

/-- The key of the model's comparisons is the order of values, in which −0 and +0 are equal. -/
theorem valueKey_f32 (x : Word) : valueKey .f32 x.toNat = orderF x := by
  rw [valueKey, orderF, signOf_f32, magBits_f32]

/-! ### The conditions of FCMP -/

theorem fcond_eq (x y : Word) :
    fcond .eq x.toNat y.toNat = (!nanF x && !nanF y && decide (orderF x = orderF y)) := by
  simp only [fcond, isNanBits_f32, valueKey_f32, Bool.not_or, beq_eq_decide]

theorem fcond_ne (x y : Word) :
    fcond .ne x.toNat y.toNat = (nanF x || nanF y || decide (orderF x ≠ orderF y)) := by
  simp only [fcond, isNanBits_f32, valueKey_f32, bne, beq_eq_decide, decide_not]

theorem fcond_lt (x y : Word) :
    fcond .lt x.toNat y.toNat = (!nanF x && !nanF y && decide (orderF x < orderF y)) := by
  simp only [fcond, isNanBits_f32, valueKey_f32, Bool.not_or]

theorem fcond_le (x y : Word) :
    fcond .le x.toNat y.toNat = (!nanF x && !nanF y && decide (orderF x ≤ orderF y)) := by
  simp only [fcond, isNanBits_f32, valueKey_f32, Bool.not_or]

theorem fcond_unord (x y : Word) : fcond .unord x.toNat y.toNat = (nanF x || nanF y) := by
  rw [fcond, isNanBits_f32, isNanBits_f32]

theorem fcond_ord (x y : Word) : fcond .ord x.toNat y.toNat = !(nanF x || nanF y) := by
  rw [fcond, isNanBits_f32, isNanBits_f32]

theorem fcond_isnan (x y : Word) : fcond .isnan x.toNat y.toNat = nanF x := isNanBits_f32 x

theorem fcond_isinf (x y : Word) : fcond .isinf x.toNat y.toNat = (x.extractLsb' 0 31 == 0x7F800000) := by
  rw [fcond, magBits_f32, beq_eq_decide, beq_eq_decide, decide_eq_decide, ← BitVec.toNat_inj]
  rfl

/-! ### The obligation -/

/-- Settles O11: each function of FCMP is the shared compare, whose condition on the bits is the spec's on the f32 values. -/
theorem fcmpComparesActiveThreads : Obligations.FcmpComparesActiveThreads := by
  unfold Obligations.FcmpComparesActiveThreads
  refine ⟨fun m a b => ⟨?eq, ?ne, ?lt, ?le, ?unord, ?ord⟩, fun m a => ⟨?isnan, ?isinf⟩⟩
  case eq => exact comparesX_of_exec (fun _ => rfl) fcond_eq
  case ne => exact comparesX_of_exec (fun _ => rfl) fcond_ne
  case lt => exact comparesX_of_exec (fun _ => rfl) fcond_lt
  case le => exact comparesX_of_exec (fun _ => rfl) fcond_le
  case unord => exact comparesX_of_exec (fun _ => rfl) fcond_unord
  case ord => exact comparesX_of_exec (fun _ => rfl) fcond_ord
  case isnan => exact comparesX_of_exec (b := .reg .z) (fun _ => rfl) fcond_isnan
  case isinf => exact comparesX_of_exec (b := .reg .z) (fun _ => rfl) fcond_isinf

end Sys2Proof.Proofs
